-- ==== Sys2Proof/Word.lean ====
section
/-! DEFINITION. Words of the module: widths the spec gives, and the plainest operations on them. -/

namespace Sys2Proof

/-- A byte, the smallest unit of memory and of a scratchpad row. -/
abbrev Byte := BitVec 8

/-- One lane of a vector register (R25). -/
abbrev W32 := BitVec 32

/-- A scalar, a system register, an instruction word (R25, R45). -/
abbrev W64 := BitVec 64

/-- One bit per lane of a gang (R16): active masks, predicates, live masks. -/
abbrev LaneMask := BitVec 32

/-- Bit `i` of a natural number. -/
def bitAt (n i : Nat) : Bool := n / 2 ^ i % 2 == 1

/-- Bits `lo + len - 1` to `lo` of a natural number. -/
def field (n lo len : Nat) : Nat := n / 2 ^ lo % 2 ^ len

/-- One for true, zero for false. -/
def b2n (b : Bool) : Nat := if b then 1 else 0

/-- Two's-complement reading of the low `w` bits of `n`. -/
def signedOf (w n : Nat) : Int :=
  let m := n % 2 ^ w
  if m < 2 ^ (w - 1) then (m : Int) else (m : Int) - (2 ^ w : Nat)

/-- The low `w` bits of an integer. -/
def wrapTo (w : Nat) (i : Int) : Nat := (i % ((2 ^ w : Nat) : Int)).toNat

/-- The largest multiple of `k` not above `n`. -/
def alignDown (n k : Nat) : Nat := n / k * k

/-- Little-endian value of a byte list (R2). -/
def ofBytes : List Byte → Nat
  | [] => 0
  | b :: bs => b.toNat + 256 * ofBytes bs

/-- The `k` low bytes of a value, little-endian (R2). -/
def toBytes : Nat → Nat → List Byte
  | 0, _ => []
  | k + 1, n => BitVec.ofNat 8 n :: toBytes k (n / 256)

end Sys2Proof
end

