-- ==== Sys2Proof/Syntax.lean ====
section
/-! DEFINITION. The instructions and machine steps of the opcode table, one constructor a row.
Words come first, in the order of the opcode map (R66), then the restricted halves of paired words (R65),
then the steps that no word causes. -/

namespace Sys2Proof

/-- The fields every full word carries (R45, R46): switch bit, uniform bit, guard negate, guard predicate. -/
structure Hdr where
  sw : Bool
  uni : Bool
  neg : Bool
  g : Nat
  deriving DecidableEq, Repr, Inhabited

/-- A source operand (R28). -/
inductive Src where
  | v (n : Nat) | s (n : Nat) | q (n : Nat)
  | zero | laneid | sliceid | gangid | blockid | popid | lineage | clk
  deriving DecidableEq, Repr, Inhabited

/-- A destination operand (R28). -/
inductive Dst where
  | v (n : Nat) | s (n : Nat) | q (n : Nat) | zero
  deriving DecidableEq, Repr, Inhabited

/-- Operation types of the integer family (R55). -/
inductive IntTy where
  | i32 | n32 | b32 | i64 | n64 | b64
  deriving DecidableEq, Repr, Inhabited

/-- Destination types of `cvt` (R104). -/
inductive CvtTy where
  | i32 | n32 | b32 | i64 | n64 | b64 | f32 | i8 | n8 | i16 | n16
  deriving DecidableEq, Repr, Inhabited

/-- Roundings (R56). -/
inductive Rnd where
  | rne | rz | ru | rd
  deriving DecidableEq, Repr, Inhabited

/-- Integer comparisons (R102). -/
inductive Cmp where
  | eq | ne | lt | le | gt | ge
  deriving DecidableEq, Repr, Inhabited

/-- Float comparisons (R109). -/
inductive FCmp where
  | eq | ne | lt | le | gt | ge | num | nan
  deriving DecidableEq, Repr, Inhabited

/-- Modes of `fcvt` (R110), in the order of their codes. -/
inductive FMode where
  | toI32 | toN32 | toI64 | toN64 | toF16 | toBf16 | ofF16 | ofBf16 | toE4 | toE5 | ofE4 | ofE5
  deriving DecidableEq, Repr, Inhabited

/-- Element formats of `fdot` (R261). -/
inductive DotFmt where
  | f16 | bf16 | f8e4 | f8e5 | i8 | i4
  deriving DecidableEq, Repr, Inhabited

/-- Modes of `shfl` (R112). -/
inductive ShMode where
  | idx | up | down | xor
  deriving DecidableEq, Repr, Inhabited

/-- The votes that write a predicate (R113). -/
inductive VoteKind where
  | any | all | eq
  deriving DecidableEq, Repr, Inhabited

/-- Operations of `redux` (R113). -/
inductive RedOp where
  | add | minI | maxI | minN | maxN | and | or | xor
  deriving DecidableEq, Repr, Inhabited

/-- Widths of line and scratchpad accesses (R86). -/
inductive MemW where
  | b8 | b16 | b32 | b64 | b128 | i8 | i16
  deriving DecidableEq, Repr, Inhabited

/-- Scopes (R66, R151). -/
inductive Scope where
  | slice | gang | block | core | field | die | device | system
  deriving DecidableEq, Repr, Inhabited

/-- Atomic operations (R207). -/
inductive AOp where
  | add | addb | incw | decw | min | max | and | or | xor | exch | cas | fadd
  deriving DecidableEq, Repr, Inhabited

/-- Atomic types (R207). -/
inductive ATy where
  | n32 | i32 | n64 | i64
  deriving DecidableEq, Repr, Inhabited

/-- The count of `bar.init` (R197). -/
inductive BarCount where
  | imm (n : BitVec 16) | reg (k : Src)
  deriving DecidableEq, Repr, Inhabited

/-- Levels of `cread` and `cancel` (R313). -/
inductive Level where
  | launch | graph | stage | job
  deriving DecidableEq, Repr, Inhabited

/-- Restricted opcodes (R65). -/
inductive ROp where
  | nop | mov | add | sub | mul | minI | maxI | minN | maxN | and | or | xor | shl | shr | sar
  | fadd | fsub | fmul | fmin | fmax
  | movi | addI | subI | andI | orI | xorI | shlI | shrI | sarI
  deriving DecidableEq, Repr, Inhabited

/-- The operand fields of a restricted half (R61). -/
structure HArgs where
  hd : Nat
  hs : Nat
  hg : Nat
  hm : Nat
  deriving DecidableEq, Repr, Inhabited

/-- A restricted half: its opcode and fields (R61). -/
structure Half where
  op : ROp
  x : HArgs
  deriving DecidableEq, Repr, Inhabited

/-- Names an issue group: its core (physical), its gang slot (16 for each scheduler, R1), its lowest slice. -/
structure GroupKey where
  core : Nat
  slot : Nat
  slice : Nat
  deriving DecidableEq, Repr, Inhabited

/-- What the gleaner finds in the entry it reads (R139, R140). -/
inductive ArrayErr where
  | none | single | uncorrectable
  deriving DecidableEq, Repr, Inhabited

/-- The entry a gleaner visit meets (R140): a register granule, a row or a tile slot by its number on a core; of a line in the L2,
whether it is dirty. -/
inductive ArrayLoc where
  | reg (core gran : Nat) | entry (core eid : Nat) | row (core row : Nat) | tile (core slot : Nat)
  | held (core idx : Nat) | l2 (line : Nat) (dirty : Bool) | memory (line : Nat) | ownerless (core : Nat)
  deriving DecidableEq, Repr, Inhabited

/-- What a retirement takes away (R342). -/
inductive Retired where
  | channel | direction | fld (f : Nat)
  deriving DecidableEq, Repr, Inhabited

/-- The end of a flit's replay on a peer port, and whether its CRC was good (R385). -/
structure PeerReplay where
  port : Nat
  good : Bool
  deriving DecidableEq, Repr, Inhabited

/-- Who asks Isalon (R354, R368): the operator, or a virtual interface. -/
inductive Requester where
  | operator | vi (v : Nat)
  deriving DecidableEq, Repr, Inhabited

/-- The rows of the opcode table. -/
inductive Instr where
  -- integer and address, register form (R100 to R104)
  | add (h : Hdr) (t : IntTy) (sat : Bool) (d : Dst) (a b : Src)
  | sub (h : Hdr) (t : IntTy) (sat : Bool) (d : Dst) (a b : Src)
  | mul (h : Hdr) (t : IntTy) (d : Dst) (a b : Src)
  | mulh (h : Hdr) (t : IntTy) (d : Dst) (a b : Src)
  | mad (h : Hdr) (t : IntTy) (d : Dst) (a b c : Src)
  | min (h : Hdr) (t : IntTy) (d : Dst) (a b : Src)
  | max (h : Hdr) (t : IntTy) (d : Dst) (a b : Src)
  | abs (h : Hdr) (t : IntTy) (d : Dst) (a : Src)
  | neg (h : Hdr) (t : IntTy) (d : Dst) (a : Src)
  | and (h : Hdr) (t : IntTy) (d : Dst) (a b : Src)
  | or (h : Hdr) (t : IntTy) (d : Dst) (a b : Src)
  | xor (h : Hdr) (t : IntTy) (d : Dst) (a b : Src)
  | not (h : Hdr) (t : IntTy) (d : Dst) (a : Src)
  | shl (h : Hdr) (t : IntTy) (d : Dst) (a b : Src)
  | shr (h : Hdr) (t : IntTy) (d : Dst) (a b : Src)
  | sar (h : Hdr) (t : IntTy) (d : Dst) (a b : Src)
  | rot (h : Hdr) (t : IntTy) (d : Dst) (a b : Src)
  | clz (h : Hdr) (t : IntTy) (d : Dst) (a : Src)
  | popc (h : Hdr) (t : IntTy) (d : Dst) (a : Src)
  | brev (h : Hdr) (t : IntTy) (d : Dst) (a : Src)
  | bfx (h : Hdr) (t : IntTy) (d : Dst) (a b : Src)
  | bfi (h : Hdr) (t : IntTy) (d : Dst) (a b c : Src)
  | sel (h : Hdr) (t : IntTy) (d : Dst) (a b : Src) (pc : Nat)
  | setp (h : Hdr) (t : IntTy) (cmp : Cmp) (pd : Nat) (a b : Src)
  | mov (h : Hdr) (t : IntTy) (d : Dst) (a : Src)
  | lea (h : Hdr) (t : IntTy) (sh : BitVec 3) (d : Dst) (a b : Src)
  | cvt (h : Hdr) (st : IntTy) (dt : CvtTy) (r : Rnd) (sat : Bool) (d : Dst) (a : Src)
  -- integer and address, immediate form
  | addImm (h : Hdr) (t : IntTy) (d : Dst) (a : Src) (imm : BitVec 27)
  | subImm (h : Hdr) (t : IntTy) (d : Dst) (a : Src) (imm : BitVec 27)
  | mulImm (h : Hdr) (t : IntTy) (d : Dst) (a : Src) (imm : BitVec 27)
  | minImm (h : Hdr) (t : IntTy) (d : Dst) (a : Src) (imm : BitVec 27)
  | maxImm (h : Hdr) (t : IntTy) (d : Dst) (a : Src) (imm : BitVec 27)
  | andImm (h : Hdr) (t : IntTy) (d : Dst) (a : Src) (imm : BitVec 27)
  | orImm (h : Hdr) (t : IntTy) (d : Dst) (a : Src) (imm : BitVec 27)
  | xorImm (h : Hdr) (t : IntTy) (d : Dst) (a : Src) (imm : BitVec 27)
  | shlImm (h : Hdr) (t : IntTy) (d : Dst) (a : Src) (imm : BitVec 27)
  | shrImm (h : Hdr) (t : IntTy) (d : Dst) (a : Src) (imm : BitVec 27)
  | sarImm (h : Hdr) (t : IntTy) (d : Dst) (a : Src) (imm : BitVec 27)
  | rotImm (h : Hdr) (t : IntTy) (d : Dst) (a : Src) (imm : BitVec 27)
  | bfxImm (h : Hdr) (t : IntTy) (d : Dst) (a : Src) (imm : BitVec 27)
  | movi (h : Hdr) (t : IntTy) (d : Dst) (imm : BitVec 27)
  | moviHi (h : Hdr) (d : Dst) (imm : BitVec 27)
  | leaImm (h : Hdr) (t : IntTy) (d : Dst) (a : Src) (imm : BitVec 27)
  | setpEqImm (h : Hdr) (t : IntTy) (pd : Nat) (a : Src) (imm : BitVec 27)
  | setpNeImm (h : Hdr) (t : IntTy) (pd : Nat) (a : Src) (imm : BitVec 27)
  | setpLtImm (h : Hdr) (t : IntTy) (pd : Nat) (a : Src) (imm : BitVec 27)
  | setpLeImm (h : Hdr) (t : IntTy) (pd : Nat) (a : Src) (imm : BitVec 27)
  | setpGtImm (h : Hdr) (t : IntTy) (pd : Nat) (a : Src) (imm : BitVec 27)
  | setpGeImm (h : Hdr) (t : IntTy) (pd : Nat) (a : Src) (imm : BitVec 27)
  -- predicates (R105)
  | pand (h : Hdr) (ia ib : Bool) (pd pa pb : Nat)
  | por (h : Hdr) (ia ib : Bool) (pd pa pb : Nat)
  | pxor (h : Hdr) (ia ib : Bool) (pd pa pb : Nat)
  | pnot (h : Hdr) (ia : Bool) (pd pa : Nat)
  | pmov (h : Hdr) (ia : Bool) (pd pa : Nat)
  -- FP32 (R107 to R110, R261)
  | fadd (h : Hdr) (r : Rnd) (d : Dst) (a b : Src)
  | fsub (h : Hdr) (r : Rnd) (d : Dst) (a b : Src)
  | fmul (h : Hdr) (r : Rnd) (d : Dst) (a b : Src)
  | ffma (h : Hdr) (r : Rnd) (d : Dst) (a b c : Src)
  | fmin (h : Hdr) (d : Dst) (a b : Src)
  | fmax (h : Hdr) (d : Dst) (a b : Src)
  | frcp (h : Hdr) (r : Rnd) (d : Dst) (a : Src)
  | frsq (h : Hdr) (r : Rnd) (d : Dst) (a : Src)
  | fsqrt (h : Hdr) (r : Rnd) (d : Dst) (a : Src)
  | fexp2 (h : Hdr) (r : Rnd) (d : Dst) (a : Src)
  | flog2 (h : Hdr) (r : Rnd) (d : Dst) (a : Src)
  | fsin (h : Hdr) (r : Rnd) (d : Dst) (a : Src)
  | fcos (h : Hdr) (r : Rnd) (d : Dst) (a : Src)
  | fsetp (h : Hdr) (cmp : FCmp) (pd : Nat) (a b : Src)
  | fcvt (h : Hdr) (r : Rnd) (mode : FMode) (sat : Bool) (d : Dst) (a : Src)
  | frnd (h : Hdr) (r : Rnd) (d : Dst) (a : Src)
  | fdot (h : Hdr) (r : Rnd) (fmt : DotFmt) (d : Dst) (a b c : Src)
  | faddImm (h : Hdr) (r : Rnd) (d : Dst) (a : Src) (imm : BitVec 27)
  | fsubImm (h : Hdr) (r : Rnd) (d : Dst) (a : Src) (imm : BitVec 27)
  | fmulImm (h : Hdr) (r : Rnd) (d : Dst) (a : Src) (imm : BitVec 27)
  | fminImm (h : Hdr) (d : Dst) (a : Src) (imm : BitVec 27)
  | fmaxImm (h : Hdr) (d : Dst) (a : Src) (imm : BitVec 27)
  -- cross-lane (R112, R113)
  | shfl (h : Hdr) (mode : ShMode) (wide : Bool) (d : Dst) (a : Nat) (b : Src)
  | shflImm (h : Hdr) (mode : ShMode) (wide : Bool) (d : Dst) (a : Nat) (lane : BitVec 5)
  | vote (h : Hdr) (kind : VoteKind) (pd pa : Nat)
  | voteBallot (h : Hdr) (d pa : Nat)
  | matchv (h : Hdr) (wide : Bool) (d a : Nat)
  | redux (h : Hdr) (op : RedOp) (d : Dst) (a : Nat)
  | bcast (h : Hdr) (wide : Bool) (d : Dst) (a : Nat) (b : Src)
  | bcastLow (h : Hdr) (wide : Bool) (d : Dst) (a : Nat)
  -- control (R116 to R124)
  | br (h : Hdr) (dest : BitVec 27)
  | bra (h : Hdr) (dest : BitVec 27) (ro : BitVec 18)
  | jmpi (h : Hdr) (a : Src)
  | call (h : Hdr) (dest : BitVec 27)
  | calli (h : Hdr) (a : Src)
  | ret (h : Hdr)
  | regang (h : Hdr)
  | land (h : Hdr)
  | exit (h : Hdr)
  | cede (h : Hdr)
  | nop (h : Hdr)
  | tryw (h : Hdr) (pd ln : Nat) (a : Src)
  -- lines (R78 to R95)
  | openR (h : Hdr) (ln pd : Nat) (a : Src)
  | openw (h : Hdr) (ln pd : Nat) (a : Src)
  | openz (h : Hdr) (ln pd : Nat) (a : Src)
  | openInv (h : Hdr) (ln pd : Nat) (a : Src)
  | reopen (h : Hdr) (ln : Nat)
  | close (h : Hdr) (ln : Nat)
  | ld (h : Hdr) (w : MemW) (d ln : Nat) (o : Src) (disp : BitVec 7)
  | st (h : Hdr) (w : MemW) (a ln : Nat) (o : Src) (disp : BitVec 7)
  | lprobe (h : Hdr) (d ln : Nat)
  -- scratchpad (R190 to R193)
  | lds (h : Hdr) (w : MemW) (d : Dst) (a : Src) (disp : BitVec 9)
  | sts (h : Hdr) (w : MemW) (a : Src) (disp : BitVec 9) (b : Nat)
  | ldsr (h : Hdr) (w : MemW) (d : Dst) (n : BitVec 2) (a : Src) (disp : BitVec 9)
  | stsr (h : Hdr) (w : MemW) (n : BitVec 2) (a : Src) (disp : BitVec 9) (b : Nat)
  | swz (h : Hdr) (d : Dst) (a b : Src) (g p : Nat)
  -- atomics (R207)
  | atom (h : Hdr) (sc : Scope) (op : AOp) (t : ATy) (d p : Nat) (a b c : Src)
  | red (h : Hdr) (sc : Scope) (op : AOp) (t : ATy) (a b c : Src)
  -- synchronisation (R197)
  | barInit (h : Hdr) (cl : Bool) (a : Src) (count : BarCount)
  | barArr (h : Hdr) (sc : Scope) (place : Option (BitVec 2)) (a : Src)
  | barWait (h : Hdr) (sc : Scope) (place : Option (BitVec 2)) (a : Src)
  | barTry (h : Hdr) (sc : Scope) (place : Option (BitVec 2)) (pd : Nat) (a b : Src)
  | fence (h : Hdr) (sc : Scope)
  | pub (h : Hdr) (sc : Scope)
  | acq (h : Hdr) (sc : Scope)
  -- matrix (R250)
  | mma (h : Hdr) (z : Bool) (qm af bf t a b : Nat)
  | mld (h : Hdr) (side bc : Bool) (qm af d : Nat) (a : Src)
  | mldV (h : Hdr) (d ln : Nat)
  | mldt (h : Hdr) (side bc : Bool) (qm af g p d : Nat) (a : Src)
  | mldr (h : Hdr) (side bc : Bool) (qm af : Nat) (n : BitVec 2) (d : Nat) (a : Src)
  | mst (h : Hdr) (qm t : Nat) (a : Src)
  | tzero (h : Hdr) (qm t : Nat)
  | tmovToVreg (h : Hdr) (qm d t : Nat)
  | tmovFromVreg (h : Hdr) (qm t a : Nat)
  | tmovTile (h : Hdr) (qm k j : Nat)
  | tcvt (h : Hdr) (qm af d t : Nat)
  | fmtset (h : Hdr) (a : Src)
  | fmtget (h : Hdr) (d : Nat)
  -- views (R271)
  | vreg (h : Hdr) (sd sa : Nat)
  | vdrop (h : Hdr) (sa : Nat)
  | vopen (h : Hdr) (ln pd pf : Nat) (a : Src)
  | vtagTag (h : Hdr) (d : Dst) (sa : Nat) (b : Src)
  | vtagGen (h : Hdr) (d : Dst) (sa : Nat) (b : Src)
  | vsync (h : Hdr) (pd sa : Nat) (b c : Src)
  -- queues (R325)
  | qbindDrill (h : Hdr) (q : Nat)
  | qbindHarrow (h : Hdr) (q : Nat)
  | qbindNone (h : Hdr) (q : Nat)
  | qpush (h : Hdr) (q : Nat) (a : Src)
  | qpop (h : Hdr) (d : Dst) (q : Nat)
  | qpopStat (h : Hdr) (d : Dst) (q : Nat)
  | qfence (h : Hdr) (mask : BitVec 4)
  | qfenceWait (h : Hdr) (mask : BitVec 4)
  -- work (R313, R283)
  | launch (h : Hdr) (sd sa : Nat)
  | cread (h : Hdr) (lv : Level) (d : Dst) (sa : Nat)
  | cancel (h : Hdr) (lv : Level) (sa : Nat)
  | amsend (h : Hdr) (pd : Nat) (a b : Src) (c : Nat)
  | resamp (h : Hdr) (pd : Nat) (a : Src)
  -- system and debug (R142 to R145, R372)
  | trap (h : Hdr) (a : Src) (code : BitVec 8)
  | tret (h : Hdr)
  | tretSkip (h : Hdr)
  | sread (h : Hdr) (d : Dst) (n : BitVec 9)
  | swrite (h : Hdr) (n : BitVec 9) (a : Src)
  | halt (h : Hdr)
  | brk (h : Hdr) (code : BitVec 8)
  | mark (h : Hdr) (tag : BitVec 8) (a : Src)
  -- privileged allotment (R355)
  | placeld (h : Hdr) (pd sa sb : Nat)
  | quota (h : Hdr) (pd sa sb : Nat)
  | quotaRelease (h : Hdr) (pd sa sb : Nat)
  | fallowHalt (h : Hdr) (pd sa : Nat)
  | fallowResume (h : Hdr) (pd sa : Nat)
  | fallowStart (h : Hdr) (pd sa : Nat)
  | fallowStop (h : Hdr) (pd sa : Nat)
  -- paired words, by the operation of half 0 (R61 to R65)
  | pairNop (sw : Bool) (x : HArgs) (y : Half)
  | pairMov (sw : Bool) (x : HArgs) (y : Half)
  | pairAdd (sw : Bool) (x : HArgs) (y : Half)
  | pairSub (sw : Bool) (x : HArgs) (y : Half)
  | pairMul (sw : Bool) (x : HArgs) (y : Half)
  | pairMinI32 (sw : Bool) (x : HArgs) (y : Half)
  | pairMaxI32 (sw : Bool) (x : HArgs) (y : Half)
  | pairMinN32 (sw : Bool) (x : HArgs) (y : Half)
  | pairMaxN32 (sw : Bool) (x : HArgs) (y : Half)
  | pairAnd (sw : Bool) (x : HArgs) (y : Half)
  | pairOr (sw : Bool) (x : HArgs) (y : Half)
  | pairXor (sw : Bool) (x : HArgs) (y : Half)
  | pairShl (sw : Bool) (x : HArgs) (y : Half)
  | pairShr (sw : Bool) (x : HArgs) (y : Half)
  | pairSar (sw : Bool) (x : HArgs) (y : Half)
  | pairFadd (sw : Bool) (x : HArgs) (y : Half)
  | pairFsub (sw : Bool) (x : HArgs) (y : Half)
  | pairFmul (sw : Bool) (x : HArgs) (y : Half)
  | pairFmin (sw : Bool) (x : HArgs) (y : Half)
  | pairFmax (sw : Bool) (x : HArgs) (y : Half)
  | pairMovi (sw : Bool) (x : HArgs) (y : Half)
  | pairAddImm (sw : Bool) (x : HArgs) (y : Half)
  | pairSubImm (sw : Bool) (x : HArgs) (y : Half)
  | pairAndImm (sw : Bool) (x : HArgs) (y : Half)
  | pairOrImm (sw : Bool) (x : HArgs) (y : Half)
  | pairXorImm (sw : Bool) (x : HArgs) (y : Half)
  | pairShlImm (sw : Bool) (x : HArgs) (y : Half)
  | pairShrImm (sw : Bool) (x : HArgs) (y : Half)
  | pairSarImm (sw : Bool) (x : HArgs) (y : Half)
  -- writes of system registers with a behaviour of their own (R144 words)
  | trmaskWrite (h : Hdr) (a : Src)
  | freezeWrite (h : Hdr) (a : Src)
  | shoot1Write (h : Hdr) (a : Src)
  | shoot2Write (h : Hdr) (a : Src)
  | pt1Write (h : Hdr) (a : Src)
  | pt2Write (h : Hdr) (al : BitVec 4) (a : Src)
  | virqWrite (h : Hdr) (a : Src)
  | warmWrite (h : Hdr) (a : Src)
  -- steps that no word causes
  | trapRecordAppend (al : Nat)
  | tresResume (al hold : Nat)
  | tresSkip (al hold : Nat)
  | tresEndGroup (al hold : Nat)
  | tresEndLaunch (al hold : Nat)
  | lineArrival (core eid : Nat)
  | victimWriteback (core eid : Nat)
  | trywTimeout (k : GroupKey)
  | barTryTimeout (k : GroupKey)
  | atomicPerform (rid : Nat)
  | matrixResultWrite (pid : Nat)
  | harrowRebuild (die harrow al : Nat)
  | vsyncTimeout (k : GroupKey)
  | drillCopy (al bid : Nat)
  | drillFill (al bid : Nat)
  | promotion (k : GroupKey)
  | blockPlace (die al lid : Nat)
  | steal (die al lid : Nat)
  | launchComplete (al lid : Nat)
  | handlerSpawn (core al : Nat)
  | resampleComplete (al lid : Nat)
  | gateTimeout (al lid line : Nat)
  | preciseStop (k : GroupKey)
  | gleanerVisit (loc : ArrayLoc) (err : ArrayErr)
  | freezeMessage (core origin hops : Nat)
  | retirement (what : Retired)
  | door (v : Nat) (data : W64)
  | boot (addr : W64)
  | hostMemoryWrite (v off : Nat) (data : List Byte)
  | functionLevelReset (v : Nat)
  | powerLimit (watts : Nat)
  | cxlLinkDown (port : Nat)
  | peerFlitReplay (r : PeerReplay)
  | getMeasurements (who : Requester) (index : Nat) (nonce : Nat)
  | list (who : Requester)
  | read (who : Requester) (serial off len : Nat)
  | ack (who : Requester) (serial : Nat)
  | fixedLatencyResultWrite (k : GroupKey)
  | scratchpadAccessPerform (sid : Nat)
  | peerWrite (addr : Nat) (data : List Byte)
  | unassignedOpcode (w : W64)
  -- steps of the whole module at once
  | periodBoundary
  | feedbackWindow
  | batchDeal
  | epoch
  | pcSample
  | threshWindow
  | triggerFire
  | triggerSeal
  | capsuleGather
  | routeSwitch
  | coldReset
  | warmReset
  | coolantWarning
  | thermalFreeze
  deriving DecidableEq, Repr, Inhabited

end Sys2Proof
end

