-- ==== Sys2Proof/Config.lean ====
section
/-! DEFINITION. What a run leaves to its surroundings: the order of the machine's parties, and the free values. -/

namespace Sys2Proof

/-- What one turn of the machine does. `issue` lets one issue group issue its next word; `event` lets another
party of the machine act (assumption 1); `probe` finds out, for a sample, why a group's next word waits (R376); `hostRead` is a read of the host through BAR2 (R393); `idle` only lets cycles
pass. -/
inductive Action where
  | issue (k : GroupKey)
  | probe (k : GroupKey)
  | hostRead (v off n : Nat)
  | event (i : Instr)
  | idle
  deriving DecidableEq, Repr, Inhabited

/-- One turn: the core cycles that pass before it (assumption 2), what then acts, and which of the freedoms that the order of
accesses leaves (R173 to R181) it takes: 0 takes none (assumption 78). -/
structure Turn where
  dt : Nat
  act : Action
  lax : Nat
  deriving DecidableEq, Repr, Inhabited

/-- A turn that comes at once and takes no freedom. -/
def Turn.now (a : Action) : Turn := ⟨0, a, 0⟩

namespace Config

/-- The turns that follow those the state's agenda lists. The spec leaves the order of the parties open (R20, R173),
so nothing here constrains it (assumption 1). -/
opaque nextTurn : Nat → Turn

/-- Which of two values an early read takes (R98): one draw for each word's number, register and place (assumption 5). -/
opaque freeBit : Nat → Nat → Nat → Bool

/-- A free 64-bit value: the number of the step, which open value of the spec it stands for, an index among several. The
second argument is 0 for the order of write-backs (assumption 25), 1 for a byte under a broken promise (12), 2 for the
cause of an operator freeze (36), 3 for a ring whose TRHEAD is out of range (20), 4 for spill images (33), 5 for sampling
reasons (40), 6 for physical locations (41), 7 for capsule fields (42), 8 for the core that starts a thermal freeze (43),
9 for the signals of timing (21), 10 for the bytes captured of a crown that has no mapping (79), 11 for the image of a gang slot in a save area (14),
12 for the bytes of a host read that nothing answers (74). -/
opaque freeWord : Nat → Nat → Nat → W64

/-- The port that firmware assigns a peer module, modulo 8 (R385; assumption 30). -/
opaque peerPort : Nat → Nat

/-- The signature of the device key over a message, r then s, 96 bytes (R354, R365). The key is never readable
(R395), so the value is free (assumption 17). -/
opaque signature : List Byte → List Byte

end Config

end Sys2Proof
end

