-- ==== Sys2Proof/WellFormed.lean ====
section
/-! DEFINITION. Which instruction terms stand for a word of the spec: every field in its range, and every check of
R73 that rests on the word alone (checks 4 to 8). Steps that no word causes have no word and are not well formed. -/

namespace Sys2Proof

def IntTy.wide : IntTy → Bool
  | .i32 | .n32 | .b32 => false
  | .i64 | .n64 | .b64 => true

/-- Vector operands of 64-bit types name even registers (R26). -/
def IntTy.al (t : IntTy) : Nat := if t.wide then 2 else 1

/-- Width in bits of the operation type (R55). -/
def IntTy.bits (t : IntTy) : Nat := if t.wide then 64 else 32

def CvtTy.wide : CvtTy → Bool
  | .i64 | .n64 | .b64 => true
  | _ => false

def CvtTy.al (t : CvtTy) : Nat := if t.wide then 2 else 1

def CvtTy.isF32 : CvtTy → Bool
  | .f32 => true
  | _ => false

def ATy.wide : ATy → Bool
  | .n32 | .i32 => false
  | .n64 | .i64 => true

def ATy.al (t : ATy) : Nat := if t.wide then 2 else 1

/-- Atomic operations with a compare value or a bound in C (R207). -/
def AOp.usesC : AOp → Bool
  | .addb | .incw | .decw | .cas => true
  | _ => false

/-- Atomic operations that write a predicate (R207). -/
def AOp.usesP : AOp → Bool
  | .addb | .cas => true
  | _ => false

/-- Operation and type pairs that R207 accepts. -/
def AOp.okTy (o : AOp) (t : ATy) : Bool :=
  match o with
  | .addb | .incw | .decw => !t.wide
  | .fadd => t == .n32
  | _ => true

/-- Register alignment that a width of R86 asks of the data register. -/
def MemW.al : MemW → Nat
  | .b64 => 2
  | .b128 => 4
  | _ => 1

/-- Widths that stores accept (R86). -/
def MemW.okStore : MemW → Bool
  | .i8 | .i16 => false
  | _ => true

/-- A vector register number with the given alignment (R26, R28). -/
def vecOk (al n : Nat) : Bool := n < 384 && n % al == 0

/-- A source that R28 allows, vector registers aligned. -/
def Src.ok (al : Nat) : Src → Bool
  | .v n => vecOk al n
  | .s n => n < 64
  | .q n => n < 4
  | _ => true

/-- A 64-bit address or data operand: a scalar or an even vector register (R78, R144). -/
def Src.okAddr : Src → Bool
  | .v n => vecOk 2 n
  | .s n => n < 64
  | _ => false

/-- A vector or scalar register (R260). -/
def Src.okVS : Src → Bool
  | .v n => n < 384
  | .s n => n < 64
  | _ => false

/-- A scalar or `zero` (R315). -/
def Src.okPush : Src → Bool
  | .s n => n < 64
  | .zero => true
  | _ => false

/-- A destination that R28 allows; scalars only where `sc` says so (R60). -/
def Dst.ok (al : Nat) (sc : Bool) : Dst → Bool
  | .v n => vecOk al n
  | .s n => n < 64 && sc
  | .q n => n < 4
  | .zero => true

/-- A scalar or an even vector register as destination. -/
def Dst.okPair : Dst → Bool
  | .v n => vecOk 2 n
  | .s n => n < 64
  | _ => false

def Hdr.ok (h : Hdr) : Bool := h.g < 8

/-- A header of a family that rejects the uniform bit (R59). -/
def Hdr.okNoU (h : Hdr) : Bool := h.g < 8 && !h.uni

/-- A shift count of the immediate form: 0 to w - 1 (R101). -/
def immCountOk (t : IntTy) (imm : BitVec 27) : Bool := imm.toNat < t.bits

/-- Bits 26:16 of an immediate are zero (R101, R103). -/
def imm16Ok (imm : BitVec 27) : Bool := imm.toNat < 2 ^ 16

/-- Element format codes of the matrix form (R53, R250). -/
def fmtOk (n : Nat) : Bool := n < 9 || n == 15

/-- Formats `mldt` accepts (R250). -/
def fmtTOk (n : Nat) : Bool := n < 4 || n == 6 || n == 15

/-- Formats `tcvt` accepts (R250, R259). -/
def fmtCOk (n : Nat) : Bool := n < 8 || n == 15

/-- A quarter mask that names a quarter (R250). -/
def qmOk (n : Nat) : Bool := 0 < n && n < 16

/-- Restricted opcodes with an immediate (R65). -/
def ROp.isImm : ROp → Bool
  | .movi | .addI | .subI | .andI | .orI | .xorI | .shlI | .shrI | .sarI => true
  | _ => false

/-- Immediate shift halves (R65). -/
def ROp.isShiftImm : ROp → Bool
  | .shlI | .shrI | .sarI => true
  | _ => false

/-- A restricted half's fields are in range and its unused fields zero (R61, R65). -/
def Half.ok (y : Half) : Bool :=
  y.x.hd < 128 && y.x.hs < 128 && y.x.hg < 8 && y.x.hm < 128 &&
  (match y.op with
   | .nop => y.x.hd == 0 && y.x.hs == 0 && y.x.hg == 0 && y.x.hm == 0
   | o => if o.isImm then y.x.hs == 0 && (!o.isShiftImm || y.x.hm < 32) else y.x.hm == 0)

/-- The integer family's shape: D and sources at one width. -/
def wfInt (h : Hdr) (t : IntTy) (d : Dst) (as : List Src) : Bool :=
  h.ok && d.ok t.al h.uni && as.all (Src.ok t.al)

/-- The float family's shape. -/
def wfFloat (h : Hdr) (d : Dst) (as : List Src) : Bool :=
  h.ok && d.ok 1 false && as.all (Src.ok 1)

/-- A paired word's shape. -/
def wfPair (o : ROp) (x : HArgs) (y : Half) : Bool := (Half.mk o x).ok && y.ok

/-- A system register write that keeps the plain meaning: the eight registers with a row of their own are excluded. -/
def plainSysReg (n : Nat) : Bool :=
  !(n == 0x180 || n == 0x184 || n == 0x08F || n == 0x1B0 || n == 0x08E || (0x1A0 ≤ n && n < 0x1B0) ||
    n == 0x086 || n == 0x1B2)

/-- The term stands for a word of the spec. -/
def WellFormed : Instr → Bool
  | .add h t _ d a b | .sub h t _ d a b | .mul h t d a b | .mulh h t d a b | .min h t d a b | .max h t d a b
  | .and h t d a b | .or h t d a b | .xor h t d a b | .shl h t d a b | .shr h t d a b | .sar h t d a b
  | .rot h t d a b | .bfx h t d a b => wfInt h t d [a, b]
  | .mad h t d a b c | .bfi h t d a b c => wfInt h t d [a, b, c]
  | .abs h t d a | .neg h t d a | .not h t d a | .clz h t d a | .popc h t d a | .brev h t d a | .mov h t d a =>
    wfInt h t d [a]
  | .sel h t d a b pc => wfInt h t d [a, b] && pc < 8
  | .setp h t _ pd a b => h.ok && pd < 8 && a.ok t.al && b.ok t.al
  | .lea h t _ d a b => h.ok && d.ok t.al h.uni && a.ok t.al && b.ok 1
  | .cvt h st dt r sat d a =>
    h.ok && d.ok dt.al h.uni && a.ok st.al && (dt.isF32 || r == .rne) && !(dt.isF32 && sat)
  | .addImm h t d a _ | .subImm h t d a _ | .mulImm h t d a _ | .minImm h t d a _ | .maxImm h t d a _
  | .andImm h t d a _ | .orImm h t d a _ | .xorImm h t d a _ | .leaImm h t d a _ => wfInt h t d [a]
  | .shlImm h t d a imm | .shrImm h t d a imm | .sarImm h t d a imm | .rotImm h t d a imm =>
    wfInt h t d [a] && immCountOk t imm
  | .bfxImm h t d a imm => wfInt h t d [a] && imm16Ok imm
  | .movi h t d _ => wfInt h t d [] && t != .b32 && t != .b64
  | .moviHi h d imm => wfInt h .b32 d [] && imm16Ok imm
  | .setpEqImm h t pd a _ | .setpNeImm h t pd a _ | .setpLtImm h t pd a _ | .setpLeImm h t pd a _
  | .setpGtImm h t pd a _ | .setpGeImm h t pd a _ => h.ok && pd < 8 && a.ok t.al
  | .pand h _ _ pd pa pb | .por h _ _ pd pa pb | .pxor h _ _ pd pa pb => h.ok && pd < 8 && pa < 8 && pb < 8
  | .pnot h _ pd pa | .pmov h _ pd pa => h.ok && pd < 8 && pa < 8
  | .fadd h _ d a b | .fsub h _ d a b | .fmul h _ d a b | .fmin h d a b | .fmax h d a b => wfFloat h d [a, b]
  | .ffma h _ d a b c | .fdot h _ _ d a b c => wfFloat h d [a, b, c]
  | .frcp h _ d a | .frsq h _ d a | .fsqrt h _ d a | .fexp2 h _ d a | .flog2 h _ d a | .fsin h _ d a
  | .fcos h _ d a | .frnd h _ d a | .faddImm h _ d a _ | .fsubImm h _ d a _ | .fmulImm h _ d a _
  | .fminImm h d a _ | .fmaxImm h d a _ => wfFloat h d [a]
  | .fsetp h _ pd a b => h.ok && pd < 8 && a.ok 1 && b.ok 1
  | .fcvt h _ mode sat d a =>
    h.ok && d.ok (if mode == .toI64 || mode == .toN64 then 2 else 1) false && a.ok 1 &&
    (!sat || mode == .toF16 || mode == .toBf16 || mode == .toE4 || mode == .toE5)
  | .shfl h _ w d a b | .bcast h w d a b =>
    h.okNoU && d.ok (if w then 2 else 1) false && vecOk (if w then 2 else 1) a && b.ok 1
  | .shflImm h _ w d a _ | .bcastLow h w d a =>
    h.okNoU && d.ok (if w then 2 else 1) false && vecOk (if w then 2 else 1) a
  | .vote h _ pd pa => h.okNoU && pd < 8 && pa < 8
  | .voteBallot h d pa => h.okNoU && vecOk 1 d && pa < 8
  | .matchv h w d a => h.okNoU && vecOk 1 d && vecOk (if w then 2 else 1) a
  | .redux h _ d a => h.okNoU && d.ok 1 false && vecOk 1 a
  | .br h _ | .bra h _ _ | .call h _ | .ret h | .land h | .exit h | .cede h | .nop h => h.okNoU
  | .regang h => h.okNoU && h.g == 7 && !h.neg
  | .jmpi h a | .calli h a => h.okNoU && a.okAddr
  | .tryw h pd ln a => h.okNoU && pd < 8 && ln < 16 && a.ok 1
  | .openR h ln pd a | .openw h ln pd a | .openz h ln pd a | .openInv h ln pd a =>
    h.okNoU && ln < 16 && pd < 8 && a.okAddr
  | .reopen h ln | .close h ln => h.okNoU && ln < 16
  | .ld h w d ln o _ => h.okNoU && vecOk w.al d && ln < 16 && o.ok 1
  | .st h w a ln o _ => h.okNoU && w.okStore && vecOk w.al a && ln < 16 && o.ok 1
  | .lprobe h d ln => h.okNoU && vecOk 2 d && ln < 16
  | .lds h w d a _ => h.ok && d.ok w.al false && a.ok 1
  | .sts h w a _ b => h.ok && w.okStore && a.ok 1 && vecOk w.al b
  | .ldsr h w d _ a _ => h.ok && d.ok w.al false && a.ok 1
  | .stsr h w _ a _ b => h.ok && w.okStore && a.ok 1 && vecOk w.al b
  | .swz h d a b g p => h.ok && d.ok 1 false && a.ok 1 && b.ok 1 && 2 ≤ g && g ≤ 6 && p < 4
  | .atom h _ op t d p a b c =>
    h.ok && op.okTy t && vecOk t.al d && p < 8 && (p == 7 || op.usesP) && a.okAddr && b.ok t.al &&
    (if op.usesC then c.ok t.al else c == .zero)
  | .red h _ op t a b c =>
    h.ok && op.okTy t && a.okAddr && b.ok t.al && (if op.usesC then c.ok t.al else c == .zero)
  | .barInit h _ a count => h.ok && a.ok 1 && (match count with | .imm _ => true | .reg k => k.ok 1)
  | .barArr h _ _ a | .barWait h _ _ a => h.ok && a.ok 1
  | .barTry h _ _ pd a b => h.ok && pd < 8 && a.ok 1 && b.ok 1
  | .fence h _ | .pub h _ | .acq h _ => h.ok
  | .mma h _ qm af bf t a b => h.okNoU && qmOk qm && fmtOk af && fmtOk bf && t < 8 && vecOk 4 a && vecOk 4 b
  | .mld h side _ qm af d a => h.okNoU && qmOk qm && fmtOk af && (!side || af == 15) && vecOk 4 d && a.ok 1
  | .mldV h d ln => h.okNoU && vecOk 4 d && ln < 16
  | .mldt h side _ qm af g p d a =>
    h.okNoU && qmOk qm && fmtTOk af && (!side || af == 15) && 2 ≤ g && g ≤ 6 && p < 4 && vecOk 4 d && a.ok 1
  | .mldr h side _ qm af _ d a => h.okNoU && qmOk qm && fmtOk af && (!side || af == 15) && vecOk 4 d && a.ok 1
  | .mst h qm t a => h.okNoU && qmOk qm && t < 8 && a.ok 1
  | .tzero h qm t => h.okNoU && qmOk qm && t < 8
  | .tmovToVreg h qm d t => h.okNoU && qmOk qm && vecOk 4 d && t < 8
  | .tmovFromVreg h qm t a => h.okNoU && qmOk qm && vecOk 4 a && t < 8
  | .tmovTile h qm k j => h.okNoU && qmOk qm && k < 8 && j < 8
  | .tcvt h qm af d t => h.okNoU && qmOk qm && fmtCOk af && vecOk 4 d && t < 8
  | .fmtset h a => h.okNoU && a.okVS
  | .fmtget h d => h.okNoU && vecOk 1 d
  | .vreg h sd sa => h.okNoU && sd < 64 && sa < 64
  | .vdrop h sa => h.okNoU && sa < 64
  | .vopen h ln pd pf a => h.okNoU && ln < 16 && pd < 8 && pf < 8 && a.okAddr
  | .vtagTag h d sa b | .vtagGen h d sa b => h.okNoU && d.okPair && sa < 64 && b.ok 1
  | .vsync h pd sa b c => h.okNoU && pd < 8 && sa < 64 && b.ok 1 && c.ok 1
  | .qbindDrill h q | .qbindHarrow h q | .qbindNone h q => h.ok && q < 4
  | .qpush h q a => h.ok && q < 4 && a.okPush
  | .qpop h d q | .qpopStat h d q => h.ok && d.okPair && q < 4
  | .qfence h mask | .qfenceWait h mask => h.ok && mask != 0
  | .launch h sd sa => h.ok && sd < 64 && sa < 64
  | .cread h _ d sa => h.ok && d.okPair && sa < 64
  | .cancel h _ sa => h.ok && sa < 64
  | .amsend h pd a b c => h.ok && pd < 8 && a.ok 1 && b.ok 1 && vecOk 4 c
  | .resamp h pd a => h.ok && pd < 8 && a.ok 1
  | .trap h a _ => h.ok && a.ok 1
  | .tret h | .tretSkip h | .halt h | .brk h _ => h.ok
  | .sread h d _ => h.ok && d.okPair
  | .swrite h n a => h.ok && plainSysReg n.toNat && a.okAddr
  | .mark h _ a => h.ok && a.okAddr
  | .placeld h pd sa sb | .quota h pd sa sb => h.ok && pd < 8 && sa < 64 && sb < 64
  | .quotaRelease _ _ _ _ => false
  | .fallowHalt h pd sa | .fallowResume h pd sa | .fallowStart h pd sa | .fallowStop h pd sa =>
    h.ok && pd < 8 && sa < 64
  | .pairNop _ x y => wfPair .nop x y
  | .pairMov _ x y => wfPair .mov x y
  | .pairAdd _ x y => wfPair .add x y
  | .pairSub _ x y => wfPair .sub x y
  | .pairMul _ x y => wfPair .mul x y
  | .pairMinI32 _ x y => wfPair .minI x y
  | .pairMaxI32 _ x y => wfPair .maxI x y
  | .pairMinN32 _ x y => wfPair .minN x y
  | .pairMaxN32 _ x y => wfPair .maxN x y
  | .pairAnd _ x y => wfPair .and x y
  | .pairOr _ x y => wfPair .or x y
  | .pairXor _ x y => wfPair .xor x y
  | .pairShl _ x y => wfPair .shl x y
  | .pairShr _ x y => wfPair .shr x y
  | .pairSar _ x y => wfPair .sar x y
  | .pairFadd _ x y => wfPair .fadd x y
  | .pairFsub _ x y => wfPair .fsub x y
  | .pairFmul _ x y => wfPair .fmul x y
  | .pairFmin _ x y => wfPair .fmin x y
  | .pairFmax _ x y => wfPair .fmax x y
  | .pairMovi _ x y => wfPair .movi x y
  | .pairAddImm _ x y => wfPair .addI x y
  | .pairSubImm _ x y => wfPair .subI x y
  | .pairAndImm _ x y => wfPair .andI x y
  | .pairOrImm _ x y => wfPair .orI x y
  | .pairXorImm _ x y => wfPair .xorI x y
  | .pairShlImm _ x y => wfPair .shlI x y
  | .pairShrImm _ x y => wfPair .shrI x y
  | .pairSarImm _ x y => wfPair .sarI x y
  | .trmaskWrite h a | .freezeWrite h a | .shoot1Write h a | .shoot2Write h a | .pt1Write h a
  | .pt2Write h _ a | .virqWrite h a | .warmWrite h a => h.ok && a.okAddr
  | .trapRecordAppend _ | .tresResume _ _ | .tresSkip _ _ | .tresEndGroup _ _ | .tresEndLaunch _ _
  | .lineArrival _ _ | .victimWriteback _ _ | .trywTimeout _ | .barTryTimeout _ | .atomicPerform _
  | .matrixResultWrite _ | .harrowRebuild _ _ _ | .vsyncTimeout _ | .drillCopy _ _ | .drillFill _ _
  | .periodBoundary | .feedbackWindow | .promotion _ | .batchDeal | .blockPlace _ _ _ | .steal _ _ _
  | .launchComplete _ _ | .handlerSpawn _ _ | .resampleComplete _ _ | .gateTimeout _ _ _ | .preciseStop _
  | .epoch | .pcSample | .threshWindow | .triggerFire | .triggerSeal | .gleanerVisit _ _
  | .freezeMessage _ _ _ | .capsuleGather | .retirement _ | .routeSwitch | .door _ _ | .boot _
  | .hostMemoryWrite _ _ _ | .functionLevelReset _ | .coldReset | .warmReset | .powerLimit _
  | .coolantWarning | .thermalFreeze | .cxlLinkDown _ | .peerFlitReplay _ | .getMeasurements _ _ _
  | .list _ | .read _ _ _ _ | .ack _ _ | .fixedLatencyResultWrite _ | .scratchpadAccessPerform _
  | .peerWrite _ _ | .unassignedOpcode _ => false

end Sys2Proof
end

