-- ==== Sys2Proof/Decode.lean ====
section
/-! DEFINITION. The decoder (R45 to R67, R73), total on every word, and after it the encoder, written from the same
encoding tables. The decoder makes checks 1, 2 and 4 to 8 of R73; privilege (3), declared counts (9) and the bank rule
(10) are made where the word issues, since the first two depend on the block that runs it. -/

namespace Sys2Proof

/-- A failed decode check: the cause of R74, the failing half, the failing field (R130). -/
structure DecErr where
  cause : Nat
  half : Nat
  fld : Nat
  deriving DecidableEq, Repr, Inhabited

/-- The fields of a full word in the register form's boundaries (R46, R50). -/
structure Raw where
  sw : Bool
  uni : Bool
  neg : Bool
  g : Nat
  op : Nat
  sub : Nat
  d : Nat
  a : Nat
  b : Nat
  c : Nat
  m : Nat
  deriving DecidableEq, Repr, Inhabited

/-- Widths of the fields, from bit 0 up: M, C, B, A, D, SUB, OP, G, N, U, P, S (R45, R46, R50). -/
def packFields : List (Nat × Nat) → Nat
  | [] => 0
  | (w, x) :: fs => x % 2 ^ w + 2 ^ w * packFields fs

/-- The full word (P = 0) of a set of fields. -/
def Raw.toNat (r : Raw) : Nat :=
  packFields [(9, r.m), (9, r.c), (9, r.b), (9, r.a), (9, r.d), (3, r.sub), (9, r.op), (3, r.g), (1, b2n r.neg),
    (1, b2n r.uni), (1, 0), (1, b2n r.sw)]

/-- The fields of a word. -/
def Raw.ofNat (w : Nat) : Raw :=
  { m := field w 0 9, c := field w 9 9, b := field w 18 9, a := field w 27 9, d := field w 36 9, sub := field w 45 3,
    op := field w 48 9, g := field w 57 3, neg := bitAt w 60, uni := bitAt w 61, sw := bitAt w 63 }

def Raw.hdr (r : Raw) : Hdr := ⟨r.sw, r.uni, r.neg, r.g⟩

/-- Bits 26:0, the immediate or TO (R50). -/
def Raw.imm (r : Raw) : BitVec 27 := BitVec.ofNat 27 (r.m + 512 * r.c + 262144 * r.b)

/-- RO of the branch form (R50). -/
def Raw.ro (r : Raw) : BitVec 18 := BitVec.ofNat 18 (r.a + 512 * r.d)

/-- Bits 26:0 as a number, from which the memory and matrix forms cut their fields (R50). -/
def Raw.low27 (r : Raw) : Nat := r.m + 512 * r.c + 262144 * r.b

def Raw.memL (r : Raw) : Nat := field r.low27 23 4
def Raw.memO (r : Raw) : Nat := field r.low27 14 9
def Raw.memDisp (r : Raw) : Nat := field r.low27 7 7
def Raw.memM (r : Raw) : Nat := field r.low27 0 7
def Raw.matT (r : Raw) : Nat := field r.low27 24 3
def Raw.matQm (r : Raw) : Nat := field r.low27 20 4
def Raw.matAf (r : Raw) : Nat := field r.low27 16 4
def Raw.matBf (r : Raw) : Nat := field r.low27 12 4
def Raw.matM (r : Raw) : Nat := field r.low27 0 12

/-- A decode check: the cause and field it reports when it fails. -/
def need (ok : Bool) (cause fld : Nat) : Except DecErr Unit :=
  if ok then .ok () else .error ⟨cause, 0, fld⟩

/-- Field numbers of TCAUSE FIELD (R130). -/
def fOp : Nat := 1
def fSub : Nat := 2
def fU : Nat := 3
def fD : Nat := 4
def fA : Nat := 5
def fB : Nat := 6
def fC : Nat := 7
def fM : Nat := 8
def fGuard : Nat := 9

/-- The source an operand field names (R28). -/
def srcOf (n : Nat) : Option Src :=
  if n < 384 then some (.v n) else if n < 448 then some (.s (n - 384)) else if n < 452 then some (.q (n - 448))
  else match n with
    | 452 => some .zero | 453 => some .laneid | 454 => some .sliceid | 455 => some .gangid
    | 456 => some .blockid | 457 => some .popid | 458 => some .lineage | 459 => some .clk | _ => none

def Src.code : Src → Nat
  | .v n => n | .s n => 384 + n | .q n => 448 + n
  | .zero => 452 | .laneid => 453 | .sliceid => 454 | .gangid => 455 | .blockid => 456 | .popid => 457
  | .lineage => 458 | .clk => 459

/-- The destination an operand field names; read-only operands and 460 to 511 name none (R29). -/
def dstOf (n : Nat) : Option Dst :=
  if n < 384 then some (.v n) else if n < 448 then some (.s (n - 384)) else if n < 452 then some (.q (n - 448))
  else if n == 452 then some .zero else none

def Dst.code : Dst → Nat
  | .v n => n | .s n => 384 + n | .q n => 448 + n | .zero => 452

/-- Check 7 on a source field. -/
def srcBy (ok : Src → Bool) (n f : Nat) : Except DecErr Src :=
  match srcOf n with
  | some x => if ok x then .ok x else .error ⟨0x04, 0, f⟩
  | none => .error ⟨0x04, 0, f⟩

/-- Check 7 on a destination field. -/
def dstBy (ok : Dst → Bool) (n f : Nat) : Except DecErr Dst :=
  match dstOf n with
  | some x => if ok x then .ok x else .error ⟨0x04, 0, f⟩
  | none => .error ⟨0x04, 0, f⟩

/-- An unused field holds 452 (R58). -/
def unused (n f : Nat) : Except DecErr Unit := need (n == 452) 0x04 f

/-- A predicate field (R57). -/
def predBy (n f : Nat) : Except DecErr Nat := do need (n < 8) 0x04 f; pure n

/-- A vector register field. -/
def vecBy (al n f : Nat) : Except DecErr Nat := do need (vecOk al n) 0x04 f; pure n

/-- A scalar register field. -/
def scalBy (n f : Nat) : Except DecErr Nat := do need (384 ≤ n && n < 448) 0x04 f; pure (n - 384)

/-- A queue register field, 448 + K (R325). -/
def queueBy (n f : Nat) : Except DecErr Nat := do need (448 ≤ n && n < 452) 0x04 f; pure (n - 448)

/-- Check 8: a scalar destination needs the uniform bit (R60). -/
def scalarU (u : Bool) : Dst → Except DecErr Unit
  | .s _ => need u 0x0A fD
  | _ => .ok ()

def noUni (r : Raw) : Except DecErr Unit := need (!r.uni) 0x0B fU
def subIn (r : Raw) (n : Nat) : Except DecErr Unit := need (r.sub < n) 0x02 fSub
def modIn (m n : Nat) : Except DecErr Unit := need (m < n) 0x03 fM

def intTyOf : Nat → Option IntTy
  | 0 => some .i32 | 1 => some .n32 | 2 => some .b32 | 4 => some .i64 | 5 => some .n64 | 6 => some .b64 | _ => none

def IntTy.code : IntTy → Nat
  | .i32 => 0 | .n32 => 1 | .b32 => 2 | .i64 => 4 | .n64 => 5 | .b64 => 6

/-- Check 5 of the integer family (R55). -/
def intTyBy (r : Raw) : Except DecErr IntTy :=
  match intTyOf r.sub with
  | some t => .ok t
  | none => .error ⟨0x02, 0, fSub⟩

def cvtTyOf : Nat → Option CvtTy
  | 0 => some .i32 | 1 => some .n32 | 2 => some .b32 | 4 => some .i64 | 5 => some .n64 | 6 => some .b64
  | 8 => some .f32 | 9 => some .i8 | 10 => some .n8 | 11 => some .i16 | 12 => some .n16 | _ => none

def CvtTy.code : CvtTy → Nat
  | .i32 => 0 | .n32 => 1 | .b32 => 2 | .i64 => 4 | .n64 => 5 | .b64 => 6
  | .f32 => 8 | .i8 => 9 | .n8 => 10 | .i16 => 11 | .n16 => 12

def rndOf : Nat → Rnd
  | 0 => .rne | 1 => .rz | 2 => .ru | _ => .rd

def Rnd.code : Rnd → Nat
  | .rne => 0 | .rz => 1 | .ru => 2 | .rd => 3

def cmpOf : Nat → Option Cmp
  | 0 => some .eq | 1 => some .ne | 2 => some .lt | 3 => some .le | 4 => some .gt | 5 => some .ge | _ => none

def Cmp.code : Cmp → Nat
  | .eq => 0 | .ne => 1 | .lt => 2 | .le => 3 | .gt => 4 | .ge => 5

def fcmpOf : Nat → Option FCmp
  | 0 => some .eq | 1 => some .ne | 2 => some .lt | 3 => some .le | 4 => some .gt | 5 => some .ge
  | 6 => some .num | 7 => some .nan | _ => none

def FCmp.code : FCmp → Nat
  | .eq => 0 | .ne => 1 | .lt => 2 | .le => 3 | .gt => 4 | .ge => 5 | .num => 6 | .nan => 7

def fmodeOf : Nat → Option FMode
  | 0 => some .toI32 | 1 => some .toN32 | 2 => some .toI64 | 3 => some .toN64 | 4 => some .toF16 | 5 => some .toBf16
  | 6 => some .ofF16 | 7 => some .ofBf16 | 8 => some .toE4 | 9 => some .toE5 | 10 => some .ofE4 | 11 => some .ofE5
  | _ => none

def FMode.code : FMode → Nat
  | .toI32 => 0 | .toN32 => 1 | .toI64 => 2 | .toN64 => 3 | .toF16 => 4 | .toBf16 => 5 | .ofF16 => 6 | .ofBf16 => 7
  | .toE4 => 8 | .toE5 => 9 | .ofE4 => 10 | .ofE5 => 11

def dotFmtOf : Nat → Option DotFmt
  | 0 => some .f16 | 1 => some .bf16 | 2 => some .f8e4 | 3 => some .f8e5 | 6 => some .i8 | 7 => some .i4 | _ => none

def DotFmt.code : DotFmt → Nat
  | .f16 => 0 | .bf16 => 1 | .f8e4 => 2 | .f8e5 => 3 | .i8 => 6 | .i4 => 7

def shModeOf : Nat → ShMode
  | 0 => .idx | 1 => .up | 2 => .down | _ => .xor

def ShMode.code : ShMode → Nat
  | .idx => 0 | .up => 1 | .down => 2 | .xor => 3

def VoteKind.code : VoteKind → Nat
  | .any => 0 | .all => 1 | .eq => 2

def redOpOf : Nat → RedOp
  | 0 => .add | 1 => .minI | 2 => .maxI | 3 => .minN | 4 => .maxN | 5 => .and | 6 => .or | _ => .xor

def RedOp.code : RedOp → Nat
  | .add => 0 | .minI => 1 | .maxI => 2 | .minN => 3 | .maxN => 4 | .and => 5 | .or => 6 | .xor => 7

def memWOf : Nat → Option MemW
  | 0 => some .b8 | 1 => some .b16 | 2 => some .b32 | 3 => some .b64 | 4 => some .b128 | 5 => some .i8
  | 6 => some .i16 | _ => none

def MemW.code : MemW → Nat
  | .b8 => 0 | .b16 => 1 | .b32 => 2 | .b64 => 3 | .b128 => 4 | .i8 => 5 | .i16 => 6

/-- Check 5 on a load's or store's width (R86, R190). -/
def memWBy (store : Bool) (r : Raw) : Except DecErr MemW :=
  match memWOf r.sub with
  | some w => if store && !w.okStore then .error ⟨0x02, 0, fSub⟩ else .ok w
  | none => .error ⟨0x02, 0, fSub⟩

def scopeOf : Nat → Scope
  | 0 => .slice | 1 => .gang | 2 => .block | 3 => .core | 4 => .field | 5 => .die | 6 => .device | _ => .system

def Scope.code : Scope → Nat
  | .slice => 0 | .gang => 1 | .block => 2 | .core => 3 | .field => 4 | .die => 5 | .device => 6 | .system => 7

def aopOf : Nat → Option AOp
  | 0 => some .add | 1 => some .addb | 2 => some .incw | 3 => some .decw | 4 => some .min | 5 => some .max
  | 6 => some .and | 7 => some .or | 8 => some .xor | 9 => some .exch | 10 => some .cas | 11 => some .fadd
  | _ => none

def AOp.code : AOp → Nat
  | .add => 0 | .addb => 1 | .incw => 2 | .decw => 3 | .min => 4 | .max => 5 | .and => 6 | .or => 7 | .xor => 8
  | .exch => 9 | .cas => 10 | .fadd => 11

def atyOf : Nat → ATy
  | 0 => .n32 | 1 => .i32 | 2 => .n64 | _ => .i64

def ATy.code : ATy → Nat
  | .n32 => 0 | .i32 => 1 | .n64 => 2 | .i64 => 3

def levelOf : Nat → Level
  | 0 => .launch | 1 => .graph | 2 => .stage | _ => .job

def Level.code : Level → Nat
  | .launch => 0 | .graph => 1 | .stage => 2 | .job => 3

def ropOf : Nat → Option ROp
  | 0x00 => some .nop | 0x01 => some .mov | 0x02 => some .add | 0x03 => some .sub | 0x04 => some .mul
  | 0x05 => some .minI | 0x06 => some .maxI | 0x07 => some .minN | 0x08 => some .maxN | 0x09 => some .and
  | 0x0A => some .or | 0x0B => some .xor | 0x0C => some .shl | 0x0D => some .shr | 0x0E => some .sar
  | 0x10 => some .fadd | 0x11 => some .fsub | 0x12 => some .fmul | 0x13 => some .fmin | 0x14 => some .fmax
  | 0x20 => some .movi | 0x22 => some .addI | 0x23 => some .subI | 0x29 => some .andI | 0x2A => some .orI
  | 0x2B => some .xorI | 0x2C => some .shlI | 0x2D => some .shrI | 0x2E => some .sarI | _ => none

def ROp.code : ROp → Nat
  | .nop => 0x00 | .mov => 0x01 | .add => 0x02 | .sub => 0x03 | .mul => 0x04 | .minI => 0x05 | .maxI => 0x06
  | .minN => 0x07 | .maxN => 0x08 | .and => 0x09 | .or => 0x0A | .xor => 0x0B | .shl => 0x0C | .shr => 0x0D
  | .sar => 0x0E | .fadd => 0x10 | .fsub => 0x11 | .fmul => 0x12 | .fmin => 0x13 | .fmax => 0x14 | .movi => 0x20
  | .addI => 0x22 | .subI => 0x23 | .andI => 0x29 | .orI => 0x2A | .xorI => 0x2B | .shlI => 0x2C | .shrI => 0x2D
  | .sarI => 0x2E

/-- Checks 6 to 8 of an integer word with sources A, B and C as `n` says (1, 2 or 3), M already checked. -/
def decInt1 (r : Raw) (t : IntTy) (mk : Dst → Src → Instr) : Except DecErr Instr := do
  let d ← dstBy (Dst.ok t.al true) r.d fD
  let a ← srcBy (Src.ok t.al) r.a fA
  unused r.b fB
  unused r.c fC
  scalarU r.uni d
  pure (mk d a)

def decInt2 (r : Raw) (t : IntTy) (mk : Dst → Src → Src → Instr) : Except DecErr Instr := do
  let d ← dstBy (Dst.ok t.al true) r.d fD
  let a ← srcBy (Src.ok t.al) r.a fA
  let b ← srcBy (Src.ok t.al) r.b fB
  unused r.c fC
  scalarU r.uni d
  pure (mk d a b)

def decInt3 (r : Raw) (t : IntTy) (mk : Dst → Src → Src → Src → Instr) : Except DecErr Instr := do
  let d ← dstBy (Dst.ok t.al true) r.d fD
  let a ← srcBy (Src.ok t.al) r.a fA
  let b ← srcBy (Src.ok t.al) r.b fB
  let c ← srcBy (Src.ok t.al) r.c fC
  scalarU r.uni d
  pure (mk d a b c)

def decIntImm (r : Raw) (t : IntTy) (mk : Dst → Src → BitVec 27 → Instr) : Except DecErr Instr := do
  let d ← dstBy (Dst.ok t.al true) r.d fD
  let a ← srcBy (Src.ok t.al) r.a fA
  scalarU r.uni d
  pure (mk d a r.imm)

/-- Majors 0x000 to 0x01A (R100 to R104). -/
def decodeInt (r : Raw) : Except DecErr Instr := do
  let t ← intTyBy r
  let h := r.hdr
  match r.op with
  | 0x000 => modIn r.m 2; decInt2 r t (.add h t (r.m == 1))
  | 0x001 => modIn r.m 2; decInt2 r t (.sub h t (r.m == 1))
  | 0x002 => modIn r.m 1; decInt2 r t (.mul h t)
  | 0x003 => modIn r.m 1; decInt2 r t (.mulh h t)
  | 0x004 => modIn r.m 1; decInt3 r t (.mad h t)
  | 0x005 => modIn r.m 1; decInt2 r t (.min h t)
  | 0x006 => modIn r.m 1; decInt2 r t (.max h t)
  | 0x007 => modIn r.m 1; decInt1 r t (.abs h t)
  | 0x008 => modIn r.m 1; decInt1 r t (.neg h t)
  | 0x009 => modIn r.m 1; decInt2 r t (.and h t)
  | 0x00A => modIn r.m 1; decInt2 r t (.or h t)
  | 0x00B => modIn r.m 1; decInt2 r t (.xor h t)
  | 0x00C => modIn r.m 1; decInt1 r t (.not h t)
  | 0x00D => modIn r.m 1; decInt2 r t (.shl h t)
  | 0x00E => modIn r.m 1; decInt2 r t (.shr h t)
  | 0x00F => modIn r.m 1; decInt2 r t (.sar h t)
  | 0x010 => modIn r.m 1; decInt2 r t (.rot h t)
  | 0x011 => modIn r.m 1; decInt1 r t (.clz h t)
  | 0x012 => modIn r.m 1; decInt1 r t (.popc h t)
  | 0x013 => modIn r.m 1; decInt1 r t (.brev h t)
  | 0x014 => modIn r.m 1; decInt2 r t (.bfx h t)
  | 0x015 => modIn r.m 1; decInt3 r t (.bfi h t)
  | 0x016 => do
    modIn r.m 1
    let d ← dstBy (Dst.ok t.al true) r.d fD
    let a ← srcBy (Src.ok t.al) r.a fA
    let b ← srcBy (Src.ok t.al) r.b fB
    let pc ← predBy r.c fC
    scalarU r.uni d
    pure (.sel h t d a b pc)
  | 0x017 => do
    match cmpOf r.m with
    | none => .error ⟨0x03, 0, fM⟩
    | some cmp => do
      let pd ← predBy r.d fD
      let a ← srcBy (Src.ok t.al) r.a fA
      let b ← srcBy (Src.ok t.al) r.b fB
      unused r.c fC
      pure (.setp h t cmp pd a b)
  | 0x018 => modIn r.m 1; decInt1 r t (.mov h t)
  | 0x019 => do
    modIn r.m 8
    let d ← dstBy (Dst.ok t.al true) r.d fD
    let a ← srcBy (Src.ok t.al) r.a fA
    let b ← srcBy (Src.ok 1) r.b fB
    unused r.c fC
    scalarU r.uni d
    pure (.lea h t (BitVec.ofNat 3 r.m) d a b)
  | _ => do
    match cvtTyOf (field r.m 0 4) with
    | none => .error ⟨0x03, 0, fM⟩
    | some dt => do
      let rnd := rndOf (field r.m 4 2)
      let sat := bitAt r.m 6
      need ((dt.isF32 || rnd == .rne) && !(dt.isF32 && sat) && field r.m 7 2 == 0) 0x03 fM
      let d ← dstBy (Dst.ok dt.al true) r.d fD
      let a ← srcBy (Src.ok t.al) r.a fA
      unused r.b fB
      unused r.c fC
      scalarU r.uni d
      pure (.cvt h t dt rnd sat d a)

/-- Majors 0x020 to 0x03F (R100 to R103). -/
def decodeIntImm (r : Raw) : Except DecErr Instr := do
  let t ← intTyBy r
  let h := r.hdr
  match r.op with
  | 0x020 => decIntImm r t (.addImm h t)
  | 0x021 => decIntImm r t (.subImm h t)
  | 0x022 => decIntImm r t (.mulImm h t)
  | 0x025 => decIntImm r t (.minImm h t)
  | 0x026 => decIntImm r t (.maxImm h t)
  | 0x029 => decIntImm r t (.andImm h t)
  | 0x02A => decIntImm r t (.orImm h t)
  | 0x02B => decIntImm r t (.xorImm h t)
  | 0x02D => do need (immCountOk t r.imm) 0x03 fM; decIntImm r t (.shlImm h t)
  | 0x02E => do need (immCountOk t r.imm) 0x03 fM; decIntImm r t (.shrImm h t)
  | 0x02F => do need (immCountOk t r.imm) 0x03 fM; decIntImm r t (.sarImm h t)
  | 0x030 => do need (immCountOk t r.imm) 0x03 fM; decIntImm r t (.rotImm h t)
  | 0x034 => do need (imm16Ok r.imm) 0x03 fM; decIntImm r t (.bfxImm h t)
  | 0x038 => do
    need (t != .b64) 0x02 fSub
    need (t != .b32 || imm16Ok r.imm) 0x03 fM
    let d ← dstBy (Dst.ok t.al true) r.d fD
    unused r.a fA
    scalarU r.uni d
    pure (if t == .b32 then .moviHi h d r.imm else .movi h t d r.imm)
  | 0x039 => decIntImm r t (.leaImm h t)
  | _ => do
    let pd ← predBy r.d fD
    let a ← srcBy (Src.ok t.al) r.a fA
    match r.op with
    | 0x03A => pure (.setpEqImm h t pd a r.imm)
    | 0x03B => pure (.setpNeImm h t pd a r.imm)
    | 0x03C => pure (.setpLtImm h t pd a r.imm)
    | 0x03D => pure (.setpLeImm h t pd a r.imm)
    | 0x03E => pure (.setpGtImm h t pd a r.imm)
    | _ => pure (.setpGeImm h t pd a r.imm)

/-- Majors 0x040 to 0x044 (R105). -/
def decodePred (r : Raw) : Except DecErr Instr := do
  subIn r 1
  let h := r.hdr
  let ia := bitAt r.m 0
  let ib := bitAt r.m 1
  modIn r.m (if r.op < 0x043 then 4 else 2)
  let pd ← predBy r.d fD
  let pa ← predBy r.a fA
  if r.op < 0x043 then do
    let pb ← predBy r.b fB
    unused r.c fC
    match r.op with
    | 0x040 => pure (.pand h ia ib pd pa pb)
    | 0x041 => pure (.por h ia ib pd pa pb)
    | _ => pure (.pxor h ia ib pd pa pb)
  else do
    unused r.b fB
    unused r.c fC
    match r.op with
    | 0x043 => pure (.pnot h ia pd pa)
    | _ => pure (.pmov h ia pd pa)

def decF1 (r : Raw) (al : Nat) (mk : Dst → Src → Instr) : Except DecErr Instr := do
  let d ← dstBy (Dst.ok al false) r.d fD
  let a ← srcBy (Src.ok 1) r.a fA
  unused r.b fB
  unused r.c fC
  pure (mk d a)

def decF2 (r : Raw) (mk : Dst → Src → Src → Instr) : Except DecErr Instr := do
  let d ← dstBy (Dst.ok 1 false) r.d fD
  let a ← srcBy (Src.ok 1) r.a fA
  let b ← srcBy (Src.ok 1) r.b fB
  unused r.c fC
  pure (mk d a b)

def decF3 (r : Raw) (mk : Dst → Src → Src → Src → Instr) : Except DecErr Instr := do
  let d ← dstBy (Dst.ok 1 false) r.d fD
  let a ← srcBy (Src.ok 1) r.a fA
  let b ← srcBy (Src.ok 1) r.b fB
  let c ← srcBy (Src.ok 1) r.c fC
  pure (mk d a b c)

/-- Majors 0x060 to 0x070 (R107 to R110, R261). -/
def decodeFloat (r : Raw) : Except DecErr Instr := do
  let h := r.hdr
  let rnd := rndOf r.sub
  subIn r (if r.op == 0x064 || r.op == 0x065 || r.op == 0x06D then 1 else 4)
  match r.op with
  | 0x060 => modIn r.m 1; decF2 r (.fadd h rnd)
  | 0x061 => modIn r.m 1; decF2 r (.fsub h rnd)
  | 0x062 => modIn r.m 1; decF2 r (.fmul h rnd)
  | 0x063 => modIn r.m 1; decF3 r (.ffma h rnd)
  | 0x064 => modIn r.m 1; decF2 r (.fmin h)
  | 0x065 => modIn r.m 1; decF2 r (.fmax h)
  | 0x066 => modIn r.m 1; decF1 r 1 (.frcp h rnd)
  | 0x067 => modIn r.m 1; decF1 r 1 (.frsq h rnd)
  | 0x068 => modIn r.m 1; decF1 r 1 (.fsqrt h rnd)
  | 0x069 => modIn r.m 1; decF1 r 1 (.fexp2 h rnd)
  | 0x06A => modIn r.m 1; decF1 r 1 (.flog2 h rnd)
  | 0x06B => modIn r.m 1; decF1 r 1 (.fsin h rnd)
  | 0x06C => modIn r.m 1; decF1 r 1 (.fcos h rnd)
  | 0x06D => do
    match fcmpOf r.m with
    | none => .error ⟨0x03, 0, fM⟩
    | some cmp => do
      let pd ← predBy r.d fD
      let a ← srcBy (Src.ok 1) r.a fA
      let b ← srcBy (Src.ok 1) r.b fB
      unused r.c fC
      pure (.fsetp h cmp pd a b)
  | 0x06E => do
    match fmodeOf (field r.m 0 4) with
    | none => .error ⟨0x03, 0, fM⟩
    | some mode => do
      let sat := bitAt r.m 4
      need ((!sat || mode == .toF16 || mode == .toBf16 || mode == .toE4 || mode == .toE5) && field r.m 5 4 == 0)
        0x03 fM
      decF1 r (if mode == .toI64 || mode == .toN64 then 2 else 1) (.fcvt h rnd mode sat)
  | 0x06F => modIn r.m 1; decF1 r 1 (.frnd h rnd)
  | _ => do
    match dotFmtOf r.m with
    | none => .error ⟨0x03, 0, fM⟩
    | some f => decF3 r (.fdot h rnd f)

/-- Majors 0x078 to 0x07C (R107, R109). -/
def decodeFloatImm (r : Raw) : Except DecErr Instr := do
  let h := r.hdr
  let rnd := rndOf r.sub
  subIn r (if r.op < 0x07B then 4 else 1)
  let d ← dstBy (Dst.ok 1 false) r.d fD
  let a ← srcBy (Src.ok 1) r.a fA
  match r.op with
  | 0x078 => pure (.faddImm h rnd d a r.imm)
  | 0x079 => pure (.fsubImm h rnd d a r.imm)
  | 0x07A => pure (.fmulImm h rnd d a r.imm)
  | 0x07B => pure (.fminImm h d a r.imm)
  | _ => pure (.fmaxImm h d a r.imm)

/-- Majors 0x0A0 to 0x0A4 and 0x0A8 (R111 to R113). The destination of `vote.ballot` and `match` is a vector register, that of the others
what R28 gives. -/
def decodeCross (r : Raw) : Except DecErr Instr := do
  noUni r
  let h := r.hdr
  let w := bitAt r.m 0
  let al := if w then 2 else 1
  match r.op with
  | 0x0A0 => do
    subIn r 4
    modIn r.m 2
    let d ← dstBy (Dst.ok al false) r.d fD
    let a ← vecBy al r.a fA
    let b ← srcBy (Src.ok 1) r.b fB
    unused r.c fC
    pure (.shfl h (shModeOf r.sub) w d a b)
  | 0x0A1 => do
    subIn r 4
    modIn r.m 1
    if r.sub < 3 then do
      let pd ← predBy r.d fD
      let pa ← predBy r.a fA
      unused r.b fB
      unused r.c fC
      pure (.vote h (if r.sub == 0 then .any else if r.sub == 1 then .all else .eq) pd pa)
    else do
      let d ← vecBy 1 r.d fD
      let pa ← predBy r.a fA
      unused r.b fB
      unused r.c fC
      pure (.voteBallot h d pa)
  | 0x0A2 => do
    subIn r 2
    modIn r.m 1
    let d ← vecBy 1 r.d fD
    let a ← vecBy (if r.sub == 1 then 2 else 1) r.a fA
    unused r.b fB
    unused r.c fC
    pure (.matchv h (r.sub == 1) d a)
  | 0x0A3 => do
    modIn r.m 1
    let d ← dstBy (Dst.ok 1 false) r.d fD
    let a ← vecBy 1 r.a fA
    unused r.b fB
    unused r.c fC
    pure (.redux h (redOpOf r.sub) d a)
  | 0x0A4 => do
    subIn r 2
    modIn r.m 2
    let d ← dstBy (Dst.ok al false) r.d fD
    let a ← vecBy al r.a fA
    if r.sub == 0 then do
      let b ← srcBy (Src.ok 1) r.b fB
      unused r.c fC
      pure (.bcast h w d a b)
    else do
      unused r.b fB
      unused r.c fC
      pure (.bcastLow h w d a)
  | _ => do
    subIn r 4
    need (r.low27 < 64) 0x03 fM
    let wi := bitAt r.low27 5
    let d ← dstBy (Dst.ok (if wi then 2 else 1) false) r.d fD
    let a ← vecBy (if wi then 2 else 1) r.a fA
    pure (.shflImm h (shModeOf r.sub) wi d a (BitVec.ofNat 5 (field r.low27 0 5)))

def decPlain (r : Raw) (i : Instr) : Except DecErr Instr := do
  modIn r.m 1
  unused r.d fD
  unused r.a fA
  unused r.b fB
  unused r.c fC
  pure i

/-- Majors 0x0B0 to 0x0BB (R116 to R124). -/
def decodeControl (r : Raw) : Except DecErr Instr := do
  noUni r
  subIn r 1
  let h := r.hdr
  match r.op with
  | 0x0B0 => do need (r.ro == 0) 0x03 fM; pure (.br h r.imm)
  | 0x0B1 => pure (.bra h r.imm r.ro)
  | 0x0B2 => do
    modIn r.m 1
    unused r.d fD
    let a ← srcBy Src.okAddr r.a fA
    unused r.b fB
    unused r.c fC
    pure (.jmpi h a)
  | 0x0B3 => do need (r.ro == 0) 0x03 fM; pure (.call h r.imm)
  | 0x0B4 => do
    modIn r.m 1
    unused r.d fD
    let a ← srcBy Src.okAddr r.a fA
    unused r.b fB
    unused r.c fC
    pure (.calli h a)
  | 0x0B5 => decPlain r (.ret h)
  | 0x0B6 => do need (h.g == 7 && !h.neg) 0x03 fGuard; decPlain r (.regang h)
  | 0x0B7 => decPlain r (.land h)
  | 0x0B8 => decPlain r (.exit h)
  | 0x0B9 => decPlain r (.cede h)
  | 0x0BA => decPlain r (.nop h)
  | _ => do
    modIn r.m 16
    let pd ← predBy r.d fD
    let a ← srcBy (Src.ok 1) r.a fA
    unused r.b fB
    unused r.c fC
    pure (.tryw h pd r.m a)

/-- Majors 0x0C0 to 0x0C5 (R78 to R95). -/
def decodeLine (r : Raw) : Except DecErr Instr := do
  noUni r
  let h := r.hdr
  let ln := r.memL
  match r.op with
  | 0x0C0 => do
    subIn r 4
    need (r.memDisp == 0) 0x03 fC
    modIn r.memM 1
    let pd ← predBy r.d fD
    let a ← srcBy Src.okAddr r.a fA
    unused r.memO fB
    match r.sub with
    | 0 => pure (.openR h ln pd a)
    | 1 => pure (.openw h ln pd a)
    | 2 => pure (.openz h ln pd a)
    | _ => pure (.openInv h ln pd a)
  | 0x0C3 => do
    let w ← memWBy false r
    modIn r.memM 1
    let d ← vecBy w.al r.d fD
    unused r.a fA
    let o ← srcBy (Src.ok 1) r.memO fB
    pure (.ld h w d ln o (BitVec.ofNat 7 r.memDisp))
  | 0x0C4 => do
    let w ← memWBy true r
    modIn r.memM 1
    unused r.d fD
    let a ← vecBy w.al r.a fA
    let o ← srcBy (Src.ok 1) r.memO fB
    pure (.st h w a ln o (BitVec.ofNat 7 r.memDisp))
  | op => do
    subIn r 1
    need (r.memDisp == 0) 0x03 fC
    modIn r.memM 1
    if op == 0x0C5 then do
      let d ← vecBy 2 r.d fD
      unused r.a fA
      unused r.memO fB
      pure (.lprobe h d ln)
    else do
      unused r.d fD
      unused r.a fA
      unused r.memO fB
      pure (if op == 0x0C1 then .reopen h ln else .close h ln)

/-- Majors 0x0D0 to 0x0D4 (R190, R193). -/
def decodeScratch (r : Raw) : Except DecErr Instr := do
  let h := r.hdr
  let disp := BitVec.ofNat 9 r.c
  match r.op with
  | 0x0D0 => do
    let w ← memWBy false r
    modIn r.m 1
    let d ← dstBy (Dst.ok w.al false) r.d fD
    let a ← srcBy (Src.ok 1) r.a fA
    unused r.b fB
    pure (.lds h w d a disp)
  | 0x0D1 => do
    let w ← memWBy true r
    modIn r.m 1
    unused r.d fD
    let a ← srcBy (Src.ok 1) r.a fA
    let b ← vecBy w.al r.b fB
    pure (.sts h w a disp b)
  | 0x0D2 => do
    let w ← memWBy false r
    modIn r.m 4
    let d ← dstBy (Dst.ok w.al false) r.d fD
    let a ← srcBy (Src.ok 1) r.a fA
    unused r.b fB
    pure (.ldsr h w d (BitVec.ofNat 2 r.m) a disp)
  | 0x0D3 => do
    let w ← memWBy true r
    modIn r.m 4
    unused r.d fD
    let a ← srcBy (Src.ok 1) r.a fA
    let b ← vecBy w.al r.b fB
    pure (.stsr h w (BitVec.ofNat 2 r.m) a disp b)
  | _ => do
    subIn r 1
    let g := field r.m 0 3
    let p := field r.m 3 3
    need (2 ≤ g && g ≤ 6 && p < 4 && field r.m 6 3 == 0) 0x03 fM
    let d ← dstBy (Dst.ok 1 false) r.d fD
    let a ← srcBy (Src.ok 1) r.a fA
    let b ← srcBy (Src.ok 1) r.b fB
    unused r.c fC
    pure (.swz h d a b g p)

/-- Majors 0x0E0 and 0x0E1 (R207). -/
def decodeAtomic (r : Raw) : Except DecErr Instr := do
  let h := r.hdr
  let isAtom := r.op == 0x0E0
  let sc := scopeOf r.sub
  let t := atyOf (field r.m 4 2)
  let p := field r.m 6 3
  match aopOf (field r.m 0 4) with
  | none => .error ⟨0x03, 0, fM⟩
  | some op => do
    need (op.okTy t && (p == 7 || (isAtom && op.usesP))) 0x03 fM
    if isAtom then do
      let d ← vecBy t.al r.d fD
      let a ← srcBy Src.okAddr r.a fA
      let b ← srcBy (Src.ok t.al) r.b fB
      let c ← srcBy (fun c => if op.usesC then c.ok t.al else c == .zero) r.c fC
      pure (.atom h sc op t d p a b c)
    else do
      unused r.d fD
      let a ← srcBy Src.okAddr r.a fA
      let b ← srcBy (Src.ok t.al) r.b fB
      let c ← srcBy (fun c => if op.usesC then c.ok t.al else c == .zero) r.c fC
      pure (.red h sc op t a b c)

/-- The place of a barrier word: R and N in M (R197). -/
def placeOf (m : Nat) : Option (BitVec 2) := if bitAt m 2 then some (BitVec.ofNat 2 (field m 0 2)) else none

def placeCode : Option (BitVec 2) → Nat
  | none => 0
  | some n => 4 + n.toNat

/-- Majors 0x0F0 to 0x0F6 (R197). -/
def decodeSync (r : Raw) : Except DecErr Instr := do
  let h := r.hdr
  let sc := scopeOf r.sub
  match r.op with
  | 0x0F0 => do
    subIn r 1
    let creg := bitAt r.m 4
    need (r.m == 8 * b2n (bitAt r.m 3) + 16 * b2n creg) 0x03 fM
    need (creg || r.b < 128) 0x03 fB
    unused r.d fD
    let a ← srcBy (Src.ok 1) r.a fA
    if creg then do
      let k ← srcBy (Src.ok 1) r.b fB
      unused r.c fC
      pure (.barInit h (bitAt r.m 3) a (.reg k))
    else pure (.barInit h (bitAt r.m 3) a (.imm (BitVec.ofNat 16 (r.c + 512 * r.b))))
  | 0x0F1 => do
    need (r.m < 8 && (bitAt r.m 2 || field r.m 0 2 == 0)) 0x03 fM
    unused r.d fD
    let a ← srcBy (Src.ok 1) r.a fA
    unused r.b fB
    unused r.c fC
    pure (.barArr h sc (placeOf r.m) a)
  | 0x0F2 => do
    need (r.m < 8 && (bitAt r.m 2 || field r.m 0 2 == 0)) 0x03 fM
    unused r.d fD
    let a ← srcBy (Src.ok 1) r.a fA
    unused r.b fB
    unused r.c fC
    pure (.barWait h sc (placeOf r.m) a)
  | 0x0F3 => do
    need (r.m < 8 && (bitAt r.m 2 || field r.m 0 2 == 0)) 0x03 fM
    let pd ← predBy r.d fD
    let a ← srcBy (Src.ok 1) r.a fA
    let b ← srcBy (Src.ok 1) r.b fB
    unused r.c fC
    pure (.barTry h sc (placeOf r.m) pd a b)
  | 0x0F4 => decPlain r (.fence h sc)
  | 0x0F5 => decPlain r (.pub h sc)
  | _ => decPlain r (.acq h sc)

/-- Majors 0x100 to 0x109 (R250). -/
def decodeMatrix (r : Raw) : Except DecErr Instr := do
  noUni r
  let h := r.hdr
  let t := r.matT
  let qm := r.matQm
  let af := r.matAf
  let bf := r.matBf
  let m := r.matM
  match r.op with
  | 0x100 => do
    subIn r 1
    need (qmOk qm && fmtOk af && fmtOk bf && m < 2) 0x03 fM
    let a ← vecBy 4 r.d fD
    let b ← vecBy 4 r.a fA
    pure (.mma h (m == 1) qm af bf t a b)
  | 0x101 => do
    subIn r 2
    if r.sub == 0 then do
      let side := bitAt m 6
      need (t == 0 && qmOk qm && fmtOk af && bf == 0 && m == 64 * b2n side + 128 * b2n (bitAt m 7) &&
        (!side || af == 15)) 0x03 fM
      let d ← vecBy 4 r.d fD
      let a ← srcBy (Src.ok 1) r.a fA
      pure (.mld h side (bitAt m 7) qm af d a)
    else do
      need (t == 0 && qm == 15 && af == 0 && bf == 0 && m < 16) 0x03 fM
      let d ← vecBy 4 r.d fD
      unused r.a fA
      pure (.mldV h d m)
  | 0x102 => do
    subIn r 1
    let side := bitAt m 6
    let g := field m 0 3
    let p := field m 3 3
    need (t == 0 && qmOk qm && fmtTOk af && bf == 0 && m < 256 && (!side || af == 15) && 2 ≤ g && g ≤ 6 && p < 4)
      0x03 fM
    let d ← vecBy 4 r.d fD
    let a ← srcBy (Src.ok 1) r.a fA
    pure (.mldt h side (bitAt m 7) qm af g p d a)
  | 0x103 => do
    subIn r 1
    let side := bitAt m 6
    need (t == 0 && qmOk qm && fmtOk af && bf == 0 && field m 0 6 == 0 && m < 1024 && (!side || af == 15)) 0x03 fM
    let d ← vecBy 4 r.d fD
    let a ← srcBy (Src.ok 1) r.a fA
    pure (.mldr h side (bitAt m 7) qm af (BitVec.ofNat 2 (field m 8 2)) d a)
  | 0x104 => do
    subIn r 1
    need (qmOk qm && af == 0 && bf == 0 && m == 0) 0x03 fM
    unused r.d fD
    let a ← srcBy (Src.ok 1) r.a fA
    pure (.mst h qm t a)
  | 0x105 => do
    subIn r 1
    need (qmOk qm && af == 0 && bf == 0 && m == 0) 0x03 fM
    unused r.d fD
    unused r.a fA
    pure (.tzero h qm t)
  | 0x106 => do
    subIn r 3
    need (qmOk qm && af == 0 && bf == 0 && m < (if r.sub == 2 then 8 else 1)) 0x03 fM
    match r.sub with
    | 0 => do
      let d ← vecBy 4 r.d fD
      unused r.a fA
      pure (.tmovToVreg h qm d t)
    | 1 => do
      unused r.d fD
      let a ← vecBy 4 r.a fA
      pure (.tmovFromVreg h qm t a)
    | _ => do
      unused r.d fD
      unused r.a fA
      pure (.tmovTile h qm t m)
  | 0x107 => do
    subIn r 1
    need (qmOk qm && fmtCOk af && bf == 0 && m == 0) 0x03 fM
    let d ← vecBy 4 r.d fD
    unused r.a fA
    pure (.tcvt h qm af d t)
  | 0x108 => do
    subIn r 1
    need (r.low27 == 0) 0x03 fM
    unused r.d fD
    let a ← srcBy Src.okVS r.a fA
    pure (.fmtset h a)
  | _ => do
    subIn r 1
    need (r.low27 == 0) 0x03 fM
    let d ← vecBy 1 r.d fD
    unused r.a fA
    pure (.fmtget h d)

/-- Majors 0x110 to 0x114 (R271). -/
def decodeView (r : Raw) : Except DecErr Instr := do
  noUni r
  let h := r.hdr
  match r.op with
  | 0x110 => do
    subIn r 1
    modIn r.m 1
    let sd ← scalBy r.d fD
    let sa ← scalBy r.a fA
    unused r.b fB
    unused r.c fC
    pure (.vreg h sd sa)
  | 0x111 => do
    subIn r 1
    modIn r.m 1
    unused r.d fD
    let sa ← scalBy r.a fA
    unused r.b fB
    unused r.c fC
    pure (.vdrop h sa)
  | 0x112 => do
    subIn r 1
    need (r.memDisp == 0) 0x03 fC
    modIn r.memM 8
    let pd ← predBy r.d fD
    let a ← srcBy Src.okAddr r.a fA
    unused r.memO fB
    pure (.vopen h r.memL pd r.memM a)
  | 0x113 => do
    subIn r 2
    modIn r.m 1
    let d ← dstBy Dst.okPair r.d fD
    let sa ← scalBy r.a fA
    let b ← srcBy (Src.ok 1) r.b fB
    unused r.c fC
    pure (if r.sub == 0 then .vtagTag h d sa b else .vtagGen h d sa b)
  | _ => do
    subIn r 1
    modIn r.m 1
    let pd ← predBy r.d fD
    let sa ← scalBy r.a fA
    let b ← srcBy (Src.ok 1) r.b fB
    let c ← srcBy (Src.ok 1) r.c fC
    pure (.vsync h pd sa b c)

/-- Majors 0x120 to 0x123 (R325). -/
def decodeQueue (r : Raw) : Except DecErr Instr := do
  let h := r.hdr
  match r.op with
  | 0x120 => do
    subIn r 3
    modIn r.m 1
    let q ← queueBy r.d fD
    unused r.a fA
    unused r.b fB
    unused r.c fC
    pure (if r.sub == 0 then .qbindDrill h q else if r.sub == 1 then .qbindHarrow h q else .qbindNone h q)
  | 0x121 => do
    subIn r 1
    modIn r.m 1
    let q ← queueBy r.d fD
    let a ← srcBy Src.okPush r.a fA
    unused r.b fB
    unused r.c fC
    pure (.qpush h q a)
  | 0x122 => do
    subIn r 2
    modIn r.m 1
    let d ← dstBy Dst.okPair r.d fD
    let q ← queueBy r.a fA
    unused r.b fB
    unused r.c fC
    pure (if r.sub == 0 then .qpop h d q else .qpopStat h d q)
  | _ => do
    subIn r 2
    need (0 < r.m && r.m < 16) 0x03 fM
    unused r.d fD
    unused r.a fA
    unused r.b fB
    unused r.c fC
    pure (if r.sub == 0 then .qfence h (BitVec.ofNat 4 r.m) else .qfenceWait h (BitVec.ofNat 4 r.m))

/-- Majors 0x130 to 0x134 (R313, R283). -/
def decodeWork (r : Raw) : Except DecErr Instr := do
  let h := r.hdr
  match r.op with
  | 0x130 => do
    subIn r 1
    modIn r.m 1
    let sd ← scalBy r.d fD
    let sa ← scalBy r.a fA
    unused r.b fB
    unused r.c fC
    pure (.launch h sd sa)
  | 0x131 => do
    subIn r 4
    modIn r.m 1
    let d ← dstBy Dst.okPair r.d fD
    let sa ← scalBy r.a fA
    unused r.b fB
    unused r.c fC
    pure (.cread h (levelOf r.sub) d sa)
  | 0x132 => do
    subIn r 4
    modIn r.m 1
    unused r.d fD
    let sa ← scalBy r.a fA
    unused r.b fB
    unused r.c fC
    pure (.cancel h (levelOf r.sub) sa)
  | 0x133 => do
    subIn r 1
    modIn r.m 1
    let pd ← predBy r.d fD
    let a ← srcBy (Src.ok 1) r.a fA
    let b ← srcBy (Src.ok 1) r.b fB
    let c ← vecBy 4 r.c fC
    pure (.amsend h pd a b c)
  | _ => do
    subIn r 1
    modIn r.m 1
    let pd ← predBy r.d fD
    let a ← srcBy (Src.ok 1) r.a fA
    unused r.b fB
    unused r.c fC
    pure (.resamp h pd a)

/-- Which row of the table a write of system register `n` is: eight registers have a row of their own. -/
def swriteRow (h : Hdr) (n : Nat) (a : Src) : Instr :=
  if n == 0x180 then .trmaskWrite h a else if n == 0x184 then .freezeWrite h a
  else if n == 0x08F then .shoot1Write h a else if n == 0x1B0 then .shoot2Write h a
  else if n == 0x08E then .pt1Write h a
  else if 0x1A0 ≤ n && n < 0x1B0 then .pt2Write h (BitVec.ofNat 4 (n - 0x1A0)) a
  else if n == 0x086 then .virqWrite h a else if n == 0x1B2 then .warmWrite h a
  else .swrite h (BitVec.ofNat 9 n) a

/-- Majors 0x140 to 0x146 (R142 to R145, R372). -/
def decodeSystem (r : Raw) : Except DecErr Instr := do
  let h := r.hdr
  match r.op with
  | 0x140 => do
    subIn r 1
    modIn r.m 256
    unused r.d fD
    let a ← srcBy (Src.ok 1) r.a fA
    unused r.b fB
    unused r.c fC
    pure (.trap h a (BitVec.ofNat 8 r.m))
  | 0x141 => do subIn r 2; decPlain r (if r.sub == 0 then .tret h else .tretSkip h)
  | 0x142 => do
    subIn r 1
    modIn r.m 1
    let d ← dstBy Dst.okPair r.d fD
    unused r.a fA
    unused r.c fC
    pure (.sread h d (BitVec.ofNat 9 r.b))
  | 0x143 => do
    subIn r 1
    modIn r.m 1
    unused r.d fD
    let a ← srcBy Src.okAddr r.a fA
    unused r.c fC
    pure (swriteRow h r.b a)
  | 0x144 => do subIn r 1; decPlain r (.halt h)
  | 0x145 => do
    subIn r 1
    modIn r.m 256
    unused r.d fD
    unused r.a fA
    unused r.b fB
    unused r.c fC
    pure (.brk h (BitVec.ofNat 8 r.m))
  | _ => do
    subIn r 1
    modIn r.m 256
    unused r.d fD
    let a ← srcBy Src.okAddr r.a fA
    unused r.b fB
    unused r.c fC
    pure (.mark h (BitVec.ofNat 8 r.m) a)

/-- Majors 0x150 to 0x152 (R355). -/
def decodePriv (r : Raw) : Except DecErr Instr := do
  let h := r.hdr
  subIn r (if r.op == 0x152 then 4 else 1)
  modIn r.m 1
  let pd ← predBy r.d fD
  let sa ← scalBy r.a fA
  if r.op == 0x152 then do
    unused r.b fB
    unused r.c fC
    match r.sub with
    | 0 => pure (.fallowHalt h pd sa)
    | 1 => pure (.fallowResume h pd sa)
    | 2 => pure (.fallowStart h pd sa)
    | _ => pure (.fallowStop h pd sa)
  else do
    let sb ← scalBy r.b fB
    unused r.c fC
    pure (if r.op == 0x150 then .placeld h pd sa sb else .quota h pd sa sb)

/-- The major codes R66 assigns. -/
def opAssigned (op : Nat) : Bool :=
  op < 0x01B || (0x020 ≤ op && op ≤ 0x022) || op == 0x025 || op == 0x026 || (0x029 ≤ op && op ≤ 0x02B) ||
  (0x02D ≤ op && op ≤ 0x030) || op == 0x034 || (0x038 ≤ op && op ≤ 0x044) || (0x060 ≤ op && op ≤ 0x070) ||
  (0x078 ≤ op && op ≤ 0x07C) || (0x0A0 ≤ op && op ≤ 0x0A4) || op == 0x0A8 || (0x0B0 ≤ op && op ≤ 0x0BB) ||
  (0x0C0 ≤ op && op ≤ 0x0C5) || (0x0D0 ≤ op && op ≤ 0x0D4) || op == 0x0E0 || op == 0x0E1 ||
  (0x0F0 ≤ op && op ≤ 0x0F6) || (0x100 ≤ op && op ≤ 0x109) || (0x110 ≤ op && op ≤ 0x114) ||
  (0x120 ≤ op && op ≤ 0x123) || (0x130 ≤ op && op ≤ 0x134) || (0x140 ≤ op && op ≤ 0x146) ||
  (0x150 ≤ op && op ≤ 0x152)

/-- A full word whose major is assigned. -/
def decodeFull (r : Raw) : Except DecErr Instr :=
  if r.op < 0x01B then decodeInt r
  else if r.op < 0x040 then decodeIntImm r
  else if r.op < 0x045 then decodePred r
  else if r.op < 0x071 then decodeFloat r
  else if r.op < 0x07D then decodeFloatImm r
  else if r.op < 0x0A9 then decodeCross r
  else if r.op < 0x0BC then decodeControl r
  else if r.op < 0x0C6 then decodeLine r
  else if r.op < 0x0D5 then decodeScratch r
  else if r.op < 0x0E2 then decodeAtomic r
  else if r.op < 0x0F7 then decodeSync r
  else if r.op < 0x10A then decodeMatrix r
  else if r.op < 0x115 then decodeView r
  else if r.op < 0x124 then decodeQueue r
  else if r.op < 0x135 then decodeWork r
  else if r.op < 0x147 then decodeSystem r
  else decodePriv r

/-- The fields of a half, counted within the half (R61): HM, HG, HS, HD, ROP. -/
def halfFields (n : Nat) : HArgs :=
  ⟨field n 17 7, field n 10 7, field n 7 3, field n 0 7⟩

/-- Check 6 on one half: the failing field, if any (R61, R65). -/
def halfErr (y : Half) : Option Nat :=
  match y.op with
  | .nop => if y.x.hd != 0 then some fD else if y.x.hs != 0 then some fB else if y.x.hg != 0 then some fGuard
            else if y.x.hm != 0 then some fM else none
  | o => if o.isImm then
           if y.x.hs != 0 then some fB else if o.isShiftImm && 32 ≤ y.x.hm then some fM else none
         else if y.x.hm != 0 then some fM else none

/-- The row of a paired word: the operation of its half 0. -/
def pairRow (sw : Bool) (o : ROp) (x : HArgs) (y : Half) : Instr :=
  match o with
  | .nop => .pairNop sw x y | .mov => .pairMov sw x y | .add => .pairAdd sw x y | .sub => .pairSub sw x y
  | .mul => .pairMul sw x y | .minI => .pairMinI32 sw x y | .maxI => .pairMaxI32 sw x y
  | .minN => .pairMinN32 sw x y | .maxN => .pairMaxN32 sw x y | .and => .pairAnd sw x y | .or => .pairOr sw x y
  | .xor => .pairXor sw x y | .shl => .pairShl sw x y | .shr => .pairShr sw x y | .sar => .pairSar sw x y
  | .fadd => .pairFadd sw x y | .fsub => .pairFsub sw x y | .fmul => .pairFmul sw x y | .fmin => .pairFmin sw x y
  | .fmax => .pairFmax sw x y | .movi => .pairMovi sw x y | .addI => .pairAddImm sw x y
  | .subI => .pairSubImm sw x y | .andI => .pairAndImm sw x y | .orI => .pairOrImm sw x y
  | .xorI => .pairXorImm sw x y | .shlI => .pairShlImm sw x y | .shrI => .pairShrImm sw x y
  | .sarI => .pairSarImm sw x y

/-- A paired word (R61 to R65); an unassigned half makes the word unassigned, half 0 first (check 1). Where the halves fail different checks
of R73, the earlier check decides and not half 0 (assumption 79). -/
def decodePair (w : W64) : Except DecErr Instr :=
  let n := w.toNat
  let h0 := field n 0 31
  let h1 := field n 31 31
  match ropOf (field h0 24 7), ropOf (field h1 24 7) with
  | some o0, some o1 =>
    let x := halfFields h0
    let y : Half := ⟨o1, halfFields h1⟩
    match halfErr ⟨o0, x⟩ with
    | some f => .error ⟨0x03, 0, f⟩
    | none =>
      match halfErr y with
      | some f => .error ⟨0x03, 1, f⟩
      | none => .ok (pairRow (bitAt n 63) o0 x y)
  | _, _ => .ok (.unassignedOpcode w)

/-- The instruction a word is, or the check of R73 it fails. -/
def decode (w : W64) : Except DecErr Instr :=
  if bitAt w.toNat 62 then decodePair w
  else
    let r := Raw.ofNat w.toNat
    if opAssigned r.op then decodeFull r else .ok (.unassignedOpcode w)

/-- Whether a word is a full word of a privileged major (R68): check 3 comes before every check after 2. -/
def privilegedWord (w : W64) : Bool :=
  let n := w.toNat
  !bitAt n 62 && 0x150 ≤ field n 48 9 && field n 48 9 ≤ 0x152

/-- The system register that a full word of `sread` or `swrite` names in B, whatever else it holds (R68, R141). -/
def sysRegWord (w : W64) : Option Nat :=
  let n := w.toNat
  if !bitAt n 62 && (field n 48 9 == 0x142 || field n 48 9 == 0x143) then some (field n 18 9) else none

/-- A landing point (R119): a full word with OP 0x0B7. -/
def landingPoint (w : W64) : Bool :=
  let n := w.toNat
  !bitAt n 62 && field n 48 9 == 0x0B7

/-- Decoding from the bytes of memory, lowest address first (R2, R45). -/
def decodeBytes (bs : List Byte) : Except DecErr Instr := decode (BitVec.ofNat 64 (ofBytes bs))

/-- The instruction of a table word: an instruction is one 64-bit word stored little-endian, so the table's numbering
of bits is the word's own; bits above `nbits` are zero. -/
def decodeTableWord (nbits w : Nat) : Option Instr :=
  match decodeBytes (toBytes 8 (w % 2 ^ (Nat.min nbits 64))) with
  | .ok i => some i
  | .error _ => none

/-! The encoder. -/

/-- A full word's fields with every operand field unused. -/
def Hdr.raw (h : Hdr) (op sub : Nat) : Raw :=
  { sw := h.sw, uni := h.uni, neg := h.neg, g := h.g, op := op, sub := sub, d := 452, a := 452, b := 452, c := 452,
    m := 0 }

/-- Bits 26:0 laid into B, C and M. -/
def Raw.low (r : Raw) (n : Nat) : Raw := { r with b := field n 18 9, c := field n 9 9, m := field n 0 9 }

def Raw.withRo (r : Raw) (ro : BitVec 18) : Raw := { r with d := field ro.toNat 9 9, a := field ro.toNat 0 9 }

def encInt (h : Hdr) (op : Nat) (t : IntTy) (d : Dst) (a b c : Src) (m : Nat) : Raw :=
  { h.raw op t.code with d := d.code, a := a.code, b := b.code, c := c.code, m := m }

def encIntImm (h : Hdr) (op : Nat) (t : IntTy) (d : Nat) (a : Src) (imm : BitVec 27) : Raw :=
  { h.raw op t.code with d := d, a := a.code }.low imm.toNat

def encF (h : Hdr) (op sub : Nat) (d : Dst) (a b c : Src) (m : Nat) : Raw :=
  { h.raw op sub with d := d.code, a := a.code, b := b.code, c := c.code, m := m }

def encFImm (h : Hdr) (op sub : Nat) (d : Dst) (a : Src) (imm : BitVec 27) : Raw :=
  { h.raw op sub with d := d.code, a := a.code }.low imm.toNat

def encMem (h : Hdr) (op sub d a ln o disp m : Nat) : Raw :=
  { h.raw op sub with d := d, a := a }.low (packFields [(7, m), (7, disp), (9, o), (4, ln)])

def encMat (h : Hdr) (op sub d a t qm af bf m : Nat) : Raw :=
  { h.raw op sub with d := d, a := a }.low (packFields [(12, m), (4, bf), (4, af), (4, qm), (3, t)])

/-- The fields of a full-word instruction. -/
def encodeRaw : Instr → Option Raw
  | .add h t sat d a b => some (encInt h 0x000 t d a b .zero (b2n sat))
  | .sub h t sat d a b => some (encInt h 0x001 t d a b .zero (b2n sat))
  | .mul h t d a b => some (encInt h 0x002 t d a b .zero 0)
  | .mulh h t d a b => some (encInt h 0x003 t d a b .zero 0)
  | .mad h t d a b c => some (encInt h 0x004 t d a b c 0)
  | .min h t d a b => some (encInt h 0x005 t d a b .zero 0)
  | .max h t d a b => some (encInt h 0x006 t d a b .zero 0)
  | .abs h t d a => some (encInt h 0x007 t d a .zero .zero 0)
  | .neg h t d a => some (encInt h 0x008 t d a .zero .zero 0)
  | .and h t d a b => some (encInt h 0x009 t d a b .zero 0)
  | .or h t d a b => some (encInt h 0x00A t d a b .zero 0)
  | .xor h t d a b => some (encInt h 0x00B t d a b .zero 0)
  | .not h t d a => some (encInt h 0x00C t d a .zero .zero 0)
  | .shl h t d a b => some (encInt h 0x00D t d a b .zero 0)
  | .shr h t d a b => some (encInt h 0x00E t d a b .zero 0)
  | .sar h t d a b => some (encInt h 0x00F t d a b .zero 0)
  | .rot h t d a b => some (encInt h 0x010 t d a b .zero 0)
  | .clz h t d a => some (encInt h 0x011 t d a .zero .zero 0)
  | .popc h t d a => some (encInt h 0x012 t d a .zero .zero 0)
  | .brev h t d a => some (encInt h 0x013 t d a .zero .zero 0)
  | .bfx h t d a b => some (encInt h 0x014 t d a b .zero 0)
  | .bfi h t d a b c => some (encInt h 0x015 t d a b c 0)
  | .sel h t d a b pc => some { encInt h 0x016 t d a b .zero 0 with c := pc }
  | .setp h t cmp pd a b => some { encInt h 0x017 t .zero a b .zero cmp.code with d := pd }
  | .mov h t d a => some (encInt h 0x018 t d a .zero .zero 0)
  | .lea h t sh d a b => some (encInt h 0x019 t d a b .zero sh.toNat)
  | .cvt h st dt r sat d a => some (encInt h 0x01A st d a .zero .zero (dt.code + 16 * r.code + 64 * b2n sat))
  | .addImm h t d a imm => some (encIntImm h 0x020 t d.code a imm)
  | .subImm h t d a imm => some (encIntImm h 0x021 t d.code a imm)
  | .mulImm h t d a imm => some (encIntImm h 0x022 t d.code a imm)
  | .minImm h t d a imm => some (encIntImm h 0x025 t d.code a imm)
  | .maxImm h t d a imm => some (encIntImm h 0x026 t d.code a imm)
  | .andImm h t d a imm => some (encIntImm h 0x029 t d.code a imm)
  | .orImm h t d a imm => some (encIntImm h 0x02A t d.code a imm)
  | .xorImm h t d a imm => some (encIntImm h 0x02B t d.code a imm)
  | .shlImm h t d a imm => some (encIntImm h 0x02D t d.code a imm)
  | .shrImm h t d a imm => some (encIntImm h 0x02E t d.code a imm)
  | .sarImm h t d a imm => some (encIntImm h 0x02F t d.code a imm)
  | .rotImm h t d a imm => some (encIntImm h 0x030 t d.code a imm)
  | .bfxImm h t d a imm => some (encIntImm h 0x034 t d.code a imm)
  | .movi h t d imm => some (encIntImm h 0x038 t d.code .zero imm)
  | .moviHi h d imm => some (encIntImm h 0x038 .b32 d.code .zero imm)
  | .leaImm h t d a imm => some (encIntImm h 0x039 t d.code a imm)
  | .setpEqImm h t pd a imm => some (encIntImm h 0x03A t pd a imm)
  | .setpNeImm h t pd a imm => some (encIntImm h 0x03B t pd a imm)
  | .setpLtImm h t pd a imm => some (encIntImm h 0x03C t pd a imm)
  | .setpLeImm h t pd a imm => some (encIntImm h 0x03D t pd a imm)
  | .setpGtImm h t pd a imm => some (encIntImm h 0x03E t pd a imm)
  | .setpGeImm h t pd a imm => some (encIntImm h 0x03F t pd a imm)
  | .pand h ia ib pd pa pb => some { h.raw 0x040 0 with d := pd, a := pa, b := pb, m := b2n ia + 2 * b2n ib }
  | .por h ia ib pd pa pb => some { h.raw 0x041 0 with d := pd, a := pa, b := pb, m := b2n ia + 2 * b2n ib }
  | .pxor h ia ib pd pa pb => some { h.raw 0x042 0 with d := pd, a := pa, b := pb, m := b2n ia + 2 * b2n ib }
  | .pnot h ia pd pa => some { h.raw 0x043 0 with d := pd, a := pa, m := b2n ia }
  | .pmov h ia pd pa => some { h.raw 0x044 0 with d := pd, a := pa, m := b2n ia }
  | .fadd h r d a b => some (encF h 0x060 r.code d a b .zero 0)
  | .fsub h r d a b => some (encF h 0x061 r.code d a b .zero 0)
  | .fmul h r d a b => some (encF h 0x062 r.code d a b .zero 0)
  | .ffma h r d a b c => some (encF h 0x063 r.code d a b c 0)
  | .fmin h d a b => some (encF h 0x064 0 d a b .zero 0)
  | .fmax h d a b => some (encF h 0x065 0 d a b .zero 0)
  | .frcp h r d a => some (encF h 0x066 r.code d a .zero .zero 0)
  | .frsq h r d a => some (encF h 0x067 r.code d a .zero .zero 0)
  | .fsqrt h r d a => some (encF h 0x068 r.code d a .zero .zero 0)
  | .fexp2 h r d a => some (encF h 0x069 r.code d a .zero .zero 0)
  | .flog2 h r d a => some (encF h 0x06A r.code d a .zero .zero 0)
  | .fsin h r d a => some (encF h 0x06B r.code d a .zero .zero 0)
  | .fcos h r d a => some (encF h 0x06C r.code d a .zero .zero 0)
  | .fsetp h cmp pd a b => some { encF h 0x06D 0 .zero a b .zero cmp.code with d := pd }
  | .fcvt h r mode sat d a => some (encF h 0x06E r.code d a .zero .zero (mode.code + 16 * b2n sat))
  | .frnd h r d a => some (encF h 0x06F r.code d a .zero .zero 0)
  | .fdot h r fmt d a b c => some (encF h 0x070 r.code d a b c fmt.code)
  | .faddImm h r d a imm => some (encFImm h 0x078 r.code d a imm)
  | .fsubImm h r d a imm => some (encFImm h 0x079 r.code d a imm)
  | .fmulImm h r d a imm => some (encFImm h 0x07A r.code d a imm)
  | .fminImm h d a imm => some (encFImm h 0x07B 0 d a imm)
  | .fmaxImm h d a imm => some (encFImm h 0x07C 0 d a imm)
  | .shfl h mode w d a b => some { h.raw 0x0A0 mode.code with d := d.code, a := a, b := b.code, m := b2n w }
  | .shflImm h mode w d a lane => some ({ h.raw 0x0A8 mode.code with d := d.code, a := a }.low (lane.toNat + 32 * b2n w))
  | .vote h kind pd pa => some { h.raw 0x0A1 kind.code with d := pd, a := pa }
  | .voteBallot h d pa => some { h.raw 0x0A1 3 with d := d, a := pa }
  | .matchv h w d a => some { h.raw 0x0A2 (b2n w) with d := d, a := a }
  | .redux h op d a => some { h.raw 0x0A3 op.code with d := d.code, a := a }
  | .bcast h w d a b => some { h.raw 0x0A4 0 with d := d.code, a := a, b := b.code, m := b2n w }
  | .bcastLow h w d a => some { h.raw 0x0A4 1 with d := d.code, a := a, m := b2n w }
  | .br h dest => some (((h.raw 0x0B0 0).low dest.toNat).withRo 0)
  | .bra h dest ro => some (((h.raw 0x0B1 0).low dest.toNat).withRo ro)
  | .jmpi h a => some { h.raw 0x0B2 0 with a := a.code }
  | .call h dest => some (((h.raw 0x0B3 0).low dest.toNat).withRo 0)
  | .calli h a => some { h.raw 0x0B4 0 with a := a.code }
  | .ret h => some (h.raw 0x0B5 0)
  | .regang h => some (h.raw 0x0B6 0)
  | .land h => some (h.raw 0x0B7 0)
  | .exit h => some (h.raw 0x0B8 0)
  | .cede h => some (h.raw 0x0B9 0)
  | .nop h => some (h.raw 0x0BA 0)
  | .tryw h pd ln a => some { h.raw 0x0BB 0 with d := pd, a := a.code, m := ln }
  | .openR h ln pd a => some (encMem h 0x0C0 0 pd a.code ln 452 0 0)
  | .openw h ln pd a => some (encMem h 0x0C0 1 pd a.code ln 452 0 0)
  | .openz h ln pd a => some (encMem h 0x0C0 2 pd a.code ln 452 0 0)
  | .openInv h ln pd a => some (encMem h 0x0C0 3 pd a.code ln 452 0 0)
  | .reopen h ln => some (encMem h 0x0C1 0 452 452 ln 452 0 0)
  | .close h ln => some (encMem h 0x0C2 0 452 452 ln 452 0 0)
  | .ld h w d ln o disp => some (encMem h 0x0C3 w.code d 452 ln o.code disp.toNat 0)
  | .st h w a ln o disp => some (encMem h 0x0C4 w.code 452 a ln o.code disp.toNat 0)
  | .lprobe h d ln => some (encMem h 0x0C5 0 d 452 ln 452 0 0)
  | .lds h w d a disp => some { h.raw 0x0D0 w.code with d := d.code, a := a.code, c := disp.toNat }
  | .sts h w a disp b => some { h.raw 0x0D1 w.code with a := a.code, b := b, c := disp.toNat }
  | .ldsr h w d n a disp => some { h.raw 0x0D2 w.code with d := d.code, a := a.code, c := disp.toNat, m := n.toNat }
  | .stsr h w n a disp b => some { h.raw 0x0D3 w.code with a := a.code, b := b, c := disp.toNat, m := n.toNat }
  | .swz h d a b g p => some { h.raw 0x0D4 0 with d := d.code, a := a.code, b := b.code, m := g + 8 * p }
  | .atom h sc op t d p a b c =>
    some { h.raw 0x0E0 sc.code with d := d, a := a.code, b := b.code, c := c.code, m := op.code + 16 * t.code + 64 * p }
  | .red h sc op t a b c =>
    some { h.raw 0x0E1 sc.code with a := a.code, b := b.code, c := c.code, m := op.code + 16 * t.code + 448 }
  | .barInit h cl a (.imm n) =>
    some { h.raw 0x0F0 0 with a := a.code, b := field n.toNat 9 7, c := field n.toNat 0 9, m := 8 * b2n cl }
  | .barInit h cl a (.reg k) => some { h.raw 0x0F0 0 with a := a.code, b := k.code, m := 8 * b2n cl + 16 }
  | .barArr h sc place a => some { h.raw 0x0F1 sc.code with a := a.code, m := placeCode place }
  | .barWait h sc place a => some { h.raw 0x0F2 sc.code with a := a.code, m := placeCode place }
  | .barTry h sc place pd a b =>
    some { h.raw 0x0F3 sc.code with d := pd, a := a.code, b := b.code, m := placeCode place }
  | .fence h sc => some (h.raw 0x0F4 sc.code)
  | .pub h sc => some (h.raw 0x0F5 sc.code)
  | .acq h sc => some (h.raw 0x0F6 sc.code)
  | .mma h z qm af bf t a b => some (encMat h 0x100 0 a b t qm af bf (b2n z))
  | .mld h side bc qm af d a => some (encMat h 0x101 0 d a.code 0 qm af 0 (64 * b2n side + 128 * b2n bc))
  | .mldV h d ln => some (encMat h 0x101 1 d 452 0 15 0 0 ln)
  | .mldt h side bc qm af g p d a =>
    some (encMat h 0x102 0 d a.code 0 qm af 0 (g + 8 * p + 64 * b2n side + 128 * b2n bc))
  | .mldr h side bc qm af n d a =>
    some (encMat h 0x103 0 d a.code 0 qm af 0 (64 * b2n side + 128 * b2n bc + 256 * n.toNat))
  | .mst h qm t a => some (encMat h 0x104 0 452 a.code t qm 0 0 0)
  | .tzero h qm t => some (encMat h 0x105 0 452 452 t qm 0 0 0)
  | .tmovToVreg h qm d t => some (encMat h 0x106 0 d 452 t qm 0 0 0)
  | .tmovFromVreg h qm t a => some (encMat h 0x106 1 452 a t qm 0 0 0)
  | .tmovTile h qm k j => some (encMat h 0x106 2 452 452 k qm 0 0 j)
  | .tcvt h qm af d t => some (encMat h 0x107 0 d 452 t qm af 0 0)
  | .fmtset h a => some (encMat h 0x108 0 452 a.code 0 0 0 0 0)
  | .fmtget h d => some (encMat h 0x109 0 d 452 0 0 0 0 0)
  | .vreg h sd sa => some { h.raw 0x110 0 with d := 384 + sd, a := 384 + sa }
  | .vdrop h sa => some { h.raw 0x111 0 with a := 384 + sa }
  | .vopen h ln pd pf a => some (encMem h 0x112 0 pd a.code ln 452 0 pf)
  | .vtagTag h d sa b => some { h.raw 0x113 0 with d := d.code, a := 384 + sa, b := b.code }
  | .vtagGen h d sa b => some { h.raw 0x113 1 with d := d.code, a := 384 + sa, b := b.code }
  | .vsync h pd sa b c => some { h.raw 0x114 0 with d := pd, a := 384 + sa, b := b.code, c := c.code }
  | .qbindDrill h q => some { h.raw 0x120 0 with d := 448 + q }
  | .qbindHarrow h q => some { h.raw 0x120 1 with d := 448 + q }
  | .qbindNone h q => some { h.raw 0x120 2 with d := 448 + q }
  | .qpush h q a => some { h.raw 0x121 0 with d := 448 + q, a := a.code }
  | .qpop h d q => some { h.raw 0x122 0 with d := d.code, a := 448 + q }
  | .qpopStat h d q => some { h.raw 0x122 1 with d := d.code, a := 448 + q }
  | .qfence h mask => some { h.raw 0x123 0 with m := mask.toNat }
  | .qfenceWait h mask => some { h.raw 0x123 1 with m := mask.toNat }
  | .launch h sd sa => some { h.raw 0x130 0 with d := 384 + sd, a := 384 + sa }
  | .cread h lv d sa => some { h.raw 0x131 lv.code with d := d.code, a := 384 + sa }
  | .cancel h lv sa => some { h.raw 0x132 lv.code with a := 384 + sa }
  | .amsend h pd a b c => some { h.raw 0x133 0 with d := pd, a := a.code, b := b.code, c := c }
  | .resamp h pd a => some { h.raw 0x134 0 with d := pd, a := a.code }
  | .trap h a code => some { h.raw 0x140 0 with a := a.code, m := code.toNat }
  | .tret h => some (h.raw 0x141 0)
  | .tretSkip h => some (h.raw 0x141 1)
  | .sread h d n => some { h.raw 0x142 0 with d := d.code, b := n.toNat }
  | .swrite h n a => some { h.raw 0x143 0 with a := a.code, b := n.toNat }
  | .halt h => some (h.raw 0x144 0)
  | .brk h code => some { h.raw 0x145 0 with m := code.toNat }
  | .mark h tag a => some { h.raw 0x146 0 with a := a.code, m := tag.toNat }
  | .placeld h pd sa sb => some { h.raw 0x150 0 with d := pd, a := 384 + sa, b := 384 + sb }
  | .quota h pd sa sb => some { h.raw 0x151 0 with d := pd, a := 384 + sa, b := 384 + sb }
  | .fallowHalt h pd sa => some { h.raw 0x152 0 with d := pd, a := 384 + sa }
  | .fallowResume h pd sa => some { h.raw 0x152 1 with d := pd, a := 384 + sa }
  | .fallowStart h pd sa => some { h.raw 0x152 2 with d := pd, a := 384 + sa }
  | .fallowStop h pd sa => some { h.raw 0x152 3 with d := pd, a := 384 + sa }
  | .trmaskWrite h a => some { h.raw 0x143 0 with a := a.code, b := 0x180 }
  | .freezeWrite h a => some { h.raw 0x143 0 with a := a.code, b := 0x184 }
  | .shoot1Write h a => some { h.raw 0x143 0 with a := a.code, b := 0x08F }
  | .shoot2Write h a => some { h.raw 0x143 0 with a := a.code, b := 0x1B0 }
  | .pt1Write h a => some { h.raw 0x143 0 with a := a.code, b := 0x08E }
  | .pt2Write h al a => some { h.raw 0x143 0 with a := a.code, b := 0x1A0 + al.toNat }
  | .virqWrite h a => some { h.raw 0x143 0 with a := a.code, b := 0x086 }
  | .warmWrite h a => some { h.raw 0x143 0 with a := a.code, b := 0x1B2 }
  | _ => none

/-- A half's 31 bits (R61). -/
def Half.toNat (y : Half) : Nat := packFields [(7, y.x.hm), (3, y.x.hg), (7, y.x.hs), (7, y.x.hd), (7, y.op.code)]

/-- The word of a pair: half 0, half 1, P, S (R45, R61). -/
def encodePair (sw : Bool) (o : ROp) (x : HArgs) (y : Half) : W64 :=
  BitVec.ofNat 64 (packFields [(31, (Half.mk o x).toNat), (31, y.toNat), (1, 1), (1, b2n sw)])

/-- The word of an instruction, for the instructions that are words. -/
def encode (i : Instr) : Option W64 :=
  match i with
  | .pairNop sw x y => some (encodePair sw .nop x y)
  | .pairMov sw x y => some (encodePair sw .mov x y)
  | .pairAdd sw x y => some (encodePair sw .add x y)
  | .pairSub sw x y => some (encodePair sw .sub x y)
  | .pairMul sw x y => some (encodePair sw .mul x y)
  | .pairMinI32 sw x y => some (encodePair sw .minI x y)
  | .pairMaxI32 sw x y => some (encodePair sw .maxI x y)
  | .pairMinN32 sw x y => some (encodePair sw .minN x y)
  | .pairMaxN32 sw x y => some (encodePair sw .maxN x y)
  | .pairAnd sw x y => some (encodePair sw .and x y)
  | .pairOr sw x y => some (encodePair sw .or x y)
  | .pairXor sw x y => some (encodePair sw .xor x y)
  | .pairShl sw x y => some (encodePair sw .shl x y)
  | .pairShr sw x y => some (encodePair sw .shr x y)
  | .pairSar sw x y => some (encodePair sw .sar x y)
  | .pairFadd sw x y => some (encodePair sw .fadd x y)
  | .pairFsub sw x y => some (encodePair sw .fsub x y)
  | .pairFmul sw x y => some (encodePair sw .fmul x y)
  | .pairFmin sw x y => some (encodePair sw .fmin x y)
  | .pairFmax sw x y => some (encodePair sw .fmax x y)
  | .pairMovi sw x y => some (encodePair sw .movi x y)
  | .pairAddImm sw x y => some (encodePair sw .addI x y)
  | .pairSubImm sw x y => some (encodePair sw .subI x y)
  | .pairAndImm sw x y => some (encodePair sw .andI x y)
  | .pairOrImm sw x y => some (encodePair sw .orI x y)
  | .pairXorImm sw x y => some (encodePair sw .xorI x y)
  | .pairShlImm sw x y => some (encodePair sw .shlI x y)
  | .pairShrImm sw x y => some (encodePair sw .shrI x y)
  | .pairSarImm sw x y => some (encodePair sw .sarI x y)
  | i => (encodeRaw i).map fun r => BitVec.ofNat 64 r.toNat

end Sys2Proof
end

