-- ==== Sys2Proof/Machine/State.lean ====
section
/-! DEFINITION. The state of the module, as plain data, and the state after reset.
Keyed collections are lists of (key, value) pairs with strictly rising keys that never list the value an unlisted key
reads as, so that equal contents are equal lists. -/

namespace Sys2Proof.Machine

/-- A keyed collection: strictly rising keys, no entry equal to the default its reader names. -/
abbrev Store (α : Type) := List (Nat × α)

/-- Memory by physical byte address (R381): the cells that differ from the byte an unlisted address reads as. -/
abbrev Memory := List Host.Cell

/-- What a byte of memory that nothing has written reads as: the spec gives no contents after power-on
(assumption 7). -/
def Memory.unlisted : Byte := 0#8

/-- Names a register that a word reads or writes: the unit of the declared-count check and of the scoreboard. -/
inductive Reg where
  | v (n : Nat) | s (n : Nat) | p (n : Nat) | q (n : Nat) | ln (n : Nat) | t (n : Nat)
  deriving DecidableEq, Repr, Inhabited

/-- States of a frame reference (R76). -/
inductive RefState where
  | closed | opening | opened | recalled
  deriving DecidableEq, Repr, Inhabited

/-- Forms of an open, in the order of their codes (R94). -/
inductive OForm where
  | openR | openw | openz | openInv | vopen
  deriving DecidableEq, Repr, Inhabited

/-- A frame reference of a line register (R76): the address is kept while the reference is closed. `ipa` is the intermediate
physical address it was bound with, by which stage two finds the references of a page (R13, R390), `shown` the serial number of the
view and the group that a `vopen` bound (R90, R219), `since` the moment up to which the ordering points of its slice had ordered what
came before the bind (R167, R173). -/
structure LRef where
  st : RefState := .closed
  addr : Option Nat := none
  ipa : Nat := 0
  form : OForm := .openR
  entry : Option Nat := none
  shown : Option (Nat × Nat) := none
  since : Nat := 0
  why : Nat := 0
  deriving DecidableEq, Repr, Inhabited

/-- What a `vopen` reference captures with its line (R219, R274). -/
structure Crown where
  slot : Nat
  group : Nat
  tag : Nat
  scale : List Byte
  oexp : List Byte
  deriving DecidableEq, Repr, Inhabited

/-- A line-store entry (R82, R154, R155). `line` is the physical line number, `owed` the gangs that owe its dirty
bytes, `victimSince` the turn at which the last reference left it (R83). `wantDue` is the due generation a waiting
`vopen` fetch needs (R274). -/
structure Entry where
  id : Nat
  al : Nat
  line : Nat
  data : BitVec 1024
  mask : BitVec 128
  version : Option Nat
  stamp : Nat
  stale : Bool
  inv : Bool
  arrived : Bool
  owed : List Nat
  crown : Option Crown
  wantDue : Option Nat
  victimSince : Option Nat
  lid : Nat
  deriving DecidableEq, Repr, Inhabited

/-- A reconvergence stack entry (R115): `div` for DIV, else CALL. -/
structure StackE where
  div : Bool
  rpc : Nat
  pend : LaneMask
  ppc : Nat
  outer : LaneMask
  fmt : W32
  deriving DecidableEq, Repr, Inhabited

/-- What each slice of a gang holds of its own (R16, R40, R115, R332, R370). `prev` and `prevWord` are the address and the
bits of the word it issued last, which a fetch fault names (R129). -/
structure SliceSt where
  pc : Nat := 0
  prev : Nat := 0
  prevWord : W64 := 0
  stack : List StackE := []
  fmt : W32 := 0
  retc : W64 := 0
  hash : W64 := BitVec.allOnes 64
  deriving DecidableEq, Repr, Inhabited

/-- Where a barrier word lies: the owning block and the offset in its rows (R194, R198). -/
structure BarRef where
  blk : Nat
  off : Nat
  deriving DecidableEq, Repr, Inhabited

/-- Why an issue group does not issue. A deadline is a value of VCLK (R352); `adv` the advances of a barrier word when the group
parked. -/
inductive Wait where
  | none
  | switchBit
  | tryw (pd ln : Nat) (lanes : LaneMask) (vers : List (Nat × Nat)) (deadline : Option Nat)
  | barWait (w : BarRef) (lanes : LaneMask) (targets : List (Nat × Nat)) (sc : Scope) (adv : Nat) (remote : Bool)
  | barTry (w : BarRef) (lanes : LaneMask) (targets : List (Nat × Nat)) (sc : Scope) (adv : Nat) (pd : Nat)
      (deadline : Option Nat)
  | regang
  | limit (isAtom : Bool)
  | resamp (pd : Nat)
  | qfence (cmds : List Nat) (lanes : LaneMask)
  | cancel (lv : Level) (ident : W64)
  | vsync (al slot serial : Nat) (groups : List (Nat × Nat)) (pd : Nat) (lanes : LaneMask) (deadline : Option Nat)
  | held (hold : Nat)
  deriving DecidableEq, Repr, Inhabited

/-- An issue group (R19) with its trap registers and handler state (R130 to R132, R408). `sw` is the switch bit of a word that
parked for another reason: the group waits for its fixed-latency results besides (R8). A word that parked retires when it completes (`owes`); a `brk`, `trap` or
`halt` retires when the group resumes from its handler (`owesRet`) or from being held (`owesHeld`) (R370). `wrote` counts what a publish in progress has written back. `stalledAt` is the
cycle after the one in which its next word was last found to wait (R307), `stallWhy` the reason of R376 for which it waited; `probedAt` and
`probeWhy` the same as a sample has found it, which no issue decision regards. `pubHeld` that write-backs of its publish wait for the routes to
change (R380). -/
structure Group where
  slices : List Nat
  wait : Wait := .none
  sw : Bool := false
  owes : Bool := false
  inHandler : Bool := false
  savedSlices : List Nat := []
  savedMask : LaneMask := 0
  savedDepth : List (Nat × Nat) := []
  tcause : W64 := 0
  tpc : W64 := 0
  tword : W64 := 0
  tinfo0 : W64 := 0
  tinfo1 : W64 := 0
  owesRet : Bool := false
  owesHeld : Bool := false
  wrote : Nat := 0
  promoted : Bool := false
  readySince : Option Nat := none
  stalledAt : Nat := 0
  stallWhy : Nat := 0
  probedAt : Nat := 0
  probeWhy : Nat := 0
  pubHeld : Bool := false
  deriving DecidableEq, Repr, Inhabited

/-- An outstanding fixed-latency result (R97, R98): the register, the value each lane had before, the cycle from which
the new value is certain, the slices whose word produced it. -/
structure Shadow where
  reg : Reg
  lanes : LaneMask
  old : Store W64
  due : Nat
  slices : List Nat
  deriving DecidableEq, Repr, Inhabited

/-- What orders a slice's accesses (R173, R174), as turns: `last` when it last made or observed an access that an ordering point
waits for, `ord` what its last ordering point of gang scope or wider has ordered, `heard` what a cross-lane word has brought from
the other slices of its group; `stored` that it has stored to a line since its last publish. -/
structure Seen where
  last : Nat := 0
  ord : Nat := 0
  heard : Nat := 0
  stored : Bool := false
  deriving DecidableEq, Repr, Inhabited

/-- A store word whose bytes are not yet in their entries (R87, R161): the slices that issued it and, for each lane in ascending
order, the entry and the bytes it takes. -/
structure LateStore where
  slices : List Nat
  lid : Nat
  lanes : List (Nat × List (Nat × Byte))
  deriving DecidableEq, Repr, Inhabited

/-- A line load that has been issued and not performed (R5, R178, R181): the width, the first register, for each lane the entry and the
offset, for each slice `since` of its reference. Its registers are pending until it performs, which no line still on its way allows. -/
structure LateLoad where
  slices : List Nat
  w : MemW
  d : Nat
  lanes : List (Nat × Nat × Nat)
  sinces : Store Nat
  deriving DecidableEq, Repr, Inhabited

/-- What a queue register is bound to (R314). -/
inductive QBind where
  | none | drill (id : Nat) | harrow
  deriving DecidableEq, Repr, Inhabited

/-- A gang (R16, R25). Vector register vN lane L is key 32 N + L of `v`; frame reference S of lnK is key 8 K + S of
`refs`; tile entry (m, n) of tile T, quarter j is key 256 (4 T + j) + 16 m + n of `tiles`. `uniV` the vector registers held in uniform form, which shows in timing alone (R35, R36). `units` are the units of its core that
it reserves, `away` those that a fallow has spilled, `spilled` that its slot is one (R345). `joins` keeps for each queue register
the commands that a `qfence` places before what it is pushed later (R320). -/
structure Gang where
  uid : Nat
  blk : Nat
  gid : Nat
  core : Nat
  slot : Nat
  live : LaneMask
  active : LaneMask
  slices : List SliceSt
  groups : List Group
  v : Store W32
  uniV : List Nat
  s : Store W64
  p : Store LaneMask
  lineage : Store W64
  refs : Store LRef
  tiles : Store W32
  tvalid : BitVec 32
  tdirty : BitVec 32
  qb : Store QBind
  joins : Store (List Nat)
  gfault : W64
  fflag : W64
  shadows : List Shadow
  busy : List Reg
  seen : List Seen
  lateStores : List LateStore
  lateLoads : List LateLoad
  floor : Nat
  stored : List Nat
  isOver : Bool
  endCause : Nat
  born : LaneMask
  units : List Nat
  away : List Nat
  spilled : Bool
  deriving DecidableEq, Repr, Inhabited

/-- A recorded arrival at a barrier word: gang, lane, generation (R195). `cur` until the word advances out of that
generation: the record then no longer counts as an arrival, but stays the lane's target (R201, R206; assumption 26). -/
structure Arrival where
  gang : Nat
  lane : Nat
  gen : Nat
  cur : Bool
  deriving DecidableEq, Repr, Inhabited

/-- What the module keeps beside a barrier word (R195, R196). `adv` counts its advances, which alone release waiters (R194); `gen` is the
generation that the last one gave, and `run` the number of the last advance that gave another, 0 where none did. -/
structure BarRec where
  off : Nat
  cl : Bool
  arr : List Arrival
  deferred : Nat
  adv : Nat
  gen : Nat
  run : Nat
  deriving DecidableEq, Repr, Inhabited

/-- What the kernel header gives a block (R290). -/
structure Kernel where
  kaddr : Nat := 0
  entry : Nat := 0
  trap : Nat := 0
  hoff : Nat := 0
  hcount : Nat := 0
  regs : Nat := 0
  scal : Nat := 0
  lines : Nat := 0
  tiles : Nat := 0
  queues : Nat := 0
  scratch : Nat := 0
  guard : Bool := false
  pop : Bool := false
  inhv : Bool := false
  inhlo : Nat := 0
  inhhi : Nat := 0
  popa : Nat := 0
  popb : Nat := 0
  handlers : List Nat := []
  deriving DecidableEq, Repr, Inhabited

/-- A placed block (R16, R34, R44, R187). `units` are the rows of its core that it reserves, `away` those that a fallow has
spilled (R345). `raws` are the words that a raw store initialised and no barrier instruction has named (R195). -/
structure Block where
  uid : Nat
  al : Nat
  lid : Nat
  core : Nat
  bid : Nat
  headland : Bool
  handler : Bool
  ngang : Nat
  threads : Nat
  cpos : Nat
  csize : Nat
  cluster : Nat
  clmap : W64
  chain : Bool
  k : Kernel
  rows : Store Byte
  guardUp : Bool
  bars : List BarRec
  raws : List Nat
  hq : List W64
  hqDrop : Nat
  ended : Bool
  units : List Nat
  away : List Nat
  started : Bool
  deriving DecidableEq, Repr, Inhabited

/-- A chunk of a furrow log (R328). -/
structure Chunk where
  line : Nat
  blk : Nat
  gang : Nat
  slice : Nat
  count : Nat
  deriving DecidableEq, Repr, Inhabited

/-- A member's arrival at a resample: gang, lane, weight bits (R283). -/
structure RArr where
  gang : Nat
  lane : Nat
  weight : W32
  deriving DecidableEq, Repr, Inhabited

/-- A launch and its status (R291, R297, R299, R326 to R333). `inv` lists the lines it has bound by `open.inv`, `began` is the turn of its first placement (R85). -/
structure Launch where
  lid : Nat
  recAddr : Nat
  k : Kernel
  grid : Nat
  threads : Nat
  csize : Nat
  mode : Nat
  prio : Nat
  args : List W64
  seed : W64
  spill : W64
  crec : Nat
  node : Nat
  glast : Bool
  slast : Bool
  jlast : Bool
  graph : Nat
  stage : Nat
  vi : Nat
  job : Nat
  deps : W64
  hl : Bool
  dealt : Nat
  placed : Nat
  done : Nat
  exited : Nat
  faulted : Nat
  cause : Nat
  clevel : Nat
  cancelled : Bool
  complete : Bool
  completeNo : Nat
  startClk : Option Nat
  recs : Store (List W64)
  pstat : W64
  arrivals : List RArr
  stop : Option (W64 × W64)
  logOpen : List Chunk
  chunks : Nat
  isOver : Bool
  gates : List Chunk
  fsize : Nat
  gatemiss : Nat
  hashmiss : Nat
  hashes : Store (List W64)
  inv : List Nat
  entered : Nat
  began : Option Nat
  failed : Bool
  deriving DecidableEq, Repr, Inhabited

/-- A trap record that waits for the ring (R134, R135): the eight words but for SEQ, the cycle of the trap and the place of its
group, by which records enter the ring. -/
structure TrapRec where
  words : List W64
  clock : Nat
  rank : Nat
  deriving DecidableEq, Repr, Inhabited

/-- 4 KiB of a view's arrays at `va` as `vreg` found them mapped: to `pa`, on the physical page of `size` bytes at `base`, which holds
the attribute (R265, R389). -/
structure PageAt where
  va : Nat
  pa : Nat
  base : Nat
  size : Nat
  deriving DecidableEq, Repr, Inhabited

/-- A registered view (R215, R262, R263), with due generations and TAG copies by group. -/
structure View where
  slot : Nat
  serial : Nat
  mbase : Nat
  rows : Nat
  cols : Nat
  rstride : Nat
  kind : Nat
  tfmt : Nat
  layout : Nat
  policy : Nat
  mfmt : Nat
  dbase : Nat
  cbase : Nat
  gen : Nat
  drops : Nat
  blk : Nat
  die : Nat
  due : Store Nat
  tag : Store Nat
  master : List PageAt := []
  storage : List PageAt := []
  deriving DecidableEq, Repr, Inhabited

/-- A closed level of a job that no flag closed: by a cancel (R302). -/
structure Closed where
  lv : Level
  vi : Nat
  job : Nat
  stage : Nat
  graph : Nat
  deriving DecidableEq, Repr, Inhabited

/-- States of an allotment (R335). -/
inductive AState where
  | free | ready | running | fallow | stopped
  deriving DecidableEq, Repr, Inhabited

/-- An allotment (R335, R349). Quota items by number (R336); the place table by key 256 part + index (R70). `shortDue` says that the
next feedback window raises the vectors of a retirement (R343). -/
structure Allot where
  st : AState
  quota : Store Nat
  quotaNext : Store Nat
  serial : Nat
  place : Store W64
  trbase : W64
  trhead : W64
  trtail : W64
  seq : Nat
  holdNo : Nat
  pendTraps : List TrapRec
  tres : List (Nat × Nat)
  memg : Nat
  linkg : Nat
  memgIn : Nat
  linkgIn : Nat
  shortOn : Bool
  shortDue : Bool
  sampctl : W64
  stopwho : W64
  stopcnt : W64
  cntsel : W64
  bank : Store W64
  pt1 : W64
  pt2 : W64
  hlrec : W64
  save : W64
  hldead : Bool
  vclk : W64
  meters : Store W64
  repN : Nat
  chain : List Byte
  views : List View
  vregs : Nat
  launches : List Launch
  lids : Nat
  completions : Nat
  closed : List Closed
  jobs : Store Nat
  drillBytes : Nat
  dirty : List (Nat × Nat)
  repSeq : Nat
  final : Option (List W64)
  deriving DecidableEq, Repr, Inhabited

/-- What a gang of an ended block left of its registers (R42): its number, its scheduler, its granules, their values. -/
structure HeldGang where
  gid : Nat
  sched : Nat
  units : List Nat
  regs : Store W32
  deriving DecidableEq, Repr, Inhabited

/-- A range of granules an ended block, `blk`, left for its successor (R42); `away` the granules that a fallow has spilled (R43). -/
structure Held where
  blk : Nat
  al : Nat
  lid : Nat
  gangs : List HeldGang
  away : List Nat
  deriving DecidableEq, Repr, Inhabited

/-- An accepted active message (R310, R311). -/
structure Msg where
  al : Nat
  lid : Nat
  handler : Nat
  payload : Store W32
  deriving DecidableEq, Repr, Inhabited

/-- A trail record (R357). -/
structure TRec where
  w0 : W64
  w1 : W64
  deriving DecidableEq, Repr, Inhabited

/-- What a derived-event cell remembers on one core (R374): the signals of this cycle and the last, the run of DUR,
the count of THRESH. -/
structure Cell where
  lastA : Bool := false
  run : Nat := 0
  count : Nat := 0
  outputs : Nat := 0
  deriving DecidableEq, Repr, Inhabited

/-- A core's freeze (R363). -/
structure Freeze where
  origin : Nat
  hops : Nat
  cause : Nat
  stamp : Nat
  acked : Bool
  deriving DecidableEq, Repr, Inhabited

/-- One core (physical number): line store, held ranges, sower queue, trail recorder, cells, issue counts; `lastIssue` keeps for
each scheduler the cycle after that of its last word (R307), `lastWho` the group that issued it, `ceded` the group whose `cede` its next pick regards, as 8 x gang +
lowest slice + 1 (R122); `trigAt` is the cycle of the trigger (R365); `tags` the owner of each granule, row and tile slot (R138). -/
structure Core where
  id : Nat
  entries : List Entry
  nextEid : Nat
  held : List Held
  sower : List Msg
  trail : List TRec
  lost : Nat
  recCycle : Nat
  recCount : Nat
  bras : Nat
  post : Option Nat
  trigPend : Bool
  trigSrc : Nat
  trigAt : Nat
  sealNow : Bool
  cells : List Cell
  signals : List (Nat × Nat)
  issued : Store Nat
  lastIssue : Store Nat
  lastWho : Store Nat
  ceded : Store Nat
  tags : Store Nat
  rot : Store Nat
  frozen : Option Freeze
  deriving DecidableEq, Repr, Inhabited

/-- A cached translation of one unit (R390): cores are units 0 to 191, the engines of die d unit 256 + d. -/
structure Tlb where
  unit : Nat
  al : Nat
  vbase : Nat
  vsize : Nat
  ibase : Nat
  pbase : Nat
  size : Nat
  r1 : Bool
  w1 : Bool
  x1 : Bool
  r2 : Bool
  w2 : Bool
  dirty : Bool
  leaf1 : Nat
  leaf2 : Option Nat
  size2 : Nat
  deriving DecidableEq, Repr, Inhabited

/-- An atomic request on its way to its thresher (R208, R210); `held` that the gate of a replay has made it wait (R330). -/
structure AReq where
  id : Nat
  al : Nat
  lid : Nat
  blk : Nat
  bid : Nat
  gang : Nat
  core : Nat
  gid : Nat
  slice : Nat
  lanes : LaneMask
  lane : Nat
  inst : Nat
  isAtom : Bool
  handler : Bool
  op : AOp
  ty : ATy
  addr : Nat
  vaddr : Nat
  b : W64
  c : W64
  d : Nat
  p : Nat
  sc : Scope
  since : Nat
  held : Bool
  deriving DecidableEq, Repr, Inhabited

/-- Results of an `atom` that have returned, kept until all have (R211). -/
structure ARes where
  inst : Nat
  gang : Nat
  lane : Nat
  val : W64
  ok : Bool
  deriving DecidableEq, Repr, Inhabited

/-- What a matrix pass does to an accumulator when it completes (R247, R251, R258). -/
inductive PassOp where
  | mma (z : Bool) (a b : List Byte) (asc bsc aox box : List Byte) (af bf : Nat) (sc : Bool)
  | zero
  | load (entries : Store W32)
  deriving DecidableEq, Repr, Inhabited

/-- A queued pass of a matrix unit (R247, R248). -/
structure Pass where
  id : Nat
  gang : Nat
  core : Nat
  sched : Nat
  tile : Nat
  quarter : Nat
  op : PassOp
  deriving DecidableEq, Repr, Inhabited

/-- What an outstanding scratchpad access does when it performs (R192, R252, R254): a load of lanes at row offsets,
broadcast to the lanes of `uni` when that is not empty; a store of row bytes, but for those, `done`, that higher lanes of its word have
stored already, `raw` where it is an `sts` or `stsr` (R194); a load of operand bytes into the registers from `d`: for each slice of `parts`, the offsets of its bytes, 16 to a
register. -/
inductive SOp where
  | load (w : MemW) (d : Nat) (lanes : List (Nat × Nat)) (uni : LaneMask)
  | store (bytes : List (Nat × Byte)) (done : List Nat) (raw : Bool)
  | mload (d : Nat) (parts : List (Nat × List Nat))
  deriving DecidableEq, Repr, Inhabited

/-- A scratchpad access outstanding in one target row set (R192). `got` holds the bytes of a matrix load, part by part, whose
other fetches have not all been served (R254). -/
structure SAcc where
  id : Nat
  gang : Nat
  slices : List Nat
  blk : Nat
  op : SOp
  inst : Nat
  got : Option (List (List Byte))
  deriving DecidableEq, Repr, Inhabited

/-- A queued rebuild (R218, R267); `who` names the publish that made the marking, 0 where none waits for it. -/
structure HReq where
  die : Nat
  harrow : Nat
  al : Nat
  slot : Nat
  serial : Nat
  group : Nat
  gen : Nat
  who : Nat
  deriving DecidableEq, Repr, Inhabited

/-- A whole command of a queue (R280, R315): `after` the commands that a join places before it (R320). -/
structure Cmd where
  seq : Nat
  words : List W64
  after : List Nat
  deriving DecidableEq, Repr, Inhabited

/-- A command that has started (R317): elements done, bytes copied, memory lines written; `ending` the code with which it has ended
while its markings wait for a harrow's queue (R266, R267); `src` and `dst` the cores that its sides of kind 2 named when it started (R72). -/
structure DRun where
  cmd : Cmd
  idx : Nat
  n : Nat
  lines : List Nat
  ending : Option Nat
  src : Option Nat
  dst : Option Nat
  deriving DecidableEq, Repr, Inhabited

/-- A drill binding with its buffer and return side (R314, R315, R321). `served` counts the bytes of elements of its present turn, and
`last` stamps the end of its last one (R323). -/
structure DBind where
  id : Nat
  al : Nat
  lid : Nat
  gang : Nat
  core : Nat
  blk : Nat
  q : Nat
  drill : Nat
  part : List W64
  partSeq : Nat
  partAfter : List Nat
  cmds : List Cmd
  run : Option DRun
  ret : List W64
  drop : Nat
  served : Nat := 0
  last : Nat := 0
  deriving DecidableEq, Repr, Inhabited

/-- A batch of consecutive blocks held by a die dispatcher (R304). -/
structure Batch where
  al : Nat
  lid : Nat
  die : Nat
  lo : Nat
  hi : Nat
  deriving DecidableEq, Repr, Inhabited

/-- Operator registers and what they govern (R349, R360, R361, R374, R397). -/
structure OpRegs where
  chLost : Nat
  dirLost : Nat
  fieldsLost : List Nat
  retirements : Nat
  opwin : W64
  viown : Store W64
  viwin : Store W64
  viapp : Store Nat
  vipend : Store Nat
  pcap : W64
  trmask : W64
  trtrig : W64
  trctl : W64
  devcell : Store W64
  deriving DecidableEq, Repr, Inhabited

/-- A sealed capsule (R365): its header's numbers, the fault summary by logical core, the dispatcher entries, the
allotment table, the rings in ascending logical core, each with its oldest record first. -/
structure Capsule where
  kind : Nat
  serial : Nat
  count : Nat
  origin : Nat
  cause : Nat
  ncores : Nat
  dropped : Nat
  summary : List (W64 × W64)
  entries : List (List W64)
  table : List (List W64)
  rings : List (List TRec)
  deriving DecidableEq, Repr, Inhabited

/-- Isalon's storage and answers (R364 to R369, R395): the capsules, those in flash with their slot; `answer` the bytes of
the last response, none for an error; `asked` says that the operator's write to FREEZE started the freeze. -/
structure Isalon where
  retention : Option Capsule
  flash : List (Nat × Capsule)
  serial : Nat
  dropped : Nat
  answer : Option (List Byte)
  freezeAt : Option Nat
  origins : List Nat
  fcause : Nat
  asked : Bool
  summary : List (Nat × Nat)
  gathered : Bool
  finals : Store (List W64)
  deriving DecidableEq, Repr, Inhabited

/-- Links, ports, routing and power (R380, R384, R385, R397); `peerFails` counts how often the replay in progress at a port has
failed; from `drainTurn` on no request is injected while the routes change, and no request numbered from `drainUid`, which began at the
cycle `drainClock` (R380); `hdm` gives
the bytes that the HDM decoder of each CXL port covers (R383; assumption 82); `harrowLast` keeps for each harrow one more than the allotment that it
served last (R267); `seen` the bytes that the last host read through BAR2 returned (R393). -/
structure Platform where
  cxlDown : List Nat
  peerDown : List Nat
  peerFails : Store Nat
  draining : Bool
  drainTurn : Nat
  drainUid : Nat
  drainClock : Nat
  hdm : List Nat
  mxHold : Bool
  thermal : Bool
  poweredDown : Bool
  dealDie : Nat
  harvested : List Nat
  harrowLast : Store Nat
  seen : List Byte
  deriving DecidableEq, Repr, Inhabited

/-- An accepted write, kept for R85: when, of which bytes of which line, and what the line held before it. -/
structure OldLine where
  turn : Nat
  line : Nat
  mask : BitVec 128
  old : BitVec 1024
  deriving DecidableEq, Repr, Inhabited

/-- A write of a launch has met a damaged line: the launch ends with the next step (R140, R384). -/
structure Met where
  al : Nat
  lid : Nat
  line : Nat
  deriving DecidableEq, Repr, Inhabited

/-- The whole machine. `owners` tags the lines of memory with the launch that last wrote them (R138). `clock` is the core cycle count, `turn` numbers the turns and serves as the moment of stamps
and floors (assumption 11), `free` numbers the free values drawn, `ticks` keeps for each
periodic step the cycle after its last occurrence, `cur` is the group whose word is being issued. -/
structure State where
  mem : Memory
  vers : Store Nat
  owners : Store Nat
  poison : List Nat
  clock : Nat
  turn : Nat
  free : Nat
  lax : Nat
  agenda : List Turn
  cur : Option GroupKey
  word : W64
  nextUid : Nat
  cores : List Core
  blocks : List Block
  gangs : List Gang
  allots : List Allot
  tlb : List Tlb
  reqs : List AReq
  results : List ARes
  passes : List Pass
  saccs : List SAcc
  hreqs : List HReq
  dbinds : List DBind
  batches : List Batch
  writes : List OldLine
  met : List Met
  ticks : Store Nat
  regs : OpRegs
  isalon : Isalon
  plat : Platform
  deriving DecidableEq, Repr, Inhabited

/-- Why the machine stops. -/
inductive Fault where
  /-- Raised by `step` when the dies have been powered down after a thermal freeze (R397): no word and no event is
  described there. Safe: nothing goes on that the hardware would not do. -/
  | poweredDown
  deriving DecidableEq, Repr

/-- Why a step is refused. -/
inductive Refusal where
  /-- Raised by `exec` for an instruction without a meaning, by its mnemonic. Safe: nothing is claimed of it. -/
  | notModelled (mnemonic : String)
  deriving DecidableEq, Repr

/-- A core after reset: nothing bound, ring empty. -/
def Core.blank (n : Nat) : Core :=
  { id := n, entries := [], nextEid := 0, held := [], sower := [], trail := [], lost := 0, recCycle := 0,
    recCount := 0, bras := 0, post := none, trigPend := false, trigSrc := 0, trigAt := 0, sealNow := false,
    cells := List.replicate 8 {}, signals := [], issued := [], lastIssue := [], lastWho := [], ceded := [], tags := [], rot := [], frozen := none }

/-- An allotment as a reset leaves a tenant: FREE, every item zero (R335, R394). -/
def Allot.blank : Allot :=
  { st := .free, quota := [], quotaNext := [], serial := 0, place := [], trbase := 0, trhead := 0, trtail := 0,
    seq := 0, holdNo := 0, pendTraps := [], tres := [], memg := 0, linkg := 0, memgIn := 0, linkgIn := 0, shortOn := false, shortDue := false, sampctl := 8,
    stopwho := 0, stopcnt := 0, cntsel := 0, bank := [], pt1 := 0, pt2 := 0, hlrec := 0, save := 0,
    hldead := false, vclk := 0, meters := [], repN := 0, chain := [], views := [], vregs := 0, launches := [],
    lids := 0, completions := 0, closed := [], jobs := [], drillBytes := 0, dirty := [], repSeq := 0,
    final := none }

/-- Allotment 0 after a reset (R394): READY, the quotas and the save area the spec lists. -/
def Allot.operator : Allot :=
  { Allot.blank with
    st := .ready
    quota := [(0, 0x00010000), (1, 0x00080000), (2, 0x00400000), (3, 0x00100000), (4, 0x00020000), (5, 1),
      (6, 65536), (7, 2 ^ 40), (8, 0x0001000100010001), (9, 128), (10, 128), (11, 3)]
    memg := 128, linkg := 128, memgIn := 128, linkgIn := 128, save := 0x000001FFFC000020#64 }

/-- Operator registers after reset: PCAP 2,300 (R397), TRMASK (R360), BRJ 4 (R360); the others assumption 3, by which
allotment 0 owns interface 0, so that a BOOT write can meet R292. -/
def OpRegs.reset : OpRegs :=
  { chLost := 0, dirLost := 0, fieldsLost := [], retirements := 0, opwin := 0, viown := [(0, 0x10#64)], viwin := [],
    viapp := [], vipend := [], pcap := 2300, trmask := 0xC0000107031F01FE#64, trtrig := 0, trctl := 4,
    devcell := [] }

def Isalon.reset : Isalon :=
  { retention := none, flash := [], serial := 0, dropped := 0, answer := none, freezeAt := none, origins := [],
    fcause := 0, asked := false, summary := [], gathered := false, finals := [] }

def Platform.reset : Platform :=
  { cxlDown := [], peerDown := [], peerFails := [], draining := false, drainTurn := 0, drainUid := 0, drainClock := 0,
    hdm := List.replicate 16 (2 ^ 40), mxHold := false, thermal := false, poweredDown := false, dealDie := 0, harvested := [],
    harrowLast := [], seen := [] }

/-- The machine right after reset (R396): no block placed, allotment 0 READY, every tenant FREE (R394). -/
def State.reset : State :=
  { mem := [], vers := [], owners := [], poison := [], clock := 0, turn := 0, free := 0,
    lax := 0, agenda := [], cur := none, word := 0, nextUid := 1,
    cores := (List.range 192).map Core.blank, blocks := [], gangs := [],
    allots := Allot.operator :: List.replicate 15 Allot.blank, tlb := [], reqs := [], results := [], passes := [],
    saccs := [], hreqs := [], dbinds := [], batches := [], writes := [], met := [], ticks := [], regs := OpRegs.reset,
    isalon := Isalon.reset, plat := Platform.reset }

end Sys2Proof.Machine
end

