-- ==== Sys2Proof/Machine/Store.lean ====
section
/-! DEFINITION. Keyed collections in canonical form, memory bytes, lines, lane masks and list updates. -/

namespace Sys2Proof.Machine

/-- The value at a key, `d` where the collection lists none. -/
def Store.get {α : Type} (d : α) : Store α → Nat → α
  | [], _ => d
  | (k, x) :: rest, n => if k == n then x else Store.get d rest n

/-- Insert a value at a key, keeping the keys strictly rising. -/
def Store.put {α : Type} : Store α → Nat → α → Store α
  | [], n, y => [(n, y)]
  | (k, x) :: rest, n, y =>
    if n < k then (n, y) :: (k, x) :: rest
    else if n == k then (n, y) :: rest
    else (k, x) :: Store.put rest n y

/-- Remove a key. -/
def Store.del {α : Type} : Store α → Nat → Store α
  | [], _ => []
  | (k, x) :: rest, n => if k == n then Store.del rest n else (k, x) :: Store.del rest n

/-- Write a value: the default removes the entry, so equal contents stay equal lists. -/
def Store.set {α : Type} [DecidableEq α] (d : α) (st : Store α) (n : Nat) (y : α) : Store α :=
  if y = d then st.del n else st.put n y

/-- Keys strictly rising from a lower bound, and no default listed. -/
def Store.wfFrom {α : Type} [DecidableEq α] (d : α) : Nat → Store α → Bool
  | _, [] => true
  | lo, (k, x) :: rest => decide (lo ≤ k) && decide (x ≠ d) && Store.wfFrom d (k + 1) rest

/-- The canonical form. -/
def Store.wf {α : Type} [DecidableEq α] (d : α) (st : Store α) : Bool := Store.wfFrom d 0 st

/-- The byte at a physical address. -/
def Memory.read (m : Memory) (a : Nat) : Byte := Store.get Memory.unlisted m a

/-- Write one byte of memory. -/
def Memory.write (m : Memory) (a : Nat) (b : Byte) : Memory := Store.set Memory.unlisted m a b

/-- The canonical form of memory. -/
def Memory.wf (m : Memory) : Bool := Store.wf Memory.unlisted m

/-- Read `k` bytes from `a` up. -/
def Memory.readN (m : Memory) (a : Nat) : Nat → List Byte
  | 0 => []
  | k + 1 => m.read a :: Memory.readN m (a + 1) k

/-- Write bytes from `a` up. -/
def Memory.writeN (m : Memory) (a : Nat) : List Byte → Memory
  | [] => m
  | b :: bs => Memory.writeN (m.write a b) (a + 1) bs

/-- Write many (key, value) pairs, the last of one key standing. -/
def Store.setMany {α : Type} [DecidableEq α] (d : α) (st : Store α) : List (Nat × α) → Store α
  | [] => st
  | (n, y) :: rest => Store.setMany d (st.set d n y) rest

/-- Replace the element at an index. -/
def listSet {α : Type} : List α → Nat → α → List α
  | [], _, _ => []
  | _ :: xs, 0, y => y :: xs
  | x :: xs, n + 1, y => x :: listSet xs n y

/-- The element at an index, with a default. -/
def nth {α : Type} (d : α) : List α → Nat → α
  | [], _ => d
  | x :: _, 0 => x
  | _ :: xs, n + 1 => nth d xs n

/-- Apply `f` to the element at an index. -/
def modNth {α : Type} (f : α → α) : List α → Nat → List α
  | [], _ => []
  | x :: xs, 0 => f x :: xs
  | x :: xs, n + 1 => x :: modNth f xs n

/-- Apply `f` to the elements that satisfy `p`. -/
def modWhere {α : Type} (p : α → Bool) (f : α → α) (xs : List α) : List α :=
  xs.map fun x => if p x then f x else x

/-- Add an element to a list without repeats. -/
def addOnce (xs : List Nat) (n : Nat) : List Nat := if xs.contains n then xs else n :: xs

/-- The lanes of a mask in ascending order. -/
def lanesOf (m : LaneMask) : List Nat := (List.range 32).filter fun l => m.getLsbD l

/-- The mask of a list of lanes. -/
def maskOf (ls : List Nat) : LaneMask := ls.foldl (fun m l => m ||| (1#32 <<< l)) 0#32

/-- The lanes of slice `k`, 4k to 4k + 3 (R16). -/
def sliceMask (k : Nat) : LaneMask := 0xF#32 <<< (4 * k)

/-- The lanes of a list of slices. -/
def slicesMask (ks : List Nat) : LaneMask := ks.foldl (fun m k => m ||| sliceMask k) 0#32

/-- The slices that hold a lane of a mask, ascending. -/
def slicesIn (m : LaneMask) : List Nat := (List.range 8).filter fun k => m &&& sliceMask k != 0#32

/-- The lowest lane of a mask, 0 for the empty mask. -/
def lowLane (m : LaneMask) : Nat := (lanesOf m).headD 0

/-- Sum of a list. -/
def sumNat (xs : List Nat) : Nat := xs.foldl (· + ·) 0

/-- The prefix of a list that ends with its last element satisfying `p`, and what follows. -/
def throughLast {α : Type} (p : α → Bool) : List α → List α × List α
  | [] => ([], [])
  | x :: xs =>
    let (a, b) := throughLast p xs
    if p x || !a.isEmpty then (x :: a, b) else ([], x :: b)

/-! Lines as 1,024-bit values, byte 0 in the low bits. -/

def lineOf (a : Nat) : Nat := alignDown a 128

def packBytes (bs : List Byte) : BitVec 1024 := BitVec.ofNat 1024 (ofBytes bs)

def lineByte (d : BitVec 1024) (i : Nat) : Byte := BitVec.ofNat 8 (d.toNat / 2 ^ (8 * i))

/-- Replace byte `i`. -/
def setLineByte (d : BitVec 1024) (i : Nat) (b : Byte) : BitVec 1024 :=
  (d &&& ~~~(0xFF#1024 <<< (8 * i))) ||| (b.setWidth 1024 <<< (8 * i))

/-- Replace the bytes of a list of (offset, byte) pairs, in order. -/
def setLineBytes (d : BitVec 1024) (bs : List (Nat × Byte)) : BitVec 1024 :=
  bs.foldl (fun d x => setLineByte d x.1 x.2) d

def offsetMask (os : List Nat) : BitVec 128 := os.foldl (fun m i => m ||| (1#128 <<< i)) 0#128

/-- The bytes of a value under a mask, as (offset, byte) pairs in ascending order. -/
def maskedBytes (d : BitVec 1024) (m : BitVec 128) : List (Nat × Byte) :=
  ((List.range 128).filter fun i => m.getLsbD i).map fun i => (i, lineByte d i)

end Sys2Proof.Machine
end

