-- ==== Sys2Proof/Machine/Float.lean ====
section
/-! DEFINITION. Number formats to the bit (R223 to R241): decoding, rounding once, exact sums and products. -/

namespace Sys2Proof.Machine

/-- A value of a format: NaN, an infinity, or plus or minus m times 2^e. -/
inductive FV where
  | nan
  | inf (neg : Bool)
  | fin (neg : Bool) (m : Nat) (e : Int)
  deriving DecidableEq, Repr, Inhabited

/-- What a format does with its special encodings (R225). -/
inductive FKind where
  | ieee | e4m3 | fp6
  deriving DecidableEq, Repr, Inhabited

/-- A floating layout (R223): exponent width, mantissa width, bias. -/
structure Fmt where
  ew : Nat
  mw : Nat
  bias : Nat
  kind : FKind
  deriving DecidableEq, Repr, Inhabited

def fp32 : Fmt := ⟨8, 23, 127, .ieee⟩
def fp16 : Fmt := ⟨5, 10, 15, .ieee⟩
def bf16 : Fmt := ⟨8, 7, 127, .ieee⟩
def e4m3 : Fmt := ⟨4, 3, 7, .e4m3⟩
def e5m2 : Fmt := ⟨5, 2, 15, .ieee⟩
def e3m2 : Fmt := ⟨3, 2, 3, .fp6⟩
def e2m3 : Fmt := ⟨2, 3, 1, .fp6⟩

/-- Magnitude bits of the largest finite value (R225). -/
def Fmt.maxBits (f : Fmt) : Nat :=
  match f.kind with
  | .ieee => (2 ^ f.ew - 1) * 2 ^ f.mw - 1
  | .e4m3 => 0x7E
  | .fp6 => 2 ^ (f.ew + f.mw) - 1

/-- The NaN the module writes (R225); FP6 has none and writes +0 (R236). -/
def Fmt.nanBits (f : Fmt) : Nat :=
  match f.kind with
  | .ieee => (2 ^ f.ew - 1) * 2 ^ f.mw + 2 ^ (f.mw - 1)
  | .e4m3 => 0x7F
  | .fp6 => 0

def Fmt.signBit (f : Fmt) (neg : Bool) : Nat := if neg then 2 ^ (f.ew + f.mw) else 0

/-- The value of an encoding (R224, R225). -/
def Fmt.decode (f : Fmt) (bits : Nat) : FV :=
  let m := bits % 2 ^ f.mw
  let e := bits / 2 ^ f.mw % 2 ^ f.ew
  let neg := bitAt bits (f.ew + f.mw)
  let top := 2 ^ f.ew - 1
  if f.kind == .ieee && e == top then if m == 0 then .inf neg else .nan
  else if f.kind == .e4m3 && e == top && m == 7 then .nan
  else if e == 0 then .fin neg m (1 - (f.bias : Int) - (f.mw : Int))
  else .fin neg (m + 2 ^ f.mw) ((e : Int) - (f.bias : Int) - (f.mw : Int))

/-- Whether a magnitude with quotient `n` and a remainder `rem` of `2^sh` rounds up. -/
def roundUp (r : Rnd) (neg : Bool) (n rem half : Nat) : Bool :=
  match r with
  | .rne => rem > half || (rem == half && n % 2 == 1)
  | .rz => false
  | .ru => !neg && rem > 0
  | .rd => neg && rem > 0

/-- m times 2^s rounded to a whole number. -/
def roundShift (r : Rnd) (neg : Bool) (m : Nat) (s : Int) : Nat :=
  if 0 ≤ s then m * 2 ^ s.toNat
  else
    let k := (-s).toNat
    let n := m / 2 ^ k
    let rem := m % 2 ^ k
    if roundUp r neg n (2 * rem) (2 ^ k) then n + 1 else n

/-- The overflow value of R235. -/
def Fmt.overflow (f : Fmt) (r : Rnd) (sat neg : Bool) : Nat :=
  let big := f.signBit neg + f.maxBits
  let ov := if sat then big else
    match f.kind with
    | .ieee => f.signBit neg + (f.maxBits + 1)
    | .e4m3 => 0x7F
    | .fp6 => big
  match r with
  | .rne => ov
  | .rz => big
  | .ru => if neg then big else ov
  | .rd => if neg then ov else big

/-- Round a nonzero magnitude m times 2^e once into a format (R235). -/
def Fmt.roundFin (f : Fmt) (r : Rnd) (sat neg : Bool) (m : Nat) (e : Int) : Nat :=
  let emin : Int := 1 - (f.bias : Int)
  let big : Int := e + (m.log2 : Int)
  let qe : Int := (if big < emin then emin else big) - (f.mw : Int)
  let n := roundShift r neg m (e - qe)
  let ef : Nat := (qe + (f.mw : Int) - emin).toNat
  let bits := ef * 2 ^ f.mw + n
  let maxE : Int := (f.maxBits / 2 ^ f.mw : Nat) - (f.bias : Int) - (f.mw : Int)
  let maxM : Nat := f.maxBits % 2 ^ f.mw + 2 ^ f.mw
  let s := maxE - 1 - e
  let tie : Bool := if 0 ≤ s then decide (m ≥ (2 * maxM + 1) * 2 ^ s.toNat)
    else decide (m * 2 ^ (-s).toNat ≥ 2 * maxM + 1)
  if bits > f.maxBits || (r == .rne && tie) then f.overflow r sat neg else f.signBit neg + bits

/-- Narrow a value into a format (R235, R236). -/
def Fmt.encode (f : Fmt) (r : Rnd) (sat : Bool) : FV → Nat
  | .nan => f.nanBits
  | .inf neg =>
    if sat then f.signBit neg + f.maxBits else
      match f.kind with
      | .ieee => f.signBit neg + (f.maxBits + 1)
      | .e4m3 => 0x7F
      | .fp6 => f.signBit neg + f.maxBits
  | .fin neg m e => if m == 0 then f.signBit neg else f.roundFin r sat neg m e

/-- Product, exact. -/
def FV.mul : FV → FV → FV
  | .nan, _ => .nan
  | _, .nan => .nan
  | .inf a, .inf b => .inf (a != b)
  | .inf a, .fin b m _ => if m == 0 then .nan else .inf (a != b)
  | .fin a m _, .inf b => if m == 0 then .nan else .inf (a != b)
  | .fin a m e, .fin b n k => .fin (a != b) (m * n) (e + k)

/-- A product of two elements, exact. Of two whole numbers, scaled or not, it has no -0; of a whole number and a floating one its sign is that
of floating values (R226, R241; assumption 24). -/
def FV.prod (whole : Bool) (x y : FV) : FV :=
  match x.mul y with
  | .fin neg m e => .fin (neg && !(whole && m == 0)) m e
  | v => v

/-- The signed whole number of m times 2^(e - base). -/
def scaledInt (neg : Bool) (m : Nat) (e base : Int) : Int :=
  let n : Int := (m * 2 ^ (e - base).toNat : Nat)
  if neg then -n else n

/-- Sum, exact; an exact zero of opposite signs is +0, or -0 under rounding down (R108). -/
def FV.add (r : Rnd) : FV → FV → FV
  | .nan, _ => .nan
  | _, .nan => .nan
  | .inf a, .inf b => if a == b then .inf a else .nan
  | .inf a, .fin _ _ _ => .inf a
  | .fin _ _ _, .inf b => .inf b
  | .fin a m e, .fin b n k =>
    if m == 0 && n == 0 then .fin (if a == b then a else r == .rd) 0 0
    else
      let base := if e ≤ k then e else k
      let s := scaledInt a m e base + scaledInt b n k base
      if s == 0 then .fin (r == .rd) 0 0 else .fin (decide (s < 0)) s.natAbs base

def FV.flip : FV → FV
  | .nan => .nan
  | .inf a => .inf (!a)
  | .fin a m e => .fin (!a) m e

def FV.isNan : FV → Bool
  | .nan => true
  | _ => false

/-- A whole number as a value. -/
def FV.ofInt (i : Int) : FV := .fin (decide (i < 0)) i.natAbs 0

/-- Times 2^k, exact. -/
def FV.scale (k : Int) : FV → FV
  | .fin a m e => .fin a m (e + k)
  | x => x

/-- The value of FP32 bits. -/
def f32 (w : W32) : FV := fp32.decode w.toNat

/-- FP32 bits of a value rounded once (R106). -/
def toF32 (r : Rnd) (x : FV) : W32 := BitVec.ofNat 32 (fp32.encode r false x)

/-- Order of two finite or infinite values: negative, zero or positive as a - b. -/
def FV.cmp : FV → FV → Int
  | .inf a, .inf b => if a == b then 0 else if a then -1 else 1
  | .inf a, _ => if a then -1 else 1
  | _, .inf b => if b then 1 else -1
  | .fin a m e, .fin b n k =>
    let base := if e ≤ k then e else k
    scaledInt a m e base - scaledInt b n k base
  | _, _ => 0

/-- Sum of products in exact arithmetic, decided as R241 says: all -0 gives -0, an exact zero +0 (or -0 under rounding
down, as R261 gives for `fdot`). -/
def exactSum (r : Rnd) (ts : List FV) : FV :=
  if ts.any FV.isNan then .nan
  else
    let pinf := ts.any fun t => t == .inf false
    let ninf := ts.any fun t => t == .inf true
    if pinf && ninf then .nan
    else if pinf then .inf false
    else if ninf then .inf true
    else
      let base : Int := ts.foldl (fun b t => match t with | .fin _ m e => if m != 0 && e < b then e else b | _ => b) 0
      let s : Int := ts.foldl (fun acc t => match t with
        | .fin a m e => if m == 0 then acc else acc + scaledInt a m e base
        | _ => acc) 0
      if s == 0 then
        let allNeg := ts.all fun t => match t with | .fin a m _ => a && m == 0 | _ => false
        .fin (allNeg || r == .rd) 0 0
      else .fin (decide (s < 0)) s.natAbs base

/-- Round to a whole number (R237); NaN gives 0. -/
def FV.toInt (r : Rnd) : FV → Int
  | .nan => 0
  | .inf _ => 0
  | .fin neg m e =>
    let n : Int := roundShift r neg m e
    if neg then -n else n

/-- Conversion to an integer range: rounds, clamps, NaN and -0 to 0 (R110, R237). -/
def FV.toRange (r : Rnd) (lo hi : Int) : FV → Int
  | .nan => 0
  | .inf neg => if neg then lo else hi
  | x => let i := x.toInt r; if i < lo then lo else if i > hi then hi else i

/-- Round to a whole number, the sign of a zero result kept (R110). -/
def FV.whole (r : Rnd) : FV → FV
  | .fin neg m e => .fin neg (roundShift r neg m e) 0
  | x => x

/-- `fmin` and `fmax` (R109): -0 below +0; one NaN gives the other source. -/
def fminmax (isMax : Bool) (a b : W32) : W32 :=
  let x := f32 a
  let y := f32 b
  if x.isNan && y.isNan then 0x7FC00000#32
  else if x.isNan then b
  else if y.isNan then a
  else
    let c := x.cmp y
    let aLess : Bool := decide (c < 0) || (c == 0 && a.getLsbD 31 && !b.getLsbD 31)
    if aLess == isMax then b else a

/-- `fsetp` (R109). -/
def fcompare (k : FCmp) (a b : W32) : Bool :=
  let x := f32 a
  let y := f32 b
  let nan := x.isNan || y.isNan
  let c := x.cmp y
  match k with
  | .eq => !nan && c == 0
  | .ne => nan || c != 0
  | .lt => !nan && decide (c < 0)
  | .le => !nan && decide (c ≤ 0)
  | .gt => !nan && decide (c > 0)
  | .ge => !nan && decide (c ≥ 0)
  | .num => !nan
  | .nan => nan

def fAdd (r : Rnd) (a b : W32) : W32 := toF32 r ((f32 a).add r (f32 b))
def fSub (r : Rnd) (a b : W32) : W32 := toF32 r ((f32 a).add r (f32 b).flip)
def fMul (r : Rnd) (a b : W32) : W32 := toF32 r ((f32 a).mul (f32 b))
def fFma (r : Rnd) (a b c : W32) : W32 := toF32 r (((f32 a).mul (f32 b)).add r (f32 c))

/-! Division, roots and the functions of R107. Each computes more bits than a rounding needs and marks an inexact
result by a last odd bit, so that the one rounding under SUB is the rounding of the exact value. -/

/-- Integer square root, one result bit at a time from `k` down. -/
def isqrtFrom : Nat → Nat → Nat → Nat
  | 0, _, acc => acc
  | k + 1, n, acc =>
    let t := acc + 2 ^ k
    if t * t ≤ n then isqrtFrom k n t else isqrtFrom k n acc

def isqrt (n : Nat) : Nat := isqrtFrom (n.log2 / 2 + 1) n 0

/-- m times 2^e with a sticky bit for what lies below. -/
def sticky (neg : Bool) (m : Nat) (inexact : Bool) (e : Int) : FV := .fin neg (2 * m + b2n inexact) (e - 1)

/-- 1 / a (R108). -/
def fRcp (r : Rnd) (a : W32) : W32 :=
  match f32 a with
  | .nan => 0x7FC00000#32
  | .inf neg => if neg then 0x80000000#32 else 0#32
  | .fin neg m e =>
    if m == 0 then (if neg then 0xFF800000#32 else 0x7F800000#32)
    else toF32 r (sticky neg (2 ^ 80 / m) (2 ^ 80 % m != 0) (-80 - e))

/-- Square root of a positive value, with its sticky bit. -/
def sqrtFV (m : Nat) (e : Int) : FV :=
  let odd := e % 2 != 0
  let m' := (if odd then 2 * m else m) * 2 ^ 80
  let e' := (if odd then e - 1 else e) - 80
  let q := isqrt m'
  sticky false q (q * q != m') (e' / 2)

def fSqrt (r : Rnd) (a : W32) : W32 :=
  match f32 a with
  | .nan => 0x7FC00000#32
  | .inf neg => if neg then 0x7FC00000#32 else 0x7F800000#32
  | .fin neg m e =>
    if m == 0 then a else if neg then 0x7FC00000#32 else toF32 r (sqrtFV m e)

def fRsq (r : Rnd) (a : W32) : W32 :=
  match f32 a with
  | .nan => 0x7FC00000#32
  | .inf neg => if neg then 0x7FC00000#32 else 0#32
  | .fin neg m e =>
    if m == 0 then (if neg then 0xFF800000#32 else 0x7F800000#32)
    else if neg then 0x7FC00000#32
    else
      let odd := e % 2 != 0
      let m' := if odd then 2 * m else m
      let e' := if odd then e - 1 else e
      let n := 2 ^ 160 / m'
      let q := isqrt n
      toF32 r (sticky false q (q * q * m' != 2 ^ 160) (-80 - e' / 2))

/-- Bits of fraction in the fixed-point arithmetic of the functions (assumption 16). -/
def fixP : Nat := 512

/-- ln 2 in fixed point: the sum of 1 / (k 2^k). -/
def ln2From : Nat → Nat → Nat
  | 0, acc => acc
  | k + 1, acc => ln2From k (acc + 2 ^ fixP / ((k + 1) * 2 ^ (k + 1)))

def ln2Fix : Nat := ln2From 520 0

/-- Taylor sum of exp x, x in fixed point below 1: `t` the current term. -/
def expFrom : Nat → Nat → Nat → Nat → Nat → Nat
  | 0, _, _, _, acc => acc
  | n + 1, k, x, t, acc =>
    let t' := t * x / 2 ^ fixP / k
    expFrom n (k + 1) x t' (acc + t')

def expFix (x : Nat) : Nat := expFrom 120 1 x (2 ^ fixP) (2 ^ fixP)

/-- arctan (1/q) in fixed point, as signed partial sums: `p` holds 1 / q^(2k+1). -/
def atanFrom : Nat → Nat → Nat → Nat → Int → Int
  | 0, _, _, _, acc => acc
  | n + 1, k, q, p, acc =>
    let term : Int := (p / (2 * k + 1) : Nat)
    atanFrom n (k + 1) q (p / (q * q)) (if k % 2 == 0 then acc + term else acc - term)

/-- pi in fixed point: 16 arctan (1/5) - 4 arctan (1/239). -/
def piFix : Nat :=
  (16 * atanFrom 230 0 5 (2 ^ fixP / 5) 0 - 4 * atanFrom 70 0 239 (2 ^ fixP / 239) 0).toNat

/-- Taylor sum of sin x, x in fixed point: `t` the current term's magnitude. -/
def sinFrom : Nat → Nat → Nat → Nat → Int → Int
  | 0, _, _, _, acc => acc
  | n + 1, k, x2, t, acc =>
    let t' := t * x2 / 2 ^ fixP / ((2 * k) * (2 * k + 1))
    sinFrom n (k + 1) x2 t' (if k % 2 == 1 then acc - (t' : Int) else acc + (t' : Int))

/-- sin (pi x) for x in [0, 1/2], both in fixed point. -/
def sinPiFix (x : Nat) : Nat :=
  let y := x * piFix / 2 ^ fixP
  (sinFrom 60 1 (y * y / 2 ^ fixP) y (y : Int)).toNat

/-- a in fixed point, modulo 2, for a finite float magnitude. -/
def mod2Fix (m : Nat) (e : Int) : Nat :=
  let s : Int := e + (fixP : Int)
  (if 0 ≤ s then m * 2 ^ s.toNat else m / 2 ^ (-s).toNat) % 2 ^ (fixP + 1)

/-- sin (pi x) for x in [0, 2) in fixed point: sign, and the value or an exact 0 or 1. -/
def sinPiOf (x : Nat) : Bool × FV :=
  let one := 2 ^ fixP
  let neg := decide (one ≤ x)
  let y := x % one
  let z := if 2 * y > one then one - y else y
  if z == 0 then (neg, .fin neg 0 0)
  else if 2 * z == one then (neg, .fin neg 1 0)
  else (neg, sticky neg (sinPiFix z / 2 ^ 20) true (20 - (fixP : Int)))

def fSin (r : Rnd) (a : W32) : W32 :=
  match f32 a with
  | .nan => 0x7FC00000#32
  | .inf _ => 0x7FC00000#32
  | .fin neg m e =>
    if m == 0 then a
    else
      let (_, v) := sinPiOf (mod2Fix m e)
      match v with
      | .fin s n k => if n == 0 then (if neg then 0x80000000#32 else 0#32) else toF32 r (.fin (s != neg) n k)
      | x => toF32 r x

def fCos (r : Rnd) (a : W32) : W32 :=
  match f32 a with
  | .nan => 0x7FC00000#32
  | .inf _ => 0x7FC00000#32
  | .fin _ m e =>
    let x := (mod2Fix m e + 2 ^ (fixP - 1)) % 2 ^ (fixP + 1)
    match (sinPiOf x).2 with
    | .fin s n k => if n == 0 then 0#32 else toF32 r (.fin s n k)
    | v => toF32 r v

def fExp2 (r : Rnd) (a : W32) : W32 :=
  match f32 a with
  | .nan => 0x7FC00000#32
  | .inf neg => if neg then 0#32 else 0x7F800000#32
  | .fin neg m e =>
    if m == 0 then 0x3F800000#32
    else
      let big : Int := e + (m.log2 : Int)
      if big ≥ 9 then toF32 r (sticky false 1 true (if neg then -400 else 400))
      else
        let x : Int := scaledInt neg m (e + (fixP : Int)) 0
        let n : Int := x / ((2 ^ fixP : Nat) : Int)
        let f : Nat := (x % ((2 ^ fixP : Nat) : Int)).toNat
        if f == 0 then toF32 r (.fin false 1 n)
        else toF32 r (sticky false (expFix (f * ln2Fix / 2 ^ fixP) / 2 ^ 20) true (n + 20 - (fixP : Int)))

/-- Binary digits of log2 y, y in [1, 2) in fixed point, by squaring. -/
def log2Digits : Nat → Nat → Nat → Nat
  | 0, _, acc => acc
  | n + 1, y, acc =>
    let y2 := y * y / 2 ^ fixP
    if y2 ≥ 2 ^ (fixP + 1) then log2Digits n (y2 / 2) (2 * acc + 1) else log2Digits n y2 (2 * acc)

def fLog2 (r : Rnd) (a : W32) : W32 :=
  match f32 a with
  | .nan => 0x7FC00000#32
  | .inf neg => if neg then 0x7FC00000#32 else 0x7F800000#32
  | .fin neg m e =>
    if m == 0 then 0xFF800000#32
    else if neg then 0x7FC00000#32
    else
      let l := m.log2
      let n : Int := e + (l : Int)
      if m == 2 ^ l then toF32 r (if n == 0 then .fin false 0 0 else FV.ofInt n)
      else
        let d := log2Digits 200 (m * 2 ^ (fixP - l)) 0
        let v : Int := n * ((2 ^ 200 : Nat) : Int) + (d : Int)
        -- the exact value lies strictly between v and v + 1
        let w : Int := 2 * v + 1
        toF32 r (.fin (decide (w < 0)) w.natAbs (-201))

/-! Element formats of the matrix operands (R40, R226 to R233). -/

/-- Value of an element code under a format code of R40; Tilth-4 is decoded with its partner (`t4`). -/
def elemValue (code bits : Nat) : FV :=
  match code with
  | 0 => fp16.decode bits
  | 1 => bf16.decode bits
  | 2 => e4m3.decode bits
  | 3 => e5m2.decode bits
  | 4 => e3m2.decode bits
  | 5 => e2m3.decode bits
  | 6 => FV.ofInt (signedOf 8 bits)
  | 7 => FV.ofInt (signedOf 4 bits)
  | _ => .fin false 0 0

/-- The elements of a format are whole numbers (R226). -/
def wholeCode (code : Nat) : Bool := code == 6 || code == 7

/-- Element `hi` of a Tilth-4 byte is a code or the zero beside an outlier, not an outlier (R229). -/
def t4Whole (byte : Nat) (hi : Bool) : Bool := byte % 256 == 0x88 || (if hi then byte / 16 % 16 else byte % 16) != 8

/-- Element `hi` (0 low, 1 high) of a Tilth-4 byte with outlier byte `x` (R229, R230). -/
def t4Value (byte x : Nat) (hi : Bool) : FV :=
  let l := byte % 16
  let h := byte / 16 % 16
  let mine := if hi then h else l
  let other := if hi then l else h
  if l == 8 && h == 8 then .fin false 0 0
  else if mine == 8 then
    e4m3.decode (128 * (other / 8) + 8 * (x % 16) + other % 8)
  else if other == 8 then .fin false 0 0
  else FV.ofInt (signedOf 4 mine)

/-- Width in bits of an element (R223, R226). -/
def elemBits (code : Nat) : Nat :=
  match code with
  | 0 | 1 => 16
  | 2 | 3 | 6 => 8
  | 4 | 5 => 6
  | _ => 4

/-- The class of a format code (R242): 0 16-bit, 1 8-bit and 6-bit, 2 4-bit, 3 none. -/
def fmtClass (code : Nat) : Nat :=
  if code ≤ 1 then 0 else if code ≤ 6 then 1 else if code ≤ 8 then 2 else 3

/-- K of a class (R242). -/
def classK (c : Nat) : Nat := if c == 0 then 32 else if c == 1 then 64 else 128

/-- The narrow floating format of a code, if it is one. -/
def narrowFmt (code : Nat) : Option Fmt :=
  match code with
  | 0 => some fp16 | 1 => some bf16 | 2 => some e4m3 | 3 => some e5m2 | 4 => some e3m2 | 5 => some e2m3 | _ => none

/-- FP32 value to an element code under a rounding and SAT (R235 to R237): the bits, and whether a NaN was lost. -/
def narrowElem (code : Nat) (r : Rnd) (sat : Bool) (x : FV) : Nat × Bool :=
  match narrowFmt code with
  | some f => (f.encode r sat x, x.isNan && f.kind == .fp6)
  | none =>
    if code == 6 then (wrapTo 8 (x.toRange r (-128) 127), x.isNan)
    else (wrapTo 4 (x.toRange r (-8) 7), x.isNan)

/-- `fdot` (R261): c plus the exact sum of products, rounded once. -/
def fDot (r : Rnd) (f : DotFmt) (a b c : W32) : W32 :=
  let code := match f with | .f16 => 0 | .bf16 => 1 | .f8e4 => 2 | .f8e5 => 3 | .i8 => 6 | .i4 => 7
  let w := elemBits code
  let n := 32 / w
  let ps := (List.range n).map fun i =>
    (elemValue code (field a.toNat (i * w) w)).prod (wholeCode code) (elemValue code (field b.toNat (i * w) w))
  toF32 r (exactSum r (f32 c :: ps))

/-- `fcvt` (R110): 32 bits, or 64 for modes 2 and 3. -/
def fCvt (r : Rnd) (mode : FMode) (sat : Bool) (a : W32) : W64 :=
  let x := f32 a
  let n : Nat := match mode with
    | .toI32 => wrapTo 32 (x.toRange r (-(2 ^ 31 : Int)) (2 ^ 31 - 1))
    | .toN32 => wrapTo 32 (x.toRange r 0 (2 ^ 32 - 1))
    | .toI64 => wrapTo 64 (x.toRange r (-(2 ^ 63 : Int)) (2 ^ 63 - 1))
    | .toN64 => wrapTo 64 (x.toRange r 0 (2 ^ 64 - 1))
    | .toF16 => fp16.encode r sat x
    | .toBf16 => bf16.encode r sat x
    | .ofF16 => fp32.encode r false (fp16.decode a.toNat)
    | .ofBf16 => fp32.encode r false (bf16.decode a.toNat)
    | .toE4 => e4m3.encode r sat x
    | .toE5 => e5m2.encode r sat x
    | .ofE4 => fp32.encode r false (e4m3.decode a.toNat)
    | .ofE5 => fp32.encode r false (e5m2.decode a.toNat)
  BitVec.ofNat 64 n

end Sys2Proof.Machine
end

