-- ==== Sys2Proof/Machine/Ops.lean ====
section
/-! DEFINITION. Named operations over the state: lookups and updates, the trail, meters, registers with their early
reads, barriers' deductions, the end of lanes and gangs, taking an exception and returning from one. -/

namespace Sys2Proof
namespace Machine

/-- What a trap reports (R129 to R131). -/
structure TrapInfo where
  cause : Nat
  half : Nat := 0
  fld : Nat := 0
  reg : Nat := 0
  slice : Nat := 0
  lane : Nat := 0
  kind : Nat := 0
  info1 : Nat := 0
  deriving DecidableEq, Repr, Inhabited

/-- Why a word does not complete: it traps, it issues again later, or what it reads is damaged, in an array that `kind` names (R140). -/
inductive Halt where
  | trap (t : TrapInfo)
  | wait
  | damage (kind line : Nat)
  deriving DecidableEq, Repr, Inhabited

abbrev M (α : Type) := Except Halt α

def trapWith {α : Type} (t : TrapInfo) : M α := .error (.trap t)

def waitIf (b : Bool) : M Unit := if b then .error .wait else .ok ()

def trapIf (b : Bool) (t : TrapInfo) : M Unit := if b then .error (.trap t) else .ok ()

/-- A machine as Lean has it when a lookup fails. -/
def Allot.none : Allot := Allot.blank

def State.allot (s : State) (a : Nat) : Allot := nth Allot.blank s.allots a

def State.modAllot (s : State) (a : Nat) (f : Allot → Allot) : State := { s with allots := modNth f s.allots a }

def State.core (s : State) (c : Nat) : Core := nth (Core.blank c) s.cores c

def State.modCore (s : State) (c : Nat) (f : Core → Core) : State := { s with cores := modNth f s.cores c }

def State.gang? (s : State) (u : Nat) : Option Gang := s.gangs.find? fun g => g.uid == u

def State.modGang (s : State) (u : Nat) (f : Gang → Gang) : State :=
  { s with gangs := modWhere (fun g => g.uid == u) f s.gangs }

def State.block? (s : State) (u : Nat) : Option Block := s.blocks.find? fun b => b.uid == u

def State.modBlock (s : State) (u : Nat) (f : Block → Block) : State :=
  { s with blocks := modWhere (fun b => b.uid == u) f s.blocks }

def State.launch? (s : State) (a l : Nat) : Option Launch := (s.allot a).launches.find? fun x => x.lid == l

def State.modLaunch (s : State) (a l : Nat) (f : Launch → Launch) : State :=
  s.modAllot a fun x => { x with launches := modWhere (fun y => y.lid == l) f x.launches }

/-- What a word's meaning works on: the group's key, its gang, the group, its block, the address of the word. -/
structure Ctx where
  key : GroupKey
  gang : Gang
  grp : Group
  blk : Block
  pc : Nat
  deriving DecidableEq, Repr, Inhabited

def Ctx.al (c : Ctx) : Nat := c.blk.al
def Ctx.uid (c : Ctx) : Nat := c.gang.uid
def Ctx.core (c : Ctx) : Nat := c.gang.core

/-- Active lanes of the issuing group (R114). -/
def Ctx.lanes (c : Ctx) : LaneMask := c.gang.live &&& c.gang.active &&& slicesMask c.grp.slices

/-- Live lanes of the issuing group, active or held. -/
def Ctx.liveLanes (c : Ctx) : LaneMask := c.gang.live &&& slicesMask c.grp.slices

/-- The block is its allotment's headland program (R350). -/
def Ctx.headland (c : Ctx) : Bool := c.blk.headland

/-- The headland program of allotment 0, the one mode that may run the privileged words (R68). -/
def Ctx.operator (c : Ctx) : Bool := c.blk.headland && c.blk.al == 0

def SliceSt.none : SliceSt := {}

def Gang.slice (g : Gang) (k : Nat) : SliceSt := nth SliceSt.none g.slices k

def Gang.modSlice (g : Gang) (k : Nat) (f : SliceSt → SliceSt) : Gang := { g with slices := modNth f g.slices k }

/-- Apply `f` to each slice of a list. -/
def Gang.modSlices (g : Gang) (ks : List Nat) (f : SliceSt → SliceSt) : Gang := ks.foldl (fun g k => g.modSlice k f) g

/-- A group's lowest slice, by which it is named. -/
def Group.low (g : Group) : Nat := g.slices.headD 0

def Gang.group? (g : Gang) (k : Nat) : Option Group := g.groups.find? fun x => x.low == k

def Gang.modGroup (g : Gang) (k : Nat) (f : Group → Group) : Gang :=
  { g with groups := modWhere (fun x => x.low == k) f g.groups }

/-- The context of a group, if its gang and block are there. -/
def State.ctx (s : State) (k : GroupKey) : Option Ctx := do
  let u ← (s.gangs.find? fun g => g.core == k.core && g.slot == k.slot && !g.isOver && !g.spilled).map fun (g : Gang) => g.uid
  let g ← s.gang? u
  let grp ← g.group? k.slice
  let b ← s.block? g.blk
  pure ⟨k, g, grp, b, (g.slice grp.low).pc⟩

def State.modGroup (s : State) (c : Ctx) (f : Group → Group) : State :=
  s.modGang c.uid fun g => g.modGroup c.grp.low f

/-- The group's core has frozen (R363). -/
def State.stopped (s : State) (c : Ctx) : Bool := (s.core c.core).frozen.isSome

/-! Quotas and place tables. -/

/-- A quota item's value (R336). -/
def Allot.item (a : Allot) (i : Nat) : Nat := a.quota.get 0 i

def Allot.count (a : Allot) (i : Nat) : Nat := field (a.item i) 16 16
def Allot.base (a : Allot) (i : Nat) : Nat := field (a.item i) 0 16

/-- An entry of a place table as it is held: V and PHYS (R70). -/
def placeHeld (e : W64) : W64 := e &&& 0xFF01#64

/-- What a logical die (part 0), field (1) or core (2) names (R69, R70). `none` is an unmapped place: V is 0, or the number lies
beyond the table (R71). -/
def State.place (s : State) (al part idx : Nat) : Option Nat :=
  let limit := if part == 0 then 4 else if part == 1 then 48 else 192
  if idx ≥ limit then none
  else
    let e := (s.allot al).place.get 0#64 (256 * part + idx)
    if e.getLsbD 0 then some (field e.toNat 8 8) else none

/-- The numbers that firmware assigns (R69): every unit its own, a harvested core's entry left invalid. -/
def numberedPlaces (harvested : List Nat) : Store W64 :=
  let part := fun (p n : Nat) => (List.range n).map fun k => (256 * p + k, BitVec.ofNat 64 (1 + 256 * k))
  part 0 4 ++ part 1 48 ++ (part 2 192).filter fun x => !harvested.contains (x.1 - 512)

/-- Firmware gives an allotment whose table maps nothing the numbers that it assigns (R396; assumption 9). -/
def Allot.numbered (a : Allot) (harvested : List Nat) : Allot :=
  if a.place.isEmpty then { a with place := numberedPlaces harvested } else a

/-- The logical number of a physical core for an allotment, its own number where no entry names it. -/
def State.logicalCore (s : State) (al phys : Nat) : Nat :=
  ((List.range 192).find? fun k => s.place al 2 k == some phys).getD phys

/-- The physical core that c.N names from a core (R69, R71). -/
def State.fieldCore (s : State) (al phys n : Nat) : Option Nat :=
  let l := s.logicalCore al phys
  s.place al 2 (4 * (l / 4) + n)

/-- Enabled cores (R1). -/
def State.enabled (s : State) : List Nat :=
  (List.range 192).filter fun c => !s.plat.harvested.contains c && !s.regs.fieldsLost.contains (c / 4)

def dieOfCore (c : Nat) : Nat := c / 48

/-! The trail recorder, signals and meters. -/

/-- Put a record into a ring of 4,096 (R357, R359). -/
def Core.push (c : Core) (r : TRec) : Core := { c with trail := (r :: c.trail).take 4096 }

/-- Record word 0 (R357). -/
def recWord0 (stamp al cls sched slot slice aux : Nat) : W64 :=
  BitVec.ofNat 64 (packFields [(32, stamp), (4, al), (6, cls), (2, sched), (4, slot), (3, slice), (13, aux)])

/-- Classes that only TRMASK's wired bits cover (R360). -/
def clsWired (cls : Nat) : Bool := cls == 32 || cls == 33 || cls == 34 || cls == 62 || cls == 63

/-- Classes whose records are written whatever else the cycle has written (R359, R362, R363). -/
def clsForced (cls : Nat) : Bool := cls == 32 || cls == 33 || cls == 34

/-- A record enters a core's ring: it counts in its cycle and, after a trigger, among the POST ones (R359, R362). -/
def Core.put (c : Core) (r : TRec) : Core := { c.push r with recCount := c.recCount + 1, post := c.post.map (· - 1) }

/-- A core with a LOST record, which tells how many events have been dropped (R359). -/
def Core.tellLost (c : Core) (clock : Nat) : Core :=
  { c.put ⟨recWord0 (clock % 2 ^ 32) 0 63 0 0 0 0, BitVec.ofNat 64 c.lost⟩ with lost := 0 }

/-- The ring takes a record of a class: two a cycle, and none once the records after a trigger have been written. -/
def Core.takes (c : Core) (cls : Nat) : Bool := c.post != some 0 && (c.recCount < 2 || clsForced cls)

/-- A record of a class and an allotment is put into a core's ring or dropped and counted; a LOST record comes before it where
events have been dropped, and takes its place in the cycle (R359). Beside the core, the class and the allotment of each record
written. -/
def Core.logRecord (c : Core) (clock cls al : Nat) (r : TRec) : Core × List (Nat × Nat) :=
  let c := if c.recCycle == clock then c else { c with recCycle := clock, recCount := 0 }
  if !c.takes cls then ({ c with lost := c.lost + 1 }, [])
  else if c.lost > 0 && cls != 34 then
    let t := c.tellLost clock
    if t.takes cls then (t.put r, [(63, 0), (cls, al)])
    else ({ t with lost := if t.post == some 0 then 0 else 1 }, [(63, 0)])
  else (c.put r, [(cls, al)])

/-- The trigger names a record of a class and an allotment, and the core has not been stopped by one (R361, R362). -/
def Core.triggers (c : Core) (t cls al : Nat) : Bool :=
  !bitAt t 14 && field t 0 6 == cls && (bitAt t 10 || field t 6 4 == al) && cls != 33 && c.post.isNone

/-- A core whose trigger has fired: its TRIGGER record is the next that it writes, and EN is cleared with the trigger's own step (R362). -/
def Core.arm (c : Core) (t clock : Nat) : Core := { c with trigPend := true, trigSrc := t % 2 ^ 16, trigAt := clock }

/-- The trigger is armed: EN is set, and it has fired on no core (R362). -/
def State.armed (s : State) : Bool := s.regs.trtrig.getLsbD 15 && s.cores.all fun c => !c.trigPend

/-- A core on which the trigger has fired writes its TRIGGER record; POST further ones are due (R362). -/
def Core.trigger (c : Core) (post clock : Nat) : Core :=
  if c.trigPend && c.post.isNone then
    { (c.logRecord clock 33 0 ⟨recWord0 (c.trigAt % 2 ^ 32) 0 33 0 0 0 0, BitVec.ofNat 64 c.trigSrc⟩).1 with
      post := some post, sealNow := true }
  else c

/-- The turn that seals a core's ring, where its last record after a trigger has been written between two of its states. -/
def sealTurn (c c' : Core) : List Turn :=
  if c'.post == some 0 && c.post != some 0 then [Turn.now (.event .triggerSeal)] else []

/-- Write a record on a core (R357 to R362): nothing after a freeze or after POST records of a trigger, and first the TRIGGER record that
is due. A record that the armed trigger names fires it: its own step is the next turn. The last record after a trigger makes the sealing
the next. -/
def State.record (s : State) (core cls al slot slice aux : Nat) (pay : W64) : State :=
  let was := s.core core
  if !(s.regs.trmask.getLsbD cls || clsWired cls) || was.frozen.isSome || was.post == some 0 then s
  else
    let t := s.regs.trtrig.toNat
    let c := was.trigger (field t 16 12) s.clock
    let l := if c.post == some 0 then (c, [])
      else c.logRecord s.clock cls al ⟨recWord0 (s.clock % 2 ^ 32) al cls (slot / 16) (slot % 16) slice aux, pay⟩
    let fires := s.armed && l.2.any fun x => c.triggers t x.1 x.2
    let next := sealTurn was l.1 ++ (if fires then [Turn.now (.event .triggerFire)] else [])
    { s.modCore core (fun _ => if fires then l.1.arm t s.clock else l.1) with agenda := next ++ s.agenda }

/-- A raw signal of R373 is high this cycle on a core for an allotment. -/
def State.signal (s : State) (core code al : Nat) : State :=
  if s.regs.devcell.isEmpty then s
  else s.modCore core fun c => { c with signals := (code, al) :: c.signals }

/-- Add to a yield meter (R353). -/
def State.meter (s : State) (al idx n : Nat) : State :=
  if n == 0 then s
  else s.modAllot al fun a =>
    { a with meters := a.meters.set 0#64 idx (a.meters.get 0#64 idx + BitVec.ofNat 64 n) }

/-- Raise vector `v` of an interface (R349, R351): pending vectors are a bit mask. -/
def State.raiseVector (s : State) (vi v : Nat) : State :=
  let p := s.regs.vipend.get 0 vi
  let p' := if bitAt p v then p else p + 2 ^ v
  { s with regs := { s.regs with vipend := s.regs.vipend.set 0 vi p' } }

/-- VIOWN says the allotment owns the interface (R349). -/
def State.ownsVi (s : State) (al v : Nat) : Bool :=
  let o := (s.regs.viown.get 0#64 v).toNat
  bitAt o 4 && field o 0 4 == al

/-- Raise vector 0 of every interface of an allotment. -/
def State.raiseEvent (s : State) (al : Nat) : State :=
  ((List.range 64).filter fun v => s.ownsVi al v).foldl (fun s v => s.raiseVector v 0) s

/-! Stores and loads of lines that perform late (R161, R178), and what orders the accesses of a slice (R173, R174). -/

def Core.entry? (c : Core) (eid : Nat) : Option Entry := c.entries.find? fun e => e.id == eid

def State.entry? (s : State) (core eid : Nat) : Option Entry := (s.core core).entry? eid

def State.modEntry (s : State) (core eid : Nat) (f : Entry → Entry) : State :=
  s.modCore core fun c => { c with entries := modWhere (fun e => e.id == eid) f c.entries }

/-- Lane by lane, the bytes of a store are in their entries: dirty, owed by the gang, and of the launch that stored last (R87,
R138, R156). -/
def State.performStore (s : State) (core uid : Nat) (x : LateStore) : State :=
  x.lanes.foldl (fun s l => s.modEntry core l.1 fun e =>
    { e with data := setLineBytes e.data l.2, mask := e.mask ||| offsetMask (l.2.map (·.1)), owed := addOnce e.owed uid
             lid := x.lid }) s

/-- The late stores of a gang up to the last that `p` picks perform, in order. -/
def State.performLate (s : State) (uid : Nat) (p : LateStore → Bool) : State :=
  match s.gang? uid with
  | none => s
  | some g =>
    match throughLast p g.lateStores with
    | ([], _) => s
    | (now, rest) => (now.foldl (fun s x => s.performStore g.core uid x) s).modGang uid fun g => { g with lateStores := rest }

/-- A late store of one of these slices. -/
def LateStore.of (ks : List Nat) (x : LateStore) : Bool := x.slices.any ks.contains

/-- A late store of bytes of an entry. -/
def LateStore.meets (eid off n : Nat) (x : LateStore) : Bool :=
  x.lanes.any fun l => l.1 == eid && l.2.any fun b => off ≤ b.1 && b.1 < off + n

/-- Every late store of a core performs. -/
def State.performCore (s : State) (core : Nat) : State :=
  ((s.gangs.filter fun g => g.core == core && !g.lateStores.isEmpty).map fun g => g.uid).foldl
    (fun s u => s.performLate u fun _ => true) s

/-- Freedom `i` of the current turn (assumption 78): 0 a store performs late, 1 a load does not hold its group while a line is on
its way, 2 a bind relies on an entry that is older than the gang's acquire, 3 a publish takes one entry at a time. -/
def State.loose (s : State) (i : Nat) : Bool := bitAt s.lax i

def Gang.seenOf (g : Gang) (k : Nat) : Seen := nth {} g.seen k

def Gang.modSeen (g : Gang) (ks : List Nat) (f : Seen → Seen) : Gang :=
  { g with seen := ks.foldl (fun xs k => modNth f xs k) g.seen }

/-- Slices make or observe an access at a turn. -/
def Gang.observe (g : Gang) (ks : List Nat) (turn : Nat) : Gang := g.modSeen ks fun x => { x with last := turn }

/-- An ordering point of slices: what cross-lane words have brought is behind it, as are their own accesses (R174). -/
def Gang.orderPoint (g : Gang) (ks : List Nat) : Gang :=
  g.modSeen ks fun x => { x with last := Nat.max x.last x.heard, ord := Nat.max x.last x.heard }

/-- A cross-lane word brings each slice what the ordering points of the others have ordered (R174). -/
def Gang.crossed (g : Gang) (ks : List Nat) : Gang :=
  let m := (ks.map fun k => (g.seenOf k).ord).foldl Nat.max 0
  g.modSeen ks fun x => { x with heard := Nat.max x.heard m }

/-! Registers: reads with early results (R98), writes with their latency (R97). -/

def Reg.code : Reg → Nat
  | .v n => n | .s n => 384 + n | .p n => 452 + n | .q n => 448 + n | .ln n => 512 + n | .t n => 528 + n

/-- The value an early read of a lane takes: what the latest word wrote, or, while that result is outstanding, what a read
before that word takes (R98). Which of the two is drawn from the free bits (assumption 5). Shadows stand latest first. -/
def earlyValue (clock draw lane : Nat) (reg : Reg) (cur : W64) : List Shadow → W64
  | [] => cur
  | sh :: rest =>
    if sh.reg == reg && sh.lanes.getLsbD lane then
      if clock < sh.due && Config.freeBit draw reg.code (lane + 32 * rest.length) then
        earlyValue clock draw lane reg (sh.old.get 0#64 lane) rest
      else cur
    else earlyValue clock draw lane reg cur rest

/-- Results that a later word of the register has replaced for good in these lanes (R98). -/
def hideShadows (reg : Reg) (lanes : LaneMask) (shs : List Shadow) : List Shadow :=
  (shs.map fun sh => if sh.reg == reg then { sh with lanes := sh.lanes &&& ~~~lanes } else sh).filter fun sh => sh.lanes != 0#32

/-- Results are written in the lanes that `p` names: no read of them is early any more, nor of older results of the register. -/
def writeShadows (p : Shadow → LaneMask) : List Shadow → List Shadow
  | [] => []
  | sh :: rest =>
    let rest := hideShadows sh.reg (sh.lanes &&& p sh) (writeShadows p rest)
    if sh.lanes &&& ~~~(p sh) == 0#32 then rest else { sh with lanes := sh.lanes &&& ~~~(p sh) } :: rest

/-- Vector register n in a lane, as it stands. -/
def Gang.vAt (g : Gang) (n lane : Nat) : W32 := g.v.get 0#32 (32 * n + lane)

/-- A read of a vector register by a word. -/
def State.readV (s : State) (g : Gang) (n lane : Nat) : W32 :=
  if g.shadows.isEmpty then g.vAt n lane
  else (earlyValue s.clock s.free lane (.v n) ((g.vAt n lane).setWidth 64) g.shadows).setWidth 32

/-- A read of a pair, bits 31:0 in vN (R26). -/
def State.readV64 (s : State) (g : Gang) (n lane : Nat) : W64 :=
  (s.readV g n lane).setWidth 64 ||| ((s.readV g (n + 1) lane).setWidth 64 <<< 32)

def State.readS (s : State) (g : Gang) (n : Nat) : W64 :=
  earlyValue s.clock s.free 0 (.s n) (g.s.get 0#64 n) g.shadows

/-- A predicate in a lane; p7 reads true (R27). -/
def State.readP (s : State) (g : Gang) (n lane : Nat) : Bool :=
  if n == 7 then true
  else if g.shadows.isEmpty then (g.p.get 0#32 n).getLsbD lane
  else
    let cur : W64 := if (g.p.get 0#32 n).getLsbD lane then 1 else 0
    earlyValue s.clock s.free lane (.p n) cur g.shadows == 1#64

/-- The lanes the guard enables (R47). -/
def State.enabledLanes (s : State) (c : Ctx) (g : Nat) (neg : Bool) : LaneMask :=
  if g == 7 then (if neg then 0#32 else c.lanes)
  else maskOf ((lanesOf c.lanes).filter fun l => s.readP c.gang g l != neg)

/-- Write one register of the gang in the lanes listed, remembering the old values for `lat` cycles when the latency is
fixed (R97, R98). -/
def Gang.putV (g : Gang) (clock lat n : Nat) (slices : List Nat) (vals : List (Nat × W32)) : Gang :=
  let sh : Shadow :=
    { reg := .v n, lanes := maskOf (vals.map (·.1)),
      old := Store.setMany 0#64 [] (vals.map fun x => (x.1, (g.vAt n x.1).setWidth 64)),
      due := clock + lat, slices := slices }
  { g with
    v := g.v.setMany 0#32 (vals.map fun x => (32 * n + x.1, x.2))
    uniV := g.uniV.filter (· != n)
    shadows := if vals.isEmpty then g.shadows else if lat == 0 then hideShadows sh.reg sh.lanes g.shadows else sh :: g.shadows }

def Gang.putS (g : Gang) (clock lat n : Nat) (slices : List Nat) (x : W64) : Gang :=
  let sh : Shadow :=
    { reg := .s n, lanes := 1#32, old := Store.setMany 0#64 [] [(0, g.s.get 0#64 n)], due := clock + lat,
      slices := slices }
  { g with s := g.s.set 0#64 n x, shadows := if lat == 0 then hideShadows sh.reg sh.lanes g.shadows else sh :: g.shadows }

/-- Write a predicate in the lanes listed; p7 discards (R27). -/
def Gang.putP (g : Gang) (clock lat n : Nat) (slices : List Nat) (vals : List (Nat × Bool)) : Gang :=
  if n == 7 || vals.isEmpty then g
  else
    let old := g.p.get 0#32 n
    let set := maskOf ((vals.filter (·.2)).map (·.1))
    let all := maskOf (vals.map (·.1))
    let sh : Shadow :=
      { reg := .p n, lanes := all,
        old := Store.setMany 0#64 [] (vals.map fun x => (x.1, if old.getLsbD x.1 then 1#64 else 0#64)),
        due := clock + lat, slices := slices }
    { g with p := g.p.set 0#32 n ((old &&& ~~~all) ||| set),
             shadows := if lat == 0 then hideShadows sh.reg sh.lanes g.shadows else sh :: g.shadows }

/-- The lanes of an outstanding result that words of these slices produced: all of a scalar's. -/
def Shadow.ofSlices (ks : List Nat) (sh : Shadow) : LaneMask :=
  match sh.reg with
  | .s _ => if sh.slices.any ks.contains then sh.lanes else 0#32
  | _ => slicesMask ks

/-- The outstanding results of a set of slices are written (R98, R126). -/
def Gang.settle (g : Gang) (ks : List Nat) : Gang :=
  { g with shadows := (writeShadows (Shadow.ofSlices ks) g.shadows).map fun sh =>
      { sh with slices := sh.slices.filter fun k => !ks.contains k } }

/-- Count a word as retired in each slice (R370). -/
def Gang.retire (g : Gang) (ks : List Nat) : Gang := g.modSlices ks fun sl => { sl with retc := sl.retc + 1 }

/-- A group's own results are outstanding (R8). -/
def Gang.resultsOut (g : Gang) (clock : Nat) (ks : List Nat) : Bool :=
  g.shadows.any fun sh => clock < sh.due && sh.slices.any ks.contains

/-- A group that no longer waits for what it parked for: a switch bit of its word keeps it until its results are written (R8). -/
def Gang.freed (g : Gang) (clock : Nat) (x : Group) : Group :=
  { x with wait := if x.sw && g.resultsOut clock x.slices then .switchBit else .none, sw := false, owes := false,
           readySince := some clock }

/-- The words that parked groups wait in complete: they retire (R370). -/
def Gang.retireParked (g : Gang) (xs : List Group) : Gang := g.retire ((xs.filter (·.owes)).flatMap (·.slices))

/-- A register a word names: the field of R130 it stands in. -/
structure Use where
  fld : Nat
  reg : Reg
  deriving DecidableEq, Repr, Inhabited

end Machine

open Machine in
/-- Registers that a source names; a 64-bit vector operand names a pair (R26). -/
def Src.uses (f : Nat) (wide : Bool) : Src → List Use
  | .v n => if wide then [⟨f, .v n⟩, ⟨f, .v (n + 1)⟩] else [⟨f, .v n⟩]
  | .s n => [⟨f, .s n⟩]
  | .q n => [⟨f, .q n⟩]
  | _ => []

open Machine in
/-- Registers that a destination names. -/
def Dst.uses (wide : Bool) : Dst → List Use
  | .v n => if wide then [⟨fD, .v n⟩, ⟨fD, .v (n + 1)⟩] else [⟨fD, .v n⟩]
  | .s n => [⟨fD, .s n⟩]
  | .q n => [⟨fD, .q n⟩]
  | .zero => []

namespace Machine

/-- Reserved counts of the block (R30, R32). -/
def Kernel.declares (k : Kernel) : Reg → Bool
  | .v n => n < 8 * k.regs
  | .s n => n < 4 * k.scal
  | .p _ => true
  | .q n => n < k.queues
  | .ln n => n < k.lines
  | .t n => n < k.tiles

/-- Check 9 of R73: the first undeclared register in field order traps with 0x05. -/
def declared (c : Ctx) : List Use → M Unit
  | [] => .ok ()
  | u :: us => if c.blk.k.declares u.reg then declared c us else trapWith { cause := 0x05, fld := u.fld }

/-- The scoreboard: a word waits while a register it reads or writes is pending (R8, R97, R211, R281). -/
def scoreboard (c : Ctx) (us : List Use) : M Unit :=
  waitIf (us.any fun u => c.gang.busy.contains u.reg)

/-! Issue groups. -/

/-- Split a group whose slices' counters differ, one new group for each counter (R19, R408). -/
def splitGroup (g : Gang) (grp : Group) : List Group :=
  let pcs := grp.slices.foldl (fun acc k => let p := (g.slice k).pc; if acc.contains p then acc else acc ++ [p]) []
  if pcs.length ≤ 1 then [grp]
  else pcs.map fun p =>
    let ks := grp.slices.filter fun k => (g.slice k).pc == p
    { grp with slices := ks, savedMask := grp.savedMask &&& slicesMask ks,
               savedDepth := grp.savedDepth.filter fun d => ks.contains d.1 }

/-- Replace a group by the groups it splits into. -/
def Gang.split (g : Gang) (low : Nat) : Gang :=
  match g.group? low with
  | none => g
  | some grp =>
    { g with groups := (g.groups.filter fun x => x.low != low) ++ splitGroup g grp }

/-- Park each group of the listed slices that still waits for a fixed-latency result of its own; one that its word has parked
waits for them afterwards (R8). -/
def Gang.parkSwitch (g : Gang) (ks : List Nat) (clock : Nat) : Gang :=
  { g with groups := g.groups.map fun x =>
      if x.slices.any (fun k => ks.contains k) then
        if x.wait == .none then { x with wait := if g.resultsOut clock x.slices then .switchBit else .none }
        else { x with sw := true }
      else x }

/-- Resolve a slice's stack before it issues (R115). Answers the gang; a slice whose stack is empty and that has no
active lane keeps an empty mask and has exited. -/
def resolveLoop : Nat → Gang → Nat → Gang
  | 0, g, _ => g
  | n + 1, g, k =>
    let sl := g.slice k
    let act := g.live &&& g.active &&& sliceMask k
    match sl.stack with
    | [] => g
    | e :: rest =>
      if act == 0#32 || (e.div && sl.pc == e.rpc) then
        let pend := e.pend &&& g.live
        if e.div && pend != 0#32 then
          resolveLoop n
            { (g.modSlice k fun x => { x with pc := e.ppc, fmt := e.fmt, stack := { e with pend := 0#32 } :: rest })
              with active := (g.active &&& ~~~(sliceMask k)) ||| pend } k
        else
          resolveLoop n
            { (g.modSlice k fun x => { x with pc := e.rpc, fmt := e.fmt, stack := rest })
              with active := (g.active &&& ~~~(sliceMask k)) ||| (e.outer &&& g.live) } k
      else g

def Gang.resolve (g : Gang) (k : Nat) : Gang := resolveLoop 40 g k

/-! Barrier words (R194 to R196). -/

def Block.rowBytes (b : Block) (off k : Nat) : List Byte := (List.range k).map fun i => b.rows.get 0#8 (off + i)

def Block.putRows (b : Block) (bs : List (Nat × Byte)) : Block := { b with rows := b.rows.setMany 0#8 bs }

def Block.word (b : Block) (off : Nat) : Nat := ofBytes (b.rowBytes off 8)

def bytesAt (off : Nat) (bs : List Byte) : List (Nat × Byte) := (List.range bs.length).zip bs |>.map fun x => (off + x.1, x.2)

def Block.setWord (b : Block) (off w : Nat) : Block := b.putRows (bytesAt off (toBytes 8 w))

def barExpected (w : Nat) : Nat := field w 0 16
def barArrivals (w : Nat) : Nat := field w 16 16
def barGen (w : Nat) : Nat := field w 32 16
def barDeduct (w : Nat) : Nat := field w 48 16

def barPack (e a g d : Nat) : Nat := packFields [(16, e), (16, a), (16, g), (16, d)]

/-- The record of a word; a word without one is a block word with no arrivals (R195). -/
def Block.bar (b : Block) (off : Nat) : BarRec := (b.bars.find? fun r => r.off == off).getD ⟨off, false, [], 0, 0, 0, 0⟩

def Block.setBar (b : Block) (r : BarRec) : Block := { b with bars := r :: b.bars.filter fun x => x.off != r.off }

/-- What check(w) of R196 leaves in a word with no deferred deductions: it advances where its arrivals and deductions are complete. -/
def barStep (w : Nat) : Nat :=
  if barExpected w != 0 && barArrivals w + barDeduct w ≥ barExpected w then barPack (barExpected w) 0 ((barGen w + 1) % 2 ^ 16) (barDeduct w)
  else w

/-- The record of a word that has advanced to generation `gen` (R196). -/
def BarRec.advance (r : BarRec) (gen : Nat) : BarRec :=
  { r with
    arr := r.arr.map fun x => { x with cur := x.cur && (x.gen + 1) % 2 ^ 16 != gen }
    deferred := 0, adv := r.adv + 1, gen, run := if gen == r.gen then r.run else r.adv }

/-- check(w) of R196. -/
def Block.barCheck (b : Block) (off : Nat) : Block × Bool :=
  let w := b.word off
  let e := barExpected w
  if e != 0 && barArrivals w + barDeduct w ≥ e then
    let r := b.bar off
    let gen := (barGen w + 1) % 2 ^ 16
    ((b.setWord off (barPack e 0 gen (barDeduct w + r.deferred))).setBar (r.advance gen), true)
  else (b, false)

/-- deduct(w, lane) of R196 for one participant lane. -/
def Block.barDeductLane (b : Block) (gang lane : Nat) (r : BarRec) : Block :=
  let w := b.word r.off
  if barExpected w == 0 then b
  else if r.arr.any fun x => x.gang == gang && x.lane == lane && x.cur && x.gen == barGen w then
    b.setBar { r with deferred := r.deferred + 1 }
  else
    (((b.setBar r).setWord r.off
      (barPack (barExpected w) (barArrivals w) (barGen w) (barDeduct w + 1))).barCheck r.off).1

/-- A raw store that has written EXPECTED: non-zero, it makes a word of which the module keeps no record a block word; zero, it makes
the word uninitialised (R194, R195). -/
def Block.noteRaw (b : Block) (off : Nat) : Block :=
  { b with raws := (b.raws.filter (· != off)) ++
      (if barExpected (b.word off) == 0 || b.bars.any (fun r => r.off == off) then [] else [off]) }

/-- The words whose EXPECTED the bytes hold. -/
def rawWords (bs : List (Nat × Byte)) : List Nat :=
  ((bs.filter fun x => x.1 % 8 < 2).map fun x => alignDown x.1 8).foldl addOnce []

/-- Raw bytes stored into rows replace what stands there and change nothing else (R194). -/
def Block.writeRows (b : Block) (bs : List (Nat × Byte)) : Block := (rawWords bs).foldl Block.noteRaw (b.putRows bs)

/-- Bytes that a drill or a matrix store leaves in rows are no raw store, and name no participants (R194, R195; assumption 27). -/
def Block.fillRows (b : Block) (bs : List (Nat × Byte)) : Block :=
  let ws := rawWords bs
  { b.putRows bs with raws := b.raws.filter fun off => !ws.contains off }

/-- A barrier instruction names a word: one without a record is a block word without arrivals (R195). -/
def Block.nameBar (b : Block) (off : Nat) : Block :=
  if b.bars.any fun r => r.off == off then b
  else { b with raws := b.raws.filter (· != off) }.setBar ⟨off, false, [], 0, 0, 0, 0⟩

/-- deduct(w, lane) of R196 for `n` threads at a word without arrival records. -/
def rawEnded : Nat → Nat → Nat
  | 0, w => w
  | n + 1, w => rawEnded n (barStep (barPack (barExpected w) (barArrivals w) (barGen w) (barDeduct w + 1)))

/-- `n` threads of a block end: every word that a raw store made a block word deducts them at once (R195, R196). -/
def Block.deductRaws (b : Block) (n : Nat) : Block :=
  b.putRows (b.raws.flatMap fun off => bytesAt off (toBytes 8 (rawEnded n (b.word off))))

/-- The words of which the module keeps a record and that may hold the lane (R195). -/
def Block.deductLane (b : Block) (own : Bool) (gang lane : Nat) : Block :=
  (b.bars.map (·.off)).foldl
    (fun b off => let r := b.bar off; if own || r.cl then b.barDeductLane gang lane r else b) b

/-- Every initialised word whose participant set holds an ended lane deducts it at that moment (R196). -/
def State.deductLanes (s : State) (g : Gang) (b : Block) (lanes : LaneMask) : State :=
  let ls := lanesOf lanes
  { s with blocks := s.blocks.map fun x =>
      if x.uid == b.uid then (ls.foldl (fun x l => x.deductLane true g.uid l) x).deductRaws ls.length
      else if b.cluster != 0 && x.cluster == b.cluster then
        ls.foldl (fun x l => x.deductLane false g.uid l) x
      else x }

/-! The end of lanes, slices, gangs and blocks (R21, R121). -/

/-- Vector results still outstanding for lanes that end are discarded (R121): each register keeps what an early read of it finds (R98). -/
def State.dropResults (s : State) (g : Gang) (gone : LaneMask) : Gang :=
  let regs := (g.shadows.filterMap fun sh => match sh.reg with | .v n => some n | _ => none).foldl addOnce []
  let vals := regs.flatMap fun n => (lanesOf gone).map fun l => (32 * n + l, s.readV g n l)
  { g with
    v := Store.setMany 0#32 g.v vals
    shadows := regs.foldl (fun shs n => hideShadows (.v n) gone shs) g.shadows }

/-- End lanes of a gang: they leave the live mask and are deducted from barrier words. Results still outstanding for
them are discarded. -/
def State.endLanes (s : State) (u : Nat) (lanes : LaneMask) : State :=
  match s.gang? u with
  | none => s
  | some g =>
    let gone := g.live &&& lanes
    if gone == 0#32 then s
    else
      let s := s.modGang u fun g => { s.dropResults g gone with live := g.live &&& ~~~gone }
      match s.block? g.blk with
      | none => s
      | some b => s.deductLanes g b gone

/-- Groups lose the slices that have no live lane (R21). -/
def Gang.prune (g : Gang) : Gang :=
  let gs := g.groups.map fun x => { x with slices := x.slices.filter fun k => g.live &&& sliceMask k != 0#32 }
  { g with groups := gs.filter fun x => !x.slices.isEmpty }

/-! Taking an exception (R126 to R136, R408). -/

/-- Causes whose route is the handler (R129). -/
def routedHandler (cause : Nat) : Bool := cause == 0x10 || cause == 0x38 || cause == 0x39 || cause == 0x3A

/-- Causes for which TPC holds the following word (R131). -/
def tpcNext (cause : Nat) : Bool := cause == 0x38 || cause == 0x3A || cause == 0x3C

/-- TCAUSE (R130). -/
def tcauseWord (t : TrapInfo) (nest handler : Bool) (slices : List Nat) : W64 :=
  BitVec.ofNat 64 (packFields [(6, t.cause), (1, b2n nest), (1, t.half), (4, t.fld), (2, if handler then 0 else 1),
    (2, 0), (8, sumNat (slices.map fun k => 2 ^ k))])

/-- TINFO0 (R131). -/
def tinfo0Word (t : TrapInfo) : W64 :=
  BitVec.ofNat 64 (packFields [(4, t.reg), (4, 0), (3, t.slice), (5, t.lane), (4, t.kind)])

/-- WHO of a trap record (R135). -/
def State.whoWord (s : State) (c : Ctx) : W64 :=
  BitVec.ofNat 64 (packFields [(8, s.logicalCore c.al c.core), (2, c.gang.slot / 16), (4, c.gang.slot % 16),
    (32, c.blk.lid), (4, c.al)])

/-- Write a trap's registers into a group (R130, R131). -/
def Group.withTrap (g : Group) (tc tpc tw t0 t1 : W64) : Group :=
  { g with tcause := tc, tpc := tpc, tword := tw, tinfo0 := t0, tinfo1 := t1 }

/-- Entry into the handler the launch names (R132): masks and depths saved, the flag set, the counters at the handler. -/
def Gang.enterHandler (g : Gang) (low : Nat) (handler : Nat) : Gang :=
  match g.group? low with
  | none => g
  | some grp =>
    let g := g.modGroup low fun x =>
      { x with inHandler := true, wait := .none, savedSlices := x.slices,
               savedMask := g.active &&& g.live &&& slicesMask x.slices,
               savedDepth := x.slices.map fun k => (k, (g.slice k).stack.length) }
    g.modSlices grp.slices fun sl => { sl with pc := handler }

/-- The place of a group in the order in which records of one cycle enter the ring (R134). -/
def State.trapRank (s : State) (c : Ctx) : Nat :=
  packFields [(3, c.grp.low), (2, c.gang.slot / 16), (8, s.logicalCore c.al c.core)]

/-- The group is held for the headland and its record waits for the ring (R134, R135). -/
def State.holdGroup (s : State) (c : Ctx) (words : List W64) : State :=
  let h := (s.allot c.al).holdNo + 1
  let s := s.modAllot c.al fun a =>
    { a with holdNo := h, pendTraps := a.pendTraps ++ [⟨words ++ [s.whoWord c, BitVec.ofNat 64 h], s.clock, s.trapRank c⟩] }
  s.modGroup c fun x => { x with wait := .held h }

/-- Taking a precise trap (R126 to R134): nothing the word did stands; outstanding fixed-latency results are settled
(R98); the trap registers are written, for a fetch fault with the word that led to it (R129); the group enters its handler or is held for the headland. -/
def State.takeTrap (s : State) (c : Ctx) (word : W64) (t : TrapInfo) : State :=
  let nest := c.grp.inHandler
  let handler := routedHandler t.cause && c.blk.k.trap != 0 && !nest
  let tc := tcauseWord t nest handler c.grp.slices
  let led := c.gang.slice c.grp.low
  let fetch := t.cause == 0x24
  let tpc : W64 := BitVec.ofNat 64 (if fetch then led.prev else if tpcNext t.cause then c.pc + 8 else c.pc)
  let word := if fetch then led.prevWord else word
  let t0 := tinfo0Word t
  let t1 := BitVec.ofNat 64 t.info1
  let s := s.performLate c.uid (LateStore.of c.grp.slices)
  let s := s.modGang c.uid fun g => (g.settle c.grp.slices).modGroup c.grp.low fun x =>
    let x := x.withTrap tc tpc word t0 t1
    if handler then { x with owesRet := tpcNext t.cause } else { x with owesHeld := tpcNext t.cause }
  let s := s.record c.core 25 c.al c.gang.slot c.grp.low t.cause tpc
  let s := s.signal c.core 15 c.al
  if handler then s.modGang c.uid fun g => g.enterHandler c.grp.low (c.blk.k.kaddr + c.blk.k.trap)
  else
    let s := (s.record c.core 2 c.al c.gang.slot c.grp.low 6 (BitVec.ofNat 64 c.pc)).signal c.core 18 c.al
    s.holdGroup c [tc, tpc, word, t0, t1]

/-- The return of R143: each slice's saved mask, the flag, the counter at TPC or TPC + 8; a `brk` or `trap` that owes
its retirement retires (R370). -/
def Gang.leaveHandler (g : Gang) (low skip : Nat) : Gang :=
  match g.group? low with
  | none => g
  | some grp =>
    let g := if grp.owesRet then g.retire grp.slices else g
    let g := { g with active := (g.active &&& ~~~(slicesMask grp.slices)) ||| (grp.savedMask &&& g.live) }
    let g := g.modGroup low fun x =>
      { x with inHandler := false, savedSlices := [], savedMask := 0, savedDepth := [], owesRet := false }
    g.modSlices grp.slices fun sl => { sl with pc := (grp.tpc.toNat + skip) % 2 ^ 64 }

/-- A held group resumes at TPC or TPC + 8 (R136). -/
def Gang.resumeHeld (g : Gang) (low skip : Nat) : Gang :=
  match g.group? low with
  | none => g
  | some grp =>
    let g := if grp.owesHeld then g.retire grp.slices else g
    let g := g.modGroup low fun x => { x with wait := .none, owesHeld := false }
    g.modSlices grp.slices fun sl => { sl with pc := (grp.tpc.toNat + skip) % 2 ^ 64 }

end Machine
end Sys2Proof
end

