-- ==== Sys2Proof/Machine/Flags.lean ====
section
/-! DEFINITION. Values that words compute: integer results at their type's width, comparisons, saturation, and the
format flags of a gang. The module has no condition codes: comparisons write predicates (R102, R109), and the matrix
family sets FFLAG (R239). -/

namespace Sys2Proof

def IntTy.signed : IntTy → Bool
  | .i32 | .i64 => true
  | _ => false

namespace Machine

/-- An operand as the integer its type reads (R99). -/
def intVal (t : IntTy) (x : W64) : Int := if t.signed then signedOf t.bits x.toNat else ((x.toNat % 2 ^ t.bits : Nat) : Int)

/-- A result wrapped modulo 2^w, zero above w. -/
def intWrap (t : IntTy) (i : Int) : W64 := BitVec.ofNat 64 (wrapTo t.bits i)

/-- Clamp to the type's range (R100). -/
def intSat (t : IntTy) (i : Int) : Int :=
  let lo : Int := if t.signed then -((2 ^ (t.bits - 1) : Nat) : Int) else 0
  let hi : Int := if t.signed then ((2 ^ (t.bits - 1) : Nat) : Int) - 1 else ((2 ^ t.bits : Nat) : Int) - 1
  if i < lo then lo else if i > hi then hi else i

/-- a CMP b under the type's signedness, `.b` as unsigned (R102). -/
def intCmp (t : IntTy) (k : Cmp) (a b : W64) : Bool :=
  let x := intVal t a
  let y := intVal t b
  match k with
  | .eq => x == y
  | .ne => x != y
  | .lt => decide (x < y)
  | .le => decide (x ≤ y)
  | .gt => decide (x > y)
  | .ge => decide (x ≥ y)

def intAdd (t : IntTy) (sat : Bool) (a b : W64) : W64 :=
  let r := intVal t a + intVal t b
  intWrap t (if sat then intSat t r else r)

def intSub (t : IntTy) (sat : Bool) (a b : W64) : W64 :=
  let r := intVal t a - intVal t b
  intWrap t (if sat then intSat t r else r)

def intMul (t : IntTy) (a b : W64) : W64 := intWrap t (intVal t a * intVal t b)

def intMulh (t : IntTy) (a b : W64) : W64 := intWrap t (intVal t a * intVal t b / ((2 ^ t.bits : Nat) : Int))

def intMad (t : IntTy) (a b c : W64) : W64 := intWrap t (intVal t a * intVal t b + intVal t c)

def intMin (t : IntTy) (a b : W64) : W64 := intWrap t (if intVal t a ≤ intVal t b then intVal t a else intVal t b)

def intMax (t : IntTy) (a b : W64) : W64 := intWrap t (if intVal t a ≤ intVal t b then intVal t b else intVal t a)

def intAbs (t : IntTy) (a : W64) : W64 := intWrap t ((intVal t a).natAbs : Int)

def intNeg (t : IntTy) (a : W64) : W64 := intWrap t (-intVal t a)

/-- The low w bits. -/
def intLow (t : IntTy) (x : W64) : W64 := BitVec.ofNat 64 (x.toNat % 2 ^ t.bits)

def intShl (t : IntTy) (a : W64) (n : Nat) : W64 := intLow t (intLow t a <<< n)

def intShr (t : IntTy) (a : W64) (n : Nat) : W64 := intLow t a >>> n

def intSar (t : IntTy) (a : W64) (n : Nat) : W64 := intWrap t (signedOf t.bits a.toNat / ((2 ^ n : Nat) : Int))

def intRot (t : IntTy) (a : W64) (n : Nat) : W64 := intLow t (intLow t a <<< n) ||| (intLow t a >>> (t.bits - n))

def intClz (t : IntTy) (a : W64) : W64 :=
  let x := a.toNat % 2 ^ t.bits
  BitVec.ofNat 64 (if x == 0 then t.bits else t.bits - 1 - x.log2)

def intPopc (t : IntTy) (a : W64) : W64 :=
  BitVec.ofNat 64 (sumNat ((List.range t.bits).map fun i => b2n (a.getLsbD i)))

def intBrev (t : IntTy) (a : W64) : W64 :=
  BitVec.ofNat 64 (sumNat ((List.range t.bits).map fun i => b2n (a.getLsbD (t.bits - 1 - i)) * 2 ^ i))

/-- `bfx` (R101). -/
def intBfx (t : IntTy) (a : W64) (pos len : Nat) : W64 :=
  if pos ≥ t.bits || len == 0 then 0
  else
    let n := if len > t.bits - pos then t.bits - pos else len
    let f := field a.toNat pos n
    if t.signed then intWrap t (signedOf n f) else BitVec.ofNat 64 f

/-- `bfi` (R101). -/
def intBfi (t : IntTy) (a b : W64) (pos len : Nat) : W64 :=
  if pos ≥ t.bits || len == 0 then intLow t b
  else
    let n := if len > t.bits - pos then t.bits - pos else len
    let x := b.toNat % 2 ^ t.bits
    BitVec.ofNat 64 (x - field x pos n * 2 ^ pos + a.toNat % 2 ^ n * 2 ^ pos)

/-- `lea`: at 64-bit types B is one 32-bit operand, extended under the type (R103). -/
def intLea (t : IntTy) (a b : W64) (sh : Nat) : W64 :=
  let y : Int := if t.signed then signedOf 32 b.toNat else ((b.toNat % 2 ^ 32 : Nat) : Int)
  intWrap t (intVal t a + y * ((2 ^ sh : Nat) : Int))

/-- Range and width of an integer destination of `cvt` (R104): width, signed. -/
def cvtShape : CvtTy → Nat × Bool
  | .i32 => (32, true) | .n32 => (32, false) | .b32 => (32, false)
  | .i64 => (64, true) | .n64 => (64, false) | .b64 => (64, false)
  | .i8 => (8, true) | .n8 => (8, false) | .i16 => (16, true) | .n16 => (16, false)
  | .f32 => (32, false)

/-- `cvt` (R104). -/
def intCvt (st : IntTy) (dt : CvtTy) (r : Rnd) (sat : Bool) (a : W64) : W64 :=
  let x := intVal st a
  if dt.isF32 then BitVec.ofNat 64 (fp32.encode r false (FV.ofInt x))
  else
    let (w, sg) := cvtShape dt
    let lo : Int := if sg then -((2 ^ (w - 1) : Nat) : Int) else 0
    let hi : Int := if sg then ((2 ^ (w - 1) : Nat) : Int) - 1 else ((2 ^ w : Nat) : Int) - 1
    let y : Int := if sat then (if x < lo then lo else if x > hi then hi else x) else x
    let bits := wrapTo w y
    let reg := if w == 64 then 64 else 32
    BitVec.ofNat 64 (if sg then wrapTo reg (signedOf w bits) else bits)

/-- An immediate sign-extended to the type's width (R51). -/
def immVal (t : IntTy) (imm : BitVec 27) : W64 := intWrap t (signedOf 27 imm.toNat)

/-- A float immediate: bits 31:5 of an FP32 value (R51). -/
def immF (imm : BitVec 27) : W32 := BitVec.ofNat 32 (imm.toNat * 32)

/-- Set bits of a gang's FFLAG (R239): T4PAIR, SCALENAN, NANLOST. -/
def Gang.flag (g : Gang) (t4pair scalenan nanlost : Bool) : Gang :=
  { g with fflag := g.fflag ||| BitVec.ofNat 64 (b2n t4pair + 2 * b2n scalenan + 4 * b2n nanlost) }

end Machine
end Sys2Proof
end

