-- ==== Sys2Proof/Machine/Operands.lean ====
section
/-! DEFINITION. Operand forms (R28 to R31), queue registers as operands (R315, R321), destinations, and the issue of a
word: checks, guard, retirement, splitting and the switch bit. -/

namespace Sys2Proof.Machine

/-! Queue registers. -/

def Gang.qbind (g : Gang) (q : Nat) : QBind := g.qb.get .none q

def State.dbind? (s : State) (id : Nat) : Option DBind := s.dbinds.find? fun b => b.id == id

def State.modDBind (s : State) (id : Nat) (f : DBind → DBind) : State :=
  { s with dbinds := modWhere (fun b => b.id == id) f s.dbinds }

/-- Pop the oldest word of a queue register's return side; wait while it is empty (R28, R321). -/
def State.popQ (s : State) (c : Ctx) (q : Nat) : M (W64 × State) :=
  match (s.gang? c.uid).map fun (g : Gang) => g.qbind q with
  | some (.drill id) =>
    match (s.dbind? id).map fun (b : DBind) => b.ret with
    | some (w :: rest) => .ok (w, s.modDBind id fun b => { b with ret := rest })
    | _ => .error .wait
  | some .harrow =>
    match (s.block? c.blk.uid).map fun (b : Block) => b.hq with
    | some (w :: rest) => .ok (w, s.modBlock c.blk.uid fun b => { b with hq := rest })
    | _ => .error .wait
  | _ => trapWith { cause := 0x32, reg := q }

/-- Accesses of a set of slices that have not performed: scratchpad accesses, loads of lines on their way, and atomic requests
when `atoms`. -/
def State.outstanding (s : State) (u : Nat) (ks : List Nat) (atoms : Bool) : Bool :=
  s.saccs.any (fun a => a.gang == u && a.slices.any ks.contains) ||
  ((s.gang? u).any fun (g : Gang) => g.lateLoads.any fun x => x.slices.any ks.contains) ||
  (atoms && s.reqs.any fun r => r.gang == u && ks.contains r.slice)

/-- An ordering point waits until the earlier accesses of its slices have performed (R157 to R159); their stores that were late
do so now. -/
def State.settled (s : State) (c : Ctx) (ks : List Nat) (atoms : Bool) : M State := do
  waitIf (s.outstanding c.uid ks atoms)
  pure (s.performLate c.uid (LateStore.of ks))

/-- Words of a binding's buffer: whole commands not started and the partly pushed one (R315). -/
def DBind.buffered (b : DBind) : Nat := sumNat (b.cmds.map fun x => x.words.length) + b.part.length

/-- The length of a command from its header (R280, R315). -/
def cmdLength (hdr : W64) : Nat := 5 + 2 * field hdr.toNat 8 2

/-- The token register of a header (R280). -/
def cmdToken (hdr : W64) : Nat := field hdr.toNat 12 6

/-- Push one word (R315). The first word of a command is a header: its token register must be declared, is awaited while
pending, and becomes pending; the push contains `fence.device`, an ordering point of its slices (R160, R174, R319). -/
def State.pushQ (s : State) (c : Ctx) (ks : List Nat) (q : Nat) (w : W64) : M State := do
  match (s.gang? c.uid).map fun (g : Gang) => g.qbind q with
  | some (.drill id) =>
    match s.dbind? id with
    | none => trapWith { cause := 0x32, reg := q }
    | some b => do
      waitIf (b.buffered ≥ 32)
      let s := s.signal c.core 20 c.al
      if b.part.isEmpty then do
        let tok := cmdToken w
        trapIf (!(c.blk.k.declares (.s tok))) { cause := 0x05, fld := fD }
        waitIf (c.gang.busy.contains (.s tok))
        let s ← s.settled c ks true
        let s := s.modGang c.uid fun g => { g.orderPoint ks with busy := .s tok :: g.busy }
        let s := { s with nextUid := s.nextUid + 1 }
        let after := ((s.gang? c.uid).map fun (g : Gang) => g.joins.get [] q).getD []
        pure (s.modDBind id fun b => { b with part := [w], partSeq := s.nextUid, partAfter := after })
      else
        let ws := b.part ++ [w]
        if ws.length ≥ cmdLength (ws.headD 0) then
          pure (s.modDBind id fun b =>
            { b with part := [], cmds := b.cmds ++ [⟨b.partSeq, ws, b.partAfter⟩], partAfter := [] })
        else pure (s.modDBind id fun b => { b with part := ws })
  | _ => trapWith { cause := 0x32, reg := q }

/-! Sources. -/

/-- An operand once its queue word, if it names a queue, has been popped (R31). -/
structure Opnd where
  src : Src
  pop : Option W64
  deriving DecidableEq, Repr, Inhabited

/-- Pop the queue sources in field order (R31). -/
def popAll (c : Ctx) : List Src → State → M (List Opnd × State)
  | [], s => .ok ([], s)
  | .q n :: rest, s => do
    let (w, s) ← s.popQ c n
    let (os, s) ← popAll c rest s
    pure (⟨.q n, some w⟩ :: os, s)
  | x :: rest, s => do
    let (os, s) ← popAll c rest s
    pure (⟨x, none⟩ :: os, s)

/-- Threads of a block's gangs, rounded up to whole gangs (R28). -/
def threads32 (t : Nat) : Nat := 32 * ((t + 31) / 32)

/-- popid of a lane (R28); handler blocks read all ones (R311). -/
def popidOf (b : Block) (gid lane : Nat) : Nat :=
  if b.handler then 0xFFFFFFFF else (threads32 b.threads * b.bid + 32 * gid + lane) % 2 ^ 32

/-- The value of an operand in a lane, 64 bits or bits 31:0 (R28, R99). -/
def State.opVal (s : State) (c : Ctx) (wide : Bool) (o : Opnd) (lane : Nat) : W64 :=
  let x : W64 := match o.src with
    | .v n => if wide then s.readV64 c.gang n lane else (s.readV c.gang n lane).setWidth 64
    | .s n => s.readS c.gang n
    | .q _ => o.pop.getD 0
    | .zero => 0
    | .laneid => BitVec.ofNat 64 lane
    | .sliceid => BitVec.ofNat 64 (lane / 4)
    | .gangid => BitVec.ofNat 64 c.gang.gid
    | .blockid => if c.blk.handler then 0xFFFFFFFF#64 else BitVec.ofNat 64 c.blk.bid
    | .popid => BitVec.ofNat 64 (popidOf c.blk c.gang.gid lane)
    | .lineage => c.gang.lineage.get 0#64 lane
    | .clk => (s.allot c.al).vclk
  if wide then x else (x.setWidth 32).setWidth 64

/-! Destinations. -/

/-- Every live lane of the gang is enabled: a uniform result is then held in uniform form (R35). -/
def Ctx.wholeGang (c : Ctx) (e : LaneMask) : Bool := c.gang.live &&& e == c.gang.live

/-- The lanes of a vector register that a result in the lanes `e` reaches: every lane, ended ones too, where the word is uniform and
enables every live lane of the gang (R35). -/
def Gang.reach (g : Gang) (uni : Bool) (e : LaneMask) : LaneMask :=
  if uni && e != 0#32 && (g.live &&& e == g.live) then BitVec.allOnes 32 else e

/-- Write a result in the enabled lanes (R28, R60): once and broadcast for a uniform word, whose value every lane of the register
then holds, ended ones too, where every live lane is enabled (R35); a later write leaves it in the lanes it does not write
(R36). -/
def State.writeDst (s : State) (c : Ctx) (uni wide : Bool) (lat : Nat) (e : LaneMask) (d : Dst) (f : Nat → W64) :
    M State :=
  if e == 0#32 then .ok s
  else
    let low := f (lowLane e)
    let ks := c.grp.slices
    match d with
    | .zero => .ok s
    | .v n =>
      let vals : List (Nat × W64) := (lanesOf (c.gang.reach uni e)).map fun l => (l, if uni then low else f l)
      let lo : List (Nat × W32) := vals.map fun x => (x.1, x.2.setWidth 32)
      let hi : List (Nat × W32) := vals.map fun x => (x.1, (x.2.ushiftRight 32).setWidth 32)
      .ok (s.modGang c.uid fun g =>
        let g := g.putV s.clock lat n ks lo
        let g := if wide then g.putV s.clock lat (n + 1) ks hi else g
        if uni && c.wholeGang e then { g with uniV := if wide then n :: (n + 1) :: g.uniV else n :: g.uniV } else g)
    | .s n => .ok (s.modGang c.uid fun g => g.putS s.clock lat n ks low)
    | .q n => s.pushQ c (slicesIn e) n low

/-- Write a predicate in the enabled lanes; a uniform word writes the lowest lane's value (R37). -/
def State.writePred (s : State) (c : Ctx) (uni : Bool) (lat : Nat) (e : LaneMask) (pd : Nat) (f : Nat → Bool) :
    State :=
  if e == 0#32 then s
  else
    let low := f (lowLane e)
    s.modGang c.uid fun g =>
      g.putP s.clock lat pd c.grp.slices ((lanesOf e).map fun l => (l, if uni then low else f l))

/-! The issue of a word. -/

/-- A group's number on its scheduler, as 8 x gang + lowest slice + 1. -/
def groupTag (uid low : Nat) : Nat := 8 * uid + low + 1

/-- A group's word issues: it counts against the budget and in the meters, with the lanes that it enables (R340, R353), and its
scheduler has picked, so that no group of it is any longer put behind the others (R122, R307); `free` moves so that every word
draws its own free values. -/
def State.issueCounts (s : State) (c : Ctx) (lanes : Nat) : State :=
  let sched := c.gang.slot / 16
  let s := (s.meter c.al 3 lanes).meter c.al 11 1
  let s := s.modCore c.core fun x =>
    let k := 16 * sched + c.al
    { x with issued := x.issued.set 0 k (x.issued.get 0 k + 1), lastIssue := x.lastIssue.set 0 sched (s.clock + 1)
             lastWho := x.lastWho.set 0 sched (groupTag c.uid c.grp.low), ceded := x.ceded.del sched }
  let spent := (s.core c.core).issued.get 0 (16 * (c.gang.slot / 16) + c.al) == (s.allot c.al).item 6
  let s := if spent then s.signal c.core 23 c.al else s
  { s.signal c.core 0 c.al with free := s.free + 1 }

/-- A word of the group issues, retires, and its counters move to the next word (R370). -/
def State.advance (s : State) (c : Ctx) (lanes : Nat) : State :=
  (s.issueCounts c lanes).modGang c.uid fun g =>
    (g.retire c.grp.slices).modSlices c.grp.slices fun sl =>
      { sl with pc := (c.pc + 8) % 2 ^ 64, prev := c.pc, prevWord := s.word }

/-- After the word: slices whose counters differ part (R19); the switch bit parks the groups that wait for a result of
their own (R8), which the trail records (R358). -/
def State.finish (s : State) (c : Ctx) (sw : Bool) : State :=
  let s := s.modGang c.uid fun g =>
    let g := (g.prune).split c.grp.low
    { g with groups := g.groups.map fun x =>
      match x.slices.any (fun k => c.grp.slices.contains k) with
      | true => { x with promoted := false, pubHeld := false, readySince := some s.clock }
      | false => x }
  if sw then
    let s' := s.modGang c.uid fun g => g.parkSwitch c.grp.slices s.clock
    if (s'.gang? c.uid).any fun (g : Gang) => g.groups.any fun x => x.wait == .switchBit &&
        x.slices.any fun k => c.grp.slices.contains k then
      (s'.record c.core 2 c.al c.gang.slot c.grp.low 0 (BitVec.ofNat 64 c.pc)).signal c.core 18 c.al
    else s'
  else s

/-- Earlier words of the group that have not completed: a precise trap waits for them (R126, R249). A pass belongs to the groups
that hold a slice of its quarter, and to every group where that quarter has none left. -/
def State.draining (s : State) (c : Ctx) : Bool :=
  s.outstanding c.uid c.grp.slices true || s.passes.any fun p => p.gang == c.uid &&
    (c.grp.slices.contains (2 * p.quarter) || c.grp.slices.contains (2 * p.quarter + 1) ||
      !c.gang.groups.any fun x => x.slices.contains (2 * p.quarter) || x.slices.contains (2 * p.quarter + 1))

/-- The group's next word has to wait, for a reason of R376: the group is not ready in this cycle (R307). -/
def State.stall (s : State) (c : Ctx) (why : Nat) : State :=
  (s.modGroup c fun x => { x with stalledAt := s.clock + 1, stallWhy := why, readySince := some (s.clock + 1) }).signal c.core 30 c.al

/-- The reason for which pending registers hold a word (R376): a token, an atomic's result, a tile, else a scratchpad load. -/
def State.busyReason (s : State) (c : Ctx) (us : List Use) : Nat :=
  let rs := (us.map (·.reg)).filter c.gang.busy.contains
  let of' := fun (f : Reg → Bool) => rs.any f
  if of' fun r => match r with | .s _ => true | _ => false then 2
  else if of' (fun r => match r with | .p _ => true | _ => false) || s.reqs.any (fun r => r.gang == c.uid && r.isAtom &&
      (((Dst.v r.d).uses r.ty.wide).map (fun (u : Use) => u.reg)).any rs.contains) then 4
  else if of' fun r => match r with | .t _ => true | _ => false then 6
  else 5

/-- The reason for which a word waits by its own rule (R376). -/
def waitReason : Instr → Nat
  | .ld .. | .st .. | .tryw .. => 1
  | .qpop .. => 3
  | .mma .. | .mst .. | .tzero .. | .tmovToVreg .. | .tmovFromVreg .. | .tmovTile .. | .tcvt .. => 10
  | .qpush .. => 11
  | .pub .. | .acq .. | .fence .. => 26
  | .launch .. => 27
  | .vopen .. => 28
  | .amsend .. => 29
  | _ => 31

/-- The reason for which the word `w` waits; one that names a queue register waits for the queue, unless a lower reason holds. -/
def wordReason (w : W64) (us : List Use) : Nat :=
  let r := match decode w with
    | .ok i => waitReason i
    | .error _ => 31
  if us.any (fun u => match u.reg with | .q _ => true | _ => false) then Nat.min r 3 else r

/-- A precise trap, once every earlier word of the group has completed (R126): the word issues, with the lanes that it enables,
and does not retire (R340, R353, R370). -/
def State.trapNow (s : State) (c : Ctx) (word : W64) (t : TrapInfo) (lanes : Nat) : State :=
  if s.draining c then s.stall c 31
  else ((s.issueCounts c lanes).modGroup c fun x =>
      { x with promoted := false, pubHeld := false, readySince := some s.clock }).takeTrap c word t

/-- How a word's accesses stand to those before it (R161, R173): a word of registers alone makes none, a matrix word counts no
lanes as lane-operations (R353). -/
inductive WordKind where
  | plain | matrix | quiet | cross | order
  deriving DecidableEq, Repr, Inhabited

/-- A register whose naming observes nothing: neither a scalar, which a token may reach, nor a queue. -/
def Use.plainReg (u : Use) : Bool :=
  match u.reg with
  | .s _ | .q _ => false
  | _ => true

/-- What a completed word adds to what orders the accesses of its slices (R173, R174). -/
def Gang.noteWord (g : Gang) (kind : WordKind) (us : List Use) (group enabled : List Nat) (turn : Nat) : Gang :=
  match kind with
  | .plain | .matrix => g.observe enabled turn
  | .quiet => if us.all Use.plainReg then g else g.observe enabled turn
  | .cross => (if us.all Use.plainReg then g else g.observe enabled turn).crossed group
  | .order => g.orderPoint enabled

/-- Issue a word of the current group: declared registers (check 9), the scoreboard, the guard, then the meaning on the
advanced state. A halt leaves the state before the word, changed by `base` where the word's rule says something stands: a
trap is taken, a wait issues again. -/
def runWordWith (base : State → Ctx → LaneMask → Halt → State) (kind : WordKind) (h : Hdr) (us : List Use)
    (body : State → Ctx → LaneMask → M State) (s : State) : Host.Outcome State Fault Refusal :=
  match s.cur.bind s.ctx with
  | none => .next s
  | some c =>
    let e := s.enabledLanes c h.g h.neg
    let n := if kind == .matrix then 0 else (lanesOf e).length
    let halted := fun (s : State) (x : Halt) (why : Nat) => match x with
      | .wait => s.stall c why
      | .trap t => s.trapNow c s.word t n
      | .damage _ _ => s
    match (do declared c us; scoreboard c (⟨fGuard, .p h.g⟩ :: us) : M Unit) with
    | .error x => .next (halted s x (s.busyReason c (⟨fGuard, .p h.g⟩ :: us)))
    | .ok () =>
      match body (s.advance c n) c e with
      | .ok s' => .next ((s'.modGang c.uid fun g => g.noteWord kind us c.grp.slices (slicesIn e) s.turn).finish c h.sw)
      | .error x => .next (halted (base s c e x) x (wordReason s.word us))

/-- A word of which nothing stands when it halts. -/
def runWord (kind : WordKind) (h : Hdr) (us : List Use) (body : State → Ctx → LaneMask → M State) (s : State) :
    Host.Outcome State Fault Refusal := runWordWith (fun s _ _ _ => s) kind h us body s

/-- The registers that sources name, in field order. -/
def srcUses (srcs : List (Src × Bool)) : List Use := (srcs.zip [fA, fB, fC]).flatMap fun x => x.1.1.uses x.2 x.1.2

/-- The values of operands in a lane. -/
def State.vals (s : State) (c : Ctx) (srcs : List (Src × Bool)) (os : List Opnd) (l : Nat) : List W64 :=
  (os.zip (srcs.map (·.2))).map fun x => s.opVal c x.2 x.1 l

/-- The lane whose operands a lane's result is computed from: its own, or the lowest enabled lane's for a uniform word (R60). -/
def lead (h : Hdr) (e : LaneMask) (l : Nat) : Nat := if h.uni then lowLane e else l

/-- What a word does that acts lane by lane and writes one destination. -/
def laneBody (h : Hdr) (lat : Nat) (srcs : List (Src × Bool)) (d : Dst) (wide : Bool)
    (f : State → Ctx → Nat → List W64 → W64) (s : State) (c : Ctx) (e : LaneMask) : M State := do
  if e == 0#32 then pure s
  else do
    let (os, s) ← popAll c (srcs.map (·.1)) s
    s.writeDst c h.uni wide lat e d fun l => f s c (lead h e l) (s.vals c srcs os (lead h e l))

/-- A word that acts lane by lane on sources of the given widths and writes one destination (R99, R106). -/
def laneWord (h : Hdr) (lat : Nat) (srcs : List (Src × Bool)) (extra : List Use) (d : Dst) (wide : Bool)
    (f : State → Ctx → Nat → List W64 → W64) : State → Host.Outcome State Fault Refusal :=
  runWord .quiet h (d.uses wide ++ srcUses srcs ++ extra) (laneBody h lat srcs d wide f)

/-- What a word does that acts lane by lane and writes a predicate. -/
def predBody (h : Hdr) (lat : Nat) (srcs : List (Src × Bool)) (pd : Nat) (f : State → Ctx → Nat → List W64 → Bool)
    (s : State) (c : Ctx) (e : LaneMask) : M State := do
  if e == 0#32 then pure s
  else do
    let (os, s) ← popAll c (srcs.map (·.1)) s
    pure (s.writePred c h.uni lat e pd fun l => f s c (lead h e l) (s.vals c srcs os (lead h e l)))

/-- A word that acts lane by lane and writes a predicate. -/
def lanePred (h : Hdr) (lat : Nat) (srcs : List (Src × Bool)) (extra : List Use) (pd : Nat)
    (f : State → Ctx → Nat → List W64 → Bool) : State → Host.Outcome State Fault Refusal :=
  runWord .quiet h (⟨fD, .p pd⟩ :: srcUses srcs ++ extra) (predBody h lat srcs pd f)

/-- The value at an index of a list of operand values. -/
def arg (xs : List W64) (i : Nat) : W64 := nth 0#64 xs i

/-- An operand read once from the lowest enabled lane, 32 or 64 bits. -/
def State.lowVal (s : State) (c : Ctx) (e : LaneMask) (wide : Bool) (o : Opnd) : W64 := s.opVal c wide o (lowLane e)

end Sys2Proof.Machine
end

