-- ==== Sys2Proof/Machine/Integer.lean ====
section
/-! DEFINITION. The integer and address family (R99 to R104). -/

namespace Sys2Proof.Machine

/-- A latency of R97: two cycles more with a 64-bit operand. -/
def latency (n : Nat) (wide : Bool) : Nat := if wide then n + 2 else n

/-- A word on one source of its type. -/
def intUn (h : Hdr) (n : Nat) (t : IntTy) (d : Dst) (a : Src) (f : W64 → W64) :
    State → Host.Outcome State Fault Refusal :=
  laneWord h (latency n t.wide) [(a, t.wide)] [] d t.wide fun _ _ _ xs => f (arg xs 0)

/-- A word on two sources of its type. -/
def intBin (h : Hdr) (n : Nat) (t : IntTy) (d : Dst) (a b : Src) (f : W64 → W64 → W64) :
    State → Host.Outcome State Fault Refusal :=
  laneWord h (latency n t.wide) [(a, t.wide), (b, t.wide)] [] d t.wide fun _ _ _ xs => f (arg xs 0) (arg xs 1)

/-- A word on three sources of its type. -/
def intTer (h : Hdr) (n : Nat) (t : IntTy) (d : Dst) (a b c : Src) (f : W64 → W64 → W64 → W64) :
    State → Host.Outcome State Fault Refusal :=
  laneWord h (latency n t.wide) [(a, t.wide), (b, t.wide), (c, t.wide)] [] d t.wide fun _ _ _ xs =>
    f (arg xs 0) (arg xs 1) (arg xs 2)

/-- A comparison that writes a predicate (R102). -/
def intSetp (h : Hdr) (t : IntTy) (k : Cmp) (pd : Nat) (a b : Src) : State → Host.Outcome State Fault Refusal :=
  lanePred h (latency 4 t.wide) [(a, t.wide), (b, t.wide)] [] pd fun _ _ _ xs => intCmp t k (arg xs 0) (arg xs 1)

/-- A comparison with an immediate (R102). -/
def intSetpImm (h : Hdr) (t : IntTy) (k : Cmp) (pd : Nat) (a : Src) (imm : BitVec 27) :
    State → Host.Outcome State Fault Refusal :=
  lanePred h (latency 4 t.wide) [(a, t.wide)] [] pd fun _ _ _ xs => intCmp t k (arg xs 0) (immVal t imm)

/-- A shift count taken from an operand: modulo w (R101). -/
def countOf (t : IntTy) (b : W64) : Nat := b.toNat % t.bits

/-- `add` (R100). -/
def execAdd (h : Hdr) (t : IntTy) (sat : Bool) (d : Dst) (a b : Src) (s : State) : Host.Outcome State Fault Refusal :=
  intBin h 4 t d a b (intAdd t sat) s

/-- `sub` (R100). -/
def execSub (h : Hdr) (t : IntTy) (sat : Bool) (d : Dst) (a b : Src) (s : State) : Host.Outcome State Fault Refusal :=
  intBin h 4 t d a b (intSub t sat) s

/-- `mul` (R100). -/
def execMul (h : Hdr) (t : IntTy) (d : Dst) (a b : Src) (s : State) : Host.Outcome State Fault Refusal :=
  intBin h 6 t d a b (intMul t) s

/-- `mulh` (R100). -/
def execMulh (h : Hdr) (t : IntTy) (d : Dst) (a b : Src) (s : State) : Host.Outcome State Fault Refusal :=
  intBin h 6 t d a b (intMulh t) s

/-- `mad` (R100). -/
def execMad (h : Hdr) (t : IntTy) (d : Dst) (a b c : Src) (s : State) : Host.Outcome State Fault Refusal :=
  intTer h 6 t d a b c (intMad t) s

/-- `min` (R100). -/
def execMin (h : Hdr) (t : IntTy) (d : Dst) (a b : Src) (s : State) : Host.Outcome State Fault Refusal :=
  intBin h 4 t d a b (intMin t) s

/-- `max` (R100). -/
def execMax (h : Hdr) (t : IntTy) (d : Dst) (a b : Src) (s : State) : Host.Outcome State Fault Refusal :=
  intBin h 4 t d a b (intMax t) s

/-- `abs` (R100). -/
def execAbs (h : Hdr) (t : IntTy) (d : Dst) (a : Src) (s : State) : Host.Outcome State Fault Refusal :=
  intUn h 4 t d a (intAbs t) s

/-- `neg` (R100). -/
def execNeg (h : Hdr) (t : IntTy) (d : Dst) (a : Src) (s : State) : Host.Outcome State Fault Refusal :=
  intUn h 4 t d a (intNeg t) s

/-- `and` (R100). -/
def execAnd (h : Hdr) (t : IntTy) (d : Dst) (a b : Src) (s : State) : Host.Outcome State Fault Refusal :=
  intBin h 4 t d a b (fun x y => intLow t (x &&& y)) s

/-- `or` (R100). -/
def execOr (h : Hdr) (t : IntTy) (d : Dst) (a b : Src) (s : State) : Host.Outcome State Fault Refusal :=
  intBin h 4 t d a b (fun x y => intLow t (x ||| y)) s

/-- `xor` (R100). -/
def execXor (h : Hdr) (t : IntTy) (d : Dst) (a b : Src) (s : State) : Host.Outcome State Fault Refusal :=
  intBin h 4 t d a b (fun x y => intLow t (x ^^^ y)) s

/-- `not` (R100). -/
def execNot (h : Hdr) (t : IntTy) (d : Dst) (a : Src) (s : State) : Host.Outcome State Fault Refusal :=
  intUn h 4 t d a (fun x => intLow t (~~~x)) s

/-- `shl` (R101). -/
def execShl (h : Hdr) (t : IntTy) (d : Dst) (a b : Src) (s : State) : Host.Outcome State Fault Refusal :=
  intBin h 4 t d a b (fun x y => intShl t x (countOf t y)) s

/-- `shr` (R101). -/
def execShr (h : Hdr) (t : IntTy) (d : Dst) (a b : Src) (s : State) : Host.Outcome State Fault Refusal :=
  intBin h 4 t d a b (fun x y => intShr t x (countOf t y)) s

/-- `sar` (R101). -/
def execSar (h : Hdr) (t : IntTy) (d : Dst) (a b : Src) (s : State) : Host.Outcome State Fault Refusal :=
  intBin h 4 t d a b (fun x y => intSar t x (countOf t y)) s

/-- `rot` (R101). -/
def execRot (h : Hdr) (t : IntTy) (d : Dst) (a b : Src) (s : State) : Host.Outcome State Fault Refusal :=
  intBin h 4 t d a b (fun x y => intRot t x (countOf t y)) s

/-- `clz` (R100). -/
def execClz (h : Hdr) (t : IntTy) (d : Dst) (a : Src) (s : State) : Host.Outcome State Fault Refusal :=
  intUn h 6 t d a (intClz t) s

/-- `popc` (R100). -/
def execPopc (h : Hdr) (t : IntTy) (d : Dst) (a : Src) (s : State) : Host.Outcome State Fault Refusal :=
  intUn h 6 t d a (intPopc t) s

/-- `brev` (R100). -/
def execBrev (h : Hdr) (t : IntTy) (d : Dst) (a : Src) (s : State) : Host.Outcome State Fault Refusal :=
  intUn h 6 t d a (intBrev t) s

/-- `bfx` (R101): position and length in b. -/
def execBfx (h : Hdr) (t : IntTy) (d : Dst) (a b : Src) (s : State) : Host.Outcome State Fault Refusal :=
  intBin h 4 t d a b (fun x y => intBfx t x (field y.toNat 0 8) (field y.toNat 8 8)) s

/-- `bfi` (R101): position and length in c. -/
def execBfi (h : Hdr) (t : IntTy) (d : Dst) (a b c : Src) (s : State) : Host.Outcome State Fault Refusal :=
  intTer h 4 t d a b c (fun x y z => intBfi t x y (field z.toNat 0 8) (field z.toNat 8 8)) s

/-- `sel` (R100): the predicate chooses in each lane. -/
def execSel (h : Hdr) (t : IntTy) (d : Dst) (a b : Src) (pc : Nat) (s : State) : Host.Outcome State Fault Refusal :=
  laneWord h (latency 4 t.wide) [(a, t.wide), (b, t.wide)] [⟨fC, .p pc⟩] d t.wide
    (fun s c l xs => intLow t (if s.readP c.gang pc l then arg xs 0 else arg xs 1)) s

/-- `setp` (R102). -/
def execSetp (h : Hdr) (t : IntTy) (cmp : Cmp) (pd : Nat) (a b : Src) (s : State) : Host.Outcome State Fault Refusal :=
  intSetp h t cmp pd a b s

/-- `mov` (R103). -/
def execMov (h : Hdr) (t : IntTy) (d : Dst) (a : Src) (s : State) : Host.Outcome State Fault Refusal :=
  intUn h 4 t d a (intLow t) s

/-- `lea` (R103): B is one 32-bit operand. -/
def execLea (h : Hdr) (t : IntTy) (sh : BitVec 3) (d : Dst) (a b : Src) (s : State) : Host.Outcome State Fault Refusal :=
  laneWord h (latency 4 t.wide) [(a, t.wide), (b, false)] [] d t.wide
    (fun _ _ _ xs => intLea t (arg xs 0) (arg xs 1) sh.toNat) s

/-- `cvt` (R104). -/
def execCvt (h : Hdr) (st : IntTy) (dt : CvtTy) (r : Rnd) (sat : Bool) (d : Dst) (a : Src) (s : State) : Host.Outcome State Fault Refusal :=
  laneWord h (latency 6 (st.wide || dt.wide)) [(a, st.wide)] [] d dt.wide
    (fun _ _ _ xs => intCvt st dt r sat (arg xs 0)) s

/-- `add` with an immediate (R100). -/
def execAddImm (h : Hdr) (t : IntTy) (d : Dst) (a : Src) (imm : BitVec 27) (s : State) : Host.Outcome State Fault Refusal :=
  intUn h 4 t d a (fun x => intAdd t false x (immVal t imm)) s

/-- `sub` with an immediate (R100). -/
def execSubImm (h : Hdr) (t : IntTy) (d : Dst) (a : Src) (imm : BitVec 27) (s : State) : Host.Outcome State Fault Refusal :=
  intUn h 4 t d a (fun x => intSub t false x (immVal t imm)) s

/-- `mul` with an immediate (R100). -/
def execMulImm (h : Hdr) (t : IntTy) (d : Dst) (a : Src) (imm : BitVec 27) (s : State) : Host.Outcome State Fault Refusal :=
  intUn h 6 t d a (fun x => intMul t x (immVal t imm)) s

/-- `min` with an immediate (R100). -/
def execMinImm (h : Hdr) (t : IntTy) (d : Dst) (a : Src) (imm : BitVec 27) (s : State) : Host.Outcome State Fault Refusal :=
  intUn h 4 t d a (fun x => intMin t x (immVal t imm)) s

/-- `max` with an immediate (R100). -/
def execMaxImm (h : Hdr) (t : IntTy) (d : Dst) (a : Src) (imm : BitVec 27) (s : State) : Host.Outcome State Fault Refusal :=
  intUn h 4 t d a (fun x => intMax t x (immVal t imm)) s

/-- `and` with an immediate (R100). -/
def execAndImm (h : Hdr) (t : IntTy) (d : Dst) (a : Src) (imm : BitVec 27) (s : State) : Host.Outcome State Fault Refusal :=
  intUn h 4 t d a (fun x => intLow t (x &&& immVal t imm)) s

/-- `or` with an immediate (R100). -/
def execOrImm (h : Hdr) (t : IntTy) (d : Dst) (a : Src) (imm : BitVec 27) (s : State) : Host.Outcome State Fault Refusal :=
  intUn h 4 t d a (fun x => intLow t (x ||| immVal t imm)) s

/-- `xor` with an immediate (R100). -/
def execXorImm (h : Hdr) (t : IntTy) (d : Dst) (a : Src) (imm : BitVec 27) (s : State) : Host.Outcome State Fault Refusal :=
  intUn h 4 t d a (fun x => intLow t (x ^^^ immVal t imm)) s

/-- `shl` with an immediate (R101). -/
def execShlImm (h : Hdr) (t : IntTy) (d : Dst) (a : Src) (imm : BitVec 27) (s : State) : Host.Outcome State Fault Refusal :=
  intUn h 4 t d a (fun x => intShl t x imm.toNat) s

/-- `shr` with an immediate (R101). -/
def execShrImm (h : Hdr) (t : IntTy) (d : Dst) (a : Src) (imm : BitVec 27) (s : State) : Host.Outcome State Fault Refusal :=
  intUn h 4 t d a (fun x => intShr t x imm.toNat) s

/-- `sar` with an immediate (R101). -/
def execSarImm (h : Hdr) (t : IntTy) (d : Dst) (a : Src) (imm : BitVec 27) (s : State) : Host.Outcome State Fault Refusal :=
  intUn h 4 t d a (fun x => intSar t x imm.toNat) s

/-- `rot` with an immediate (R101). -/
def execRotImm (h : Hdr) (t : IntTy) (d : Dst) (a : Src) (imm : BitVec 27) (s : State) : Host.Outcome State Fault Refusal :=
  intUn h 4 t d a (fun x => intRot t x imm.toNat) s

/-- `bfx` with an immediate (R101). -/
def execBfxImm (h : Hdr) (t : IntTy) (d : Dst) (a : Src) (imm : BitVec 27) (s : State) : Host.Outcome State Fault Refusal :=
  intUn h 4 t d a (fun x => intBfx t x (field imm.toNat 0 8) (field imm.toNat 8 8)) s

/-- `movi` (R103). -/
def execMovi (h : Hdr) (t : IntTy) (d : Dst) (imm : BitVec 27) (s : State) : Host.Outcome State Fault Refusal :=
  laneWord h (latency 4 t.wide) [] [] d t.wide (fun _ _ _ _ => immVal t imm) s

/-- `movi.hi` (R103). -/
def execMoviHi (h : Hdr) (d : Dst) (imm : BitVec 27) (s : State) : Host.Outcome State Fault Refusal :=
  laneWord h 4 [] [] d false (fun _ _ _ _ => BitVec.ofNat 64 (imm.toNat % 2 ^ 16 * 2 ^ 16)) s

/-- `lea` with an immediate (R103). -/
def execLeaImm (h : Hdr) (t : IntTy) (d : Dst) (a : Src) (imm : BitVec 27) (s : State) : Host.Outcome State Fault Refusal :=
  intUn h 4 t d a (fun x => intAdd t false x (immVal t imm)) s

/-- `setp.eq` with an immediate (R102). -/
def execSetpEqImm (h : Hdr) (t : IntTy) (pd : Nat) (a : Src) (imm : BitVec 27) (s : State) : Host.Outcome State Fault Refusal :=
  intSetpImm h t .eq pd a imm s

/-- `setp.ne` with an immediate (R102). -/
def execSetpNeImm (h : Hdr) (t : IntTy) (pd : Nat) (a : Src) (imm : BitVec 27) (s : State) : Host.Outcome State Fault Refusal :=
  intSetpImm h t .ne pd a imm s

/-- `setp.lt` with an immediate (R102). -/
def execSetpLtImm (h : Hdr) (t : IntTy) (pd : Nat) (a : Src) (imm : BitVec 27) (s : State) : Host.Outcome State Fault Refusal :=
  intSetpImm h t .lt pd a imm s

/-- `setp.le` with an immediate (R102). -/
def execSetpLeImm (h : Hdr) (t : IntTy) (pd : Nat) (a : Src) (imm : BitVec 27) (s : State) : Host.Outcome State Fault Refusal :=
  intSetpImm h t .le pd a imm s

/-- `setp.gt` with an immediate (R102). -/
def execSetpGtImm (h : Hdr) (t : IntTy) (pd : Nat) (a : Src) (imm : BitVec 27) (s : State) : Host.Outcome State Fault Refusal :=
  intSetpImm h t .gt pd a imm s

/-- `setp.ge` with an immediate (R102). -/
def execSetpGeImm (h : Hdr) (t : IntTy) (pd : Nat) (a : Src) (imm : BitVec 27) (s : State) : Host.Outcome State Fault Refusal :=
  intSetpImm h t .ge pd a imm s

end Sys2Proof.Machine
end

