-- ==== Sys2Proof/Machine/FloatOps.lean ====
section
/-! DEFINITION. The FP32 family (R106 to R110, R261). -/

namespace Sys2Proof.Machine

/-- Bits 31:0 of an operand value. -/
def lo32 (x : W64) : W32 := x.setWidth 32

/-- A float word on one source. -/
def floatUn (h : Hdr) (lat : Nat) (d : Dst) (a : Src) (f : W32 → W32) : State → Host.Outcome State Fault Refusal :=
  laneWord h lat [(a, false)] [] d false fun _ _ _ xs => (f (lo32 (arg xs 0))).setWidth 64

/-- A float word on two sources. -/
def floatBin (h : Hdr) (d : Dst) (a b : Src) (f : W32 → W32 → W32) : State → Host.Outcome State Fault Refusal :=
  laneWord h 6 [(a, false), (b, false)] [] d false fun _ _ _ xs =>
    (f (lo32 (arg xs 0)) (lo32 (arg xs 1))).setWidth 64

/-- A float word on three sources. -/
def floatTer (h : Hdr) (d : Dst) (a b c : Src) (f : W32 → W32 → W32 → W32) :
    State → Host.Outcome State Fault Refusal :=
  laneWord h 6 [(a, false), (b, false), (c, false)] [] d false fun _ _ _ xs =>
    (f (lo32 (arg xs 0)) (lo32 (arg xs 1)) (lo32 (arg xs 2))).setWidth 64

/-- `frnd` (R110): NaN is canonical, the sign of a zero result is kept. -/
def fRound (r : Rnd) (a : W32) : W32 := toF32 r ((f32 a).whole r)

/-- `fadd` (R107). -/
def execFadd (h : Hdr) (r : Rnd) (d : Dst) (a b : Src) (s : State) : Host.Outcome State Fault Refusal :=
  floatBin h d a b (fAdd r) s

/-- `fsub` (R107). -/
def execFsub (h : Hdr) (r : Rnd) (d : Dst) (a b : Src) (s : State) : Host.Outcome State Fault Refusal :=
  floatBin h d a b (fSub r) s

/-- `fmul` (R107). -/
def execFmul (h : Hdr) (r : Rnd) (d : Dst) (a b : Src) (s : State) : Host.Outcome State Fault Refusal :=
  floatBin h d a b (fMul r) s

/-- `ffma` (R107). -/
def execFfma (h : Hdr) (r : Rnd) (d : Dst) (a b c : Src) (s : State) : Host.Outcome State Fault Refusal :=
  floatTer h d a b c (fFma r) s

/-- `fmin` (R109). -/
def execFmin (h : Hdr) (d : Dst) (a b : Src) (s : State) : Host.Outcome State Fault Refusal :=
  floatBin h d a b (fminmax false) s

/-- `fmax` (R109). -/
def execFmax (h : Hdr) (d : Dst) (a b : Src) (s : State) : Host.Outcome State Fault Refusal :=
  floatBin h d a b (fminmax true) s

/-- `frcp` (R107, R108). -/
def execFrcp (h : Hdr) (r : Rnd) (d : Dst) (a : Src) (s : State) : Host.Outcome State Fault Refusal :=
  floatUn h 16 d a (fRcp r) s

/-- `frsq` (R107, R108). -/
def execFrsq (h : Hdr) (r : Rnd) (d : Dst) (a : Src) (s : State) : Host.Outcome State Fault Refusal :=
  floatUn h 16 d a (fRsq r) s

/-- `fsqrt` (R107, R108). -/
def execFsqrt (h : Hdr) (r : Rnd) (d : Dst) (a : Src) (s : State) : Host.Outcome State Fault Refusal :=
  floatUn h 16 d a (fSqrt r) s

/-- `fexp2` (R107, R108). -/
def execFexp2 (h : Hdr) (r : Rnd) (d : Dst) (a : Src) (s : State) : Host.Outcome State Fault Refusal :=
  floatUn h 16 d a (fExp2 r) s

/-- `flog2` (R107, R108). -/
def execFlog2 (h : Hdr) (r : Rnd) (d : Dst) (a : Src) (s : State) : Host.Outcome State Fault Refusal :=
  floatUn h 16 d a (fLog2 r) s

/-- `fsin` (R107, R108). -/
def execFsin (h : Hdr) (r : Rnd) (d : Dst) (a : Src) (s : State) : Host.Outcome State Fault Refusal :=
  floatUn h 16 d a (fSin r) s

/-- `fcos` (R107, R108). -/
def execFcos (h : Hdr) (r : Rnd) (d : Dst) (a : Src) (s : State) : Host.Outcome State Fault Refusal :=
  floatUn h 16 d a (fCos r) s

/-- `fsetp` (R109). -/
def execFsetp (h : Hdr) (cmp : FCmp) (pd : Nat) (a b : Src) (s : State) : Host.Outcome State Fault Refusal :=
  lanePred h 6 [(a, false), (b, false)] [] pd
    (fun _ _ _ xs => fcompare cmp (lo32 (arg xs 0)) (lo32 (arg xs 1))) s

/-- Modes of `fcvt` whose destination is a register pair (R110). -/
def FMode.wide : FMode → Bool
  | .toI64 | .toN64 => true
  | _ => false

/-- `fcvt` (R110). -/
def execFcvt (h : Hdr) (r : Rnd) (mode : FMode) (sat : Bool) (d : Dst) (a : Src) (s : State) : Host.Outcome State Fault Refusal :=
  laneWord h (latency 6 (FMode.wide mode)) [(a, false)] [] d (FMode.wide mode)
    (fun _ _ _ xs => fCvt r mode sat (lo32 (arg xs 0))) s

/-- `frnd` (R110). -/
def execFrnd (h : Hdr) (r : Rnd) (d : Dst) (a : Src) (s : State) : Host.Outcome State Fault Refusal :=
  floatUn h 6 d a (fRound r) s

/-- `fdot` (R261). -/
def execFdot (h : Hdr) (r : Rnd) (fmt : DotFmt) (d : Dst) (a b c : Src) (s : State) : Host.Outcome State Fault Refusal :=
  floatTer h d a b c (fDot r fmt) s

/-- `fadd` with an immediate (R106). -/
def execFaddImm (h : Hdr) (r : Rnd) (d : Dst) (a : Src) (imm : BitVec 27) (s : State) : Host.Outcome State Fault Refusal :=
  floatUn h 6 d a (fun x => fAdd r x (immF imm)) s

/-- `fsub` with an immediate (R106). -/
def execFsubImm (h : Hdr) (r : Rnd) (d : Dst) (a : Src) (imm : BitVec 27) (s : State) : Host.Outcome State Fault Refusal :=
  floatUn h 6 d a (fun x => fSub r x (immF imm)) s

/-- `fmul` with an immediate (R106). -/
def execFmulImm (h : Hdr) (r : Rnd) (d : Dst) (a : Src) (imm : BitVec 27) (s : State) : Host.Outcome State Fault Refusal :=
  floatUn h 6 d a (fun x => fMul r x (immF imm)) s

/-- `fmin` with an immediate (R106). -/
def execFminImm (h : Hdr) (d : Dst) (a : Src) (imm : BitVec 27) (s : State) : Host.Outcome State Fault Refusal :=
  floatUn h 6 d a (fun x => fminmax false x (immF imm)) s

/-- `fmax` with an immediate (R106). -/
def execFmaxImm (h : Hdr) (d : Dst) (a : Src) (imm : BitVec 27) (s : State) : Host.Outcome State Fault Refusal :=
  floatUn h 6 d a (fun x => fminmax true x (immF imm)) s

end Sys2Proof.Machine
end

