-- ==== Sys2Proof/Machine/CrossLane.lean ====
section
/-! DEFINITION. The predicate family (R105) and the cross-lane family (R111 to R113). -/

namespace Sys2Proof.Machine

/-- A predicate source, inverted when the word says so (R105). -/
def State.predIn (s : State) (c : Ctx) (inv : Bool) (n lane : Nat) : Bool := s.readP c.gang n lane != inv

/-- A predicate word on two sources. -/
def predBin (h : Hdr) (ia ib : Bool) (pd pa pb : Nat) (f : Bool → Bool → Bool) :
    State → Host.Outcome State Fault Refusal :=
  lanePred h 4 [] [⟨fA, .p pa⟩, ⟨fB, .p pb⟩] pd fun s c l _ => f (s.predIn c ia pa l) (s.predIn c ib pb l)

/-- A predicate word on one source. -/
def predUn (h : Hdr) (ia : Bool) (pd pa : Nat) (f : Bool → Bool) : State → Host.Outcome State Fault Refusal :=
  lanePred h 4 [] [⟨fA, .p pa⟩] pd fun s c l _ => f (s.predIn c ia pa l)

/-- `pand` (R105). -/
def execPand (h : Hdr) (ia ib : Bool) (pd pa pb : Nat) (s : State) : Host.Outcome State Fault Refusal :=
  predBin h ia ib pd pa pb (fun x y => x && y) s

/-- `por` (R105). -/
def execPor (h : Hdr) (ia ib : Bool) (pd pa pb : Nat) (s : State) : Host.Outcome State Fault Refusal :=
  predBin h ia ib pd pa pb (fun x y => x || y) s

/-- `pxor` (R105). -/
def execPxor (h : Hdr) (ia ib : Bool) (pd pa pb : Nat) (s : State) : Host.Outcome State Fault Refusal :=
  predBin h ia ib pd pa pb (fun x y => x != y) s

/-- `pnot` (R105). -/
def execPnot (h : Hdr) (ia : Bool) (pd pa : Nat) (s : State) : Host.Outcome State Fault Refusal :=
  predUn h ia pd pa (fun x => !x) s

/-- `pmov` (R105). -/
def execPmov (h : Hdr) (ia : Bool) (pd pa : Nat) (s : State) : Host.Outcome State Fault Refusal :=
  predUn h ia pd pa (fun x => x) s

/-! Cross-lane words: every source is read before any lane is written (R111). -/

/-- A vector register, or a pair, in a lane, zero-extended. -/
def State.laneReg (s : State) (c : Ctx) (wide : Bool) (n lane : Nat) : W64 :=
  if wide then s.readV64 c.gang n lane else (s.readV c.gang n lane).setWidth 64

/-- The source lane of `shfl`, if the arithmetic stays in the gang (R112). -/
def shflSource (mode : ShMode) (lane b : Nat) : Option Nat :=
  match mode with
  | .idx => if b < 32 then some b else none
  | .up => if b ≤ lane then some (lane - b) else none
  | .down => if lane + b < 32 then some (lane + b) else none
  | .xor => if (lane ^^^ b) < 32 then some (lane ^^^ b) else none

/-- The value `shfl` gives a lane (R112). -/
def State.shflVal (s : State) (c : Ctx) (e : LaneMask) (mode : ShMode) (wide : Bool) (a lane b : Nat) : W64 :=
  match shflSource mode lane b with
  | some k => s.laneReg c wide a (if e.getLsbD k then k else lane)
  | none => s.laneReg c wide a lane

/-- What a cross-lane word does: `f` sees the state before it. -/
def crossBody (wideD wideA : Bool) (d : Dst) (srcs : List Src) (f : State → Ctx → LaneMask → List Opnd → Nat → W64)
    (s : State) (c : Ctx) (e : LaneMask) : M State := do
  if e == 0#32 then pure s
  else do
    let (os, s) ← popAll c srcs s
    s.writeDst c false wideD (latency 8 (wideD || wideA)) e d (f s c e os)

/-- A cross-lane word that writes a destination in the enabled lanes. -/
def crossWord (h : Hdr) (wideD wideA : Bool) (d : Dst) (a : Nat) (srcs : List Src)
    (f : State → Ctx → LaneMask → List Opnd → Nat → W64) : State → Host.Outcome State Fault Refusal :=
  runWord .cross h (d.uses wideD ++ (Src.v a).uses fA wideA ++ srcs.flatMap fun x => x.uses fB false)
    (crossBody wideD wideA d srcs f)

/-- The value of an operand list's only member in a lane. -/
def State.opHead (s : State) (c : Ctx) (os : List Opnd) (lane : Nat) : W64 :=
  match os with
  | [] => 0
  | o :: _ => s.opVal c false o lane

/-- `shfl` (R112). -/
def execShfl (h : Hdr) (mode : ShMode) (wide : Bool) (d : Dst) (a : Nat) (b : Src) (s : State) : Host.Outcome State Fault Refusal :=
  crossWord h wide wide d a [b]
    (fun s c e os l => s.shflVal c e mode wide a l (s.opHead c os l).toNat) s

/-- `shfl` with an immediate (R112). -/
def execShflImm (h : Hdr) (mode : ShMode) (wide : Bool) (d : Dst) (a : Nat) (lane : BitVec 5) (s : State) : Host.Outcome State Fault Refusal :=
  crossWord h wide wide d a []
    (fun s c e _ l => s.shflVal c e mode wide a l lane.toNat) s

/-- The lanes of E whose predicate is set (R113). -/
def State.ballot (s : State) (c : Ctx) (e : LaneMask) (pa : Nat) : LaneMask :=
  maskOf ((lanesOf e).filter fun l => s.readP c.gang pa l)

/-- `vote` (R113): the predicate goes to every active lane, enabled or not, also when E is empty. -/
def execVote (h : Hdr) (kind : VoteKind) (pd pa : Nat) (s : State) : Host.Outcome State Fault Refusal :=
  runWord .cross h [⟨fD, .p pd⟩, ⟨fA, .p pa⟩] (fun s c e => do
    let b := s.ballot c e pa
    let r := match kind with
      | .any => b != 0#32
      | .all => b == e
      | .eq => b == e || b == 0#32
    pure (s.writePred c false 8 c.lanes pd fun _ => r)) s

/-- `vote.ballot` (R113). -/
def execVoteBallot (h : Hdr) (d pa : Nat) (s : State) : Host.Outcome State Fault Refusal :=
  runWord .cross h ((Dst.v d).uses false ++ [⟨fA, .p pa⟩])
    (fun s c e => s.writeDst c false false 8 e (.v d) fun _ => (s.ballot c e pa).setWidth 64) s

/-- `match` (R113). -/
def execMatchv (h : Hdr) (wide : Bool) (d a : Nat) (s : State) : Host.Outcome State Fault Refusal :=
  crossWord h false wide (.v d) a []
    (fun s c e _ l =>
      (maskOf ((lanesOf e).filter fun m => s.laneReg c wide a m == s.laneReg c wide a l)).setWidth 64) s

/-- One step of `redux` (R113). -/
def reduxOp (op : RedOp) (x y : W64) : W64 :=
  match op with
  | .add => intAdd .n32 false x y
  | .minI => intMin .i32 x y
  | .maxI => intMax .i32 x y
  | .minN => intMin .n32 x y
  | .maxN => intMax .n32 x y
  | .and => intLow .n32 (x &&& y)
  | .or => intLow .n32 (x ||| y)
  | .xor => intLow .n32 (x ^^^ y)

/-- OP over a list of lanes' values. -/
def reduxAll (op : RedOp) : List W64 → W64
  | [] => 0
  | x :: xs => xs.foldl (reduxOp op) x

/-- `redux` (R113). -/
def execRedux (h : Hdr) (op : RedOp) (d : Dst) (a : Nat) (s : State) : Host.Outcome State Fault Refusal :=
  crossWord h false false d a []
    (fun s c e _ _ => reduxAll op ((lanesOf e).map fun l => s.laneReg c false a l)) s

/-- `bcast` (R113). -/
def execBcast (h : Hdr) (wide : Bool) (d : Dst) (a : Nat) (b : Src) (s : State) : Host.Outcome State Fault Refusal :=
  crossWord h wide wide d a [b]
    (fun s c e os _ =>
      let k := (s.opHead c os (lowLane e)).toNat % 32
      s.laneReg c wide a (if e.getLsbD k then k else lowLane e)) s

/-- `bcast.low` (R113). -/
def execBcastLow (h : Hdr) (wide : Bool) (d : Dst) (a : Nat) (s : State) : Host.Outcome State Fault Refusal :=
  crossWord h wide wide d a [] (fun s c e _ _ => s.laneReg c wide a (lowLane e)) s

end Sys2Proof.Machine
end

