-- ==== Sys2Proof/Machine/Home.lean ====
section
/-! DEFINITION. Homes of memory lines: reads, accepted writes and versions (R154, R156), the physical map (R381) and the
two stages of translation (R386 to R391). -/

namespace Sys2Proof.Machine

/-- What a line's home holds. -/
def State.homeLine (s : State) (line : Nat) : BitVec 1024 := packBytes (s.mem.readN line 128)

def State.version (s : State) (line : Nat) : Nat := s.vers.get 0 line

/-- Some launch has not completed: values that lines held are then kept for R85 (assumption 12). -/
def State.anyLaunch (s : State) : Bool := s.allots.any fun a => a.launches.any fun l => !l.complete

/-- The home of a line accepts one write of some of its bytes: the version advances (R154, R156); the line is ownerless unless
`ownLine` says whose write it was (R138). -/
def State.homeWrite (s : State) (line : Nat) (bs : List (Nat × Byte)) : State :=
  if bs.isEmpty then s
  else
    let old := if s.anyLaunch then ⟨s.turn, line, offsetMask (bs.map (·.1)), s.homeLine line⟩ :: s.writes else s.writes
    { s with mem := bs.foldl (fun m x => m.write (line + x.1) x.2) s.mem
             vers := s.vers.set 0 line (s.version line + 1)
             owners := s.owners.set 0 line 0
             writes := old }

/-- An owner tag: a launch of an allotment; 0 is ownerless (R138). -/
def ownerTag (al lid : Nat) : Nat := 1 + al + 16 * lid

/-- A memory line belongs to the launch that last wrote it (R138). -/
def State.ownLine (s : State) (line al lid : Nat) : State := { s with owners := s.owners.set 0 line (ownerTag al lid) }

/-- A memory line that an access finds damaged: marked poisoned, or in tier two behind a lost link (R140, R384). -/
def State.damaged (s : State) (line : Nat) : Bool :=
  s.poison.contains line || (0x100000000000 ≤ line && line < 0x200000000000 && s.plat.cxlDown.contains (field line 40 4))

/-- An access of a launch reaches a line at its home: one that is damaged is met, and the launch ends with the next step (R140, R384). -/
def State.meetLine (s : State) (al lid line : Nat) : State :=
  if s.damaged line then { s with met := ⟨al, lid, line⟩ :: s.met } else s

/-- Accept a run of bytes at any address, one write for each line it touches, lowest first. -/
def homeRuns : Nat → Nat → List Byte → List (Nat × List (Nat × Byte))
  | 0, _, _ => []
  | n + 1, a, bs =>
    if bs.isEmpty then []
    else
      let k := 128 - a % 128
      (lineOf a, bytesAt (a % 128) (bs.take k)) :: homeRuns n (a + k) (bs.drop k)

def State.homeBytes (s : State) (a : Nat) (bs : List Byte) : State :=
  (homeRuns (bs.length / 128 + 2) a bs).foldl (fun s x => s.homeWrite x.1 x.2) s

def State.homeWord (s : State) (a : Nat) : Nat := ofBytes (s.mem.readN a 8)

/-! The physical map (R381, R382). -/

def isTierOne (a : Nat) : Bool := a < 0x20000000000
def isTierTwo (a : Nat) : Bool := 0x100000000000 ≤ a && a < 0x200000000000
def isPeer (a : Nat) : Bool := 0x8000000000000 ≤ a && a < 0x10000000000000

/-- An address that is there: some range of R381 holds it, and one of tier two lies in what its port's decoder covers (R383). -/
def State.physOk (s : State) (a : Nat) : Bool :=
  isTierOne a || isPeer a || isTierTwo a && a % 2 ^ 40 < nth 0 s.plat.hdm (field a 40 4)

/-- While the routes change, a request made from this turn on is held (R380). -/
def State.heldTurn (s : State) (turn : Nat) : Bool := s.plat.draining && s.plat.drainTurn ≤ turn

/-- The same of a request by its number. -/
def State.heldUid (s : State) (uid : Nat) : Bool := s.plat.draining && s.plat.drainUid ≤ uid

/-- The port of a peer address is up (R381, R385). Which port firmware gives a peer is free (assumption 30). -/
def State.peerUp (s : State) (pa : Nat) : Bool := !s.plat.peerDown.contains (Config.peerPort (field pa 47 4) % 8)

/-- Die of a line's home (R381, R382). -/
def homeDie (a : Nat) : Nat := if isTierTwo a then field a 40 4 / 4 else field a 39 2

/-- L2 slice of a line's home (R382): the XOR of the eight 4-bit groups of address bits 38:7. -/
def homeSlice (a : Nat) : Nat := (List.range 8).foldl (fun x i => x ^^^ field a (7 + 4 * i) 4) 0

/-- Physical field of the home's thresher (R382). -/
def homeField (a : Nat) : Nat := 12 * homeDie a + 3 * homeSlice a / 4

/-! Translation. -/

/-- What an access asks of a page (R388). -/
inductive Need where
  | read | write | exec
  deriving DecidableEq, Repr, Inhabited

/-- A leaf a walk ended in: its entry's physical address, the output base, the size mapped, its rights. -/
structure Leaf where
  ent : Nat
  base : Nat
  size : Nat
  r : Bool
  w : Bool
  x : Bool
  deriving DecidableEq, Repr, Inhabited

def pteOut (e : Nat) : Nat := field e 12 40 * 4096

/-- The sixteen aligned entries of a CONT group agree (R388). -/
def contOk (m : Memory) (t idx lvl : Nat) : Bool :=
  let b := alignDown idx 16
  let ent := fun i => ofBytes (m.readN (t + 8 * (b + i)) 8)
  (List.range 16).all fun i =>
    bitAt (ent i) 5 && pteOut (ent i) == pteOut (ent 0) + i * 2 ^ (12 + 9 * lvl) && field (ent i) 2 3 == field (ent 0) 2 3

/-- An entry that a walk treats as mapped (R388). -/
def pteOk (m : Memory) (t idx lvl e : Nat) : Bool :=
  bitAt e 0 && field e 8 4 == 0 && field e 52 4 == 0 && field e 60 4 == 0 &&
  (if bitAt e 1 then lvl < 3 && pteOut e % 2 ^ (12 + 9 * lvl) == 0 else lvl != 0) &&
  (!bitAt e 5 || contOk m t idx lvl)

/-- The leaf an entry is. -/
def pteLeaf (t idx lvl e : Nat) : Leaf :=
  let sz := 2 ^ (12 + 9 * lvl)
  let cont := bitAt e 5
  { ent := t + 8 * idx
    base := if cont then pteOut e - idx % 16 * sz else pteOut e
    size := if cont then 16 * sz else sz
    r := bitAt e 2, w := bitAt e 3, x := bitAt e 4 }

def walkIndex (a lvl : Nat) : Nat := field a (12 + 9 * lvl) (if lvl == 4 then 8 else 9)

/-- A walk of stage two from a level down (R386). -/
def walkTwo (m : Memory) (a : Nat) : Nat → Nat → Option Leaf
  | 0, _ => none
  | lvl + 1, t =>
    let idx := walkIndex a lvl
    let e := ofBytes (m.readN (t + 8 * idx) 8)
    if !pteOk m t idx lvl e then none
    else if bitAt e 1 then some (pteLeaf t idx lvl e)
    else walkTwo m a lvl (pteOut e)

/-- Stage two of an allotment: physical address and leaf, none for the identity of allotment 0 (R391). -/
def State.stageTwo (s : State) (al ipa : Nat) : Except Nat (Nat × Option Leaf) :=
  let root := field (s.allot al).pt2.toNat 12 40 * 4096
  if root == 0 then
    if al == 0 && s.physOk ipa then .ok (ipa, none) else .error 0x17
  else
    match walkTwo s.mem ipa 5 root with
    | none => .error 0x17
    | some l =>
      let pa := l.base + ipa % l.size
      if s.physOk pa then .ok (pa, some l) else .error 0x17

/-- A walk of stage one, each table address translated through stage two: the leaf and the stage-two entries used. -/
def State.walkOne (s : State) (al a : Nat) : Nat → Nat → List Nat → Except Nat (Leaf × List Nat)
  | 0, _, _ => .error 0x11
  | lvl + 1, t, used =>
    match s.stageTwo al t with
    | .error c => .error c
    | .ok (p, l2) =>
      let used := match l2 with | some l => l.ent :: used | none => used
      let idx := walkIndex a lvl
      let e := ofBytes (s.mem.readN (p + 8 * idx) 8)
      if !pteOk s.mem p idx lvl e then .error 0x11
      else if bitAt e 1 then .ok (pteLeaf p idx lvl e, used)
      else s.walkOne al a lvl (pteOut e) used

/-- Whether a cached translation serves an address of an allotment at a unit (R390). -/
def Tlb.covers (t : Tlb) (unit al va : Nat) : Bool :=
  t.unit == unit && t.al == al && t.vbase ≤ va && va < t.vbase + t.vsize

/-- Set attribute bits of a table entry's low byte: an atomic update at the entry's home (R388). -/
def State.setAttr (s : State) (ent : Nat) (bits : Byte) : State :=
  let b := s.mem.read ent
  if b &&& bits == bits then s else s.homeWrite (lineOf ent) [(ent % 128, b ||| bits)]

/-- A walk with what a cache entry needs: the entry, the stage-two entries used for tables. -/
def State.walk (s : State) (unit al va : Nat) : Except Nat (Tlb × List Nat) :=
  match s.walkOne al va 5 (field (s.allot al).pt1.toNat 12 40 * 4096) [] with
  | .error c => .error c
  | .ok (l1, used) =>
    let ipa := l1.base + va % l1.size
    match s.stageTwo al ipa with
    | .error c => .error c
    | .ok (pa, l2) =>
      let l := l2.getD ⟨0, 0, l1.size, true, true, true⟩
      let size := if l1.base % l1.size == 0 && l.base % l.size == 0 then Nat.min l1.size l.size else 4096
      .ok ({ unit := unit, al := al, vbase := alignDown va size, vsize := size, ibase := alignDown ipa size,
             pbase := pa - va % size, size := size, r1 := l1.r, w1 := l1.w, x1 := l1.x && l.x, r2 := l.r, w2 := l.w,
             dirty := false, leaf1 := l1.ent, leaf2 := l2.map fun (x : Leaf) => x.ent,
             size2 := l.size }, used)

/-- The translation a unit uses for an address (R79, R390): its cached one, else that of a walk, which sets A in every leaf that it
uses (R388) and is then cached. -/
def State.lookup (s : State) (unit al va : Nat) : Except Nat (Tlb × State) :=
  if va ≥ 2 ^ 56 then .error 0x19
  else
    match s.tlb.find? fun t => t.covers unit al va with
    | some t => .ok (t, s)
    | none =>
      match s.walk unit al va with
      | .error c => .error c
      | .ok (t, used) =>
        let ents := t.leaf1 :: (t.leaf2.toList ++ used)
        .ok (t, { ((ents.foldl (fun s e => s.setAttr e 0x40#8) s).signal unit 14 al) with tlb := t :: s.tlb })

/-- Page starts of a run of bytes. -/
def pagesOf (lo len : Nat) : List Nat :=
  if len == 0 then [] else (List.range ((lo + len - 1) / 4096 - lo / 4096 + 1)).map fun i => 4096 * (lo / 4096 + i)

/-- Pages that a check has looked at: their translations are walked and cached. -/
def State.touch (s : State) (unit al : Nat) (ps : List Nat) : State :=
  ps.foldl (fun s p => match s.lookup unit al p with | .ok (_, s) => s | .error _ => s) s

/-- The engines of a die translate as one unit. -/
def engineUnit (die : Nat) : Nat := 256 + die

/-- What the tables give a page at this moment: its translation. -/
def State.mapped (s : State) (al va : Nat) : Option Tlb :=
  if va ≥ 2 ^ 56 then none
  else
    match s.walk 0 al va with
    | .ok (t, _) => some t
    | .error _ => none

/-- The cause of a missing right (R388). -/
def Tlb.missing (t : Tlb) : Need → Option Nat
  | .read => if !t.r1 then some 0x12 else if !t.r2 then some 0x18 else none
  | .write => if !(t.r1 && t.w1) then some 0x12 else if !(t.r2 && t.w2) then some 0x18 else none
  | .exec => if t.x1 then none else some 0x24

/-- Pages dirtied since the last report (R348): (size code, intermediate base). -/
def Allot.noteDirty (a : Allot) (page : Nat × Nat) : Allot :=
  if a.dirty.contains page then a else { a with dirty := a.dirty ++ [page] }

/-- Size code of R386: 2 x level + CONT. -/
def sizeCode (size : Nat) : Nat :=
  if size == 2 ^ 12 then 0 else if size == 2 ^ 16 then 1 else if size == 2 ^ 21 then 2 else if size == 2 ^ 25 then 3
  else if size == 2 ^ 30 then 4 else 5

/-- Translate one virtual address through both stages for a unit (R79, R80, R386 to R390): the physical address, or the
cause. A cached translation is used as it is; a write sets D in both leaves once. -/
def State.translate (s : State) (unit al va : Nat) (need : Need) : Except Nat (Nat × State) :=
  match s.lookup unit al va with
  | .error c => .error c
  | .ok (t, s) =>
    match t.missing need with
    | some c => .error c
    | none =>
      let pa := t.pbase + va % t.size
      if need == .write && !t.dirty then
        let fresh := t.leaf2.any fun e => !(s.mem.read e).getLsbD 7
        let s := (t.leaf1 :: t.leaf2.toList).foldl (fun s e => s.setAttr e 0x80#8) s
        let s := if fresh then s.modAllot al fun a => a.noteDirty (sizeCode t.size2, alignDown t.ibase t.size2) else s
        .ok (pa, { s with tlb := modWhere (fun x => x.covers unit al va) (fun x => { x with dirty := true }) s.tlb })
      else .ok (pa, s)

/-- Rights as KIND of TINFO0 gives them (R129). -/
def Need.kind : Need → Nat
  | .read => 1
  | .write => 2
  | .exec => 0

/-- The trap of a failed translation (R96, R129): causes 0x19 and 0x1B name no rights. -/
def transTrap (cause slice va : Nat) (need : Need) : TrapInfo :=
  { cause := cause, slice := slice, kind := if cause == 0x19 || cause == 0x1B then 0 else need.kind, info1 := va }

/-- The physical address a word fetches from, or none where the fetch faults (R125, R388). -/
def State.fetchAddr (s : State) (core al va : Nat) : Option (Nat × State) :=
  match s.translate core al va .exec with
  | .ok (pa, s) => if isPeer pa then none else some (pa, s)
  | .error _ => none

/-- Bytes moved at a home, for the meters of R353: 4 and 5 in tier one, 6 and 7 in tier two, 9 and 10 at a peer. -/
def State.meterBytes (s : State) (al line n : Nat) (wr : Bool) : State :=
  if isPeer line then s.meter al (if wr then 9 else 10) n else s.meter al ((if isTierTwo line then 6 else 4) + b2n wr) n

/-- The same for an access of a core, which signals one to tier two or to a peer (R373). -/
def State.meterHome (s : State) (core al line n : Nat) (wr : Bool) : State :=
  (if isPeer line then s.signal core 28 al else if isTierTwo line then s.signal core 27 al else s).meterBytes al line n wr

end Sys2Proof.Machine
end

