-- ==== Sys2Proof/Machine/ViewOps.lean ====
section
/-! DEFINITION. Geometry of views (R215, R216, R264), due generations and marking (R217, R266, R267), captures (R274). -/

namespace Sys2Proof.Machine

/-- Bytes of a master element (R262). -/
def View.msize (v : View) : Nat := if v.mfmt == 0 then 4 else 2

/-- Blocks of a target format in a 128-byte line (R233): code 15 stands for FP32. -/
def blocksPerLine (code : Nat) : Nat :=
  match code with
  | 0 | 1 => 2
  | 2 | 3 | 6 => 4
  | 4 | 5 => 5
  | 7 | 8 => 8
  | _ => 1

/-- The target format: the master's own when TFMT is 15 (R264). 15 then stands for FP32. -/
def View.target (v : View) : Nat :=
  if v.tfmt == 15 then (if v.mfmt == 0 then 15 else v.mfmt - 1) else v.tfmt

def View.bpl (v : View) : Nat := blocksPerLine v.target
def View.bpg (v : View) : Nat := 4 * v.bpl
def View.blocks (v : View) : Nat := v.rows * v.cols / 32
def View.groups (v : View) : Nat := (v.blocks + v.bpg - 1) / v.bpg
def View.dataBytes (v : View) : Nat := 512 * v.groups
def View.crownBytes (v : View) : Nat := 128 * v.groups

/-- View block of master element (r, c) (R264). -/
def View.blockOf (v : View) (r c : Nat) : Nat := (if v.layout == 1 then c * v.rows + r else r * v.cols + c) / 32

/-- Master element of view element `i` (R264): row and column. -/
def View.element (v : View) (i : Nat) : Nat × Nat :=
  if v.layout == 1 then (i % v.rows, i / v.rows) else (i / v.cols, i % v.cols)

/-- Groups whose blocks a master line holds; empty when the line holds no byte of the master range (R217). -/
def View.groupsOfLine (v : View) (line : Nat) : List Nat :=
  if line < v.mbase then []
  else
    let off := line - v.mbase
    let r := off / v.rstride
    let o := off % v.rstride
    if r ≥ v.rows || o ≥ v.cols * v.msize then []
    else
      let n := Nat.min (128 / v.msize) (v.cols - o / v.msize)
      ((List.range n).map fun i => v.blockOf r (o / v.msize + i) / v.bpg).foldl addOnce []

def View.dueOf (v : View) (g : Nat) : Nat := v.due.get 0 g
def View.tagOf (v : View) (g : Nat) : Nat := v.tag.get 0 g

/-- TAG bit 63 (R264). -/
def tagPoison (t : Nat) : Bool := bitAt t 63
def tagGen (t : Nat) : Nat := t % 2 ^ 63

/-- Fresh: TAG at the due generation or above and not poisoned (R274). -/
def View.fresh (v : View) (g : Nat) : Bool := tagGen (v.tagOf g) ≥ v.dueOf g && !tagPoison (v.tagOf g)

def State.view? (s : State) (al slot serial : Nat) : Option View :=
  (s.allot al).views.find? fun v => v.slot == slot && v.serial == serial

def State.modView (s : State) (al slot serial : Nat) (f : View → View) : State :=
  s.modAllot al fun a => { a with views := modWhere (fun v => v.slot == slot && v.serial == serial) f a.views }

/-- A handle (R263). -/
def handleOf (al : Nat) (v : View) : W64 := BitVec.ofNat 64 (v.slot + al * 2 ^ 6 + v.serial * 2 ^ 10)

/-- The view a handle names for an allotment. -/
def State.viewOfHandle (s : State) (al : Nat) (h : W64) : Option View :=
  let n := h.toNat
  if field n 6 4 == al then s.view? al (field n 0 6) (n / 2 ^ 10) else none

/-- Pages of a view's data and crown arrays (R265). -/
def View.storagePages (v : View) : List Nat := pagesOf v.dbase v.dataBytes ++ pagesOf v.cbase v.crownBytes

/-- Page starts of a master range (R217). -/
def View.masterPages (v : View) : List Nat :=
  ((List.range v.rows).flatMap fun r => pagesOf (v.mbase + r * v.rstride) (v.cols * v.msize)).foldl addOnce []

/-- The registered views, each with its allotment. -/
def State.allViews (s : State) : List (Nat × View) :=
  (List.range 16).flatMap fun al => (s.allot al).views.map fun v => (al, v)

def PageAt.covers (p : PageAt) (pa : Nat) : Bool := p.base ≤ pa && pa < p.base + p.size

/-- A physical page carries the view-storage attribute: at its registration an array of a registered view lay on it (R265, R389). -/
def State.isViewPage (s : State) (pa : Nat) : Bool := s.allViews.any fun x => x.2.storage.any fun p => p.covers pa

/-- The addresses under which pages name a physical line. -/
def namesOf (ps : List PageAt) (line : Nat) : List Nat :=
  (ps.filter fun p => p.pa == alignDown line 4096).map fun p => p.va + line % 4096

/-- Look at addresses as a walk does, and answer the pages that map them (R388, R389). -/
def State.pagesAt (s : State) (unit al : Nat) : List Nat → List PageAt × State
  | [] => ([], s)
  | va :: rest =>
    match s.lookup unit al va with
    | .error _ => s.pagesAt unit al rest
    | .ok (t, s) =>
      let (ps, s) := s.pagesAt unit al rest
      (⟨va, t.pbase + va % t.size, t.pbase, t.size⟩ :: ps, s)

/-- Harrow of a group (R267). -/
def View.harrow (v : View) (g : Nat) : Nat := (g + v.slot) % 4

/-- Queue a rebuild: a newer marking drops an older one of the group (R218, R267). -/
def queueRebuild (q : List HReq) (al : Nat) (v : View) (g gen who : Nat) : List HReq :=
  (q.filter fun r => !(r.al == al && r.slot == v.slot && r.serial == v.serial && r.group == g)) ++
    [⟨v.die, v.harrow g, al, v.slot, v.serial, g, gen, who⟩]

/-- Mark groups of a view due at a generation. -/
def State.markGroups (s : State) (al : Nat) (v : View) (gs : List Nat) (gen who : Nat) : State :=
  let s := s.modView al v.slot v.serial fun v =>
    { v with gen := gen, due := Store.setMany 0 v.due (gs.map fun g => (g, gen)) }
  gs.foldl (fun s g =>
    { s.signal (48 * v.die) 22 al with hreqs := queueRebuild s.hreqs al v g gen who }) s

/-- The groups of a view whose blocks a physical line holds, under the addresses that its master range gave the line at registration
(R217, R389; assumption 13). -/
def View.groupsAt (v : View) (line : Nat) : List Nat := (namesOf v.master line).flatMap v.groupsOfLine

/-- Advance each registered view whose master range holds a byte of one of the physical lines, once (R217); `who` made the marking. -/
def State.markLines (s : State) (lines : List Nat) (who : Nat) : State :=
  s.allViews.foldl (fun s x =>
    let gs := lines.foldl (fun acc line => (x.2.groupsAt line).foldl addOnce acc) []
    if gs.isEmpty then s else s.markGroups x.1 x.2 gs.reverse (x.2.gen + 1) who) s

/-- The markings of a publish have entered their harrows' queues, which hold 8,192 rebuilds each: those beyond them wait to enter (R267). -/
def State.entered (s : State) (who : Nat) : Bool :=
  (List.range 16).all fun k => ((s.hreqs.filter fun x => 4 * x.die + x.harrow == k).drop 8192).all fun x => x.who != who

/-- The group of a view and the line of that group that a physical line is (R216, R389). -/
def View.placeOf (v : View) (line : Nat) : Option (Nat × Nat) :=
  ((namesOf v.storage line).find? fun a => v.dbase ≤ a && a < v.dbase + v.dataBytes).map fun a =>
    ((a - v.dbase) / 512, (a - v.dbase) % 512 / 128)

/-- The view, the group and the line of the group that a physical data line of an allotment's views is (R153, R274). -/
def State.viewOfData (s : State) (al line : Nat) : Option (View × Nat × Nat) :=
  (s.allot al).views.findSome? fun v => (v.placeOf line).map fun x => (v, x.1, x.2)

/-- The bytes a reference captures with a data line: SCALE and OEXP of the line's blocks, and TAG (R219, R274). The crown is read at its
home through the core's translation, where a damaged line is met (R140, R384); the bytes of one that has lost its mapping are free
(assumption 79). -/
def State.captureCrown (s : State) (core al lid : Nat) (v : View) (g d : Nat) : Crown × State :=
  match s.translate core al (v.cbase + 128 * g) .read with
  | .ok (pa, s) =>
    ({ slot := v.slot, group := g, tag := v.tagOf g, scale := s.mem.readN (pa + v.bpl * d) v.bpl,
       oexp := s.mem.readN (pa + 32 + v.bpl * d) v.bpl },
     (s.meetLine al lid (lineOf pa)).meterHome core al pa (2 * v.bpl + 8) false)
  | .error _ =>
    let draw := fun (k : Nat) => (List.range v.bpl).map fun i => (Config.freeWord s.free 10 (k + i)).setWidth 8
    ({ slot := v.slot, group := g, tag := v.tagOf g, scale := draw 0, oexp := draw 8 }, s)

end Sys2Proof.Machine
end

