-- ==== Sys2Proof/Machine/Lines.lean ====
section
/-! DEFINITION. Line stores: entries and frame references (R76 to R94), binding (R155), recalls (R89), publish, acquire and
the write-back of dirty bytes (R156 to R158). -/

namespace Sys2Proof.Machine

def LRef.none : LRef := {}

def Gang.ref (g : Gang) (ln k : Nat) : LRef := g.refs.get LRef.none (8 * ln + k)

def Gang.setRef (g : Gang) (ln k : Nat) (r : LRef) : Gang := { g with refs := g.refs.set LRef.none (8 * ln + k) r }

/-- The gangs that still run on a core. -/
def State.gangsOn (s : State) (core : Nat) : List Gang := s.gangs.filter fun g => g.core == core && !g.isOver

/-- How many references of a core hold an entry. -/
def State.holders (s : State) (core eid : Nat) : Nat :=
  sumNat ((s.gangsOn core).map fun g => (g.refs.filter fun r => r.2.entry == some eid).length)

/-- Entries no reference holds become victims, and entries held again stop being ones (R83). -/
def State.settleVictims (s : State) (core : Nat) : State :=
  let f := fun (e : Entry) =>
    if s.holders core e.id > 0 then { e with victimSince := none }
    else if e.victimSince.isNone then { e with victimSince := some s.turn } else e
  s.modCore core fun c => { c with entries := c.entries.map f }

/-- The later of two entries by stamp, then by number. -/
def laterEntry (a : Option Entry) (e : Entry) : Option Entry :=
  match a with
  | none => some e
  | some x => if x.stamp < e.stamp || (x.stamp == e.stamp && x.id < e.id) then some e else some x

/-- An entry of a line that was fetched or confirmed, or is on its way. Fresh zero frames and view captures are none. -/
def Entry.plainOf (e : Entry) (al line : Nat) : Bool :=
  e.al == al && e.line == line && (e.version.isSome || !e.arrived) && e.crown.isNone && e.wantDue.isNone

/-- The canonical entry of a line on a core: fetched or confirmed most recently (R155), be it still on its way. -/
def State.canonical? (s : State) (core al line : Nat) : Option Entry :=
  ((s.core core).entries.filter fun e => e.plainOf al line).foldl laterEntry none

/-- Write back an entry's dirty bytes under its mask; it becomes clean and nothing is owed on it (R156, R157). A damaged line is met
(R384). -/
def State.writeBack (s : State) (core : Nat) (e : Entry) : State :=
  let bs := maskedBytes e.data e.mask
  let s := (((s.homeWrite e.line bs).ownLine e.line e.al e.lid).meetLine e.al e.lid e.line).meterHome core e.al e.line bs.length true
  s.modEntry core e.id fun x => { x with mask := 0, owed := [] }

/-- Remove an entry. -/
def State.dropEntry (s : State) (core eid : Nat) : State :=
  s.modCore core fun c => { c with entries := c.entries.filter fun e => e.id != eid }

/-! Lines that arrive, and the loads that wait for them (R76, R173, R178). -/

/-- The turn at which a launch began that has bound a line by `open.inv`: none where it has not (R85). -/
def State.promised (s : State) (al lid line : Nat) : Option Nat :=
  (s.launch? al lid).bind fun l => if l.inv.contains line then l.began else none

/-- A byte an entry shows, through a reference bound when its slice had ordered what came before `since`. Where a launch has bound the
line by `open.inv` and the byte has been written since the launch began, it is some value that the byte has held since then, and since
what the slice's acquire ordered, which R172 leaves in force (R85, R167, R172; assumption 12). What a `vopen` has captured stays as it
is (R171). -/
def State.entryByte (s : State) (al lid since : Nat) (e : Entry) (i : Nat) : Byte :=
  let own := lineByte e.data i
  if s.writes.isEmpty || e.crown.isSome then own
  else
    match s.promised al lid e.line with
    | none => own
    | some began =>
      let here := s.writes.filter fun w => w.line == e.line && w.mask.getLsbD i && began ≤ w.turn
      if here.isEmpty then own
      else
        let lim := Nat.max began since
        let old := !e.mask.getLsbD i && e.version.isSome && s.writes.any fun w =>
          w.line == e.line && w.mask.getLsbD i && e.stamp < w.turn && w.turn ≤ lim
        let all := (if old then [] else [own]) ++ lineByte (s.homeLine e.line) i ::
          (here.filter fun w => lim < w.turn).map fun w => lineByte w.old i
        nth own all ((Config.freeWord s.free 1 (e.line + i)).toNat % all.length)

/-- Bytes of an access (R86). -/
def MemW.bytes : MemW → Nat
  | .b8 | .i8 => 1
  | .b16 | .i16 => 2
  | .b32 => 4
  | .b64 => 8
  | .b128 => 16

/-- Registers of an access (R86). -/
def MemW.regs (w : MemW) : Nat := if MemW.bytes w ≤ 4 then 1 else MemW.bytes w / 4

/-- Register uses of a data operand of a width. -/
def dataUses (f : Nat) (w : MemW) (n : Nat) : List Use := (List.range (MemW.regs w)).map fun i => ⟨f, .v (n + i)⟩

/-- The register words a load gives: extended to 32 bits (R86). -/
def loadWords (w : MemW) (bs : List Byte) : List W32 :=
  let n := ofBytes bs
  match w with
  | .i8 => [BitVec.ofNat 32 (wrapTo 32 (signedOf 8 n))]
  | .i16 => [BitVec.ofNat 32 (wrapTo 32 (signedOf 16 n))]
  | _ => (List.range (MemW.regs w)).map fun i => BitVec.ofNat 32 (n / 2 ^ (32 * i))

/-- Write a value into live lanes of a vector register, outside any latency. -/
def Gang.fillV (g : Gang) (n : Nat) (vals : List (Nat × W32)) : Gang :=
  g.putV 0 0 n [] (vals.filter fun x => g.live.getLsbD x.1)

/-- Write a value into the lanes that a uniform result reaches: every lane of the register, ended ones too, where every live lane took
part (R35). -/
def Gang.fillUni (g : Gang) (n : Nat) (lanes : LaneMask) (x : W32) : Gang :=
  if lanes == BitVec.allOnes 32 then
    let g := g.putV 0 0 n [] ((List.range 32).map fun l => (l, x))
    { g with uniV := n :: g.uniV }
  else g.fillV n ((lanesOf lanes).map fun l => (l, x))

/-- The words of a load enter the registers of its width from `d` up, lane by lane; lanes that have ended take nothing. -/
def Gang.fillWords (g : Gang) (w : MemW) (d : Nat) (vals : List (Nat × List W32)) : Gang :=
  (List.range (MemW.regs w)).foldl (fun g i => g.fillV (d + i) (vals.map fun x => (x.1, nth 0#32 x.2 i))) g

/-- The registers of a load become pending. -/
def State.pend (s : State) (c : Ctx) (rs : List Reg) : State :=
  s.modGang c.uid fun g => { g with busy := rs ++ g.busy }

/-- Free the registers of an instruction all of whose accesses have performed. -/
def Gang.unpend (g : Gang) (rs : List Reg) : Gang := { g with busy := g.busy.filter fun r => !rs.contains r }

/-- The registers that a load of a width writes. -/
def loadRegs (w : MemW) (d : Nat) : List Reg := (dataUses fD w d).map fun (u : Use) => u.reg

/-- A load whose lines have arrived performs (R178, R181): the registers take the bytes that the entries show. -/
def State.finishLate (s : State) (g : Gang) (x : LateLoad) : State :=
  match s.block? g.blk with
  | none => s
  | some b =>
    let row := fun (l : Nat × Nat × Nat) =>
      match s.entry? g.core l.2.1 with
      | none => loadWords x.w []
      | some e => loadWords x.w ((List.range (MemW.bytes x.w)).map fun i =>
          s.entryByte b.al b.lid (x.sinces.get 0 (l.1 / 4)) e (l.2.2 + i))
    let vals := x.lanes.map fun l => (l.1, row l)
    { s.modGang g.uid fun g =>
        let g := ((g.fillWords x.w x.d vals).unpend (loadRegs x.w x.d)).observe x.slices s.turn
        { g with lateLoads := g.lateLoads.filter (· != x) } with free := s.free + 1 }

/-- A load takes bytes of an entry. -/
def LateLoad.of (eid : Nat) (x : LateLoad) : Bool := x.lanes.any fun l => l.2.1 == eid

/-- Every line that a load waits for has arrived. -/
def State.landed (s : State) (core : Nat) (x : LateLoad) : Bool :=
  x.lanes.all fun l => (s.entry? core l.2.1).all fun e => e.arrived

/-- The loads from an entry of a core whose lines have all arrived perform. -/
def State.finishLoads (s : State) (core eid : Nat) : State :=
  (s.gangsOn core).foldl (fun s g =>
    (g.lateLoads.filter fun x => x.of eid && s.landed core x).foldl (fun s x => s.finishLate g x) s) s

/-- The references that wait for an entry open (R76). -/
def State.openRefs (s : State) (core eid : Nat) : State :=
  { s with gangs := modWhere (fun g => g.core == core) (fun g =>
      { g with refs := g.refs.map fun x =>
          (x.1, if x.2.entry == some eid && x.2.st == .opening then { x.2 with st := .opened } else x.2) }) s.gangs }

/-- An entry takes what its home reports: the line, but for bytes that a publish has copied into it meanwhile (R157), and its version. A
view's data line was captured with its crown (R219). -/
def Entry.landed (x : Entry) (line : BitVec 1024) (version : Nat) : Entry :=
  if x.version.isSome then { x with arrived := true }
  else { x with arrived := true, data := setLineBytes line (maskedBytes x.data x.mask), version := some version }

/-- A fetched line arrives: the entry shows what its home reports at this moment, its references open, the loads that wait for it
perform (R76, R173, R178). -/
def State.arrive (s : State) (core eid : Nat) : State :=
  ((s.modEntry core eid fun x => x.landed (s.homeLine x.line) (s.version x.line)).openRefs core eid).finishLoads core eid

/-- A line that a load waits for is there at once; a damaged one is met by the launches whose loads wait for it (R140). -/
def State.land (s : State) (core eid : Nat) : State :=
  match s.entry? core eid with
  | none => s
  | some e =>
    if e.arrived then s.finishLoads core eid
    else if s.damaged e.line then
      ((s.gangsOn core).filter fun g => g.lateLoads.any (LateLoad.of eid)).foldl (fun s g =>
        match s.block? g.blk with
        | none => s
        | some b => s.meetLine b.al b.lid e.line) s
    else s.arrive core eid

/-- The issued loads from some entries perform, each line that they wait for arriving first: they come before a recall of their
registers (R88) and before the entry's frame is reclaimed (R83; assumption 78). -/
def State.hasten (s : State) (core : Nat) (eids : List Nat) : State :=
  let loads := (s.gangsOn core).flatMap fun g => g.lateLoads.filter fun x => eids.any x.of
  ((loads.flatMap fun x => x.lanes.map fun l => l.2.1).foldl addOnce []).reverse.foldl (fun s i => s.land core i) s

/-! Binding (R82, R83, R155). -/

/-- The entry that has been a victim longest; of several that have been one since the same turn the one made last (the spec gives
no order among them: assumption 79). -/
def oldestVictim (es : List Entry) : Option Entry :=
  es.foldl (fun a e =>
    match e.victimSince, a with
    | none, _ => a
    | some _, none => some e
    | some t, some x => if t < x.victimSince.getD 0 then some e else some x) none

/-- A frame for a binding: a free one, else the oldest victim's, whose dirty bytes go to its home (R83). The loads that have been issued
from the victim perform first (assumption 78). -/
def State.makeRoom (s : State) (core : Nat) : State :=
  if (s.core core).entries.length < 2048 then s
  else
    let s := s.performCore core
    match oldestVictim (s.core core).entries with
    | none => s
    | some e =>
      let s := s.hasten core [e.id]
      let s := match s.entry? core e.id with
        | none => s
        | some e => if e.mask == 0 then s else (s.writeBack core e).signal core 13 e.al
      s.dropEntry core e.id

/-- Put a new entry into a core's line store. -/
def State.addEntry (s : State) (core : Nat) (e : Entry) : State × Nat :=
  let s := s.makeRoom core
  let id := (s.core core).nextEid
  (s.modCore core fun c => { c with entries := { e with id := id } :: c.entries, nextEid := id + 1 }, id)

/-- An entry with nothing in it. -/
def Entry.fresh (al lid line turn : Nat) : Entry :=
  { id := 0, al := al, line := line, data := 0, mask := 0, version := none, stamp := turn, stale := false, inv := false,
    arrived := true, owed := [], crown := none, wantDue := none, victimSince := none, lid := lid }

/-- The entry older than its gang's acquire that a slice relies on (R173 to R175, R180): its ordering points have ordered what it had made
and observed up to `ord`, so that the line's latest entry before this word, when stamped since then, is a report as late as they
ask. -/
def State.lagging (s : State) (g : Gang) (k al line : Nat) : Option Entry :=
  if s.loose 2 then
    (((s.core g.core).entries.filter fun e => e.plainOf al line && e.stamp < s.turn).foldl laterEntry none).filter fun e =>
      (g.seenOf k).ord ≤ e.stamp
  else none

/-- The entry a binding of a slice gets, and whether it is fetched (R155). A fetch shows the version that the home reports while
the line is on its way (R173): it has none until the line arrives, and an entry on its way will hold the version that the home then
reports, so that a binding which asks the home shares it (R82). A plain entry that an `open.inv` shares becomes one of `open.inv`,
which no acquire marks: the spec does not say (assumption 79). -/
def State.bindEntry (s : State) (c : Ctx) (k line : Nat) (form : OForm) : State × Nat × Bool :=
  let core := c.core
  match form with
  | .openz =>
    let (s, id) := s.addEntry core (Entry.fresh c.al c.blk.lid line s.turn)
    (s, id, false)
  | _ =>
    let inv := form == .openInv
    let mark := fun (s : State) (e : Entry) => if inv then s.modEntry core e.id fun x => { x with inv := true } else s
    let fetch := fun (s : State) =>
      let (s, id) := s.addEntry core { Entry.fresh c.al c.blk.lid line s.turn with inv := inv, arrived := false }
      ((s.meterHome core c.al line 128 false).signal core 4 c.al, id, true)
    match s.canonical? core c.al line with
    | some e =>
      if inv && e.inv then (s, e.id, false)
      else
        match s.lagging c.gang k c.al line with
        | some x => (mark s x, x.id, false)
        | none =>
          if !e.stale && e.stamp ≥ c.gang.floor then (mark s e, e.id, false)
          else if !e.arrived || e.version == some (s.version line) then
            (mark (s.modEntry core e.id fun x => { x with stamp := s.turn, stale := false }) e, e.id, false)
          else fetch s
    | none => fetch s

/-- The entry a `vopen` binding gets (R219, R274): equal captures share, and so do bindings that wait for one group; a stale group
under the wait policy is awaited. -/
def State.bindView (s : State) (c : Ctx) (k line : Nat) : State × Nat × Bool :=
  match s.viewOfData c.al line with
  | none => s.bindEntry c k line .openR
  | some (v, g, d) =>
    if v.policy == 1 && !v.fresh g then
      let cr : Crown := ⟨v.slot, g, 0, [], []⟩
      let waits := (s.core c.core).entries.find? fun e =>
        e.al == c.al && e.line == line && !e.arrived && e.wantDue == some (v.dueOf g) && e.crown == some cr
      match waits with
      | some e => (s, e.id, true)
      | none =>
        let (s, id) := s.addEntry c.core { Entry.fresh c.al c.blk.lid line s.turn with
          arrived := false, wantDue := some (v.dueOf g), crown := some cr }
        (s, id, true)
    else
      let (cr, s) := s.captureCrown c.core c.al c.blk.lid v g d
      let same := (s.core c.core).entries.find? fun e =>
        e.al == c.al && e.line == line && e.crown == some cr && e.version == some (s.version line)
      match same with
      | some e => (s, e.id, false)
      | none =>
        let e := { Entry.fresh c.al c.blk.lid line s.turn with
          data := s.homeLine line, version := some (s.version line), arrived := false, crown := some cr }
        let (s, id) := s.addEntry c.core e
        ((s.meterHome c.core c.al line 128 false).signal c.core 4 c.al, id, true)

/-- The intermediate physical address that a core's translation gives an address (R386). -/
def State.ipaOf (s : State) (unit al va : Nat) : Nat :=
  match s.tlb.find? fun t => t.covers unit al va with
  | some t => t.ibase + va % t.size
  | none => 0

/-- The reference lets its entry go, which becomes a victim where no other holds it (R83). -/
def State.releaseRef (s : State) (c : Ctx) (ln k : Nat) : State :=
  (s.modGang c.uid fun g => g.setRef ln k { g.ref ln k with entry := none }).settleVictims c.core

/-- Bind one reference, which first releases what it held, so that a frame or a victim is there (R83). `made` lists the fresh
zero frames of this instruction, which its references share (R82). -/
def State.bindRef (s : State) (c : Ctx) (ln k : Nat) (form : OForm) (va pa : Nat) (made : List (Nat × Nat)) :
    State × List (Nat × Nat) × Bool :=
  let line := lineOf pa
  let s := s.releaseRef c ln k
  let old := made.find? fun m => m.1 == line
  let (s, id, fetched) := match form, old with
    | .openz, some m => (s, m.2, false)
    | .vopen, _ => s.bindView c k line
    | f, _ => s.bindEntry c k line f
  let arrived := match s.entry? c.core id with | some e => e.arrived | none => true
  let shown := if form == .vopen then (s.viewOfData c.al line).map fun x => (x.1.serial, x.2.1) else none
  let r : LRef := { st := if arrived then .opened else .opening, addr := some va, ipa := s.ipaOf c.core c.al va, form := form
                    entry := some id, shown := shown, since := (c.gang.seenOf k).ord, why := 0 }
  let s := (s.modGang c.uid fun g => g.setRef ln k r).modEntry c.core id fun x => { x with victimSince := none }
  let s := if form == .openInv then s.modLaunch c.al c.blk.lid fun l => { l with inv := addOnce l.inv line } else s
  (s, if form == .openz then (line, id) :: made else made, fetched)

/-- Bind a list of (slice, virtual, physical) references; answers whether any was fetched. -/
def State.bindAll (s : State) (c : Ctx) (ln : Nat) :
    List (Nat × OForm × Nat × Nat) → List (Nat × Nat) → Bool → State × Bool
  | [], _, f => (s.settleVictims c.core, f)
  | (k, form, va, pa) :: rest, made, f =>
    let (s, made, fetched) := s.bindRef c ln k form va pa made
    s.bindAll c ln rest made (f || fetched)

/-! Address checks of an open (R79 to R81, R274). -/

def OForm.need : OForm → Need
  | .openw | .openz => .write
  | _ => .read

def OForm.code : OForm → Nat
  | .openR => 0 | .openw => 1 | .openz => 2 | .openInv => 3 | .vopen => 4

/-- Checks of `vopen` at issue, in the order of R274's table. -/
def State.checkView (s : State) (c : Ctx) (ln k va pa : Nat) : M Unit := do
  let bad : TrapInfo := { cause := 0x12, slice := k, kind := 1, info1 := va }
  trapIf (!s.isViewPage pa) bad
  match s.viewOfData c.al (lineOf pa) with
  | none => trapWith bad
  | some (v, g, _) =>
    trapIf (isPeer pa) { cause := 0x1B, slice := k, info1 := va }
    trapIf (tagPoison (v.tagOf g)) { cause := 0x2A, reg := ln, slice := k, info1 := v.dbase + 512 * g }
    trapIf (v.policy == 2 && !v.fresh g) { cause := 0x2B, reg := ln, slice := k, info1 := v.tagOf g }

/-- Check and translate one address for a form. A page that lacks a right and lies at a peer gives the permission's cause: the spec
does not order the two (assumption 79). -/
def State.checkOpen (s : State) (c : Ctx) (ln k va : Nat) (form : OForm) : M (Nat × State) :=
  match s.translate c.core c.al va form.need with
  | .error cause => trapWith (transTrap cause k va form.need)
  | .ok (pa, s) => do
    trapIf (form != .vopen && isPeer pa) { cause := 0x1B, slice := k, info1 := va }
    match form with
    | .vopen => s.checkView c ln k va pa
    | .openw | .openz => trapIf (s.isViewPage pa) { cause := 0x12, slice := k, kind := 2, info1 := va }
    | _ => pure ()
    pure (pa, s)

/-- Check a list of (slice, form, address) in order; answers the bindings to make. -/
def checkAll (c : Ctx) (ln : Nat) : List (Nat × OForm × Nat) → State → M (List (Nat × OForm × Nat × Nat) × State)
  | [], s => .ok ([], s)
  | (k, form, va) :: rest, s => do
    let (pa, s) ← s.checkOpen c ln k va form
    let (xs, s) ← checkAll c ln rest s
    pure ((k, form, va, pa) :: xs, s)

/-! Recall (R89 to R91). -/

/-- Recall every register of a gang with a reference `p` picks: each reference not closed becomes recalled. -/
def Gang.recallLines (g : Gang) (p : Nat → LRef → Bool) (why : Nat) : Gang × List (Nat × Nat) :=
  (List.range 16).foldl (fun (acc : Gang × List (Nat × Nat)) ln =>
    let rs := (List.range 8).map fun k => (k, acc.1.ref ln k)
    match rs.find? fun x => x.2.st != .closed && p ln x.2 with
    | none => acc
    | some hit =>
      let g := rs.foldl (fun g x =>
        if x.2.st == .closed then g else g.setRef ln x.1 { x.2 with st := .recalled, entry := none, why := why }) acc.1
      (g, (ln, lineOf (hit.2.addr.getD 0)) :: acc.2)) (g, [])

/-- The entries that the registers of a gang with a reference `p` picks hold, in every slice (R89). -/
def Gang.recalledEntries (g : Gang) (p : Nat → LRef → Bool) : List Nat :=
  (List.range 16).flatMap fun ln =>
    let rs := (List.range 8).map fun k => g.ref ln k
    if rs.any fun r => r.st != .closed && p ln r then (rs.filter fun r => r.st != .closed).filterMap fun r => r.entry else []

/-- The entries of a core that a recall takes from references. -/
def State.recalledOn (s : State) (core : Nat) (p : Gang → Nat → LRef → Bool) : List Nat :=
  (s.gangsOn core).flatMap fun g => g.recalledEntries (p g)

/-- Recall in every gang of a core of an allotment, with records and signals. The loads that have been issued from its registers come
before it. -/
def State.recallOn (s : State) (core : Nat) (p : Gang → Nat → LRef → Bool) (why : Nat) : State :=
  let s := s.hasten core (s.recalledOn core p)
  let s := (s.gangsOn core).foldl (fun s g =>
    let al := ((s.block? g.blk).map fun (b : Block) => b.al).getD 0
    let s := s.modGang g.uid fun x => (x.recallLines (p x) why).1
    (g.recallLines (p g) why).2.reverse.foldl (fun s h =>
      (s.record core 17 al g.slot 0 (h.1 + 16 * why) (BitVec.ofNat 64 h.2)).signal core 5 al) s) s
  s.settleVictims core

/-- Entries in an order that the spec leaves open: it is drawn where there are several (assumption 25). -/
def drawOrder (free key : Nat) (es : List Entry) : List Entry :=
  if es.length ≤ 1 then es
  else
    let w := (Config.freeWord free 0 key).toNat
    let n := w % es.length
    let r := es.drop n ++ es.take n
    if bitAt w 20 then r.reverse else r

/-- Write back the dirty entries that a recall of reason 1 or 3 takes from their references, in an order that the spec leaves open
(assumption 25). -/
def State.flush (s : State) (core : Nat) (p : Gang → Nat → LRef → Bool) : State :=
  let s := s.performCore core
  let eids := s.recalledOn core p
  let es := (s.core core).entries.filter fun e => eids.contains e.id && e.mask != 0
  (drawOrder s.free core es).foldl (fun s e => s.writeBack core e) s

/-- A recall of reason 1 or 3: the dirty entries are written back before it completes (R14, R88, R89, R90). -/
def State.flushRecall (s : State) (core : Nat) (p : Gang → Nat → LRef → Bool) (why : Nat) : State :=
  (s.flush core p).recallOn core p why

/-! Publish and acquire. -/

/-- The entries of a core a gang owes dirty bytes on, in an order that the spec leaves open (assumption 25). -/
def State.owedBy (s : State) (core uid : Nat) : List Entry :=
  drawOrder s.free uid ((s.core core).entries.filter fun e => e.owed.contains uid && e.mask != 0)

/-- Copy an entry's dirty bytes into the canonical entry of its line (R157). -/
def State.copyDown (s : State) (core uid : Nat) (e : Entry) : State :=
  match s.canonical? core e.al e.line with
  | none => s
  | some k =>
    if k.id == e.id then s
    else s.modEntry core k.id fun x =>
      { x with data := setLineBytes x.data (maskedBytes e.data e.mask), mask := x.mask ||| e.mask, owed := addOnce x.owed uid }

def Scope.code : Scope → Nat
  | .slice => 0 | .gang => 1 | .block => 2 | .core => 3 | .field => 4 | .die => 5 | .device => 6 | .system => 7

/-- Field scope or wider. -/
def Scope.far (sc : Scope) : Bool := Scope.code sc ≥ 4

/-- The number that names the publishes of a gang's group to the harrows (R267). -/
def publisher (uid low : Nat) : Nat := 8 * uid + low

/-- Write back everything a gang owes; its next publish starts a new set of stored lines (R157, R217). The markings are those of the
publish `who`. -/
def State.publishGang (s : State) (core uid who : Nat) : State :=
  let s := (s.owedBy core uid).foldl (fun s e =>
    match s.entry? core e.id with
    | some e => if e.mask == 0 then s else s.writeBack core e
    | none => s) s
  let lines := ((s.gang? uid).map fun (g : Gang) => g.stored).getD []
  (s.markLines lines who).modGang uid fun g => { g with stored := [] }

/-- What a publish moves (R157, R217): write-backs and views marked at field scope or wider, copies into canonical entries
below it. -/
def State.publishActs (s : State) (c : Ctx) (sc : Scope) : State :=
  if Scope.far sc then s.publishGang c.core c.uid (publisher c.uid c.grp.low)
  else (s.owedBy c.core c.uid).foldl (fun s e => s.copyDown c.core c.uid e) s

/-- The entries that a publish at a scope writes back. -/
def State.toWrite (s : State) (c : Ctx) (sc : Scope) : List Entry := if Scope.far sc then s.owedBy c.core c.uid else []

/-- A publish takes its write-backs one turn at a time: it orders none of them (R156, R157, R175). While the routes change it sends
none (R380). -/
def State.slowPublish (s : State) (c : Ctx) (sc : Scope) : Bool :=
  Scope.far sc && s.plat.draining || s.loose 3 && (s.toWrite c sc).length > 1

/-- A publish in progress counts what it writes back. -/
def State.countWrites (s : State) (c : Ctx) (n : Nat) : State := s.modGroup c fun x => { x with wrote := x.wrote + n }

/-- What the current turn does of a publish whose earlier accesses have performed: one write-back of several, or everything; while the
routes change its write-backs are held (R380). -/
def State.publishTurn (s : State) (c : Ctx) (sc : Scope) : State :=
  if Scope.far sc && s.plat.draining then s.modGroup c fun x => { x with pubHeld := !(s.toWrite c sc).isEmpty }
  else
  match s.toWrite c sc with
  | e :: _ :: _ => if s.loose 3 then (s.writeBack c.core e).countWrites c 1
                   else (s.publishActs c sc).countWrites c (s.toWrite c sc).length
  | es => (s.publishActs c sc).countWrites c es.length

/-- An ordering point of gang scope or wider of slices of the group (R174). -/
def State.orderPoint (s : State) (c : Ctx) (sc : Scope) (ks : List Nat) : State :=
  if Scope.code sc ≥ 1 then s.modGang c.uid fun g => g.orderPoint ks else s

/-- What a publish of slices has written back has been accepted by its home: an access of each slice that had stored (R173). -/
def Gang.accepted (g : Gang) (ks : List Nat) (turn : Nat) : Gang :=
  g.modSeen ks fun x => if x.stored then { x with last := turn, stored := false } else x

/-- The act of `pub.S` for slices, once their earlier accesses have performed (R157, R213, R217): it waits for its write-backs, and for
its markings to enter the harrows' queues (R267). -/
def State.publish (s : State) (c : Ctx) (sc : Scope) (ks : List Nat) : M State := do
  let slow := s.slowPublish c sc
  let s := s.publishTurn c sc
  waitIf (slow || !s.entered (publisher c.uid c.grp.low))
  let n := ((s.ctx c.key).map fun (x : Ctx) => x.grp.wrote).getD 0
  let s := s.modGroup c fun x => { x with wrote := 0 }
  let s := (if Scope.far sc then s.modGang c.uid fun g => g.accepted ks s.turn else s).orderPoint c sc ks
  pure ((s.record c.core 18 c.al c.gang.slot c.grp.low (Scope.code sc) (BitVec.ofNat 64 n)).signal c.core 6 c.al)

/-- The word waits for a queue that it pops. -/
def awaitsPop (c : Ctx) (srcs : List Src) (s : State) : Bool :=
  match popAll c srcs s with
  | .ok _ => false
  | .error _ => true

/-- What a word with a contained publish leaves when it waits: what the turn has done of the publish, unless the word waits for
something before it. -/
def publishBase (sc : Scope) (atoms : Bool) (before : Bool) (s : State) (c : Ctx) (e : LaneMask) : Halt → State
  | .wait => if before || s.outstanding c.uid (slicesIn e) atoms then s
             else (s.performLate c.uid (LateStore.of (slicesIn e))).publishTurn c sc
  | .trap _ | .damage _ _ => s

/-- The act of `acq.S` for slices, once their earlier accesses have performed (R155, R158, R213). -/
def State.acquire (s : State) (c : Ctx) (sc : Scope) (ks : List Nat) : State :=
  let free := fun (e : Entry) => s.holders c.core e.id == 0 && !e.inv
  let n := if Scope.far sc then ((s.core c.core).entries.filter fun e => free e && !e.stale).length else 0
  let s := if Scope.far sc then
      (s.modCore c.core fun x => { x with entries := modWhere free (fun e => { e with stale := true }) x.entries }).modGang c.uid
        fun g => { g with floor := s.turn }
    else s
  let s := s.orderPoint c sc ks
  (s.record c.core 19 c.al c.gang.slot c.grp.low (Scope.code sc) (BitVec.ofNat 64 n)).signal c.core 7 c.al

/-! Accesses through references. -/

/-- Why a reference bars an access (R87): the cause, 0 for none. -/
def LRef.bar (r : LRef) (store : Bool) : Nat :=
  match r.st with
  | .closed => 0x1A
  | .recalled => 0x10
  | _ =>
    if !store then 0
    else match r.form with
      | .openR | .vopen => 0x14
      | .openInv => 0x15
      | _ => 0

/-- The first loop of R87 over acting slices, ascending. -/
def Gang.checkRefs (g : Gang) (ln : Nat) (store : Bool) : List Nat → M Unit
  | [] => .ok ()
  | k :: ks =>
    let r := g.ref ln k
    if r.bar store == 0 then g.checkRefs ln store ks
    else trapWith { cause := r.bar store, reg := ln, slice := k, kind := if r.bar store == 0x10 then r.why else 0,
                    info1 := if r.bar store == 0x10 then r.addr.getD 0 else 0 }

/-- Wait while any acting reference is opening (R5, R88). -/
def Gang.waitRefs (g : Gang) (ln : Nat) (ks : List Nat) : M Unit := waitIf (ks.any fun k => (g.ref ln k).st == .opening)

/-- The entry a slice's reference holds. -/
def State.refEntry (s : State) (c : Ctx) (ln k : Nat) : Entry :=
  let none' := Entry.fresh c.al c.blk.lid 0 0
  match (c.gang.ref ln k).entry with
  | none => none'
  | some id => (s.entry? c.core id).getD none'

/-! What a later access of a slice finds done of its late accesses (R166). -/

/-- The late stores of the acting slices that meet a byte of an access perform before it (R166). -/
def State.meetLate (s : State) (c : Ctx) (ln : Nat) (ls : List Nat) (f : Nat → Nat) (n : Nat) : State :=
  s.performLate c.uid fun x => ls.any fun l =>
    x.slices.contains (l / 4) && (c.gang.ref ln (l / 4)).entry.any fun id => x.meets id (f l) n

/-- A late load of an acting lane's slice takes a byte of the lane's access. -/
def LateLoad.meets (c : Ctx) (ln : Nat) (ls : List Nat) (f : Nat → Nat) (n : Nat) (x : LateLoad) : Bool :=
  ls.any fun l => x.lanes.any fun m =>
    m.1 / 4 == l / 4 && (c.gang.ref ln (l / 4)).entry == some m.2.1 && m.2.2 < f l + n && f l < m.2.2 + MemW.bytes x.w

/-- The late loads of the acting slices that meet a byte of an access perform before it, which waits while a line of theirs is on its
way (R166). -/
def State.meetLoads (s : State) (c : Ctx) (ln : Nat) (ls : List Nat) (f : Nat → Nat) (n : Nat) : M State := do
  let xs := c.gang.lateLoads.filter fun x => x.meets c ln ls f n
  waitIf (xs.any fun x => !s.landed c.core x)
  pure (xs.foldl (fun s x => s.finishLate c.gang x) s)

end Sys2Proof.Machine
end

