-- ==== Sys2Proof/Machine/Ends.lean ====
section
/-! DEFINITION. Merging at `regang` (R120), the end of gangs and blocks (R21, R121, R162, R297, R300), the store hash (R332,
R333). -/

namespace Sys2Proof.Machine

/-! The store hash. -/

/-- One reflected step of CRC-64 over a bit (R332). -/
def crcBit (x : W64) : W64 := if x.getLsbD 0 then (x >>> 1) ^^^ 0xC96C5795D7870F42#64 else x >>> 1

def crcSteps : Nat → W64 → W64
  | 0, x => x
  | n + 1, x => crcSteps n (crcBit x)

def crcByte (x : W64) (b : Byte) : W64 := crcSteps 8 (x ^^^ b.setWidth 64)

def crcBytes (x : W64) (bs : List Byte) : W64 := bs.foldl crcByte x

/-- Feed a store record of two words (R332). -/
def crcRecord (x : W64) (w0 w1 : Nat) : W64 := crcBytes (crcBytes x (toBytes 8 w0)) (toBytes 8 w1)

/-- The hash of a block over its slices' hashes in gang, then slice order (R333). -/
def blockHash (gs : List Gang) : W64 :=
  let hs := gs.flatMap fun g => (slicesIn g.born).map fun k => (g.slice k).hash ^^^ BitVec.allOnes 64
  (hs.foldl (fun x h => crcBytes x (toBytes 8 h.toNat)) (BitVec.allOnes 64)) ^^^ BitVec.allOnes 64

/-- The launch of a context runs in mode 1 or 2, where stores are hashed (R332). -/
def State.hashing (s : State) (c : Ctx) : Bool :=
  match s.launch? c.al c.blk.lid with
  | some l => l.mode == 1 || l.mode == 2
  | none => false

/-- The records of one store of a lane: 8 bytes at a time, the lower 8 first (R332). -/
def storeRecords : Nat → Nat → Nat → List Byte → List (Nat × Nat)
  | 0, _, _, _ => []
  | n + 1, kind, addr, bs =>
    if bs.isEmpty then []
    else
      let part := bs.take 8
      (packFields [(56, addr), (4, part.length.log2), (2, kind)], ofBytes part) ::
        storeRecords n kind (addr + part.length) (bs.drop 8)

/-- Credit a store of a lane to its slice's hash (R332). -/
def Gang.hashStore (g : Gang) (k kind addr : Nat) (bs : List Byte) : Gang :=
  g.modSlice k fun sl =>
    { sl with hash := (storeRecords 64 kind addr bs).foldl (fun x r => crcRecord x r.1 r.2) sl.hash }

/-- Credit a long run of bytes, 8 to a record (R332). -/
def Gang.hashStoreMany (g : Gang) (k kind addr : Nat) (bs : List Byte) : Gang :=
  g.modSlice k fun sl =>
    { sl with hash := (storeRecords (bs.length / 8 + 1) kind addr bs).foldl (fun x r => crcRecord x r.1 r.2) sl.hash }

/-! Regang. -/

/-- Merge the groups parked at one address into the one that holds the lowest slice (R120, R408). -/
def mergeParked (clock : Nat) (g : Gang) : List Group :=
  let pcs := (g.groups.map fun x => (g.slice x.low).pc).foldl (fun acc p => if acc.contains p then acc else acc ++ [p]) []
  pcs.filterMap fun p =>
    let same := g.groups.filter fun x => (g.slice x.low).pc == p
    let ks := (List.range 8).filter fun k => same.any fun x => x.slices.contains k
    match same.find? fun x => x.slices.contains (ks.headD 0) with
    | some x => some (g.freed clock { x with slices := ks, sw := same.any (·.sw) })
    | none => none

/-- When every group of the gang waits at a `regang`, the groups at one address merge and go on (R120). -/
def Gang.tryRegang (clock : Nat) (g : Gang) : Gang :=
  if !g.groups.isEmpty && g.groups.all (fun x => x.wait == .regang) then
    { g with groups := mergeParked clock g }.retireParked g.groups
  else g

/-- Prune a gang's groups and let waiting ones rejoin. -/
def State.tidyGang (s : State) (u : Nat) : State :=
  match s.gang? u with
  | none => s
  | some g =>
    let g1 := g.prune
    let g2 := g1.tryRegang s.clock
    let al := ((s.block? g.blk).map fun (b : Block) => b.al).getD 0
    let s := s.modGang u fun _ => g2
    if g1.groups == g2.groups then s
    else g2.groups.foldl (fun s x =>
      let pay := BitVec.ofNat 64 (g2.slice x.low).pc
      let s := ((s.record g.core 3 al g.slot x.low 3 pay).signal g.core 17 al).signal g.core 19 al
      if x.wait == .switchBit then (s.record g.core 2 al g.slot x.low 0 pay).signal g.core 18 al else s) s

/-! Gangs and blocks that end. -/

/-- The word of a block record for a gang (R300). -/
def gangRecord (g : Gang) : W64 :=
  BitVec.ofNat 64 (packFields [(39, g.gfault.toNat), (1, 1), (6, g.endCause)])

/-- A gang whose slices have all exited: its stores perform, its references go, its results are discarded (R21, R121). -/
def State.endGang (s : State) (g : Gang) : State :=
  match s.block? g.blk with
  | none => s
  | some b =>
    let s := (s.performLate g.uid fun _ => true).modGang g.uid fun x =>
      { x with isOver := true, groups := [], refs := [], shadows := [], busy := [], lateLoads := [] }
    let s := s.settleVictims g.core
    s.record g.core 8 b.al g.slot 0 g.endCause (BitVec.ofNat 64 (b.lid % 2 ^ 32 + b.bid * 2 ^ 32))

/-- The registers of an inherited range (R42). -/
def inheritedOf (k : Kernel) (g : Gang) : Store W32 :=
  g.v.filter fun x => 8 * k.inhlo ≤ x.1 / 32 && x.1 / 32 < 8 * (k.inhhi + 1)

/-- Raise vector 0 of allotment 0's interfaces. -/
def State.raiseOperator (s : State) : State := s.raiseEvent 0

/-- Whole commands that a binding has not completed. -/
def DBind.pending (b : DBind) : List Nat := b.cmds.map (·.seq) ++ (b.run.map fun (r : DRun) => r.cmd.seq).toList

/-- A pending command of a binding may name rows of another block of its cluster (R316). -/
def DBind.namesCluster (d : DBind) : Bool :=
  (d.cmds ++ (d.run.map fun (r : DRun) => r.cmd).toList).any fun k =>
    let w := (nth 0#64 k.words 0).toNat
    field w 18 2 == 2 || field w 20 2 == 2

/-- An ended block's rows stay while a block of its cluster has not ended (R150), and while a command that its gangs have pushed, or one of
another block of its cluster that may name them, runs on (R121, R319; assumption 80). -/
def State.freeBlocks (s : State) : State :=
  let keep := fun (b : Block) =>
    !b.ended || (b.cluster != 0 && s.blocks.any fun x => x.cluster == b.cluster && !x.ended) ||
      s.dbinds.any fun d => (d.blk == b.uid && !d.pending.isEmpty) ||
        (b.cluster != 0 && d.namesCluster && s.blocks.any fun x => x.uid == d.blk && x.cluster == b.cluster)
  { s with blocks := s.blocks.filter keep }

/-- Count a block that has ended in its launch (R297, R299, R333). -/
def Launch.countBlock (l : Launch) (b : Block) (gs : List Gang) : Launch :=
  if b.handler then
    { l with cause := if l.cause == 0 then ((gs.find? fun g => g.endCause != 0).map fun (g : Gang) => g.endCause).getD 0
                      else l.cause }
  else
    let bad := gs.find? fun g => g.endCause != 0
    let hash := bad.isNone && (l.mode == 1 || l.mode == 2)
    { l with
      done := l.done + 1
      exited := l.exited + b2n bad.isNone
      faulted := l.faulted + b2n (gs.any fun g => field g.gfault.toNat 0 32 != 0)
      cause := if l.cause == 0 then (bad.map fun (g : Gang) => g.endCause).getD 0 else l.cause
      recs := l.recs.set [] b.bid (gs.map gangRecord)
      hashes := if hash then l.hashes.set [] b.bid [blockHash gs] else l.hashes }

/-- The gangs of a block, in their order. -/
def State.gangsOfBlock (s : State) (b : Block) : List Gang :=
  (List.range 16).filterMap fun i => s.gangs.find? fun g => g.blk == b.uid && g.gid == i

/-- Atomic requests and scratchpad accesses of a block that ends by exit have not performed: its publish waits for them (R157, R162).
While the routes change it sends nothing (R380). -/
def State.blockBusy (s : State) (b : Block) (gs : List Gang) : Bool :=
  gs.all (fun g => g.endCause == 0) &&
    (s.plat.draining || (s.reqs.any fun r => r.blk == b.uid) || s.saccs.any fun a => gs.any fun g => g.uid == a.gang)

/-- What a gang of an ended block leaves of an inherited range (R42). -/
def heldGang (k : Kernel) (g : Gang) : HeldGang :=
  ⟨g.gid, g.slot / 16, (g.units.drop k.inhlo).take (k.inhhi + 1 - k.inhlo), inheritedOf k g⟩

/-- The end of a block (R162): what its gangs owe is published at device scope; a full harrow queue holds that publish (R267); then
an inherited range is kept (R42), of a handler block none (assumption 79), the launch counts the block, a headland block marks its
allotment (R350). After a cancel or an error nothing is promised of unpublished stores: they stay in the line store for the core to
write back or not (R140, R162). -/
def State.endBlock (s : State) (b : Block) : State :=
  let gs := s.gangsOfBlock b
  let s := gs.foldl (fun s g => if g.endCause == 0 then s.publishGang g.core g.uid (publisher g.uid 0) else s) s
  if gs.any fun g => g.endCause == 0 && !s.entered (publisher g.uid 0) then s
  else
    let alive := (s.launch? b.al b.lid).any fun l => !l.complete && !l.cancelled
    let s := if b.k.inhv && !b.handler && alive then
        s.modCore b.core fun c => { c with held := c.held ++ [⟨b.uid, b.al, b.lid, gs.map (heldGang b.k), []⟩] }
      else s
    let s := s.modLaunch b.al b.lid fun l => l.countBlock b gs
    let s := if b.headland then (s.modAllot b.al fun a => { a with hldead := true }).raiseOperator else s
    let s := { s with gangs := s.gangs.filter fun g => g.blk != b.uid }
    (s.modBlock b.uid fun x => { x with ended := true }).freeBlocks

/-- After lanes have ended: groups are pruned, waiting groups rejoin, gangs and blocks with nothing left end. -/
def State.sweep (s : State) : State :=
  let s := (s.gangs.filter fun g => !g.isOver).foldl (fun s g => s.tidyGang g.uid) s
  let s := (s.gangs.filter fun g => !g.isOver && g.live == 0#32).foldl (fun s g => s.endGang g) s
  (s.blocks.filter fun b => !b.ended && (s.gangs.any fun g => g.blk == b.uid) &&
      (s.gangs.all fun g => g.blk != b.uid || g.isOver) && !s.blockBusy b (s.gangsOfBlock b)).foldl
    (fun s b => s.endBlock b) s

/-- HOLD of a record (R135), 0 for none. -/
def TrapRec.hold (r : TrapRec) : Nat := (nth 0#64 r.words 6).toNat

/-- The identifiers under which groups of a gang are held. -/
def Gang.holds (g : Gang) : List Nat :=
  g.groups.filterMap fun x => match x.wait with | .held h => some h | _ => none

/-- End every gang of a set of blocks with a cause (R140, R302); a trap record of such a gang that has not entered its ring does not
enter it (R133). -/
def State.killBlocks (s : State) (p : Block → Bool) (cause : Nat) : State :=
  let us := (s.blocks.filter p).map fun b => b.uid
  let gs := s.gangs.filter fun g => us.contains g.blk && !g.isOver
  let s := gs.foldl (fun s g =>
    match g.holds, s.block? g.blk with
    | [], _ | _, none => s
    | hs, some b => s.modAllot b.al fun a => { a with pendTraps := a.pendTraps.filter fun r => !hs.contains r.hold }) s
  let s := gs.foldl (fun s g =>
    (s.modGang g.uid fun x => { x with endCause := cause }).endLanes g.uid g.live) s
  s.sweep

/-- What an ended launch leaves undone is dropped (R249, R302, R324): batches, messages, held ranges, queued commands, matrix
passes. A started command stops; views over the lines it wrote are marked. -/
def State.dropWork (s : State) (al lid : Nat) : State :=
  let gone := fun (b : DBind) => b.al == al && b.lid == lid
  let lines := (s.dbinds.filter gone).flatMap fun b => (b.run.map fun (r : DRun) => r.lines).getD []
  let s := s.markLines lines 0
  let cores := s.cores.map fun c =>
    { c with sower := c.sower.filter fun m => !(m.al == al && m.lid == lid)
             held := c.held.filter fun h => !(h.al == al && h.lid == lid) }
  let alive := fun (u : Nat) => s.gangs.any fun g => g.uid == u && !g.isOver
  { s with batches := s.batches.filter fun x => !(x.al == al && x.lid == lid)
           cores := cores
           dbinds := s.dbinds.filter fun b => !gone b
           passes := s.passes.filter fun p => alive p.gang }

/-- End a launch from outside: it is marked with the cause and the level, its gangs end, its work is dropped (R136, R140,
R302). -/
def State.endLaunch (s : State) (al lid cause level : Nat) : State :=
  let s := s.modLaunch al lid fun l =>
    if l.complete then l else { l with cause := cause, clevel := level, cancelled := true, arrivals := [] }
  (s.killBlocks (fun b => b.al == al && b.lid == lid) cause).dropWork al lid

/-- The owning launch ends with 0x3D (R140): its gangs end, its unplaced blocks are never placed, an operator record is
appended. `kind` and `place` name the array and the place. No group is
behind the event: SLICES, TPC, TWORD and WHO's core, scheduler and slot are 0; the record is made for a launch that has completed
too (assumption 79). -/
def State.endOwned (s : State) (al lid kind place : Nat) : State :=
  let s := s.endLaunch al lid 0x3D 0
  let tc := packFields [(6, 0x3D), (6, 0), (2, 2)]
  let who := packFields [(14, 0), (32, lid), (4, al)]
  let s := s.modAllot 0 fun a => { a with pendTraps := a.pendTraps ++
    [⟨[BitVec.ofNat 64 tc, 0, 0, BitVec.ofNat 64 (kind * 2 ^ 16), BitVec.ofNat 64 place, BitVec.ofNat 64 who, 0], s.clock, 0⟩] }
  s.raiseOperator

/-- The launches whose writes have met damaged lines end, each once (R140, R384); of one that has completed since nothing is recorded
(assumption 79). -/
def State.endMet (s : State) : State :=
  s.met.reverse.foldl (fun s x =>
    if (s.launch? x.al x.lid).any fun l => !l.complete && !l.cancelled then
      s.endOwned x.al x.lid (if isTierTwo x.line then 7 else 6) x.line
    else s) { s with met := [] }

/-- A word that reads a damaged line issues, and its launch ends (R140). -/
def damageBase (s : State) (c : Ctx) (e : LaneMask) : Halt → State
  | .damage kind line => (s.issueCounts c (lanesOf e).length).endOwned c.al c.blk.lid kind line
  | .wait | .trap _ => s

/-- A word whose body may end lanes: what has ended is swept afterwards. -/
def sweepAfter (f : State → State) : Host.Outcome State Fault Refusal → Host.Outcome State Fault Refusal
  | .next s => .next (f s)
  | .fault r => .fault r
  | .refused r => .refused r

end Sys2Proof.Machine
end

