-- ==== Sys2Proof/Machine/Control.lean ====
section
/-! DEFINITION. Branches, calls, rejoining, ending and yielding (R116 to R122). -/

namespace Sys2Proof.Machine

/-- The address a branch offset in words names (R54). -/
def branchTo (w pc n : Nat) : Nat := wrapTo 64 ((pc : Int) + 8 * signedOf w n)

/-- Active lanes of a slice of the group, and those of them that are enabled. -/
def Ctx.sliceLanes (c : Ctx) (k : Nat) : LaneMask := c.lanes &&& sliceMask k

/-- A slice whose enabled lanes are neither all nor none of its active lanes. -/
def Ctx.mixed (c : Ctx) (e : LaneMask) (k : Nat) : Bool :=
  e &&& sliceMask k != 0#32 && e &&& sliceMask k != c.sliceLanes k

/-- The first slice of the group that a check finds bad traps (R116, R117). -/
def firstBad (ks : List Nat) (p : Nat → Bool) (t : Nat → TrapInfo) : M Unit :=
  match ks.find? p with
  | none => .ok ()
  | some k => trapWith (t k)

/-- Move the counters of the slices that have an enabled lane. -/
def State.moveSlices (s : State) (c : Ctx) (e : LaneMask) (dest : Nat → Nat) : State :=
  s.modGang c.uid fun g => (slicesIn e).foldl (fun g k => g.modSlice k fun sl => { sl with pc := dest k }) g

/-- A slice's stack is full (R115). -/
def Ctx.full (c : Ctx) (k : Nat) : Bool := (c.gang.slice k).stack.length ≥ 16

/-- Push an entry on a slice's stack and run the enabled lanes from an address (R117, R118). -/
def Gang.push (g : Gang) (k : Nat) (t : LaneMask) (e : StackE) (dest : Nat) : Gang :=
  { (g.modSlice k fun sl => { sl with stack := e :: sl.stack, pc := dest }) with
    active := (g.active &&& ~~~(sliceMask k)) ||| t }

/-- `br` (R116). -/
def execBr (h : Hdr) (dest : BitVec 27) (s : State) : Host.Outcome State Fault Refusal :=
  runWord .quiet h [] (fun s c e => do
    firstBad c.grp.slices (c.mixed e) fun k => { cause := 0x20, slice := k }
    pure (s.moveSlices c e fun _ => branchTo 27 c.pc dest.toNat)) s

/-- The record of a divergent `bra` (R358, R359). -/
def State.recordBranch (s : State) (c : Ctx) (e : LaneMask) : State :=
  let n := (s.core c.core).bras
  let j := field s.regs.trctl.toNat 0 4
  let s := s.modCore c.core fun x => { x with bras := n + 1 }
  let s := s.signal c.core 16 c.al
  if n % 2 ^ j == 0 then s.record c.core 24 c.al c.gang.slot c.grp.low (lanesOf e).length (BitVec.ofNat 64 c.pc) else s

/-- `bra` (R117): room is checked in every slice before any slice changes. -/
def execBra (h : Hdr) (dest : BitVec 27) (ro : BitVec 18) (s : State) : Host.Outcome State Fault Refusal :=
  runWord .quiet h [] (fun s c e => do
    firstBad c.grp.slices (fun k => c.mixed e k && c.full k) fun k => { cause := 0x21, slice := k }
    let target := branchTo 27 c.pc dest.toNat
    let div := c.grp.slices.filter fun k => c.mixed e k
    let s := s.moveSlices c e fun _ => target
    let s := s.modGang c.uid fun g => div.foldl (fun g k =>
      let a := c.sliceLanes k
      let t := e &&& sliceMask k
      g.push k t ⟨true, branchTo 18 c.pc ro.toNat, a &&& ~~~t, (c.pc + 8) % 2 ^ 64, a, (g.slice k).fmt⟩ target) g
    pure (if div.isEmpty then s else s.recordBranch c e)) s

/-- Push a CALL entry in each slice with an enabled lane (R118). -/
def State.pushCalls (s : State) (c : Ctx) (e : LaneMask) (dest : Nat → Nat) : M State := do
  firstBad (slicesIn e) c.full fun k => { cause := 0x21, slice := k }
  pure (s.modGang c.uid fun g => (slicesIn e).foldl (fun g k =>
    g.push k (e &&& sliceMask k) ⟨false, (c.pc + 8) % 2 ^ 64, 0#32, 0, c.sliceLanes k, (g.slice k).fmt⟩ (dest k)) g)

/-- `call` (R118). -/
def execCall (h : Hdr) (dest : BitVec 27) (s : State) : Host.Outcome State Fault Refusal :=
  runWord .quiet h [] (fun s c e => s.pushCalls c e fun _ => branchTo 27 c.pc dest.toNat) s

/-- The checks of `ret` in one slice (R118). -/
def retCheck (c : Ctx) (e : LaneMask) (k : Nat) : M Unit :=
  if e &&& sliceMask k == 0#32 then .ok ()
  else if c.mixed e k then trapWith { cause := 0x20, slice := k }
  else
    match (c.gang.slice k).stack with
    | [] => trapWith { cause := 0x22, slice := k, kind := 0 }
    | x :: _ => trapIf x.div { cause := 0x22, slice := k, kind := 1 }

def retChecks (c : Ctx) (e : LaneMask) : List Nat → M Unit
  | [] => .ok ()
  | k :: ks => do
    retCheck c e k
    retChecks c e ks

/-- Pop a CALL entry (R118). -/
def Gang.popCall (g : Gang) (k : Nat) : Gang :=
  match (g.slice k).stack with
  | [] => g
  | x :: rest =>
    { (g.modSlice k fun sl => { sl with pc := x.rpc, fmt := x.fmt, stack := rest }) with
      active := (g.active &&& ~~~(sliceMask k)) ||| (x.outer &&& g.live) }

/-- `ret` (R118). -/
def execRet (h : Hdr) (s : State) : Host.Outcome State Fault Refusal :=
  runWord .quiet h [] (fun s c e => do
    retChecks c e c.grp.slices
    pure (s.modGang c.uid fun g => (slicesIn e).foldl Gang.popCall g)) s

/-- The lowest kind of failure of an indirect target, 0 for none (R119). A damaged line that holds the target's word is met (R140, R384). -/
def State.targetKind (s : State) (c : Ctx) (a first : Nat) : M (Nat × State) :=
  match s.fetchAddr c.core c.al a with
  | none => .ok (1, s)
  | some (pa, s') =>
    if a % 8 != 0 then .ok (2, s)
    else if s'.damaged (lineOf pa) then .error (.damage (if isTierTwo pa then 7 else 6) (lineOf pa))
    else if !landingPoint (BitVec.ofNat 64 (s'.homeWord pa)) then .ok (3, s)
    else if a != first then .ok (4, s)
    else .ok (0, s')

/-- Check the lanes that would move, in ascending order (R119). -/
def checkTargets (c : Ctx) (e : LaneMask) (f : Nat → Nat) : List Nat → State → M State
  | [], s => .ok s
  | l :: ls, s => do
    let (kind, s) ← s.targetKind c (f l) (f (lowLane (e &&& sliceMask (l / 4))))
    trapIf (kind != 0) { cause := 0x23, lane := l, kind := kind, info1 := f l }
    checkTargets c e f ls s

/-- An indirect target in a lane. -/
def State.target (s : State) (c : Ctx) (a : Src) (lane : Nat) : Nat := (s.opVal c true ⟨a, none⟩ lane).toNat

/-- `jmpi` (R119). -/
def execJmpi (h : Hdr) (a : Src) (s : State) : Host.Outcome State Fault Refusal :=
  runWordWith damageBase .plain h (a.uses fA true) (fun s c e => do
    firstBad c.grp.slices (c.mixed e) fun k => { cause := 0x20, slice := k }
    let f := s.target c a
    let s ← checkTargets c e f (lanesOf e) s
    pure (s.moveSlices c e fun k => f (lowLane (e &&& sliceMask k)))) s

/-- `calli` (R119). -/
def execCalli (h : Hdr) (a : Src) (s : State) : Host.Outcome State Fault Refusal :=
  runWordWith damageBase .plain h (a.uses fA true) (fun s c e => do
    let f := s.target c a
    let s ← checkTargets c e f (lanesOf e) s
    s.pushCalls c e fun k => f (lowLane (e &&& sliceMask k))) s

/-- `land` (R119): no effect. -/
def execLand (h : Hdr) (s : State) : Host.Outcome State Fault Refusal :=
  runWord .quiet h [] (fun s _ _ => pure s) s

/-- `nop` (R122): no effect. -/
def execNop (h : Hdr) (s : State) : Host.Outcome State Fault Refusal :=
  runWord .quiet h [] (fun s _ _ => pure s) s

/-- `cede` (R122): the group is the youngest of its class at its scheduler's next pick (`State.pickKey`). -/
def execCede (h : Hdr) (s : State) : Host.Outcome State Fault Refusal :=
  runWord .quiet h [] (fun s c e =>
    pure (if e == 0#32 then s
      else s.modCore c.core fun x => { x with ceded := x.ceded.set 0 (c.gang.slot / 16) (groupTag c.uid c.grp.low) })) s

/-- `exit` (R121): the enabled lanes end. -/
def execExit (h : Hdr) (s : State) : Host.Outcome State Fault Refusal :=
  sweepAfter State.sweep (runWord .plain h [] (fun s c e => pure (s.endLanes c.uid e)) s)

/-- Park the current group: it holds its slot and does not issue (R8, R123, R200), and its word has not completed (R370). The
record names the reason, where R358 gives it one. -/
def State.park (s : State) (c : Ctx) (w : Wait) (reason : Option Nat) : State :=
  let s := s.modGang c.uid fun g =>
    let g := { g with groups := modWhere (fun x => x.slices == c.grp.slices) (fun x => { x with wait := w, owes := true }) g.groups }
    g.modSlices c.grp.slices fun sl => { sl with retc := sl.retc - 1 }
  match reason with
  | none => s.signal c.core 18 c.al
  | some r => (s.record c.core 2 c.al c.gang.slot c.grp.low r (BitVec.ofNat 64 c.pc)).signal c.core 18 c.al

/-- A parked group goes on; its record names the reason it parked for (R358). -/
def State.wake (s : State) (c : Ctx) (reason : Option Nat) : State :=
  let s := s.modGang c.uid fun g =>
    let own := fun (x : Group) => x.slices == c.grp.slices
    { g with groups := modWhere own (g.freed s.clock) g.groups }.retireParked (g.groups.filter own)
  let pay := BitVec.ofNat 64 c.pc
  let s := match reason with
    | none => s.signal c.core 19 c.al
    | some r => (s.record c.core 3 c.al c.gang.slot c.grp.low r pay).signal c.core 19 c.al
  if c.grp.sw && c.gang.resultsOut s.clock c.grp.slices then
    (s.record c.core 2 c.al c.gang.slot c.grp.low 0 pay).signal c.core 18 c.al
  else s

/-- `regang` (R120): a gang whose slices were never parted passes at once. -/
def execRegang (h : Hdr) (s : State) : Host.Outcome State Fault Refusal :=
  sweepAfter State.sweep (runWord .plain h [] (fun s c _ =>
    pure (if c.gang.groups.length ≤ 1 then s.signal c.core 17 c.al else s.park c .regang (some 3))) s)

end Sys2Proof.Machine
end

