-- ==== Sys2Proof/Machine/LineOps.lean ====
section
/-! DEFINITION. The line family (R78 to R95) and the line store's own steps: an arriving line, a victim written back. -/

namespace Sys2Proof.Machine

/-- The address each acting slice takes: its lowest enabled lane's (R81). -/
def State.openAddrs (s : State) (c : Ctx) (e : LaneMask) (form : OForm) (o : Opnd) : List (Nat × OForm × Nat) :=
  (slicesIn e).map fun k => (k, form, (s.opVal c true o (lowLane (e &&& sliceMask k))).toNat)

/-- An `atom` of these slices has not returned: the acquire it contains comes before any later bind (R155, R160, R164;
assumption 29). -/
def State.acqPending (s : State) (c : Ctx) (ks : List Nat) : Bool :=
  s.reqs.any fun r => r.gang == c.uid && r.isAtom && Scope.far r.sc && r.lanes &&& slicesMask ks != 0#32

/-- The record of a binding instruction (R358): one record, with the first address (assumption 22). -/
def State.recordOpen (s : State) (c : Ctx) (ln : Nat) (xs : List (Nat × OForm × Nat × Nat)) (fetched : Bool) : State :=
  match xs with
  | [] => s
  | (_, form, va, _) :: _ =>
    (s.record c.core 16 c.al c.gang.slot c.grp.low (ln + 16 * form.code + 128 * b2n fetched)
      (BitVec.ofNat 64 va)).signal c.core 3 c.al

/-- A lane's result predicate of an open: enabled, and its address names the bound line (R81). -/
def State.openHit (s : State) (c : Ctx) (e : LaneMask) (o : Opnd) (xs : List (Nat × OForm × Nat × Nat)) (l : Nat) : Bool :=
  e.getLsbD l && xs.any fun x => x.1 == l / 4 && (s.opVal c true o l).toNat / 128 == x.2.2.1 / 128

/-- An open form (R77 to R83). -/
def openWord (h : Hdr) (form : OForm) (ln pd : Nat) (a : Src) : State → Host.Outcome State Fault Refusal :=
  runWord .quiet h ((⟨fD, .p pd⟩ : Use) :: a.uses fA true ++ [⟨fB, .ln ln⟩]) fun s c e => do
    if e == 0#32 then pure s
    else do
      let o : Opnd := ⟨a, none⟩
      waitIf (s.acqPending c (slicesIn e))
      let (xs, s) ← checkAll c ln (s.openAddrs c e form o) s
      let hit := s.openHit c e o xs
      let (s, fetched) := s.bindAll c ln xs [] false
      let s := s.recordOpen c ln xs fetched
      pure (s.writePred c false 0 c.liveLanes pd hit)

/-- `open` (R78). -/
def execOpenR (h : Hdr) (ln pd : Nat) (a : Src) (s : State) : Host.Outcome State Fault Refusal :=
  openWord h .openR ln pd a s

/-- `openw` (R78). -/
def execOpenw (h : Hdr) (ln pd : Nat) (a : Src) (s : State) : Host.Outcome State Fault Refusal :=
  openWord h .openw ln pd a s

/-- `openz` (R78, R84). -/
def execOpenz (h : Hdr) (ln pd : Nat) (a : Src) (s : State) : Host.Outcome State Fault Refusal :=
  openWord h .openz ln pd a s

/-- `open.inv` (R78, R85). -/
def execOpenInv (h : Hdr) (ln pd : Nat) (a : Src) (s : State) : Host.Outcome State Fault Refusal :=
  openWord h .openInv ln pd a s

/-- `reopen` (R92): every slice of the group whose reference holds an address. -/
def execReopen (h : Hdr) (ln : Nat) (s : State) : Host.Outcome State Fault Refusal :=
  runWord .quiet h [⟨fB, .ln ln⟩] (fun s c e => do
    if e == 0#32 then pure s
    else do
      let todo := c.grp.slices.filterMap fun k =>
        let r := c.gang.ref ln k
        r.addr.map fun (a : Nat) => (k, r.form, a)
      trapIf todo.isEmpty { cause := 0x1C, reg := ln }
      waitIf (s.acqPending c (slicesIn e))
      let (xs, s) ← checkAll c ln todo s
      let (s, fetched) := s.bindAll c ln xs [] false
      pure (s.recordOpen c ln xs fetched)) s

/-- `close` (R93): the address and the form are kept. -/
def execClose (h : Hdr) (ln : Nat) (s : State) : Host.Outcome State Fault Refusal :=
  runWord .quiet h [⟨fB, .ln ln⟩] (fun s c e =>
    pure ((s.modGang c.uid fun g => (slicesIn e).foldl (fun g k =>
      g.setRef ln k { g.ref ln k with st := .closed, entry := none }) g).settleVictims c.core)) s

/-- The bytes a store takes from a lane's registers (R86). -/
def State.storeBytes (s : State) (c : Ctx) (w : MemW) (a lane : Nat) : List Byte :=
  let n := sumNat ((List.range (MemW.regs w)).map fun i => (s.readV c.gang (a + i) lane).toNat * 2 ^ (32 * i))
  toBytes (MemW.bytes w) n

/-- Write the words of a load of a width into a lane list's registers. -/
def State.writeLoad (s : State) (c : Ctx) (w : MemW) (d : Nat) (vals : List (Nat × List W32)) : State :=
  s.modGang c.uid fun g => g.fillWords w d vals

/-- The offset checks of R87, lanes ascending. -/
def offsetChecks (ln b : Nat) (f : Nat → Nat) : List Nat → M Unit
  | [] => .ok ()
  | l :: ls => do
    trapIf (f l + b > 128) { cause := 0x13, reg := ln, lane := l, info1 := f l }
    trapIf (f l % b != 0) { cause := 0x16, reg := ln, lane := l, info1 := f l }
    offsetChecks ln b f ls

/-- A load performs after its word (R178, R181; assumption 78): the turn lets it, and no acting reference is a `vopen`'s. -/
def State.loadLate (s : State) (c : Ctx) (e : LaneMask) (ln : Nat) : Bool :=
  s.loose 1 && !(slicesIn e).any fun k => (c.gang.ref ln k).form == .vopen

/-- The checks of a line access (R87); answers the lanes' offsets. A load that performs after its word goes on while a line is on its
way. -/
def State.lineAccess (s : State) (c : Ctx) (e : LaneMask) (store : Bool) (b ln : Nat) (o : Opnd) (disp : Nat) :
    M (Nat → Nat) := do
  c.gang.checkRefs ln store (slicesIn e)
  if store || !s.loadLate c e ln then c.gang.waitRefs ln (slicesIn e)
  let f := fun l => (s.opVal c false o l).toNat + disp
  offsetChecks ln b f (lanesOf e)
  pure f

/-- Bytes of a slice's frame. -/
def State.frameBytes (s : State) (c : Ctx) (ln k off n : Nat) : List Byte :=
  let e := s.refEntry c ln k
  (List.range n).map fun i => s.entryByte c.al c.blk.lid (c.gang.ref ln k).since e (off + i)

/-- `ld` (R86, R87). A queue register as offset is popped before the references are checked: the spec does not order the two
(assumption 79). -/
def execLd (h : Hdr) (w : MemW) (d ln : Nat) (o : Src) (disp : BitVec 7) (s : State) : Host.Outcome State Fault Refusal :=
  runWord .plain h (dataUses fD w d ++ (⟨fB, .ln ln⟩ : Use) :: o.uses fB false) (fun s c e => do
    if e == 0#32 then pure s
    else do
      let (os, s) ← popAll c [o] s
      let f ← s.lineAccess c e false (MemW.bytes w) ln (os.headD ⟨.zero, none⟩) disp.toNat
      let s ← s.meetLoads c ln (lanesOf e) f (MemW.bytes w)
      if s.loadLate c e ln then
        let x : LateLoad := ⟨slicesIn e, w, d, (lanesOf e).map fun l => (l, ((c.gang.ref ln (l / 4)).entry.getD 0, f l)),
          Store.setMany 0 [] ((slicesIn e).map fun k => (k, (c.gang.ref ln k).since))⟩
        pure ((s.pend c (loadRegs w d)).modGang c.uid fun g => { g with lateLoads := g.lateLoads ++ [x] })
      else
        let s := s.meetLate c ln (lanesOf e) f (MemW.bytes w)
        pure (s.writeLoad c w d ((lanesOf e).map fun l =>
          (l, loadWords w (s.frameBytes c ln (l / 4) (f l) (MemW.bytes w)))))) s

/-- The bytes that a store word writes, lane by lane in ascending order (R87). -/
def State.storeOf (s : State) (c : Ctx) (w : MemW) (a ln : Nat) (f : Nat → Nat) (e : LaneMask) : LateStore :=
  ⟨slicesIn e, c.blk.lid, (lanesOf e).map fun l => ((c.gang.ref ln (l / 4)).entry.getD 0, bytesAt (f l) (s.storeBytes c w a l))⟩

/-- What a store word adds to its gang: the lines it stores to, whose views its next publish marks (R217), and the slices' store
hashes (R332). -/
def State.noteStore (s : State) (c : Ctx) (ln l off : Nat) (bs : List Byte) : State :=
  let r := c.gang.ref ln (l / 4)
  let line := ((r.entry.bind fun id => s.entry? c.core id).map fun (e : Entry) => e.line).getD 0
  let hash := s.hashing c
  s.modGang c.uid fun g =>
    let g := { g with stored := addOnce g.stored line }
    if hash then g.hashStore (l / 4) 0 (lineOf (r.addr.getD 0) + off) bs else g
/-- `st` (R86, R87). -/
def execSt (h : Hdr) (w : MemW) (a ln : Nat) (o : Src) (disp : BitVec 7) (s : State) : Host.Outcome State Fault Refusal :=
  runWord .plain h (dataUses fA w a ++ (⟨fB, .ln ln⟩ : Use) :: o.uses fB false) (fun s c e => do
    if e == 0#32 then pure s
    else do
      let (os, s) ← popAll c [o] s
      let f ← s.lineAccess c e true (MemW.bytes w) ln (os.headD ⟨.zero, none⟩) disp.toNat
      let s ← s.meetLoads c ln (lanesOf e) f (MemW.bytes w)
      let x := s.storeOf c w a ln f e
      let t := (lanesOf e).foldl (fun t l => t.noteStore c ln l (f l) (s.storeBytes c w a l)) s
      let t := t.modGang c.uid fun g => g.modSeen (slicesIn e) fun y => { y with stored := true }
      if s.loose 0 then pure (t.modGang c.uid fun g => { g with lateStores := g.lateStores ++ [x] })
      else pure ((t.meetLate c ln (lanesOf e) f (MemW.bytes w)).performStore c.core c.uid x)) s

def RefState.code : RefState → Nat
  | .closed => 0 | .opening => 1 | .opened => 2 | .recalled => 3

/-- The status word of `lprobe` (R94). The slice sees its own stores, late ones too. -/
def State.probeWord (s : State) (c : Ctx) (ln k : Nat) : W64 :=
  let r := c.gang.ref ln k
  let late := fun (id : Nat) => c.gang.lateStores.any fun x => x.slices.contains k && x.lanes.any fun l => l.1 == id
  let dirty := match r.entry with
    | some id => (s.entry? c.core id).any fun e => e.mask != 0 || late id
    | none => false
  let shared := match r.entry with | some id => s.holders c.core id > 1 | none => false
  let f := r.form.code
  BitVec.ofNat 64 (packFields [(2, RefState.code r.st), (2, f % 4), (1, b2n dirty), (1, b2n shared), (1, b2n r.addr.isSome),
    (49, r.addr.getD 0 / 128), (4, r.why), (1, f / 4)])

/-- `lprobe` (R94). -/
def execLprobe (h : Hdr) (d ln : Nat) (s : State) : Host.Outcome State Fault Refusal :=
  runWord .quiet h ((Dst.v d).uses true ++ [⟨fB, .ln ln⟩])
    (fun s c e => s.writeDst c false true 0 e (.v d) fun l => s.probeWord c ln (l / 4)) s

/-- A fetched line turns out to be damaged: its entry goes, and the launches that opened it end (R140). -/
def State.damagedFetch (s : State) (core : Nat) (e : Entry) : State :=
  let meets := fun (g : Gang) => g.refs.any (fun r => r.2.entry == some e.id) ||
    g.lateLoads.any fun x => x.lanes.any fun l => l.2.1 == e.id
  let lids := (((s.gangsOn core).filter meets).filterMap fun g =>
    (s.block? g.blk).map fun (b : Block) => b.al + 16 * b.lid).foldl addOnce []
  lids.foldl (fun s x => s.endOwned (x % 16) (x / 16) (if isTierTwo e.line then 7 else 6) e.line) (s.dropEntry core e.id)

/-- A fetched line arrives (R76); a damaged one ends the launches that opened it (R140). The loads that have been issued from an entry
already there perform (R181). -/
def execLineArrival (core eid : Nat) (s : State) : Host.Outcome State Fault Refusal :=
  match s.entry? core eid with
  | none => .next s
  | some e =>
    if e.arrived then .next (s.finishLoads core eid)
    else if e.wantDue.isSome || s.heldTurn e.stamp then .next s
    else if s.damaged e.line then .next (s.damagedFetch core e)
    else .next (s.arrive core eid)

/-- The core writes back a victim's dirty bytes; the victim stays, clean (R83). -/
def execVictimWriteback (core eid : Nat) (s : State) : Host.Outcome State Fault Refusal :=
  match s.entry? core eid with
  | none => .next s
  | some e =>
    if s.holders core eid > 0 || e.mask == 0 || s.plat.draining then .next s
    else .next ((s.writeBack core e).signal core 13 e.al)

end Sys2Proof.Machine
end

