-- ==== Sys2Proof/Machine/Scratch.lean ====
section
/-! DEFINITION. Scratchpad rows (R187 to R193): targets of accesses, lanes switched off (R137), accesses outstanding in a
row set and their performing, the swizzle. -/

namespace Sys2Proof.Machine

/-- The blocks of a block's cluster, itself alone when it has none. -/
def State.clusterOf (s : State) (b : Block) : List Block :=
  if b.cluster == 0 then s.blocks.filter fun x => x.uid == b.uid
  else s.blocks.filter fun x => x.cluster == b.cluster

/-- The block of a cluster in a slot of a core: slot 0 holds the lower position (R147). -/
def slotBlock (bs : List Block) (core slot : Nat) : Option Block :=
  let here := bs.filter fun x => x.core == core
  let rank := fun (b : Block) => (here.filter fun x => x.cpos < b.cpos).length
  here.find? fun b => rank b == slot

/-- What a remote address names: the block of the cluster and the offset in its rows; none where R148 rejects it. -/
def State.remoteTarget (s : State) (b : Block) (core o : Nat) : Option (Block × Nat) :=
  if o ≥ 2 ^ 20 then none
  else (slotBlock (s.clusterOf b) core (field o 19 1)).map fun x => (x, o % 2 ^ 19)

/-- Resolve the core a word names in its field M (R71, R74): trap 0x09 with the logical number before any lane acts. -/
def State.resolveCore (s : State) (c : Ctx) (n : Nat) : M Nat :=
  match s.fieldCore c.al c.core n with
  | some k => .ok k
  | none => trapWith { cause := 0x09, fld := fM, info1 := 4 * (s.logicalCore c.al c.core / 4) + n }

/-- Bytes of a block's rows. -/
def Block.rowsSize (b : Block) : Nat := 1024 * b.k.scratch

/-- Why an access of `n` bytes at an offset of a target switches its lane off (R137, R188, R191), 0 for no reason. -/
def offReason (t : Option (Block × Nat)) (n : Nat) : Nat :=
  match t with
  | none => 1
  | some (b, o) => if o + n > b.rowsSize then 1 else if b.k.guard && b.guardUp then 2 else 0

/-- Record lanes switched off in GFAULT (R137). -/
def Gang.noteOff (g : Gang) (offs : List (Nat × Nat)) : Gang :=
  match offs with
  | [] => g
  | (l, why) :: _ =>
    let mask : W64 := (maskOf (offs.map (·.1))).setWidth 64
    let first := if field g.gfault.toNat 32 2 == 0 then BitVec.ofNat 64 (why * 2 ^ 32 + l * 2 ^ 34) else 0#64
    { g with gfault := g.gfault ||| mask ||| first }

/-- Switch lanes off: (lane, reason), ascending. -/
def State.switchOff (s : State) (c : Ctx) (offs : List (Nat × Nat)) : State :=
  (s.modGang c.uid fun g => g.noteOff offs).endLanes c.uid (maskOf (offs.map (·.1)))

/-- A lane of an access with its resolved target. -/
structure SLane where
  lane : Nat
  blk : Nat
  off : Nat
  addr : Nat
  deriving DecidableEq, Repr, Inhabited

/-- Split the acting lanes into those that access and those switched off. -/
def splitLanes (f : Nat → Nat) (target : Nat → Option (Block × Nat)) (n : Nat) :
    List Nat → List SLane × List (Nat × Nat)
  | [] => ([], [])
  | l :: ls =>
    let (go, off) := splitLanes f target n ls
    let t := target (f l)
    match t, offReason t n with
    | some (b, o), 0 => (⟨l, b.uid, o, f l⟩ :: go, off)
    | _, why => (go, (l, why) :: off)

/-- The target of a lane's access: its slice, the block and the row in which it starts (R192). -/
def SLane.target (x : SLane) : Nat × Nat × Nat := (x.lane / 4, x.blk, x.off / 1024)

/-- The targets of a list of lanes, in first-seen order. -/
def sliceTargets (xs : List SLane) : List (Nat × Nat × Nat) :=
  xs.foldl (fun acc x => if acc.contains x.target then acc else acc ++ [x.target]) []

/-- Queue one access for each slice and target row (R192). -/
def State.queueAccess (s : State) (c : Ctx) (xs : List SLane) (op : List SLane → SOp) : State :=
  let inst := s.nextUid
  (sliceTargets xs).foldl (fun s k =>
    { s with saccs := s.saccs ++ [⟨s.nextUid, c.uid, [k.1], k.2.1, op (xs.filter fun x => x.target == k), inst, none⟩],
             nextUid := s.nextUid + 1 }) s

/-- The bytes that lanes of a slice's store write: of those that write one byte the highest of the slice wins (R191). -/
def laneBytes (all : List SLane) (n : Nat) (bytes : Nat → List Byte) (xs : List SLane) : List (Nat × Byte) :=
  xs.flatMap fun x => (bytesAt x.off (bytes x.lane)).filter fun b =>
    !all.any fun y => x.lane < y.lane && y.lane / 4 == x.lane / 4 && y.blk == x.blk && y.off ≤ b.1 && b.1 < y.off + n

/-- The place of an access: own rows or c.N. -/
abbrev SPlace := Option (BitVec 2)

/-- The target function of a place. -/
def State.placeTarget (s : State) (c : Ctx) (p : SPlace) : M (Nat → Option (Block × Nat)) :=
  match p with
  | none => .ok fun o => (s.block? c.blk.uid).map fun (b : Block) => (b, o)
  | some n => do
    let core ← s.resolveCore c n.toNat
    pure fun o => s.remoteTarget c.blk core o

/-- The lanes that access: with U set only the lowest enabled lane (R191). -/
def actLanes (h : Hdr) (e : LaneMask) : List Nat := if h.uni then [lowLane e] else lanesOf e

/-- The lanes that take the result of a uniform load or atomic, none for a word that is not uniform: every lane of the register where
every live lane is enabled (R35). -/
def Ctx.uniLanes (c : Ctx) (h : Hdr) (e : LaneMask) : LaneMask :=
  if !h.uni then 0#32 else if c.wholeGang e then BitVec.allOnes 32 else e

/-- The registers that a load of a width names as its destination. -/
def loadUses (w : MemW) : Dst → List Use
  | .v n => dataUses fD w n
  | d => d.uses false

/-- The rows that an access touches. -/
def SOp.rows : SOp → List Nat
  | .load w _ lanes _ => (lanes.flatMap fun l => [l.2 / 1024, (l.2 + MemW.bytes w - 1) / 1024]).foldl addOnce []
  | .store bytes _ _ => (bytes.map fun x => x.1 / 1024).foldl addOnce []
  | .mload _ parts => ((parts.flatMap (·.2)).map fun o => o / 1024).foldl addOnce []

/-- A row that a fallow has spilled is one of those (R150, R345). -/
def Block.rowAway (b : Block) (rows : List Nat) : Bool := rows.any fun r => b.away.contains (nth 0 b.units r)

/-- The rows that `n` bytes from an offset up touch. -/
def rowsOf (off n : Nat) : List Nat := addOnce [off / 1024] ((off + n - 1) / 1024)

/-- Earlier accesses of slices to some rows of a block have not performed (R192). -/
def State.rowBusy (s : State) (c : Ctx) (ks : List Nat) (blk : Nat) (rows : List Nat) : Bool :=
  s.saccs.any fun a => a.gang == c.uid && a.slices.any ks.contains && a.blk == blk && a.got.isNone && a.op.rows.any rows.contains

/-- A load pushes one word, that of its lowest lane: its bits 63:0 (R315). It performs with the push, once its slice's earlier accesses to
the rows have performed. -/
def State.pushLoad (s : State) (c : Ctx) (e : LaneMask) (w : MemW) (q : Nat) (x : SLane) : M State :=
  match s.block? x.blk with
  | none => .ok s
  | some b => do
    let rows := rowsOf x.off (MemW.bytes w)
    waitIf (s.rowBusy c [x.lane / 4] x.blk rows || b.rowAway rows)
    let ws := loadWords w (b.rowBytes x.off (MemW.bytes w))
    s.pushQ c (slicesIn e) q ((nth 0#32 ws 1) ++ (nth 0#32 ws 0))

/-- What a scratchpad load does with its lanes: accesses that fill registers are queued; `zero` discards what they would give. Of a
load to a queue whose lanes are all switched off nothing is pushed (assumption 79). -/
def State.loadLanes (s : State) (c : Ctx) (h : Hdr) (e : LaneMask) (w : MemW) (go : List SLane) : Dst → M State
  | .v n =>
    let s := if go.isEmpty then s else s.pend c (loadRegs w n)
    .ok (s.queueAccess c go fun xs => .load w n (xs.map fun x => (x.lane, x.off)) (c.uniLanes h e))
  | .q n => match go with | [] => .ok s | x :: _ => s.pushLoad c e w n x
  | _ => .ok s

/-- A scratchpad load (R190 to R192). -/
def scratchLoad (h : Hdr) (w : MemW) (d : Dst) (p : SPlace) (a : Src) (disp : Nat) :
    State → Host.Outcome State Fault Refusal := fun s =>
  sweepAfter State.sweep (runWord .plain h (loadUses w d ++ a.uses fA false) (fun s c e => do
    if e == 0#32 then pure s
    else do
      let (os, s) ← popAll c [a] s
      let target ← s.placeTarget c p
      let f := fun l => (s.opVal c false (os.headD ⟨.zero, none⟩) l).toNat + disp
      let (go, off) := splitLanes f target (MemW.bytes w) (actLanes h e)
      let s ← s.loadLanes c h e w go d
      pure (s.switchOff c off)) s)

/-- A scratchpad store (R190 to R192): of lanes that store one byte the highest stands. -/
def scratchStore (h : Hdr) (w : MemW) (p : SPlace) (a : Src) (disp b : Nat) :
    State → Host.Outcome State Fault Refusal := fun s =>
  sweepAfter State.sweep (runWord .plain h (a.uses fA false ++ dataUses fB w b) (fun s c e => do
    if e == 0#32 then pure s
    else do
      let (os, s) ← popAll c [a] s
      let target ← s.placeTarget c p
      let f := fun l => (s.opVal c false (os.headD ⟨.zero, none⟩) l).toNat + disp
      let (go, off) := splitLanes f target (MemW.bytes w) (actLanes h e)
      let bytes := fun l => s.storeBytes c w b l
      let hash := s.hashing c
      let kind := if p.isNone then 1 else 2
      let s := s.queueAccess c go fun xs => .store (laneBytes go (MemW.bytes w) bytes xs) [] true
      let s := if hash then s.modGang c.uid fun g => go.foldl (fun g x =>
          g.hashStore (x.lane / 4) kind (x.addr + (p.getD 0).toNat * 2 ^ 32) (bytes x.lane)) g
        else s
      pure (s.switchOff c off)) s)

/-- `lds` (R190, R191). -/
def execLds (h : Hdr) (w : MemW) (d : Dst) (a : Src) (disp : BitVec 9) (s : State) : Host.Outcome State Fault Refusal :=
  scratchLoad h w d none a disp.toNat s

/-- `sts` (R190, R191). -/
def execSts (h : Hdr) (w : MemW) (a : Src) (disp : BitVec 9) (b : Nat) (s : State) : Host.Outcome State Fault Refusal :=
  scratchStore h w none a disp.toNat b s

/-- `ldsr` (R148, R190, R191). -/
def execLdsr (h : Hdr) (w : MemW) (d : Dst) (n : BitVec 2) (a : Src) (disp : BitVec 9) (s : State) :
    Host.Outcome State Fault Refusal :=
  scratchLoad h w d (some n) a disp.toNat s

/-- `stsr` (R148, R190, R191). -/
def execStsr (h : Hdr) (w : MemW) (n : BitVec 2) (a : Src) (disp : BitVec 9) (b : Nat) (s : State) :
    Host.Outcome State Fault Refusal :=
  scratchStore h w (some n) a disp.toNat b s

/-- The swizzled offset (R193). -/
def swizzle (a g p : Nat) : Nat := a ^^^ (a / 2 ^ (p + 7) % 2 ^ (7 - g) * 2 ^ g)

/-- `swz` (R193). -/
def execSwz (h : Hdr) (d : Dst) (a b : Src) (g p : Nat) (s : State) : Host.Outcome State Fault Refusal :=
  laneWord h 4 [(a, false), (b, false)] [] d false
    (fun _ _ _ xs => BitVec.ofNat 64 ((swizzle (arg xs 0).toNat g p + (arg xs 1).toNat) % 2 ^ 32)) s

/-! Accesses that perform. -/

/-- An access comes before all others of its slices to a row of its own (R192). -/
def firstOfTarget (xs : List SAcc) (a : SAcc) : Bool :=
  match xs.find? fun x => x.gang == a.gang && x.blk == a.blk && x.slices.any a.slices.contains &&
      x.op.rows.any a.op.rows.contains with
  | some x => x.id == a.id
  | none => a.op.rows.isEmpty

/-- The registers that an access holds pending. -/
def SOp.regs : SOp → List Reg
  | .load w d _ _ => loadRegs w d
  | .store _ _ _ => []
  | .mload d parts => (List.range ((parts.map fun (p : Nat × List Nat) => p.2.length / 16).foldl Nat.max 0)).map fun i => .v (d + i)

/-- The registers a matrix load writes in a slice (R220, R243): of the slice's bytes, 16 i + 4 l to 16 i + 4 l + 3 make register
d + i of its lane l. -/
def Gang.fillOperand (g : Gang) (d k : Nat) (bs : List Byte) : Gang :=
  (List.range (bs.length / 16)).foldl (fun g i =>
    g.fillV (d + i) ((List.range 4).map fun l =>
      (4 * k + l, BitVec.ofNat 32 (ofBytes ((bs.drop (16 * i + 4 * l)).take 4))))) g

/-- Write the lanes of a scratchpad load; a uniform one of the whole gang reaches every lane of the register (R35). -/
def Gang.fillLoad (g : Gang) (b : Block) (w : MemW) (d : Nat) (lanes : List (Nat × Nat)) (uni : LaneMask) : Gang :=
  let words := fun (x : Nat × Nat) => loadWords w (b.rowBytes x.2 (MemW.bytes w))
  match lanes with
  | [] => g
  | x :: _ =>
    if uni == 0#32 then g.fillWords w d (lanes.map fun y => (y.1, words y))
    else (List.range (MemW.regs w)).foldl (fun g i => g.fillUni (d + i) uni (nth 0#32 (words x) i)) g

/-- Retire the fetches of a matrix load once every byte has arrived (R254). -/
def State.finishLoad (s : State) (a : SAcc) : State :=
  let all := s.saccs.filter fun x => x.inst == a.inst
  if all.any fun x => x.got.isNone then s
  else
    let s := { s with saccs := s.saccs.filter fun x => x.inst != a.inst }
    s.modGang a.gang fun g =>
      all.foldl (fun g x => match x.op, x.got with
        | .mload d parts, some bs => ((parts.zip bs).foldl (fun g p => g.fillOperand d p.1.1 p.2) g).unpend x.op.regs
        | _, _ => g) g

/-- A store of a lower slice of the same word to the same rows is not to write bytes that a higher one has written (R191). -/
def SAcc.after (x a : SAcc) (offs : List Nat) : SAcc :=
  match x.op with
  | .store bytes done raw =>
    if x.inst == a.inst && x.blk == a.blk && x.slices.headD 0 < a.slices.headD 0 then { x with op := .store bytes (offs ++ done) raw } else x
  | _ => x

/-- A scratchpad access performs in its target row (R192, R150, R254). One whose bytes lie in two rows performs in both at once, where
R192 lets accesses to different rows perform in any order (assumption 79). -/
def State.performAccess (s : State) (a : SAcc) (b : Block) : State :=
  let rest := s.saccs.filter fun x => x.id != a.id
  let s := s.modGang a.gang fun g => g.observe a.slices s.turn
  match a.op with
  | .store bytes done raw =>
    { s with saccs := rest.map fun (x : SAcc) => x.after a (bytes.map fun (y : Nat × Byte) => y.1) }.modBlock b.uid fun x =>
      let bs := bytes.filter fun (y : Nat × Byte) => !done.contains y.1
      if raw then x.writeRows bs else x.fillRows bs
  | .load w d lanes uni =>
    let free := !rest.any fun x => x.inst == a.inst
    { s with saccs := rest }.modGang a.gang fun g =>
      let g := g.fillLoad b w d lanes uni
      if free then g.unpend a.op.regs else g
  | .mload _ parts =>
    { s with saccs := modWhere (fun x => x.id == a.id) (fun x =>
        { x with got := some (parts.map fun (p : Nat × List Nat) => p.2.map fun o => b.rows.get 0#8 o) }) s.saccs }.finishLoad a

/-- An access to another core's rows that is held while the routes change (R380). -/
def State.heldAcc (s : State) (a : SAcc) (b : Block) : Bool :=
  s.heldUid a.id && (s.gang? a.gang).any fun (g : Gang) => g.core != b.core

/-- A scratchpad access performs (R192), unless it is held, an earlier one of its slices to a row of its own has not or a row is spilled. What
waited for it to end ends (R162). -/
def execScratchpadAccessPerform (sid : Nat) (s : State) : Host.Outcome State Fault Refusal :=
  match s.saccs.find? fun a => a.id == sid with
  | none => .next s
  | some a =>
    match s.block? a.blk with
    | none => .next { s with saccs := s.saccs.filter fun x => x.id != sid }
    | some b =>
      let open' := s.saccs.filter fun x => x.got.isNone
      if s.heldAcc a b || !firstOfTarget open' a || b.rowAway a.op.rows || a.got.isSome then .next s
      else .next (s.performAccess a b).sweep

end Sys2Proof.Machine
end

