-- ==== Sys2Proof/Machine/Sync.lean ====
section
/-! DEFINITION. Barriers (R194 to R206), fences, publishes, acquires (R157 to R159, R213) and the watch of a line (R123). -/

namespace Sys2Proof.Machine

/-- The word a barrier instruction names (R198): the lowest enabled lane's operand; 0x30 where it names no word. -/
def State.barPlace (s : State) (c : Ctx) (e : LaneMask) (p : SPlace) (a : Opnd) : M (Block × Nat × Nat) := do
  let o := (s.lowVal c e false a).toNat
  let target ← s.placeTarget c p
  match target o with
  | none => trapWith { cause := 0x30, lane := lowLane e, info1 := o }
  | some (b, off) => do
    trapIf (off % 8 != 0 || off + 8 > b.rowsSize) { cause := 0x30, lane := lowLane e, info1 := o }
    pure (b, off, o)

/-- A barrier instruction has named a word: the module keeps its record (R195). -/
def State.nameBar (s : State) (b : Block) (off : Nat) : State := s.modBlock b.uid fun x => x.nameBar off

/-- An uninitialised word: a local one traps, a remote one is awaited (R149, R200, R201); a spilled row is awaited (R150). -/
def barReady (e : LaneMask) (b : Block) (off o : Nat) (remote : Bool) : M Unit := do
  waitIf (remote && b.rowAway [off / 1024])
  if barExpected (b.word off) == 0 then
    if remote then waitIf true else trapWith { cause := 0x30, lane := lowLane e, info1 := o }
  else pure ()

/-- Lanes of a participant set that have already ended (R199). -/
def State.endedLanes (s : State) (b : Block) (cl : Bool) : Nat :=
  let bs := if cl then s.clusterOf b else [b]
  sumNat (bs.map fun x =>
    x.threads - sumNat ((s.gangs.filter fun g => g.blk == x.uid).map fun g => (lanesOf g.live).length))

/-- `bar.init` (R199): it performs at the word, in its slices' order of accesses to the row. -/
def execBarInit (h : Hdr) (cl : Bool) (a : Src) (count : BarCount) (s : State) : Host.Outcome State Fault Refusal :=
  let k : List Src := match count with | .imm _ => [] | .reg k => [k]
  runWord .plain h (a.uses fA false ++ k.flatMap fun x => x.uses fB false) (fun s c e => do
    if e == 0#32 then pure s
    else do
      let (os, s) ← popAll c (a :: k) s
      let (b, off, _) ← s.barPlace c e none (os.headD ⟨.zero, none⟩)
      waitIf (s.rowBusy c (slicesIn e) b.uid [off / 1024])
      let n := match count with
        | .imm n => n.toNat
        | .reg _ => (s.lowVal c e false (nth ⟨.zero, none⟩ os 1)).toNat % 2 ^ 16
      let w := barPack n 0 (barGen (b.word off)) (s.endedLanes b cl)
      pure (s.modBlock b.uid fun x =>
        let x := { x.setWord off w with raws := x.raws.filter (· != off) }.setBar { x.bar off with cl, arr := [], deferred := 0 }
        if n == 0 then x else { x with guardUp := false })) s

/-- Record lanes as arrived in a generation: one record a lane (R195, R206). -/
def recordArrivals (r : BarRec) (gang gen : Nat) (ls : List Nat) : BarRec :=
  { r with arr := (r.arr.filter fun x => !(x.gang == gang && ls.contains x.lane)) ++
      ls.map fun l => ⟨gang, l, gen, true⟩ }

/-- The arrival step of R196, after its check of the count. -/
def Block.arrive (b : Block) (off gang : Nat) (ls : List Nat) : Block :=
  let w := b.word off
  let b := b.setBar (recordArrivals (b.bar off) gang (barGen w) ls)
  ((b.setWord off (barPack (barExpected w) (barArrivals w + ls.length) (barGen w) (barDeduct w))).barCheck off).1

/-- The checks of `bar.arr` before its publish: the word it names, and that a local one is initialised. -/
def State.barArrCheck (s : State) (c : Ctx) (e : LaneMask) (p : SPlace) (a : Opnd) : M (Block × Nat × Nat) := do
  let (b, off, o) ← s.barPlace c e p a
  if p.isNone then barReady e b off o false else pure ()
  pure (b, off, o)

/-- What a `bar.arr` that halts leaves: its contained publish stands once it has been reached (R200). -/
def barArrBase (sc : Scope) (p : SPlace) (a : Src) (s : State) (c : Ctx) (e : LaneMask) (_ : Halt) : State :=
  let r : M State := do
    let (os, t) ← popAll c [a] s
    let _ ← t.barArrCheck c e p (os.headD ⟨.zero, none⟩)
    let s ← s.settled c (slicesIn e) true
    pure (s.publishTurn c sc)
  match r with
  | .ok s' => s'
  | .error _ => s

/-- `bar.arr` (R200). -/
def execBarArr (h : Hdr) (sc : Scope) (p : SPlace) (a : Src) (s : State) : Host.Outcome State Fault Refusal :=
  runWordWith (barArrBase sc p a) .plain h (a.uses fA false) (fun s c e => do
    if e == 0#32 then pure s
    else do
      let (os, s) ← popAll c [a] s
      let (b, off, o) ← s.barArrCheck c e p (os.headD ⟨.zero, none⟩)
      let s ← s.settled c (slicesIn e) true
      let s ← s.publish c sc (slicesIn e)
      barReady e b off o p.isSome
      let ls := actLanes h e
      let b := b.nameBar off
      let w := b.word off
      trapIf (barArrivals w + ls.length + barDeduct w > barExpected w) { cause := 0x31, lane := lowLane e, info1 := o }
      pure ((s.modBlock b.uid fun x => (x.nameBar off).arrive off c.uid ls).signal c.core 10 c.al)) s

/-- The generation each lane waits past (R201). -/
def barTargets (b : Block) (off gang : Nat) (ls : List Nat) : List (Nat × Nat) :=
  ls.map fun l => (l, ((((b.bar off).arr.find? fun x => x.gang == gang && x.lane == l)).map
    fun (x : Arrival) => x.gen).getD (barGen (b.word off)))

/-- The lanes whose generation has passed. -/
def barPassed (b : Block) (off : Nat) (targets : List (Nat × Nat)) : LaneMask :=
  maskOf ((targets.filter fun t => t.2 != barGen (b.word off)).map (·.1))

/-- The targets that a group parks with: a lane that has passed gets 2^16, which no GEN is, so that it stays passed. -/
def markPassed (ok : LaneMask) (targets : List (Nat × Nat)) : List (Nat × Nat) :=
  targets.map fun t => if ok.getLsbD t.1 then (t.1, 2 ^ 16) else t

/-- The lanes of a group parked when the word had advanced `adv` times that may go on: one is released by an advance since then to a
generation other than its target, and by nothing else (R194, R201, R206). -/
def barFree (b : Block) (off adv : Nat) (targets : List (Nat × Nat)) : LaneMask :=
  let r := b.bar off
  maskOf ((targets.filter fun t => t.2 == 2 ^ 16 || (adv < r.adv && (adv < r.run || r.gen != t.2))).map (·.1))

/-- A wait completes: slices, those with a lane that has passed, acquire (R201, R202). -/
def State.barDone (s : State) (c : Ctx) (sc : Scope) (ks : List Nat) : State :=
  ((s.modGang c.uid fun g => g.observe ks s.turn).acquire c sc ks).signal c.core 11 c.al

/-- `bar.wait` (R201). -/
def execBarWait (h : Hdr) (sc : Scope) (p : SPlace) (a : Src) (s : State) : Host.Outcome State Fault Refusal :=
  runWord .plain h (a.uses fA false) (fun s c e => do
    if e == 0#32 then pure s
    else do
      let (os, s) ← popAll c [a] s
      let (b, off, o) ← s.barPlace c e p (os.headD ⟨.zero, none⟩)
      barReady e b off o p.isSome
      let s := (s.nameBar b off).performLate c.uid (LateStore.of (slicesIn e))
      let b := b.nameBar off
      let ts := barTargets b off c.uid (lanesOf e)
      let ok := barPassed b off ts
      if ok == e then do
        waitIf (s.outstanding c.uid (slicesIn e) true)
        pure (s.barDone c sc (slicesIn e))
      else pure (s.park c (.barWait ⟨b.uid, off⟩ e (markPassed ok ts) sc (b.bar off).adv p.isSome) (some 2))) s

/-- What a `bar.try` that ends gives: pD by lane, an acquire by the slices where some lane passed (R202). -/
def State.tryDone (s : State) (c : Ctx) (sc : Scope) (pd : Nat) (e ok : LaneMask) : State :=
  let s := s.writePred c false 0 e pd fun l => ok.getLsbD l
  if ok == 0#32 then s else s.barDone c sc (slicesIn ok)

/-- A limit in allotment virtual cycles: none for 0xFFFF_FFFF (R202). -/
def State.deadline (s : State) (al limit : Nat) : Option Nat :=
  if limit == 0xFFFFFFFF then none else some ((s.allot al).vclk.toNat + limit)

/-- `bar.try` (R202). -/
def execBarTry (h : Hdr) (sc : Scope) (p : SPlace) (pd : Nat) (a lim : Src) (s : State) :
    Host.Outcome State Fault Refusal :=
  runWord .plain h ((⟨fD, .p pd⟩ : Use) :: a.uses fA false ++ lim.uses fB false) (fun s c e => do
    if e == 0#32 then pure s
    else do
      let (os, s) ← popAll c [a, lim] s
      let (b, off, o) ← s.barPlace c e p (os.headD ⟨.zero, none⟩)
      if p.isSome && !b.rowAway [off / 1024] && barExpected (b.word off) == 0 then pure (s.tryDone c sc pd e 0#32)
      else do
        barReady e b off o p.isSome
        let s := (s.nameBar b off).performLate c.uid (LateStore.of (slicesIn e))
        let b := b.nameBar off
        let ts := barTargets b off c.uid (lanesOf e)
        let ok := barPassed b off ts
        let limit := (s.lowVal c e false (nth ⟨.zero, none⟩ os 1)).toNat
        let busy := s.outstanding c.uid (slicesIn e) true
        if limit == 0 then do
          waitIf (ok != 0#32 && busy)
          pure (s.tryDone c sc pd e ok)
        else if ok == e then do
          waitIf busy
          pure (s.tryDone c sc pd e ok)
        else pure (s.park c (.barTry ⟨b.uid, off⟩ e (markPassed ok ts) sc (b.bar off).adv pd (s.deadline c.al limit)) (some 2))) s

/-- `fence` (R159, R213): it waits, and orders what its slices have done before what they do later (R173, R174). -/
def execFence (h : Hdr) (sc : Scope) (s : State) : Host.Outcome State Fault Refusal :=
  runWord .quiet h [] (fun s c e => do
    let s ← s.settled c (slicesIn e) true
    pure (s.orderPoint c sc (slicesIn e))) s

/-- `pub` (R157, R213). -/
def execPub (h : Hdr) (sc : Scope) (s : State) : Host.Outcome State Fault Refusal :=
  runWordWith (publishBase sc true false) .quiet h [] (fun s c e => do
    if e == 0#32 then pure s
    else do
      let s ← s.settled c (slicesIn e) true
      s.publish c sc (slicesIn e)) s

/-- `acq` (R158, R213). -/
def execAcq (h : Hdr) (sc : Scope) (s : State) : Host.Outcome State Fault Refusal :=
  runWord .quiet h [] (fun s c e => do
    if e == 0#32 then pure s
    else do
      let s ← s.settled c (slicesIn e) true
      pure (s.acquire c sc (slicesIn e))) s

/-! `tryw` (R123). -/

/-- The version a slice's reference shows, or the home's own now where its frame records none. -/
def State.watched (s : State) (c : Ctx) (ln k : Nat) : Nat :=
  let e := s.refEntry c ln k
  match e.version with
  | some v => v
  | none => s.version e.line

/-- Slices whose line has a version newer than the one watched. -/
def State.newerSlices (s : State) (c : Ctx) (ln : Nat) (vers : List (Nat × Nat)) : List Nat :=
  (vers.filter fun x => (c.gang.ref ln x.1).entry.isSome && s.version (s.refEntry c ln x.1).line > x.2).map (·.1)

/-- The watch ends: pD is set in the enabled lanes of the slices with a newer version, which they have seen (R123). -/
def State.trywDone (s : State) (c : Ctx) (pd : Nat) (e : LaneMask) (ks : List Nat) : State :=
  (s.writePred c false 0 e pd fun l => ks.contains (l / 4)).modGang c.uid fun g => g.observe ks s.turn

/-- `tryw` (R123). A queue register that gives the limit is popped before the checks of the references (assumption 79). -/
def execTryw (h : Hdr) (pd ln : Nat) (a : Src) (s : State) : Host.Outcome State Fault Refusal :=
  runWord .plain h ((⟨fD, .p pd⟩ : Use) :: a.uses fA false ++ [⟨fM, .ln ln⟩]) (fun s c e => do
    if e == 0#32 then pure s
    else do
      let (os, s) ← popAll c [a] s
      c.gang.checkRefs ln false (slicesIn e)
      c.gang.waitRefs ln (slicesIn e)
      let vers := (slicesIn e).map fun k => (k, s.watched c ln k)
      let limit := (s.lowVal c e false (os.headD ⟨.zero, none⟩)).toNat
      pure (s.park c (.tryw pd ln e vers (s.deadline c.al limit)) (some 1))) s

end Sys2Proof.Machine
end

