-- ==== Sys2Proof/Machine/Atomics.lean ====
section
/-! DEFINITION. Atomics (R207 to R212): checks, requests, their performing at the home, results; record and replay at the
threshers (R326 to R331). -/

namespace Sys2Proof

def ATy.signed : ATy → Bool
  | .i32 | .i64 => true
  | _ => false

namespace Machine

/-- Bytes of a location. -/
def atomBytes (t : ATy) : Nat := if t.wide then 8 else 4

/-- The new value and the success bit of an atomic, on values below 2^w (R208). -/
def atomStep (op : AOp) (t : ATy) (old b c : Nat) : Nat × Bool :=
  let w := 8 * atomBytes t
  let lt := if t.signed then decide (signedOf w old < signedOf w b) else decide (old < b)
  match op with
  | .add => ((old + b) % 2 ^ w, false)
  | .addb => if old + b < 2 ^ w && old + b ≤ c then (old + b, true) else (old, false)
  | .incw => (if old ≥ c then 0 else old + 1, false)
  | .decw => (if old == 0 || old > c then c else old - 1, false)
  | .min => (if lt then old else b, false)
  | .max => (if lt then b else old, false)
  | .and => (old &&& b, false)
  | .or => (old ||| b, false)
  | .xor => (old ^^^ b, false)
  | .exch => (b, false)
  | .cas => if old == c then (b, true) else (old, false)
  | .fadd => ((fAdd .rne (BitVec.ofNat 32 old) (BitVec.ofNat 32 b)).toNat, false)

/-- The checks of one lane (R209). -/
def State.checkAtomic (s : State) (c : Ctx) (sc : Scope) (t : ATy) (lane va : Nat) : M (Nat × State) :=
  match s.translate c.core c.al va .write with
  | .error cause => trapWith (transTrap cause (lane / 4) va .write)
  | .ok (pa, s) => do
    trapIf (s.isViewPage pa) { cause := 0x12, slice := lane / 4, kind := 2, info1 := va }
    trapIf (isPeer pa && sc != .system) { cause := 0x1B, slice := lane / 4, info1 := va }
    trapIf (va % atomBytes t != 0) { cause := 0x33, lane := lane, info1 := va }
    pure (pa, s)

/-- Check the acting lanes in ascending order; answers lane, virtual and physical address. -/
def checkAtomics (c : Ctx) (sc : Scope) (t : ATy) (f : Nat → Nat) : List Nat → State → M (List (Nat × Nat × Nat) × State)
  | [], s => .ok ([], s)
  | l :: ls, s => do
    let (pa, s) ← s.checkAtomic c sc t l (f l)
    let (xs, s) ← checkAtomics c sc t f ls s
    pure ((l, f l, pa) :: xs, s)

/-- Instructions of a gang whose requests or results are outstanding. -/
def State.atomsOut (s : State) (u : Nat) (isAtom : Bool) : Nat :=
  (((s.reqs.filter fun r => r.gang == u && r.isAtom == isAtom).map fun r => r.inst).foldl addOnce []).length

/-- A gang holds at most 4 `atom` and 16 `red` outstanding (R211). -/
def State.atomLimit (s : State) (u : Nat) (isAtom : Bool) : Bool := s.atomsOut u isAtom ≥ (if isAtom then 4 else 16)

/-- What an atomic word does before its publish: operands and checks (R209). -/
def State.atomChecks (s : State) (c : Ctx) (h : Hdr) (sc : Scope) (t : ATy) (a b k : Src) (e : LaneMask) :
    M (List Opnd × List (Nat × Nat × Nat) × State) := do
  let (os, s) ← popAll c [a, b, k] s
  let (xs, s) ← checkAtomics c sc t (fun l => (s.opVal c true (os.headD ⟨.zero, none⟩) l).toNat) (actLanes h e) s
  pure (os, xs, s)

/-- What an atomic word that waits leaves: at the limit its group is parked until an earlier one completes (R211, R358); otherwise its
publish goes on. -/
def atomBase (h : Hdr) (isAtom : Bool) (sc : Scope) (t : ATy) (a b k : Src) (s : State) (c : Ctx) (e : LaneMask) : Halt → State
  | .trap _ | .damage _ _ => s
  | .wait =>
    match s.atomChecks c h sc t a b k e with
    | .error _ => s
    | .ok _ =>
      if s.atomLimit c.uid isAtom then
        ((s.modGroup c fun x => { x with wait := .limit isAtom }).record c.core 2 c.al c.gang.slot c.grp.low 5
          (BitVec.ofNat 64 c.pc)).signal c.core 18 c.al
      else publishBase sc false false s c e .wait

/-- The requests of an atomic word. -/
def State.atomReqs (s : State) (c : Ctx) (h : Hdr) (isAtom : Bool) (sc : Scope) (op : AOp) (t : ATy) (d p : Nat) (e : LaneMask)
    (os : List Opnd) (xs : List (Nat × Nat × Nat)) : List AReq :=
  let val := fun i l => s.opVal c t.wide (nth ⟨.zero, none⟩ os i) l
  xs.map fun x =>
    { id := s.nextUid + 1 + x.1, al := c.al, lid := c.blk.lid, blk := c.blk.uid, bid := c.blk.bid, gang := c.uid, core := c.core,
      gid := c.gang.gid, slice := x.1 / 4, lanes := if h.uni then c.uniLanes h e else e, lane := x.1, inst := s.nextUid,
      isAtom := isAtom, handler := c.blk.handler, op := op, ty := t, addr := x.2.2, vaddr := x.2.1, b := val 1 x.1,
      c := val 2 x.1, d := d, p := p, sc := sc, since := (s.allot c.al).vclk.toNat, held := false }

/-- An atomic word (R207, R209 to R211, R409). The contained publish waits for every earlier access but the slice's own
atomics. -/
def atomWord (h : Hdr) (isAtom : Bool) (sc : Scope) (op : AOp) (t : ATy) (d p : Nat) (a b k : Src) :
    State → Host.Outcome State Fault Refusal :=
  let dst : List Use := if isAtom then (Dst.v d).uses t.wide ++ [⟨fM, .p p⟩] else []
  runWordWith (atomBase h isAtom sc t a b k) .plain h
    (dst ++ a.uses fA true ++ b.uses fB t.wide ++ k.uses fC t.wide) fun s c e => do
    if e == 0#32 then pure s
    else do
      let (os, xs, s) ← s.atomChecks c h sc t a b k e
      waitIf (s.atomLimit c.uid isAtom)
      let s ← s.settled c (slicesIn e) false
      let s ← s.publish c sc (slicesIn e)
      let reqs := s.atomReqs c h isAtom sc op t d p e os xs
      let va := (s.opVal c true (os.headD ⟨.zero, none⟩) (lowLane e)).toNat
      let s := { s with reqs := s.reqs ++ reqs, nextUid := s.nextUid + 64 }
      let s := if isAtom then
          s.pend c (((Dst.v d).uses t.wide).map (fun (u : Use) => u.reg) ++ (if p == 7 then [] else [.p p]))
        else s
      let s := s.signal c.core (if isAtom then 8 else 9) c.al
      pure (s.record c.core 20 c.al c.gang.slot c.grp.low (AOp.code op + 16 * Scope.code sc + 128 * b2n (!isAtom))
        (BitVec.ofNat 64 va))

/-- `atom` (R207). -/
def execAtom (h : Hdr) (sc : Scope) (op : AOp) (t : ATy) (d p : Nat) (a b c : Src) (s : State) :
    Host.Outcome State Fault Refusal :=
  atomWord h true sc op t d p a b c s

/-- `red` (R207). -/
def execRed (h : Hdr) (sc : Scope) (op : AOp) (t : ATy) (a b c : Src) (s : State) : Host.Outcome State Fault Refusal :=
  atomWord h false sc op t 0 7 a b c s

/-! The furrow log (R326 to R331). -/

/-- A write of the module itself to virtual addresses of an allotment, within lines; what cannot be translated, or lies at a peer
(R385), is not written. -/
def State.moduleWrite (s : State) (al va : Nat) (bs : List Byte) : State :=
  (homeRuns (bs.length / 128 + 2) va bs).foldl (fun s x =>
    match s.translate (engineUnit 0) al (x.1 + (x.2.headD (0, 0#8)).1) .write with
    | .ok (pa, t) => if isPeer pa then s else (t.homeWrite (lineOf pa) x.2).meterBytes al pa x.2.length true
    | .error _ => s) s

/-- The module reads an aligned word at a virtual address of an allotment: zero where it does not translate or lies at a peer (R385). -/
def State.moduleWord (s : State) (al va : Nat) : Nat × State :=
  match s.translate (engineUnit 0) al va .read with
  | .ok (pa, t) => if isPeer pa then (0, s) else (ofBytes (t.mem.readN pa 8), t.meterBytes al pa 8 false)
  | .error _ => (0, s)

/-- The module reads words at given addresses, in their order. -/
def State.moduleWords (s : State) (al : Nat) : List Nat → List Nat × State
  | [] => ([], s)
  | va :: rest =>
    let (w, s) := s.moduleWord al va
    let (ws, s) := s.moduleWords al rest
    (w :: ws, s)

/-- The memory line that a virtual line names at this moment. -/
def State.memLine (s : State) (al line : Nat) : Option Nat := (s.mapped al line).map fun t => t.pbase + line % t.size

/-- A chunk is one of the memory line that a virtual line names, be it under another name (R153, R328): `home` is that memory line. -/
def State.onLine (s : State) (al line : Nat) (home : Option Nat) (k : Chunk) : Bool :=
  k.line == line || (home.isSome && s.memLine al k.line == home)

/-- A chunk is one of the line that a request is for. -/
def State.chunkOf (s : State) (r : AReq) (k : Chunk) : Bool := s.onLine r.al (lineOf r.vaddr) (some (lineOf r.addr)) k

/-- FBASE (R326). -/
def Launch.fbase (l : Launch) : Nat := l.crec + 128 * (1 + l.grid)

/-- Offset of the chunk stream (R328). -/
def Launch.chunkOff (l : Launch) : Nat := 128 + 128 * ((16 * l.grid + 127) / 128)

/-- Append a closed chunk to the stream (R328, R329). -/
def State.appendChunk (s : State) (al lid : Nat) (k : Chunk) : State :=
  match s.launch? al lid with
  | none => s
  | some l =>
    let off := l.chunkOff + 16 * l.chunks
    if off + 16 > l.fsize then s.modLaunch al lid fun l => { l with isOver := true }
    else
      let w0 := k.line % 2 ^ 56
      let w1 := packFields [(32, k.blk), (4, k.gang), (3, k.slice), (1, 0), (24, k.count)]
      (s.moduleWrite al (l.fbase + off) (toBytes 8 w0 ++ toBytes 8 w1)).modLaunch al lid fun l =>
        { l with chunks := l.chunks + 1 }

/-- Note an admission in mode 1 (R329). -/
def State.noteAdmit (s : State) (r : AReq) : State :=
  match s.launch? r.al r.lid with
  | none => s
  | some l =>
    let rest := l.logOpen.filter fun x => !s.chunkOf r x
    let put := fun (s : State) (k : Chunk) =>
      if k.count ≥ 2 ^ 24 - 1 then (s.modLaunch r.al r.lid fun l => { l with logOpen := rest }).appendChunk r.al r.lid k
      else s.modLaunch r.al r.lid fun l => { l with logOpen := k :: rest }
    match l.logOpen.find? (s.chunkOf r) with
    | none => put s ⟨lineOf r.vaddr, r.bid, r.gid, r.slice, 1⟩
    | some k =>
      if k.blk == r.bid && k.gang == r.gid && k.slice == r.slice then put s { k with count := k.count + 1 }
      else put (s.appendChunk r.al r.lid k) ⟨lineOf r.vaddr, r.bid, r.gid, r.slice, 1⟩

/-- A slice that a chunk names has ended, with none of its requests for the line on their way (R331; assumption 28). -/
def State.chunkDead (s : State) (al lid : Nat) (l : Launch) (k : Chunk) : Bool :=
  let pending := s.reqs.any fun r => r.al == al && r.lid == lid && r.bid == k.blk && r.gid == k.gang &&
    r.slice == k.slice && s.chunkOf r k && !r.handler
  let ended := match s.blocks.find? fun b => b.al == al && b.lid == lid && b.bid == k.blk && !b.handler && !b.ended with
    | none => (l.recs.get [] k.blk) != []
    | some b =>
      match s.gangs.find? fun g => g.blk == b.uid && g.gid == k.gang && !g.isOver with
      | none => true
      | some g => g.live &&& sliceMask k.slice == 0#32
  ended && !pending

/-- A chunk leaves a gate with admissions still owed: a departure (R331). -/
def Launch.dropChunk (l : Launch) (k : Chunk) : Launch := { l with gates := l.gates.erase k, gatemiss := l.gatemiss + 1 }

/-- Drop the chunks at the head of a line, those that `on` picks, whose slice has ended (R331). -/
def State.dropDead (s : State) (al lid : Nat) (on : Chunk → Bool) : Nat → State
  | 0 => s
  | n + 1 =>
    match s.launch? al lid with
    | none => s
    | some l =>
      match l.gates.find? on with
      | none => s
      | some k =>
        if s.chunkDead al lid l k then (s.modLaunch al lid fun l => l.dropChunk k).dropDead al lid on n else s

/-- The requests that wait at a line's gate start to wait anew (R331). -/
def State.restart (s : State) (al lid : Nat) (k : Chunk) (now : Nat) : State :=
  { s with reqs := modWhere (fun x => x.al == al && x.lid == lid && s.chunkOf x k) (fun x => { x with since := now }) s.reqs }

/-- One admission off a chunk. -/
def admitOne (k : Chunk) (ks : List Chunk) : List Chunk :=
  if k.count ≤ 1 then ks.erase k else ks.replace k { k with count := k.count - 1 }

/-- What the gate of a thresher does with a request (R330, R331): the state after its admission, none while it waits. -/
def State.gate (s : State) (r : AReq) : Option State :=
  match s.launch? r.al r.lid with
  | none => some s
  | some l =>
    if r.handler || isPeer r.addr then some s
    else if l.mode == 1 then some (s.noteAdmit r)
    else if l.mode != 2 then some s
    else
      let s := s.dropDead r.al r.lid (s.chunkOf r) (l.gates.length + 1)
      let l := (s.launch? r.al r.lid).getD l
      match l.gates.find? (s.chunkOf r) with
      | none => some (s.modLaunch r.al r.lid fun l => { l with gatemiss := l.gatemiss + 1 })
      | some k =>
        if k.blk == r.bid && k.gang == r.gid && k.slice == r.slice then
          some ((s.modLaunch r.al r.lid fun l => { l with gates := admitOne k l.gates }).restart r.al r.lid k (s.allot r.al).vclk.toNat)
        else none

/-- A request comes before this one: of the same instruction at one location, or of the same slice at one line (R210, R330). A slice's
requests for one line are admitted in its program order in every mode: a recording neither delays requests nor reorders them (R329),
and its log, which names slices and lines, is replayed in that order (R330, R334; assumption 28). -/
def AReq.before (q r : AReq) : Bool :=
  q.id < r.id &&
    ((q.inst == r.inst && q.addr < r.addr + atomBytes r.ty && r.addr < q.addr + atomBytes q.ty) ||
      (q.gang == r.gang && q.slice == r.slice && lineOf q.addr == lineOf r.addr))

/-- An atomic reads and writes at its home in one step (R168, R208, R212). -/
def State.performAtomic (s : State) (r : AReq) : State × Nat × Bool :=
  let n := atomBytes r.ty
  let old := ofBytes (s.mem.readN r.addr n)
  let (new, ok) := atomStep r.op r.ty old (r.b.toNat % 2 ^ (8 * n)) (r.c.toNat % 2 ^ (8 * n))
  let line := lineOf r.addr
  let s := ((s.homeWrite line (bytesAt (r.addr % 128) (toBytes n new))).ownLine line r.al r.lid).meter r.al 15 1
  ((s.meterHome r.core r.al line n false).meterHome r.core r.al line n true, old, ok)

/-- The results of an `atom` enter its registers, which are pending no longer (R35, R211). -/
def Gang.fillAtom (g : Gang) (r : AReq) (mine : List ARes) : Gang :=
  let uni := mine.length != (lanesOf r.lanes).length
  let put := fun (g : Gang) (n : Nat) (f : ARes → W32) =>
    match mine with
    | [] => g
    | x :: _ => if uni then g.fillUni n r.lanes (f x) else g.fillV n (mine.map fun y => (y.lane, f y))
  let oks : List (Nat × Bool) := match mine with
    | [] => []
    | x :: _ => if uni then (lanesOf r.lanes).map fun l => (l, x.ok) else mine.map fun y => (y.lane, y.ok)
  let g := put g r.d fun x => x.val.setWidth 32
  let g := if r.ty.wide then put g (r.d + 1) fun x => (x.val.ushiftRight 32).setWidth 32 else g
  let g := g.putP 0 0 r.p [] (oks.filter fun x => g.live.getLsbD x.1)
  g.unpend (.p r.p :: ((Dst.v r.d).uses r.ty.wide).map fun (u : Use) => u.reg)

/-- Write the results of an `atom` all of whose requests have performed; then its slices that still live acquire (R160, R211). -/
def State.finishAtom (s : State) (r : AReq) : State :=
  if s.reqs.any fun q => q.inst == r.inst then s
  else
    let mine := s.results.filter fun x => x.inst == r.inst
    let ks := slicesIn r.lanes
    let s := { s with results := s.results.filter fun x => x.inst != r.inst }
    let s := s.modGang r.gang fun g => (g.fillAtom r mine).observe ks s.turn
    match s.gang? r.gang, s.block? r.blk with
    | some g, some b =>
      match g.groups.find? fun x => x.slices.any ks.contains with
      | some grp =>
        let c : Ctx := ⟨⟨g.core, g.slot, grp.low⟩, g, grp, b, (g.slice grp.low).pc⟩
        s.acquire c r.sc ks
      | none => s
    | _, _ => s

/-- The gate of a replay lets a request wait, which the trail of its core records once (R330, R358; assumption 81). -/
def State.holdRequest (s : State) (r : AReq) : State :=
  if r.held then s
  else
    let slot := ((s.gang? r.gang).map fun (g : Gang) => g.slot).getD 0
    { s with reqs := modWhere (fun q => q.id == r.id) (fun q => { q with held := true }) s.reqs }.record r.core 2 r.al slot r.slice 7
      (((s.gang? r.gang).map fun (g : Gang) => BitVec.ofNat 64 (g.slice r.slice).pc).getD 0)

/-- A request that has been admitted performs, and its result returns (R208, R211). -/
def State.answer (s : State) (r : AReq) : State :=
  let (s, old, ok) := s.performAtomic r
  let s := { s with reqs := s.reqs.filter fun q => q.id != r.id }
  let s := if r.held then
      let g := s.gang? r.gang
      s.record r.core 3 r.al ((g.map fun (g : Gang) => g.slot).getD 0) r.slice 7
        ((g.map fun (g : Gang) => BitVec.ofNat 64 (g.slice r.slice).pc).getD 0)
    else s
  if r.isAtom then
    { s with results := s.results ++ [(⟨r.inst, r.gang, r.lane, BitVec.ofNat 64 old, ok⟩ : ARes)] }.finishAtom r
  else s.modGang r.gang fun g => g.observe [r.slice] s.turn

/-- A request performs at the thresher of its home (R210, R330); one that meets a damaged line ends its launch (R140). What waited
for it to end ends (R162). -/
def execAtomicPerform (rid : Nat) (s : State) : Host.Outcome State Fault Refusal :=
  match s.reqs.find? fun r => r.id == rid with
  | none => .next s
  | some r =>
    let line := lineOf r.addr
    if s.heldUid rid || s.reqs.any (fun q => q.before r) then .next s
    else if s.damaged line then
      let s := { s with reqs := s.reqs.filter fun q => q.id != rid }
      .next (s.endOwned r.al r.lid (if isTierTwo line then 7 else 6) line)
    else
      match s.gate r with
      | none => .next (s.holdRequest r)
      | some s => .next (s.answer r).sweep

/-- A request has waited 2^24 cycles at a gate with no admission on its line: the current chunk is dropped (R331). -/
def execGateTimeout (al lid line : Nat) (s : State) : Host.Outcome State Fault Refusal :=
  match s.launch? al lid with
  | none => .next s
  | some l =>
    let now := (s.allot al).vclk.toNat
    match l.gates.find? (s.onLine al line (s.memLine al line)) with
    | some k =>
      let late := s.reqs.any fun r => r.al == al && r.lid == lid && s.chunkOf r k && !r.handler && !isPeer r.addr &&
        now ≥ r.since + 2 ^ 24
      if l.mode == 2 && late then .next ((s.modLaunch al lid fun l => l.dropChunk k).restart al lid k now)
      else .next s
    | none => .next s

end Machine
end Sys2Proof
end

