-- ==== Sys2Proof/Machine/Matrix.lean ====
section
/-! DEFINITION. The matrix family (R220 to R222, R240 to R260): acting quarters, operands in vector registers, queued passes
and their results, loads from the scratchpad and from a view, tile moves and conversions, `fmt`. -/

namespace Sys2Proof.Machine

/-- Lanes of a quarter (R16). -/
def quarterMask (q : Nat) : LaneMask := 0xFF#32 <<< (8 * q)

/-- One quarter of R245: whether it acts. -/
def quarterActs (c : Ctx) (e : LaneMask) (q : Nat) : M Bool := do
  let l := c.lanes &&& quarterMask q
  if l == 0#32 || e &&& l == 0#32 then pure false
  else do
    trapIf (e &&& l != l) { cause := 0x27, slice := 2 * q }
    let ok := fun (k : Nat) => c.grp.slices.contains k && c.gang.live &&& sliceMask k != 0#32
    trapIf (!(ok (2 * q) && ok (2 * q + 1))) { cause := 0x25, slice := 2 * q, kind := 1 }
    trapIf ((c.gang.slice (2 * q)).fmt != (c.gang.slice (2 * q + 1)).fmt) { cause := 0x25, slice := 2 * q, kind := 2 }
    pure true

/-- Acting quarters of R245 from a list, ascending. -/
def actingFrom (c : Ctx) (e : LaneMask) : List Nat → M (List Nat)
  | [] => .ok []
  | q :: qs => do
    let a ← quarterActs c e q
    let rest ← actingFrom c e qs
    pure (if a then q :: rest else rest)

def actingQuarters (c : Ctx) (qm : Nat) (e : LaneMask) : M (List Nat) :=
  actingFrom c e ((List.range 4).filter fun q => bitAt qm q)

/-! Formats and operands. -/

def Ctx.fmtOf (c : Ctx) (q : Nat) : Nat := (c.gang.slice (2 * q)).fmt.toNat

/-- A code of a word, or the one `fmt` gives when the field is 0xF (R53, R252). -/
def resolveFmt (f code side : Nat) : Nat := if code == 15 then field f (4 * side) 4 else code

def fmtScale (f : Nat) : Nat := field f 8 3

/-- A pair of formats that `mma` accepts (R242). -/
def pairOk (af bf sc : Nat) : Bool :=
  fmtClass af != 3 && fmtClass af == fmtClass bf && sc ≤ 1 && (sc == 1 || (af != 8 && bf != 8))

/-- Registers of an operand (R243). -/
def operandRegs (code sc : Nat) : Nat := 32 + (if sc == 1 then 2 else 0) + (if sc == 1 && fmtClass code == 2 then 2 else 0)

/-- The range checks of R244. -/
def checkRange (c : Ctx) (base n fld : Nat) : M Unit := do
  trapIf (base + n > 384) { cause := 0x04, fld := fld }
  trapIf (base + n > 8 * c.blk.k.regs) { cause := 0x05, fld := fld }

/-- A range with a pending register is awaited (R97, R247). -/
def waitRange (c : Ctx) (base n : Nat) : M Unit :=
  waitIf ((List.range n).any fun i => c.gang.busy.contains (.v (base + i)))

/-- Operand bytes of a quarter (R243, R244): bytes of exited lanes read zero. -/
def State.operandBytes (s : State) (c : Ctx) (base q n : Nat) : List Byte :=
  (List.range n).flatMap fun i => (List.range 8).flatMap fun l =>
    let lane := 8 * q + l
    toBytes 4 (if c.gang.live.getLsbD lane then (s.readV c.gang (base + i) lane).toNat else 0)

/-- An element of an operand, and whether it is a whole number but for its scale (R226, R229). -/
structure MElem where
  val : FV
  whole : Bool
  deriving DecidableEq, Repr, Inhabited

/-- Element k of a row held as one number (R232, R243). -/
def rowElem (code row k : Nat) (ob : List Byte) : MElem :=
  if code == 8 then
    let byte := field row (8 * (k / 2)) 8
    ⟨t4Value byte (nth 0#8 ob (k / 32)).toNat (k % 2 == 1), t4Whole byte (k % 2 == 1)⟩
  else if elemBits code == 6 then ⟨elemValue code (field row (192 * (k / 32) + 6 * (k % 32)) 6), false⟩
  else ⟨elemValue code (field row (elemBits code * k) (elemBits code)), wholeCode code⟩

/-- The value of a scaled element (R228); one of a whole-number format stays a whole number (assumption 24). -/
def scaleElem (sc : Bool) (b : Byte) (x : MElem) : MElem :=
  if !sc then x else { x with val := if b == 0xFF#8 then .nan else x.val.scale ((b.toNat : Int) - 127) }

/-- An operand row of the pass: its elements under their scales. -/
def decodeRow (code : Nat) (sc : Bool) (data scales ox : List Byte) (kn r : Nat) : List MElem :=
  let row := ofBytes ((data.drop (64 * r)).take 64)
  let sb := (scales.drop (4 * r)).take 4
  let ob := (ox.drop (4 * r)).take 4
  (List.range kn).map fun k => scaleElem sc (nth 0#8 sb (k / 32)) (rowElem code row k ob)

/-- Bytes of Tilth-4 pairs 0x88 or scales of 0xFF among the blocks read (R228, R229): T4PAIR, SCALENAN. -/
def operandFlags (code : Nat) (sc : Bool) (data scales : List Byte) (kn : Nat) : Bool × Bool :=
  (code == 8 && data.any (· == 0x88#8),
   sc && (List.range 16).any fun r => (List.range (kn / 32)).any fun j => nth 0#8 scales (4 * r + j) == 0xFF#8)

/-- Chunks of a list of products (R240). -/
def chunksOf {α : Type} (n : Nat) : Nat → List α → List (List α)
  | 0, _ => []
  | f + 1, xs => if xs.isEmpty then [] else xs.take n :: chunksOf n f (xs.drop n)

/-- One accumulator entry (R240, R241). -/
def mmaEntry (kc : Nat) (acc : W32) (a b : List MElem) : W32 :=
  (chunksOf kc 8 ((a.zip b).map fun x => x.1.val.prod (x.1.whole && x.2.whole) x.2.val)).foldl (fun acc ps => fAdd .rne acc (toF32 .rne (exactSum .rne ps))) acc

/-- Chunk length of a class (R240). -/
def classKc (cl : Nat) : Nat := classK cl / 2

def tileKey (t q : Nat) : Nat := 256 * (4 * t + q)

/-- The 256 entries of an accumulator, row-major. -/
def Gang.tileEntries (g : Gang) (t q : Nat) : List W32 := (List.range 256).map fun i => g.tiles.get 0#32 (tileKey t q + i)

def Gang.setTile (g : Gang) (t q : Nat) (vals : List W32) : Gang :=
  { g with tiles := g.tiles.setMany 0#32 ((List.range 256).zip vals |>.map fun x => (tileKey t q + x.1, x.2)) }

def setBit32 (m : BitVec 32) (i : Nat) (b : Bool) : BitVec 32 := if b then m ||| (1#32 <<< i) else m &&& ~~~(1#32 <<< i)

/-- VALID and DIRTY of an accumulator (R246). -/
def Gang.markTile (g : Gang) (t q : Nat) (dirty : Bool) : Gang :=
  { g with tvalid := setBit32 g.tvalid (4 * t + q) true, tdirty := setBit32 g.tdirty (4 * t + q) dirty }

/-- The result of a pass of `mma` (R251). -/
def mmaResult (z : Bool) (old : List W32) (a b asc bsc aox box : List Byte) (af bf : Nat) (sc : Bool) : List W32 :=
  let cl := fmtClass af
  let rowsA := (List.range 16).map (decodeRow af sc a asc aox (classK cl))
  let rowsB := (List.range 16).map (decodeRow bf sc b bsc box (classK cl))
  let pairs := rowsA.flatMap fun x => rowsB.map fun y => (x, y)
  (old.zip pairs).map fun e => mmaEntry (classKc cl) (if z then 0#32 else e.1) e.2.1 e.2.2

/-- Operand bytes of a quarter enter its registers (R220, R243): byte o lies in register d + o / 32, lane (o mod 32) / 4 of the
quarter; exited lanes take nothing. -/
def Gang.fillQuarter (g : Gang) (d q : Nat) (bs : List Byte) : Gang :=
  (List.range (bs.length / 32)).foldl (fun g i =>
    g.fillV (d + i) ((List.range 8).map fun l =>
      (8 * q + l, BitVec.ofNat 32 (ofBytes ((bs.drop (32 * i + 4 * l)).take 4))))) g

/-- A pass writes its accumulator (R246, R251, R258). -/
def Gang.applyPass (g : Gang) (p : Pass) : Gang :=
  match p.op with
  | .zero => (g.setTile p.tile p.quarter (List.replicate 256 0#32)).markTile p.tile p.quarter false
  | .load es => (g.setTile p.tile p.quarter ((List.range 256).map fun i => es.get 0#32 i)).markTile p.tile p.quarter true
  | .mma z a b asc bsc aox box af bf sc =>
    let fa := operandFlags af sc a asc (classK (fmtClass af))
    let fb := operandFlags bf sc b bsc (classK (fmtClass bf))
    let g := g.setTile p.tile p.quarter (mmaResult z (g.tileEntries p.tile p.quarter) a b asc bsc aox box af bf sc)
    (g.markTile p.tile p.quarter true).flag (fa.1 || fb.1) (fa.2 || fb.2) false

/-- A matrix unit writes the result of its oldest pass (R247, R248). -/
def execMatrixResultWrite (pid : Nat) (s : State) : Host.Outcome State Fault Refusal :=
  match s.passes.find? fun p => p.id == pid with
  | none => .next s
  | some p =>
    let first := s.passes.find? fun x => x.core == p.core && x.sched == p.sched
    if (first.map fun (x : Pass) => x.id) != some pid then .next s
    else
      let s := { s with passes := s.passes.filter fun x => x.id != pid }
      match s.gang? p.gang, p.op with
      | some g, .mma _ _ _ _ _ _ _ af _ _ =>
        let al := ((s.block? g.blk).map fun (b : Block) => b.al).getD 0
        .next ((s.modGang p.gang fun g => g.applyPass p).meter al (fmtClass af) (256 * classK (fmtClass af)))
      | some _, _ => .next (s.modGang p.gang fun g => g.applyPass p)
      | none, _ => .next s

/-- An accumulator is in flight (R246). -/
def State.inFlight (s : State) (c : Ctx) (t q : Nat) : Bool :=
  s.passes.any fun p => p.gang == c.uid && p.tile == t && p.quarter == q

/-- VALID as the program order has it: every queued pass makes its accumulator valid (R246, R247). -/
def State.tileValid (s : State) (c : Ctx) (t q : Nat) : Bool := c.gang.tvalid.getLsbD (4 * t + q) || s.inFlight c t q

/-- Queue one pass for each quarter. -/
def State.queuePasses (s : State) (c : Ctx) (t : Nat) (qs : List (Nat × PassOp)) : State :=
  qs.foldl (fun s x =>
    { s with passes := s.passes ++ [⟨s.nextUid, c.uid, c.core, c.gang.slot / 16, t, x.1, x.2⟩], nextUid := s.nextUid + 1 }) s

/-- Apply a check to each acting quarter, ascending, and collect what it gives. -/
def eachQuarter {α : Type} (f : Nat → M α) : List Nat → M (List (Nat × α))
  | [] => .ok []
  | q :: qs => do
    let x ← f q
    let rest ← eachQuarter f qs
    pure ((q, x) :: rest)

/-- A word of the matrix family: no vector lane-operations are metered for it (R353). -/
def quarterWord (h : Hdr) (us : List Use) (qm : Nat) (body : State → Ctx → LaneMask → List Nat → M State) :
    State → Host.Outcome State Fault Refusal :=
  runWord .matrix h us fun s c e => do
    let qs ← actingQuarters c qm e
    if qs.isEmpty then pure s else body (s.signal c.core 2 c.al) c e qs

def sliceUses (base n : Nat) : List Reg := (List.range n).map fun i => .v (base + i)

/-- The checks of `mma` in one quarter, and its pass (R251). -/
def mmaQuarter (s : State) (c : Ctx) (z : Bool) (af bf t a b q : Nat) : M PassOp := do
  let f := c.fmtOf q
  let fa := resolveFmt f af 0
  let fb := resolveFmt f bf 1
  let sc := fmtScale f
  trapIf (!pairOk fa fb sc) { cause := 0x28, slice := 2 * q, info1 := f }
  let na := operandRegs fa sc
  let nb := operandRegs fb sc
  checkRange c a na fD
  checkRange c b nb fA
  trapIf (!z && !s.tileValid c t q) { cause := 0x26, reg := t, slice := 2 * q }
  let x := s.operandBytes c a q na
  let y := s.operandBytes c b q nb
  pure (.mma z (x.take 1024) (y.take 1024) ((x.drop 1024).take 64) ((y.drop 1024).take 64) (x.drop 1088) (y.drop 1088)
    fa fb (sc == 1))

/-- `mma` (R251). -/
def execMma (h : Hdr) (z : Bool) (qm af bf t a b : Nat) (s : State) : Host.Outcome State Fault Refusal :=
  quarterWord h [⟨fD, .v a⟩, ⟨fA, .v b⟩, ⟨fM, .t t⟩] qm (fun s c _ qs => do
    let ops ← eachQuarter (mmaQuarter s c z af bf t a b) qs
    waitRange c a 36
    waitRange c b 36
    pure (s.queuePasses c t ops)) s

/-! Loads from the scratchpad (R252 to R256). -/

/-- Row offsets of the operand bytes of a plain load. -/
def plainOffs (off n : Nat) : List Nat := (List.range (32 * n)).map fun i => off + i

/-- Row offsets of a transposed load (R256). -/
def transOffs (off n code g p : Nat) : List Nat :=
  let eb := elemBits code / 8
  (List.range (32 * n)).map fun i =>
    if i < 1024 then
      let r := i / 64
      let k := i % 64 / eb
      off + swizzle (16 * eb * k + eb * r) g p + i % eb
    else off + i

/-- What one quarter of a load reads: target block, its address there, the row offsets of the operand's bytes. -/
structure MSource where
  blk : Nat
  off : Nat
  offs : List Nat
  deriving DecidableEq, Repr, Inhabited

/-- The checks of one quarter of a load and its source. `place` resolves an offset or address to a block and an offset. -/
def loadQuarter (s : State) (c : Ctx) (e : LaneMask) (side bc : Bool) (af d : Nat) (a : Opnd) (only8 : Bool)
    (place : Nat → Option (Block × Nat)) (offs : Nat → Nat → Nat → List Nat) (q : Nat) : M MSource := do
  let f := c.fmtOf q
  let code := resolveFmt f af (b2n side)
  let sc := fmtScale f
  let ok := fmtClass code != 3 && sc ≤ 1 && (code != 8 || sc == 1) && (!only8 || fmtClass code == 0 || elemBits code == 8)
  trapIf (!ok) { cause := 0x28, slice := 2 * q, info1 := f }
  let n := operandRegs code sc
  checkRange c d n fD
  let o := (s.opVal c false a (lowLane (if bc then e else e &&& quarterMask q))).toNat
  match place o with
  | none => trapWith { cause := 0x29, slice := 2 * q, info1 := o }
  | some (b, off) => do
    trapIf (b.k.guard && b.guardUp) { cause := 0x29, slice := 2 * q, info1 := o }
    trapIf (off + 32 * n > b.rowsSize) { cause := 0x29, slice := 2 * q, info1 := o + (b.rowsSize - off) }
    pure ⟨b.uid, off, offs off n code⟩

/-- The row offsets of the bytes that a slice takes of its quarter's operand: operand byte 32 i + 16 h + b is byte b of its register
i, where h is 0 in the lower slice and 1 in the upper (R220, R243). -/
def MSource.part (m : MSource) (k : Nat) : Nat × List Nat :=
  (k, (List.range (m.offs.length / 32)).flatMap fun i => (m.offs.drop (32 * i + 16 * (k % 2))).take 16)

/-- What a load's acting slices fetch: each slice its own part (R254), or, of a remote load, the slices of every quarter that names
one address together (R253). -/
def loadParts (remote : Bool) (xs : List (Nat × MSource)) : List (Nat × List (Nat × List Nat)) :=
  let part := fun (x : Nat × MSource) => [x.2.part (2 * x.1), x.2.part (2 * x.1 + 1)]
  if remote then
    let keys := (xs.map fun x => (x.2.blk, x.2.off)).foldl (fun acc x => if acc.contains x then acc else acc ++ [x]) []
    keys.map fun k => (k.1, (xs.filter fun x => x.2.blk == k.1 && x.2.off == k.2).flatMap part)
  else xs.flatMap fun x => (part x).map fun p => (x.2.blk, [p])

/-- Queue the fetches of a matrix load. -/
def State.queueLoads (s : State) (c : Ctx) (d : Nat) (remote : Bool) (xs : List (Nat × MSource)) : State :=
  let inst := s.nextUid
  (loadParts remote xs).foldl (fun s m =>
    { s with saccs := s.saccs ++ [⟨s.nextUid, c.uid, m.2.map (·.1), m.1, .mload d m.2, inst, none⟩],
             nextUid := s.nextUid + 1 }) s

/-- A load of operands from rows (R252 to R254, R256). -/
def loadWord (h : Hdr) (side bc : Bool) (qm af d : Nat) (a : Src) (p : SPlace) (only8 : Bool)
    (offs : Nat → Nat → Nat → List Nat) : State → Host.Outcome State Fault Refusal :=
  quarterWord h ((⟨fD, .v d⟩ : Use) :: a.uses fA false) qm fun s c e qs => do
    let (os, s) ← popAll c [a] s
    let place ← s.placeTarget c p
    let xs ← eachQuarter (loadQuarter s c e side bc af d (os.headD ⟨.zero, none⟩) only8 place offs) qs
    let n := (xs.map fun x => x.2.offs.length / 32).foldl Nat.max 0
    waitRange c d n
    pure ((s.pend c (sliceUses d n)).queueLoads c d p.isSome xs)

/-- `mld` (R252). -/
def execMld (h : Hdr) (side bc : Bool) (qm af d : Nat) (a : Src) (s : State) : Host.Outcome State Fault Refusal :=
  loadWord h side bc qm af d a none false (fun off n _ => plainOffs off n) s

/-- `mldt` (R256). -/
def execMldt (h : Hdr) (side bc : Bool) (qm af g p d : Nat) (a : Src) (s : State) : Host.Outcome State Fault Refusal :=
  loadWord h side bc qm af d a none true (fun off n code => transOffs off n code g p) s

/-- `mldr` (R253). -/
def execMldr (h : Hdr) (side bc : Bool) (qm af : Nat) (n : BitVec 2) (d : Nat) (a : Src) (s : State) :
    Host.Outcome State Fault Refusal :=
  loadWord h side bc qm af d a (some n) false (fun off m _ => plainOffs off m) s

/-! `mld.v` (R221, R255, R275). -/

/-- Where block i's crown byte goes in its slice's eight bytes (R275). -/
def crownPos (bpl i : Nat) : Nat := if bpl == 1 || bpl == 5 then i else 4 * (i / (bpl / 2)) + i % (bpl / 2)

/-- The eight crown bytes of a slice: positions not filled read zero. -/
def crownBytes8 (xs : List Byte) : List Byte :=
  (List.range 8).map fun p =>
    match (List.range xs.length).find? fun i => crownPos xs.length i == p with
    | some i => nth 0#8 xs i
    | none => 0#8

/-- The 1,152 bytes of the operand: data, SCALE and OEXP (R220, R221). -/
def State.viewOperand (s : State) (c : Ctx) (ln : Nat) : List Byte :=
  let crown := fun (k : Nat) => (s.refEntry c ln k).crown
  ((List.range 8).flatMap fun k => s.frameBytes c ln k 0 128) ++
  ((List.range 8).flatMap fun k => crownBytes8 (((crown k).map fun (x : Crown) => x.scale).getD [])) ++
  ((List.range 8).flatMap fun k => crownBytes8 (((crown k).map fun (x : Crown) => x.oexp).getD []))

/-- `mld.v` (R255): each slice's load of its frame's 128 bytes comes after its late accesses that meet them (R87, R166). The slices of a
quarter hold one `fmt` (R41). -/
def execMldV (h : Hdr) (d ln : Nat) (s : State) : Host.Outcome State Fault Refusal :=
  runWord .matrix h [⟨fD, .v d⟩, ⟨fM, .ln ln⟩] (fun s c e => do
    if e == 0#32 then pure s
    else do
      trapIf (e != c.lanes) { cause := 0x27, slice := lowLane (c.lanes &&& ~~~e) / 8 * 2 }
      match (List.range 8).find? fun k => !c.grp.slices.contains k with
      | some k => trapWith { cause := 0x25, slice := k / 2 * 2, kind := 1 }
      | none => do
        firstBad [0, 1, 2, 3] (fun q => (c.gang.slice (2 * q)).fmt != (c.gang.slice (2 * q + 1)).fmt) fun q =>
          { cause := 0x25, slice := 2 * q, kind := 2 }
        checkRange c d 36 fD
        c.gang.checkRefs ln false (List.range 8)
        c.gang.waitRefs ln (List.range 8)
        let ls := (List.range 8).map fun k => 4 * k
        let s ← s.meetLoads c ln ls (fun _ => 0) 128
        let s := s.meetLate c ln ls (fun _ => 0) 128
        waitRange c d 36
        let bs := s.viewOperand c ln
        pure ((s.modGang c.uid fun g => (List.range 4).foldl (fun g q => g.fillQuarter d q bs) g).signal c.core 2 c.al)) s

/-! Stores, clears, moves and conversions (R257 to R259). -/

/-- VALID of a tile's quarter, and it is not in flight. -/
def tileReady (s : State) (c : Ctx) (t q : Nat) : M Unit := trapIf (!s.tileValid c t q) { cause := 0x26, reg := t, slice := 2 * q }

/-- The checks of one quarter of `mst`; answers the offset. -/
def mstQuarter (s : State) (c : Ctx) (e : LaneMask) (t : Nat) (a : Opnd) (q : Nat) : M Nat := do
  tileReady s c t q
  let o := (s.opVal c false a (lowLane (e &&& quarterMask q))).toNat
  let b := (s.block? c.blk.uid).getD c.blk
  trapIf (b.k.guard && b.guardUp) { cause := 0x29, slice := 2 * q, info1 := o }
  trapIf (o + 1024 > b.rowsSize) { cause := 0x29, slice := 2 * q, info1 := Nat.max o b.rowsSize }
  pure o

def tileBytes (es : List W32) : List Byte := es.flatMap fun w => toBytes 4 w.toNat

/-- `mst` (R222, R257): a scratchpad store of both slices of each quarter; where two overlap the higher stands, as of two lanes. -/
def execMst (h : Hdr) (qm t : Nat) (a : Src) (s : State) : Host.Outcome State Fault Refusal :=
  quarterWord h (a.uses fA false ++ [⟨fM, .t t⟩]) qm (fun s c e qs => do
    let (os, s) ← popAll c [a] s
    let xs ← eachQuarter (mstQuarter s c e t (os.headD ⟨.zero, none⟩)) qs
    waitIf (qs.any fun q => s.inFlight c t q)
    let hash := s.hashing c
    let inst := s.nextUid
    let s := xs.foldl (fun s x =>
      let bytes := bytesAt x.2 (tileBytes (c.gang.tileEntries t x.1))
      { s with
        saccs := s.saccs ++ [⟨s.nextUid, c.uid, [2 * x.1, 2 * x.1 + 1], c.blk.uid, .store bytes [] false, inst, none⟩]
        nextUid := s.nextUid + 1 }) s
    pure (if hash then s.modGang c.uid fun g => xs.foldl (fun g x =>
        g.hashStoreMany (2 * x.1) 1 x.2 (tileBytes (c.gang.tileEntries t x.1))) g
      else s)) s

/-- `tzero` (R258). -/
def execTzero (h : Hdr) (qm t : Nat) (s : State) : Host.Outcome State Fault Refusal :=
  quarterWord h [⟨fM, .t t⟩] qm (fun s c _ qs => pure (s.queuePasses c t (qs.map fun q => (q, .zero)))) s

/-- `tmov vD, tK` (R258). -/
def execTmovToVreg (h : Hdr) (qm d t : Nat) (s : State) : Host.Outcome State Fault Refusal :=
  quarterWord h [⟨fD, .v d⟩, ⟨fM, .t t⟩] qm (fun s c _ qs => do
    let _ ← eachQuarter (fun q => do checkRange c d 32 fD; tileReady s c t q) qs
    waitIf (qs.any fun q => s.inFlight c t q)
    waitRange c d 32
    pure (s.modGang c.uid fun g => qs.foldl (fun g q => g.fillQuarter d q (tileBytes (c.gang.tileEntries t q))) g)) s

/-- The entries that a run of bytes holds, keyed row-major. -/
def entriesOf (bs : List Byte) : Store W32 :=
  Store.setMany 0#32 [] ((List.range 256).map fun i => (i, BitVec.ofNat 32 (ofBytes ((bs.drop (4 * i)).take 4))))

/-- `tmov tK, vA` (R258). -/
def execTmovFromVreg (h : Hdr) (qm t a : Nat) (s : State) : Host.Outcome State Fault Refusal :=
  quarterWord h [⟨fA, .v a⟩, ⟨fM, .t t⟩] qm (fun s c _ qs => do
    let _ ← eachQuarter (fun _ => checkRange c a 32 fA) qs
    waitRange c a 32
    pure (s.queuePasses c t (qs.map fun q => (q, .load (entriesOf (s.operandBytes c a q 32)))))) s

/-- `tmov tK, tJ` (R258). -/
def execTmovTile (h : Hdr) (qm k j : Nat) (s : State) : Host.Outcome State Fault Refusal :=
  quarterWord h [⟨fM, .t k⟩, ⟨fM, .t j⟩] qm (fun s c _ qs => do
    let _ ← eachQuarter (tileReady s c j) qs
    waitIf (qs.any fun q => s.inFlight c j q)
    pure (s.queuePasses c k (qs.map fun q => (q, .load (entriesOf (tileBytes (c.gang.tileEntries j q))))))) s

/-- Rounding of `fmt` RND (R40). -/
def rndOf (f : Nat) : Rnd :=
  match field f 11 2 with
  | 0 => .rne | 1 => .rz | 2 => .ru | _ => .rd

/-- Registers that a conversion fills (R259). -/
def tcvtRegs (code : Nat) : Nat := if elemBits code == 16 then 16 else if elemBits code == 8 then 8 else if elemBits code == 6 then 6 else 4

/-- The packed bytes of a conversion, and whether a NaN was lost (R259). -/
def tcvtBytes (code f : Nat) (es : List W32) : List Byte × Bool :=
  let xs := es.map fun w => narrowElem code (rndOf f) (bitAt f 13) (f32 w)
  let w := elemBits code
  let rows := (List.range 16).map fun m =>
    sumNat ((List.range 16).map fun n => (nth (0, false) xs (16 * m + n)).1 * 2 ^ (w * n))
  (rows.flatMap fun r => toBytes (2 * w) r, xs.any fun x => x.2)

/-- The checks of one quarter of `tcvt`; answers the code. -/
def tcvtQuarter (s : State) (c : Ctx) (af d t q : Nat) : M Nat := do
  let f := c.fmtOf q
  let code := resolveFmt f af 0
  trapIf (code ≥ 8) { cause := 0x28, slice := 2 * q, info1 := f }
  checkRange c d (tcvtRegs code) fD
  tileReady s c t q
  pure code

/-- `tcvt` (R259). -/
def execTcvt (h : Hdr) (qm af d t : Nat) (s : State) : Host.Outcome State Fault Refusal :=
  quarterWord h [⟨fD, .v d⟩, ⟨fM, .t t⟩] qm (fun s c _ qs => do
    let xs ← eachQuarter (tcvtQuarter s c af d t) qs
    waitIf (qs.any fun q => s.inFlight c t q)
    waitRange c d ((xs.map fun x => tcvtRegs x.2).foldl Nat.max 0)
    pure (s.modGang c.uid fun g => xs.foldl (fun g x =>
      let (bs, lost) := tcvtBytes x.2 (c.fmtOf x.1) (c.gang.tileEntries t x.1)
      (g.fillQuarter d x.1 bs).flag false false lost) g)) s

/-! `fmt` (R40, R260). -/

/-- `fmtset` (R260). -/
def execFmtset (h : Hdr) (a : Src) (s : State) : Host.Outcome State Fault Refusal :=
  runWord .matrix h (a.uses fA false) (fun s c e =>
    pure (s.modGang c.uid fun g => (slicesIn e).foldl (fun g k =>
      let v := (s.opVal c false ⟨a, none⟩ (lowLane (e &&& sliceMask k))).toNat % 2 ^ 14
      g.modSlice k fun sl => { sl with fmt := BitVec.ofNat 32 v }) g)) s

/-- `fmtget` (R260). -/
def execFmtget (h : Hdr) (d : Nat) (s : State) : Host.Outcome State Fault Refusal :=
  runWord .matrix h [⟨fD, .v d⟩] (fun s c e =>
    s.writeDst c false false 0 e (.v d) fun l => ((c.gang.slice (l / 4)).fmt.setWidth 64) &&& 0x3FFF#64) s

end Sys2Proof.Machine
end

