-- ==== Sys2Proof/Machine/Views.lean ====
section
/-! DEFINITION. The view family (R215 to R219, R262 to R277): registration, dropping, `vopen`, tags and waits, and the
rebuilds of the harrows (R218, R267 to R270). -/

namespace Sys2Proof.Machine

/-! Descriptors. -/

/-- The view a descriptor's eight words give (R215, R262). -/
def viewOfWords (w : Nat → Nat) : View :=
  { slot := 0, serial := 0, mbase := w 0, rows := field (w 1) 0 32, cols := field (w 1) 32 32,
    rstride := field (w 2) 0 32, kind := field (w 3) 0 8, tfmt := field (w 3) 8 4, layout := field (w 3) 12 4,
    policy := field (w 3) 16 2, mfmt := field (w 3) 18 14, dbase := w 4, cbase := w 5, gen := 0, drops := 0, blk := 0,
    die := 0, due := [], tag := [] }

/-- The combinations of R262's table. -/
def kindOk (kind layout tfmt : Nat) : Bool :=
  let q := tfmt == 1 || tfmt == 2 || tfmt == 3 || tfmt == 4 || tfmt == 5 || tfmt == 8
  (kind == 1 && layout == 0 && q) || (kind == 2 && (layout == 1 || layout == 2) && (q || tfmt == 15)) ||
  (kind == 3 && layout == 0 && (q || tfmt == 15))

/-- A master row's bytes meet a range. -/
def View.masterMeets (v : View) (lo len : Nat) : Bool :=
  (List.range v.rows).any fun r =>
    v.mbase + r * v.rstride < lo + len && lo < v.mbase + r * v.rstride + v.cols * v.msize

def rangesMeet (a n b m : Nat) : Bool := a < b + m && b < a + n

/-- Two master ranges overlap (R217, R263). -/
def View.mastersMeet (v w : View) : Bool :=
  (List.range v.rows).any fun r => w.masterMeets (v.mbase + r * v.rstride) (v.cols * v.msize)

/-- A range overlaps a master or a target array of a view. -/
def View.meets (v : View) (lo len : Nat) : Bool :=
  v.masterMeets lo len || rangesMeet lo len v.dbase v.dataBytes || rangesMeet lo len v.cbase v.crownBytes

/-- A translation with read and write rights in both stages that leads to no peer (R262). -/
def Tlb.good (t : Tlb) (va : Nat) : Bool := (t.missing .write).isNone && !isPeer (t.pbase + va % t.size)

/-- Every page of a list is mapped in both stages with read and write rights and is no peer page (R262): checked in order, each with a
walk, which sets A (R388). A registration's checks write nothing, so no dirty bit is set here. -/
def State.pagesOk (s : State) (unit al : Nat) : List Nat → Bool × State
  | [] => (true, s)
  | va :: rest =>
    match s.lookup unit al va with
    | .error _ => (false, s)
    | .ok (t, s) => if t.good va then s.pagesOk unit al rest else (false, s)

/-- The first word among 0 to 3 whose own limits a descriptor breaks (R262). -/
def View.badShape (v : View) (w : Nat → Nat) : Option Nat :=
  if v.mbase ≥ 2 ^ 56 || v.mbase % 128 != 0 then some 0
  else if v.rows == 0 || v.rows > 2 ^ 20 || v.cols < 32 || v.cols > 2 ^ 20 || v.cols % 32 != 0 ||
      (v.kind == 2 && v.rows % 32 != 0) then some 1
  else if v.rstride % 128 != 0 || v.rstride < v.cols * v.msize || field (w 2) 32 32 != 0 then some 2
  else if !kindOk v.kind v.layout v.tfmt || v.policy == 3 || v.mfmt > 2 || field (w 3) 32 32 != 0 then some 3
  else none

/-- The first word of a descriptor that breaks its limits, in the order of R262, and the state that the checks' walks leave. -/
def State.badWord (s : State) (unit al : Nat) (w : Nat → Nat) : Option Nat × State :=
  let v := viewOfWords w
  let views := (s.allot al).views
  let clear := fun lo len => !(views.any fun x => x.meets lo len) && !v.masterMeets lo len
  match v.badShape w with
  | some k => (some k, s)
  | none =>
    let (ok, s) := s.pagesOk unit al v.masterPages
    if !ok then (some 0, s)
    else if v.dbase ≥ 2 ^ 56 || v.dbase % 512 != 0 || !clear v.dbase v.dataBytes ||
        rangesMeet v.dbase v.dataBytes v.cbase v.crownBytes then (some 4, s)
    else if v.cbase ≥ 2 ^ 56 || v.cbase % 128 != 0 || !clear v.cbase v.crownBytes then (some 5, s)
    else
      let (ok, s) := s.pagesOk unit al (pagesOf v.cbase v.crownBytes)
      (if !ok then some 5 else if w 6 != 32 then some 6 else if w 7 != 0 then some 7 else none, s)

/-- Read bytes of one line as an `open` for reading shows them (R80, R155): checks, binding, the entry's bytes. A damaged line
is met as an open meets it (R140, R384). -/
def State.readAsOpen (s : State) (c : Ctx) (va n : Nat) : M (List Byte × State) := do
  let (pa, s) ← s.checkOpen c 0 (c.grp.low) va .openR
  let (s, id, _) := s.bindEntry c c.grp.low (lineOf pa) .openR
  let there := (s.entry? c.core id).all fun e => e.arrived
  if !there && s.damaged (lineOf pa) then .error (.damage (if isTierTwo pa then 7 else 6) (lineOf pa))
  else
    let s := if there then s else s.arrive c.core id
    let e := (s.entry? c.core id).getD (Entry.fresh c.al c.blk.lid 0 0)
    pure ((List.range n).map fun i => s.entryByte c.al c.blk.lid (c.gang.seenOf c.grp.low).ord e (pa % 128 + i), s.settleVictims c.core)

def wordAt (bs : List Byte) (i : Nat) : Nat := ofBytes ((bs.drop (8 * i)).take 8)

/-- A free slot of the view table. -/
def freeViewSlot (views : List View) : Option Nat := (List.range 64).find? fun k => !views.any fun v => v.slot == k

/-- Crown TAGs written zero at registration (R272). -/
def State.zeroTags (s : State) (unit al : Nat) (v : View) : State :=
  (List.range v.groups).foldl (fun s g =>
    match s.translate unit al (v.cbase + 128 * g) .write with
    | .ok (pa, s) => (s.homeWrite (lineOf pa) (bytesAt 64 (toBytes 8 0))).meterHome unit al pa 8 true
    | .error _ => s) s

/-- Register a view (R216, R265, R267, R272): the pages of its arrays get their attributes, and every group is queued, be the queues full
(R216: no wait for any rebuild). -/
def State.register (s : State) (c : Ctx) (v : View) (slot : Nat) : State × View :=
  let unit := c.core
  let die := match s.lookup unit c.al v.mbase with
    | .ok (t, _) => homeDie (t.pbase + v.mbase % t.size)
    | .error _ => 0
  let n := (s.allot c.al).vregs + 1
  let v := { v with slot := slot, serial := n, blk := c.blk.uid, die := die }
  let (master, s) := s.pagesAt unit c.al v.masterPages
  let (storage, s) := s.pagesAt unit c.al v.storagePages
  let v := { v with master, storage }
  let s := s.modAllot c.al fun a => { a with views := a.views ++ [v], vregs := n }
  let s := s.zeroTags unit c.al v
  (s.markGroups c.al v (List.range v.groups) 1 0, v)

/-- `vreg` (R216, R262, R263, R272). -/
def execVreg (h : Hdr) (sd sa : Nat) (s : State) : Host.Outcome State Fault Refusal :=
  runWordWith damageBase .plain h [⟨fD, .s sd⟩, ⟨fA, .s sa⟩] (fun s c e => do
    if e == 0#32 then pure s
    else do
      let va := (s.readS c.gang sa).toNat
      trapIf (va % 64 != 0) { cause := 0x2D, kind := 0, info1 := va }
      let (bs, s) ← s.readAsOpen c va 64
      let w := wordAt bs
      match s.badWord c.core c.al w with
      | (some k, _) => trapWith { cause := 0x2D, kind := k, info1 := va }
      | (none, s) => do
        let v := viewOfWords w
        let views := (s.allot c.al).views
        match freeViewSlot views with
        | none => s.writeDst c false true 0 e (.s sd) fun _ => 0
        | some k =>
          if (views.filter fun x => v.mastersMeet x).length ≥ 8 then s.writeDst c false true 0 e (.s sd) fun _ => 0
          else do
            let (s, v) := s.register c v k
            s.writeDst c false true 0 e (.s sd) fun _ => handleOf c.al v) s

/-! Recalls of view references. -/

/-- Cores on which gangs run. -/
def State.busyCores (s : State) : List Nat := (s.gangs.map fun g => g.core).foldl addOnce []

/-- A reference bound by `vopen` to a group of a view, or to any of its groups: one that has taken its line, or with `opening` one
that waits for it too. One that another recall has reached counts as before: the later reason stands (R91, R219). -/
def State.viewRef (s : State) (core al serial : Nat) (group : Option Nat) (opening : Bool) (g : Gang) (_ln : Nat) (r : LRef) : Bool :=
  let waits := (r.entry.bind fun id => s.entry? core id).any fun (e : Entry) => e.wantDue.isSome
  r.form == .vopen && ((s.block? g.blk).any fun (b : Block) => b.al == al) && (opening || !waits) &&
    r.shown.any fun x => x.1 == serial && group.all fun k => k == x.2

/-- Recall, on every core, the references bound by `vopen` to a group of a view (R90, reason 2). -/
def State.recallViews (s : State) (al serial : Nat) (group : Option Nat) (opening : Bool) : State :=
  s.busyCores.foldl (fun s core => s.recallOn core (s.viewRef core al serial group opening) 2) s

/-- An entry shows a group of a view. -/
def showsGroup (al slot : Nat) (g : Option Nat) (e : Entry) : Bool :=
  e.al == al && match e.crown with
    | some k => k.slot == slot && (g.isNone || g == some k.group)
    | none => false

/-- Entries that waited and whose references are gone leave the line store. -/
def State.dropWaiting (s : State) (p : Entry → Bool) : State :=
  { s with cores := s.cores.map fun c => { c with entries := c.entries.filter fun e => !(p e && e.wantDue.isSome) } }

/-- `vdrop` (R273). -/
def execVdrop (h : Hdr) (sa : Nat) (s : State) : Host.Outcome State Fault Refusal :=
  runWord .plain h [⟨fA, .s sa⟩] (fun s c e => do
    if e == 0#32 then pure s
    else
      let hd := s.readS c.gang sa
      match s.viewOfHandle c.al hd with
      | none => trapWith { cause := 0x2C, info1 := hd.toNat }
      | some v =>
        let s := { s with hreqs := s.hreqs.filter fun r => !(r.al == c.al && r.slot == v.slot && r.serial == v.serial) }
        let s := (s.recallViews c.al v.serial none true).dropWaiting (showsGroup c.al v.slot none)
        .ok (s.modAllot c.al fun a =>
          { a with views := a.views.filter fun x => !(x.slot == v.slot && x.serial == v.serial) })) s

/-- pF of `vopen` in a lane (R274). -/
def State.freshFlag (s : State) (c : Ctx) (xs : List (Nat × OForm × Nat × Nat)) (l : Nat) : Bool :=
  match xs.find? fun x => x.1 == l / 4 with
  | none => false
  | some x =>
    match s.viewOfData c.al (lineOf x.2.2.2) with
    | none => false
    | some (v, g, _) => v.policy != 0 || v.fresh g

/-- `vopen` (R219, R274). -/
def execVopen (h : Hdr) (ln pd pf : Nat) (a : Src) (s : State) : Host.Outcome State Fault Refusal :=
  runWord .quiet h ((⟨fD, .p pd⟩ : Use) :: a.uses fA true ++ [⟨fB, .ln ln⟩, ⟨fM, .p pf⟩]) (fun s c e => do
    if e == 0#32 then pure s
    else do
      let o : Opnd := ⟨a, none⟩
      waitIf (s.acqPending c (slicesIn e))
      let (xs, s) ← checkAll c ln (s.openAddrs c e .vopen o) s
      let hit := s.openHit c e o xs
      let fresh := fun l => e.getLsbD l && s.freshFlag c xs l
      let (s', fetched) := s.bindAll c ln xs [] false
      let s' := s'.recordOpen c ln xs fetched
      let s' := s'.writePred c false 0 c.liveLanes pd hit
      pure (s'.writePred c false 0 c.liveLanes pf fresh)) s

/-! Tags and waits (R276, R277). -/

/-- The handle and the view it names. -/
def State.needView (s : State) (c : Ctx) (sa : Nat) : M (View × Nat) :=
  let hd := s.readS c.gang sa
  match s.viewOfHandle c.al hd with
  | none => trapWith { cause := 0x2C, info1 := hd.toNat }
  | some v => .ok (v, hd.toNat)

/-- The group index of each lane that writes, checked (R276). -/
def indexChecks (hd : Nat) (v : View) (f : Nat → Nat) : List Nat → M Unit
  | [] => .ok ()
  | l :: ls => do
    trapIf (f l ≥ v.groups) { cause := 0x2C, info1 := hd }
    indexChecks hd v f ls

/-- `vtag` with what it reads of a view and a group (R276). -/
def vtagWord (h : Hdr) (d : Dst) (sa : Nat) (b : Src) (val : View → Nat → Nat) : State → Host.Outcome State Fault Refusal :=
  runWord .plain h (d.uses true ++ (⟨fA, .s sa⟩ : Use) :: b.uses fB false) fun s c e => do
    if e == 0#32 then pure s
    else do
      let (v, hd) ← s.needView c sa
      let (os, s) ← popAll c [b] s
      let f := fun l => (s.opVal c false (os.headD ⟨.zero, none⟩) l).toNat
      let ls := match d with | .v _ => lanesOf e | _ => [lowLane e]
      indexChecks hd v f ls
      s.writeDst c false true 0 e d fun l => BitVec.ofNat 64 (val v (f l))

/-- `vtag.tag` (R276). -/
def execVtagTag (h : Hdr) (d : Dst) (sa : Nat) (b : Src) (s : State) : Host.Outcome State Fault Refusal :=
  vtagWord h d sa b (fun v g => v.tagOf g) s

/-- `vtag.gen` (R276). -/
def execVtagGen (h : Hdr) (d : Dst) (sa : Nat) (b : Src) (s : State) : Host.Outcome State Fault Refusal :=
  vtagWord h d sa b (fun v _ => v.gen % 2 ^ 48 + v.drops * 2 ^ 48) s

/-- Every named group has reached its target or is poisoned (R277). -/
def vsyncSettled (v : View) (ts : List (Nat × Nat)) : Bool :=
  ts.all fun t => tagGen (v.tagOf t.1) ≥ t.2 || tagPoison (v.tagOf t.1)

/-- Every named group has reached its target without POISON (R277). -/
def vsyncReached (v : View) (ts : List (Nat × Nat)) : Bool :=
  ts.all fun t => tagGen (v.tagOf t.1) ≥ t.2 && !tagPoison (v.tagOf t.1)

/-- What an ending `vsync` writes (R277). -/
def State.vsyncDone (s : State) (c : Ctx) (pd : Nat) (e : LaneMask) (ok : Bool) : State :=
  let s := s.writePred c false 0 e pd fun _ => ok
  if ok then
    ((s.performLate c.uid (LateStore.of (slicesIn e))).modGang c.uid fun g => g.observe (slicesIn e) s.turn).acquire c .device (slicesIn e)
  else s

/-- `vsync` (R277). -/
def execVsync (h : Hdr) (pd sa : Nat) (b k : Src) (s : State) : Host.Outcome State Fault Refusal :=
  runWord .plain h ((⟨fD, .p pd⟩ : Use) :: (⟨fA, .s sa⟩ : Use) :: b.uses fB false ++ k.uses fC false) (fun s c e => do
    if e == 0#32 then pure s
    else do
      let (v, hd) ← s.needView c sa
      let (os, s) ← popAll c [b, k] s
      let g := (s.lowVal c e false (os.headD ⟨.zero, none⟩)).toNat
      let limit := (s.lowVal c e false (nth ⟨.zero, none⟩ os 1)).toNat
      trapIf (g != 0xFFFFFFFF && g ≥ v.groups) { cause := 0x2C, info1 := hd }
      let gs := if g == 0xFFFFFFFF then List.range v.groups else [g]
      let ts := gs.map fun g => (g, v.dueOf g)
      let busy := s.outstanding c.uid (slicesIn e) true
      let ok := vsyncReached v ts
      if limit == 0 then do
        waitIf (ok && busy)
        pure (s.vsyncDone c pd e ok)
      else if vsyncSettled v ts && !(ok && busy) then pure (s.vsyncDone c pd e ok)
      else pure (s.park c (.vsync c.al v.slot v.serial ts pd e (s.deadline c.al limit)) none)) s

/-! Rebuilds (R218, R268 to R270). -/

/-- The magnitude of a finite value as m x 2^e. -/
def magOf : FV → Nat × Int
  | .fin _ m e => (m, e)
  | _ => (0, 0)

/-- a x 2^i is at least b x 2^j. -/
def geScaled (a : Nat) (i : Int) (b : Nat) (j : Int) : Bool :=
  if i ≥ j then a * 2 ^ (i - j).toNat ≥ b else a ≥ b * 2 ^ (j - i).toNat

/-- The smallest E with (c x 2^k) x 2^E at or above m x 2^e, clamped to R268's range; 0 when m is 0. -/
def scaleExp (c : Nat) (k : Int) (m : Nat) (e : Int) : Int :=
  if m == 0 then 0
  else
    let lo : Int := e - k + (m.log2 : Int) - (c.log2 : Int) - 1
    let found := ((List.range 4).map fun (i : Nat) => lo + Int.ofNat i).find? fun x => geScaled c (k + x) m e
    let x := found.getD (lo + 3)
    if x < -127 then -127 else if x > 127 then 127 else x

/-- Magnitude order. -/
def magLt (a b : FV) : Bool :=
  let x := magOf a
  let y := magOf b
  !geScaled x.1 x.2 y.1 y.2

/-- The index of the largest magnitude, lowest on a tie. -/
def maxIndex (xs : List FV) : Nat :=
  ((List.range xs.length).foldl (fun acc i =>
    let best := nth (.fin false 0 0) xs acc
    if magLt best (nth (.fin false 0 0) xs i) then i else acc) 0)

/-- A block's data bytes, its SCALE byte and its OEXP byte. -/
structure BlockOut where
  data : List Byte
  scale : Nat
  oexp : Nat
  deriving DecidableEq, Repr, Inhabited

def packElems (w : Nat) (xs : List Nat) : List Byte :=
  toBytes (4 * w) (sumNat ((List.range xs.length).map fun i => nth 0 xs i * 2 ^ (w * i)))

/-- A Tilth-4 block (R218). -/
def tilthBlock (xs : List FV) : BlockOut :=
  let c := maxIndex xs
  let top := magOf (nth (.fin false 0 0) xs c)
  let others := (List.range xs.length).filterMap fun i => if i == c then none else some (nth (.fin false 0 0) xs i)
  let sec := magOf (nth (.fin false 0 0) others (maxIndex others))
  let e := if sec.1 != 0 then scaleExp 7 0 sec.1 sec.2 else if top.1 != 0 then scaleExp 7 0 top.1 top.2 else 0
  let q := xs.map fun x => wrapTo 4 ((x.scale (-e)).toRange .rne (-7) 7)
  if geScaled 7 e top.1 top.2 then ⟨packElems 4 q, (e + 127).toNat, 0⟩
  else
    let f := e4m3.encode .rne true ((nth (.fin false 0 0) xs c).scale (-e))
    let q := listSet (listSet q c 8) (c ^^^ 1) (8 * field f 7 1 + field f 0 3)
    ⟨packElems 4 q, (e + 127).toNat, field f 3 4⟩

/-- A block of another converting target (R268). -/
def plainBlock (code : Nat) (xs : List FV) : BlockOut :=
  let top := magOf (nth (.fin false 0 0) xs (maxIndex xs))
  let e : Int := match narrowFmt code with
    | none => 0
    | some f =>
      let mx := magOf (f.decode f.maxBits)
      if code == 1 || top.1 == 0 then 0 else scaleExp mx.1 mx.2 top.1 top.2
  ⟨packElems (elemBits code) (xs.map fun x => (narrowElem code .rne true (x.scale (-e))).1), (e + 127).toNat, 0⟩

/-- A block of a view from its master elements' bits (R268); none when it poisons the group. -/
def View.block (v : View) (bits : List Nat) : Option BlockOut :=
  if v.tfmt == 15 then some ⟨packElems (8 * v.msize) bits, 0x7F, 0⟩
  else
    let xs := bits.map fun b => if v.mfmt == 0 then fp32.decode b else if v.mfmt == 1 then fp16.decode b else bf16.decode b
    if xs.any fun x => match x with | .fin _ _ _ => false | _ => true then none
    else some (if v.tfmt == 8 then tilthBlock xs else plainBlock v.tfmt xs)

/-- Why a rebuild cannot complete (R269), or what it makes. -/
abbrev Rebuild (α : Type) := Except Nat α

/-- Translate for the die's engines: the reason of R269 in place of a cause. -/
def State.engineAddr (s : State) (v : View) (al va : Nat) (need : Need) : Rebuild (Nat × State) :=
  match s.translate (engineUnit v.die) al va need with
  | .ok (pa, s) =>
    if isPeer pa && (v.kind != 3 || need == .read) then .error 3
    else if isPeer pa && !s.peerUp pa then .error 4
    else .ok (pa, s)
  | .error c => .error (if c == 0x11 || c == 0x19 then 2 else 3)

/-- The bits of a run of master elements at their home. -/
def State.masterBits (s : State) (v : View) (al : Nat) : List Nat → State → Rebuild (List Nat × State)
  | [], t => .ok ([], t)
  | i :: is, t => do
    let (r, k) := v.element i
    let (pa, t) ← t.engineAddr v al (v.mbase + r * v.rstride + k * v.msize) .read
    if t.damaged (lineOf pa) then .error 5
    else do
      let (rest, t) ← s.masterBits v al is (t.meterHome (48 * v.die) al pa v.msize false)
      pure (ofBytes (t.mem.readN pa v.msize) :: rest, t)

/-- The blocks of a group: zeros beyond the view's last block. -/
def State.groupBlocks (s : State) (v : View) (al : Nat) : List Nat → State → Rebuild (List BlockOut × State)
  | [], t => .ok ([], t)
  | b :: bs, t => do
    if b ≥ v.blocks then do
      let (rest, t) ← s.groupBlocks v al bs t
      pure (⟨packElems (if v.target == 15 then 32 else elemBits v.target) (List.replicate 32 0), 0, 0⟩ :: rest, t)
    else do
      let (bits, t) ← s.masterBits v al ((List.range 32).map fun i => 32 * b + i) t
      match v.block bits with
      | none => .error 1
      | some o => do
        let (rest, t) ← s.groupBlocks v al bs t
        pure (o :: rest, t)

/-- The 128 bytes of a data line as they are stored: padding zero, swizzled under layout 2 (R233, R264). -/
def View.lineBytes (v : View) (g d : Nat) (bs : List BlockOut) : List Byte :=
  let raw := ((bs.drop (v.bpl * d)).take v.bpl).flatMap fun b => b.data
  let raw := raw ++ List.replicate (128 - raw.length) 0#8
  if v.layout == 2 then (List.range 128).map fun i => nth 0#8 raw (i ^^^ (16 * ((4 * g + d) % 8))) else raw

/-- The crown's 128 bytes (R216, R264). -/
def crownLine (bs : List BlockOut) (tag : Nat) : List Byte :=
  let pad := fun (f : BlockOut → Nat) => (List.range 32).map fun i =>
    BitVec.ofNat 8 (match bs.drop i with | b :: _ => f b | [] => 0)
  pad (·.scale) ++ pad (·.oexp) ++ toBytes 8 tag ++ List.replicate 56 0#8

/-- Resolve the four data lines and the crown of a group for writing. -/
def State.targetAddrs (s : State) (v : View) (al : Nat) : List Nat → Rebuild (List Nat × State)
  | [] => .ok ([], s)
  | a :: as => do
    let (pa, s) ← s.engineAddr v al a .write
    let (rest, s) ← s.targetAddrs v al as
    pure (pa :: rest, s)

/-- Set a group's TAG in the view table. -/
def State.setTag (s : State) (al : Nat) (v : View) (g tag : Nat) : State :=
  s.modView al v.slot v.serial fun v => { v with tag := v.tag.set 0 g tag }

/-- A rebuild that completes (R218): data lines, crown and tag. Where several of R269's events hold for it, the first that it meets is its
reason: the master elements in the order of the blocks, then the data lines, then the crown (assumption 79). -/
def State.rebuild (s : State) (v : View) (al g gen : Nat) : Rebuild State := do
  let (bs, s) ← s.groupBlocks v al ((List.range v.bpg).map fun i => v.bpg * g + i) s
  let (pas, s) ← s.targetAddrs v al (((List.range 4).map fun d => v.dbase + 512 * g + 128 * d) ++ [v.cbase + 128 * g])
  let lines := ((List.range 4).map fun d => v.lineBytes g d bs) ++ [crownLine bs gen]
  let s := (pas.zip lines).foldl (fun s x => (s.homeWrite (lineOf x.1) (bytesAt 0 x.2)).meterHome (48 * v.die) al x.1 128 true) s
  pure ((s.setTag al v g gen).meter al 14 1)

/-- The status word of a poisoning (R270). -/
def harrowStatus (reason : Nat) (v : View) (g gen : Nat) : W64 :=
  BitVec.ofNat 64 (packFields [(8, reason), (6, v.slot), (2, 0), (32, g), (16, gen)])

/-- Poison a group (R269) and report it (R270). Of a crown that does not translate for writing no byte changes, and the view table's copy
of TAG alone is set (assumption 79). -/
def State.poisonGroup (s : State) (v : View) (al g gen reason : Nat) : State :=
  let tag := gen % 2 ^ 63 + 2 ^ 63
  let s := match s.translate (engineUnit v.die) al (v.cbase + 128 * g) .write with
    | .ok (pa, s) => (s.homeWrite (lineOf pa) (bytesAt 64 (toBytes 8 tag))).meterHome (48 * v.die) al pa 8 true
    | .error _ => s
  let s := s.setTag al v g tag
  let bound := s.gangs.any fun x => x.blk == v.blk && x.qb.any fun q => q.2 == .harrow
  let room := (s.block? v.blk).any fun (b : Block) => b.hq.length < 16
  if bound && room then s.modBlock v.blk fun b => { b with hq := b.hq ++ [harrowStatus reason v g gen] }
  else
    let s := s.modView al v.slot v.serial fun v => { v with drops := Nat.min 0xFFFF (v.drops + 1) }
    if bound then s.modBlock v.blk fun b => { b with hqDrop := Nat.min 0xFFFF (b.hqDrop + 1) } else s

/-- The references that wait for a group take it (R219), once its tag has come up to what they want; a damaged line ends the
launches that wait for it (R140). -/
def State.serveWaiting (s : State) (al : Nat) (v : View) (g : Nat) : State :=
  s.busyCores.foldl (fun s core =>
    ((s.core core).entries.filter fun e => showsGroup al v.slot (some g) e && e.wantDue.isSome).foldl (fun s e =>
      match s.view? al v.slot v.serial with
      | none => s
      | some v =>
        if tagGen (v.tagOf g) < e.wantDue.getD 0 then s
        else if s.damaged e.line then s.damagedFetch core e
        else
          let (cr, s) := s.captureCrown core al e.lid v g (((v.placeOf e.line).map (·.2)).getD 0)
          let s := s.modEntry core e.id fun x =>
            { x with data := s.homeLine e.line, version := some (s.version e.line), stamp := s.turn, arrived := true,
                     wantDue := none, crown := some cr }
          (s.openRefs core e.id).meterHome core al e.line 128 false) s) s

/-- The rebuilds that have entered a harrow's queue: the oldest 8,192 (R267). -/
def State.harrowQueue (s : State) (die harrow : Nat) : List HReq :=
  (s.hreqs.filter fun r => r.die == die && r.harrow == harrow).take 8192

/-- The allotment that a harrow serves next: the first that has a rebuild queued, in ascending numbers after the one it served last
(R267; assumption 79). -/
def State.harrowTurn (s : State) (die harrow : Nat) : Option Nat :=
  ((List.range 16).map fun i => (s.plat.harrowLast.get 0 (4 * die + harrow) + i) % 16).find? fun al =>
    (s.harrowQueue die harrow).any fun r => r.al == al

/-- One rebuild of a group of a registered view, under the group lock: the references that show the group are recalled (R219), then
it completes or poisons the group (R218, R269). -/
def State.runRebuild (s : State) (v : View) (r : HReq) : State :=
  let s := s.recallViews r.al v.serial (some r.group) false
  match s.rebuild v r.al r.group r.gen with
  | .ok s => s.serveWaiting r.al v r.group
  | .error reason =>
    let s := s.poisonGroup v r.al r.group r.gen reason
    (s.recallViews r.al v.serial (some r.group) true).dropWaiting (showsGroup r.al v.slot (some r.group))

/-- A harrow performs its oldest rebuild of the allotment whose turn it is (R218, R267). What waited for a place in its queue goes on. -/
def execHarrowRebuild (die harrow al : Nat) (s : State) : Host.Outcome State Fault Refusal :=
  if s.plat.draining || s.harrowTurn die harrow != some al then .next s
  else
    match (s.harrowQueue die harrow).find? fun r => r.al == al with
    | none => .next s
    | some r =>
      let s := { s with hreqs := s.hreqs.erase r
                        plat := { s.plat with harrowLast := s.plat.harrowLast.set 0 (4 * die + harrow) (al + 1) } }
      match s.view? al r.slot r.serial with
      | none => .next s
      | some v => .next (s.runRebuild v r).sweep

/-- A `vsync` whose limit has come ends (R277). -/
def execVsyncTimeout (k : GroupKey) (s : State) : Host.Outcome State Fault Refusal :=
  match s.ctx k with
  | none => .next s
  | some c =>
    match c.grp.wait with
    | .vsync al slot serial ts pd e (some d) =>
      let ok := (s.view? al slot serial).any fun v => vsyncReached v ts
      if s.stopped c || (s.allot c.al).st != .running || (s.allot c.al).vclk.toNat < d || (ok && s.outstanding c.uid (slicesIn e) true) then .next s
      else .next ((s.wake c none).vsyncDone c pd e ok)
    | _ => .next s

end Sys2Proof.Machine
end

