-- ==== Sys2Proof/Machine/Queues.lean ====
section
/-! DEFINITION. Queue registers and the drill engines (R279 to R281, R314 to R325). -/

namespace Sys2Proof.Machine

/-! Bindings (R314). -/

/-- The logical die of a physical core for an allotment: logical core k lies in logical die k / 48 (R69). -/
def State.logicalDie (s : State) (al core : Nat) : Nat := s.logicalCore al core / 48

/-- Bindings that a drill of an allotment holds: those of running gangs and those with commands left. -/
def State.bindings (s : State) (al drill : Nat) : Nat :=
  (s.dbinds.filter fun b => b.al == al && b.drill == drill &&
    (!b.pending.isEmpty || s.gangs.any fun g => g.uid == b.gang && !g.isOver)).length

/-- The drill a `qbind.drill` takes on one die: fewest bindings, lowest number (R314). -/
def State.drillOn (s : State) (al d : Nat) : Option Nat :=
  let mine := ((List.range 16).map fun k => 16 * d + k).filter fun k => bitAt ((s.allot al).item 8) k && s.bindings al k < 16
  mine.foldl (fun best k =>
    match best with
    | none => some k
    | some j => if s.bindings al k < s.bindings al j then some k else some j) none

/-- The drill a binding takes: the gang's logical die first, then the next ones, wrapping (R314). -/
def State.chooseDrill (s : State) (al core : Nat) : Option Nat :=
  let d0 := s.logicalDie al core
  ((List.range 4).map fun i => (d0 + i) % 4).findSome? fun d => s.drillOn al d

/-- Write a token register (R281). -/
def State.writeToken (s : State) (gang tok : Nat) (x : W64) : State :=
  s.modGang gang fun g => (g.putS 0 0 tok [] x).unpend [.s tok]

/-- Take a queue register from its binding: a partly pushed command is discarded with code 0x0D (R314). -/
def State.unbind (s : State) (c : Ctx) (q : Nat) : M State :=
  match (s.gang? c.uid).map fun (g : Gang) => g.qbind q with
  | some (.drill id) =>
    match s.dbind? id with
    | none => .ok s
    | some b => do
      waitIf (!b.pending.isEmpty)
      let s := match b.part with
        | [] => s
        | w :: _ => s.writeToken c.uid (cmdToken w) 0x0D00000000000000#64
      pure { s with dbinds := s.dbinds.filter fun x => x.id != id }
  | _ => .ok s

/-- `qbind` of a kind. -/
def qbindWord (h : Hdr) (q : Nat) (f : State → Ctx → State) : State → Host.Outcome State Fault Refusal :=
  runWord .plain h [⟨fD, .q q⟩] fun s c e => do
    if e == 0#32 then pure s
    else do
      let s ← s.unbind c q
      pure (f (s.modGang c.uid fun g => { g with qb := g.qb.set .none q .none }) c)

/-- `qbind.drill` (R314). -/
def execQbindDrill (h : Hdr) (q : Nat) (s : State) : Host.Outcome State Fault Refusal :=
  qbindWord h q (fun s c =>
    match s.chooseDrill c.al c.core with
    | none => s
    | some k =>
      let id := s.nextUid
      let b : DBind := { id := id, al := c.al, lid := c.blk.lid, gang := c.uid, core := c.core, blk := c.blk.uid, q := q,
                         drill := k, part := [], partSeq := 0, partAfter := [], cmds := [], run := none, ret := [],
                         drop := 0 }
      { (s.modGang c.uid fun g => { g with qb := g.qb.set .none q (.drill id) }) with
        dbinds := s.dbinds ++ [b], nextUid := id + 1 }) s

/-- `qbind.harrow` (R314). -/
def execQbindHarrow (h : Hdr) (q : Nat) (s : State) : Host.Outcome State Fault Refusal :=
  qbindWord h q (fun s c => s.modGang c.uid fun g => { g with qb := g.qb.set .none q .harrow }) s

/-- `qbind.none` (R314). -/
def execQbindNone (h : Hdr) (q : Nat) (s : State) : Host.Outcome State Fault Refusal :=
  qbindWord h q (fun s _ => s) s

/-! Pushes and pops (R315, R321, R322). -/

/-- `qpush` (R315). -/
def execQpush (h : Hdr) (q : Nat) (a : Src) (s : State) : Host.Outcome State Fault Refusal :=
  runWord .plain h ((⟨fD, .q q⟩ : Use) :: a.uses fA true) (fun s c e => do
    if e == 0#32 then pure s
    else s.pushQ c (slicesIn e) q (s.opVal c true ⟨a, none⟩ (lowLane e))) s

/-- `qpop` (R321). -/
def execQpop (h : Hdr) (d : Dst) (q : Nat) (s : State) : Host.Outcome State Fault Refusal :=
  runWord .plain h (d.uses true ++ [⟨fA, .q q⟩]) (fun s c e => do
    if e == 0#32 then pure s
    else do
      let (w, s) ← s.popQ c q
      s.writeDst c false true 0 e d fun _ => w) s

/-- The status word of a binding (R322). -/
def State.queueStatus (s : State) (c : Ctx) (q : Nat) : M W64 :=
  match c.gang.qbind q with
  | .none => trapWith { cause := 0x32, reg := q }
  | .harrow =>
    match s.block? c.blk.uid with
    | none => .ok 2
    | some b => .ok (BitVec.ofNat 64 (packFields [(8, 2), (8, 0), (5, b.hq.length), (11, 0), (16, b.hqDrop)]))
  | .drill id =>
    match s.dbind? id with
    | none => trapWith { cause := 0x32, reg := q }
    | some b => .ok (BitVec.ofNat 64 (packFields [(8, 1), (8, Nat.min 255 b.pending.length), (5, b.ret.length), (3, 0),
        (4, b.part.length), (4, 0), (16, b.drop), (6, b.drill)]))

/-- `qpop.stat` (R322). -/
def execQpopStat (h : Hdr) (d : Dst) (q : Nat) (s : State) : Host.Outcome State Fault Refusal :=
  runWord .plain h (d.uses true ++ [⟨fA, .q q⟩]) (fun s c e => do
    if e == 0#32 then pure s
    else do
      let w ← s.queueStatus c q
      s.writeDst c false true 0 e d fun _ => w) s

/-! Joins (R320). -/

/-- Queues of a mask. -/
def maskQueues (mask : Nat) : List Nat := (List.range 4).filter fun q => bitAt mask q

/-- The drill bindings of a mask's queues; an unbound one traps (R320). -/
def joinBindings (s : State) (c : Ctx) : List Nat → M (List DBind)
  | [] => .ok []
  | q :: qs =>
    match c.gang.qbind q with
    | .none => trapWith { cause := 0x32, reg := q }
    | .harrow => joinBindings s c qs
    | .drill id => do
      let rest ← joinBindings s c qs
      match s.dbind? id with
      | none => trapWith { cause := 0x32, reg := q }
      | some b => pure (b :: rest)

/-- Some command of a list has not completed. -/
def State.cmdsLeft (s : State) (cmds : List Nat) : Bool := s.dbinds.any fun b => b.pending.any cmds.contains

/-- Add a join of a gang: what is pushed later to a queue waits for what was pushed before, whatever binding the queue then has; a
partly pushed command is after (R320). -/
def State.addJoin (s : State) (u : Nat) (bs : List DBind) : State × List Nat :=
  let before := bs.flatMap DBind.pending
  let left := fun (q : Nat) => s.cmdsLeft [q]
  let s := s.modGang u fun g => { g with joins := bs.foldl (fun j b =>
    j.set [] b.q (before ++ (j.get [] b.q).filter left)) g.joins }
  (bs.foldl (fun s b => s.modDBind b.id fun x =>
    { x with partAfter := if x.part.isEmpty then x.partAfter else before ++ x.partAfter }) s, before)

/-- Register uses of a mask. -/
def maskUses (mask : Nat) : List Use := (maskQueues mask).map fun q => ⟨fM, .q q⟩

/-- `qfence` (R320). -/
def execQfence (h : Hdr) (mask : BitVec 4) (s : State) : Host.Outcome State Fault Refusal :=
  runWord .plain h (maskUses mask.toNat) (fun s c e => do
    if e == 0#32 then pure s
    else do
      let bs ← joinBindings s c (maskQueues mask.toNat)
      pure (s.addJoin c.uid bs).1) s

/-- A `qfence.wait` ends: its slices have seen the commands complete, and acquire (R320). -/
def State.fenceDone (s : State) (c : Ctx) (ks : List Nat) : State :=
  ((s.performLate c.uid (LateStore.of ks)).modGang c.uid fun g => g.observe ks s.turn).acquire c .device ks

/-- `qfence.wait` (R320). -/
def execQfenceWait (h : Hdr) (mask : BitVec 4) (s : State) : Host.Outcome State Fault Refusal :=
  runWord .plain h (maskUses mask.toNat) (fun s c e => do
    if e == 0#32 then pure s
    else do
      let bs ← joinBindings s c (maskQueues mask.toNat)
      let (s, before) := s.addJoin c.uid bs
      if before.isEmpty && !s.outstanding c.uid (slicesIn e) true then
        pure (s.fenceDone c (slicesIn e))
      else pure (s.park c (.qfence before e) none)) s

/-! Commands (R280, R316 to R319). -/

def Cmd.word (k : Cmd) (i : Nat) : Nat := (nth 0#64 k.words i).toNat
def Cmd.opc (k : Cmd) : Nat := field (k.word 0) 0 8
def Cmd.ndim (k : Cmd) : Nat := field (k.word 0) 8 2 + 1
def Cmd.esize (k : Cmd) : Nat := 2 ^ field (k.word 0) 10 2
def Cmd.token (k : Cmd) : Nat := field (k.word 0) 12 6
def Cmd.srcKind (k : Cmd) : Nat := field (k.word 0) 18 2
def Cmd.dstKind (k : Cmd) : Nat := field (k.word 0) 20 2

/-- COUNT of a dimension, 1 beyond NDIM (R316). -/
def Cmd.count (k : Cmd) (i : Nat) : Nat := if i < k.ndim then field (k.word (3 + 2 * i)) 0 32 else 1

/-- A stride of a dimension: source, or destination. -/
def Cmd.stride (k : Cmd) (dst : Bool) (i : Nat) : Int :=
  if i < k.ndim then signedOf 32 (field (k.word (4 + 2 * i)) (if dst then 32 else 0) 32) else 0

def Cmd.total (k : Cmd) : Nat := k.count 0 * k.count 1 * k.count 2 * k.count 3

/-- Bits that must be zero in a base word of a kind (R316). -/
def wordReserved (kind w : Nat) : Bool := (kind == 1 && w ≥ 2 ^ 32) || (kind == 2 && w ≥ 2 ^ 34)

/-- The base position of a word of a kind. -/
def basePos (kind w : Nat) : Nat := if kind == 1 || kind == 2 then w % 2 ^ 32 else w

/-- The core that a base word of kind 2 names for a binding (R71, R72). -/
def State.sideCore (s : State) (b : DBind) (w : Nat) : Option Nat := s.fieldCore b.al b.core (field w 32 2)

/-- The code with which a command fails before its first element, 0 for none (R317, R318); `src` and `dst` are the cores named. -/
def Cmd.check (k : Cmd) (src dst : Option Nat) : Nat :=
  let copy := k.opc == 1
  let dims := List.range k.ndim
  let es := k.esize
  let unmapped := fun kind (core : Option Nat) => kind == 2 && core.isNone
  if field (k.word 0) 22 42 != 0 || !(copy || k.opc == 2) || (k.opc == 2 && k.srcKind != 0) ||
      (copy && wordReserved k.srcKind (k.word 1)) || wordReserved k.dstKind (k.word 2) ||
      k.total * es ≥ 2 ^ 48 then 0x01
  else if (copy && basePos k.srcKind (k.word 1) % es != 0) || basePos k.dstKind (k.word 2) % es != 0 ||
      (dims.any fun i => k.stride false i % (es : Int) != 0 || k.stride true i % (es : Int) != 0) then 0x02
  else if (copy && unmapped k.srcKind src) || unmapped k.dstKind dst then 0x09
  else 0

/-- The position of element `i` on a side: exact, signed (R317). -/
def Cmd.pos (k : Cmd) (dst : Bool) (i : Nat) : Int :=
  let i0 := i % k.count 0
  let i1 := i / k.count 0 % k.count 1
  let i2 := i / (k.count 0 * k.count 1) % k.count 2
  let i3 := i / (k.count 0 * k.count 1 * k.count 2)
  let base := if dst then basePos k.dstKind (k.word 2) else basePos k.srcKind (k.word 1)
  (base : Int) + i0 * k.stride dst 0 + i1 * k.stride dst 1 + i2 * k.stride dst 2 + i3 * k.stride dst 3

/-- Why an element does not go on: an error code, or rows that are spilled (R150). -/
inductive DStop where
  | code (n : Nat)
  | held
  deriving DecidableEq, Repr, Inhabited

/-- A resolved element position: memory, or row bytes of a block. -/
inductive DPlace where
  | mem (va pa : Nat)
  | row (blk off : Nat)
  deriving DecidableEq, Repr, Inhabited

/-- The code of a translation cause (R318). -/
def transCode (cause : Nat) : Nat :=
  if cause == 0x19 then 0x03 else if cause == 0x11 then 0x04 else if cause == 0x12 then 0x05 else if cause == 0x17 then 0x06
  else 0x07

/-- The physical die of a drill of an allotment; the logical number itself where the place table's die entry is not valid, a case that
R69 does not settle (assumption 79). -/
def State.drillDie (s : State) (b : DBind) : Nat := (s.place b.al 0 (b.drill / 16)).getD (b.drill / 16)

/-- Resolve an element of `n` bytes at a position of a kind (R316 to R318). -/
def State.drillPlace (s : State) (b : DBind) (kind : Nat) (core : Nat) (p : Int) (n : Nat) (write : Bool) :
    Except DStop (DPlace × State) :=
  if kind == 0 || kind == 3 then
    if p < 0 || p ≥ 2 ^ 56 then .error (.code 0x03)
    else
      let va := p.toNat
      match s.translate (engineUnit (s.drillDie b)) b.al va (if write then .write else .read) with
      | .error c => .error (.code (transCode c))
      | .ok (pa, s) =>
        if write && s.isViewPage pa then .error (.code 0x05)
        else if isPeer pa != (kind == 3) then .error (.code 0x0A)
        else if isPeer pa && !s.peerUp pa then .error (.code 0x0B)
        else if !write && s.damaged (lineOf pa) then .error (.code 0x0C)
        else .ok (.mem va pa, s)
  else if p < 0 || p ≥ 2 ^ 32 then .error (.code 0x08)
  else
    let own := s.block? b.blk
    let t := if kind == 1 then own.map fun (x : Block) => (x, p.toNat)
             else own.bind fun (x : Block) => s.remoteTarget x core p.toNat
    match t with
    | none => .error (.code 0x08)
    | some (x, o) =>
      if o + n > x.rowsSize then .error (.code 0x08)
      else if x.rowAway ((List.range n).map fun i => (o + i) / 1024) then .error .held
      else .ok (.row x.uid o, s)

def State.drillRead (s : State) (p : DPlace) (n : Nat) : List Byte :=
  match p with
  | .mem _ pa => s.mem.readN pa n
  | .row u o => ((s.block? u).map fun (b : Block) => b.rowBytes o n).getD []

def State.drillWrite (s : State) (b : DBind) (p : DPlace) (bs : List Byte) : State :=
  match p with
  | .mem _ pa => ((s.homeWrite (lineOf pa) (bytesAt (pa % 128) bs)).ownLine (lineOf pa) b.al b.lid).meetLine b.al b.lid (lineOf pa)
  | .row u o => s.modBlock u fun b => b.fillRows (bytesAt o bs)

/-- Meters of one element (R353). -/
def State.drillMeters (s : State) (b : DBind) (n : Nat) (src : Option DPlace) (dst : DPlace) : State :=
  let side := fun (s : State) (p : DPlace) (wr : Bool) => match p with
    | .mem _ pa => s.meterHome b.core b.al pa n wr
    | .row _ _ => s
  let s := match src with | some p => side s p false | none => s
  side (s.meter b.al 8 n) dst true

/-- One element: read, then write (R317). -/
def State.element (s : State) (b : DBind) (r : DRun) : Except DStop (State × Option Nat) := do
  let k := r.cmd
  let i := r.idx
  let n := k.esize
  let (bs, src, s) ← (
    if k.opc == 2 then .ok (toBytes n (k.word 1), none, s)
    else do
      let (p, s) ← s.drillPlace b k.srcKind (r.src.getD b.core) (k.pos false i) n false
      pure (s.drillRead p n, some p, s) : Except DStop (List Byte × Option DPlace × State))
  let (d, s) ← s.drillPlace b k.dstKind (r.dst.getD b.core) (k.pos true i) n true
  let line := match d with | .mem _ pa => some (lineOf pa) | .row _ _ => none
  pure ((s.drillWrite b d bs).drillMeters b n src d, line)

/-- A command that has ended completes, unless a harrow's queue holds a marking (R267): the token is written (R281), the completion word
appended (R321), rows kept for it go (R319). -/
def State.completeCommand (s : State) (b : DBind) (r : DRun) (code : Nat) : State :=
  if !s.entered (publisher b.id 0) then s
  else
    let w := BitVec.ofNat 64 (r.n + r.cmd.token * 2 ^ 48 + code * 2 ^ 56)
    let s := s.writeToken b.gang r.cmd.token (BitVec.ofNat 64 (r.n + code * 2 ^ 56))
    ((s.modDBind b.id fun x =>
      if x.ret.length < 16 then { x with run := none, ret := x.ret ++ [w] }
      else { x with run := none, drop := Nat.min 0xFFFF (x.drop + 1) }).signal b.core 21 b.al).freeBlocks

/-- A command ends with a code: the views over the lines it wrote are marked, once (R266), then it completes. -/
def State.endCommand (s : State) (b : DBind) (r : DRun) (code : Nat) : State :=
  let r' := { r with lines := [], ending := some code }
  ((s.markLines r.lines (publisher b.id 0)).modDBind b.id fun x => { x with run := some r', served := 0, last := s.turn }).completeCommand b r' code

/-- The bytes an allotment's drills may still write this period (R323). -/
def State.drillRoom (s : State) (al : Nat) : Bool := (s.allot al).drillBytes < (s.allot al).item 7

/-- A binding has a command in progress. -/
def DBind.inProgress (b : DBind) : Bool := (b.run.map fun (r : DRun) => r.ending.isNone).getD false

/-- A drill rotates among the bindings with a command in progress, 128 bytes of elements a turn: the binding in its turn goes on, and the
next is the one whose last turn lies furthest back (R323; assumption 80). -/
def State.drillTurn (s : State) (b : DBind) : Bool :=
  s.dbinds.all fun x => x.al != b.al || x.drill != b.drill || x.id == b.id || !x.inProgress ||
    (x.served == 0 && (b.served != 0 || b.last < x.last || (b.last == x.last && b.id < x.id)))

/-- A binding has performed an element of `n` bytes: after 128 bytes its turn ends (R323). -/
def DBind.serve (b : DBind) (n turn : Nat) : DBind :=
  if b.served + n < 128 then { b with served := b.served + n } else { b with served := 0, last := turn }

/-- One step of a binding's command: it starts, performs one element, or ends (R317, R319, R323). A binding whose rows are spilled leaves
its turn to the next. -/
def drillStep (fill : Bool) (bid : Nat) (s : State) : State :=
  match s.dbind? bid with
  | none => s
  | some b =>
    match b.run with
    | none =>
      match b.cmds with
      | [] => s
      | k :: rest =>
        if (k.opc == 2) != fill || s.cmdsLeft k.after then s
        else s.modDBind bid fun x =>
          { x with cmds := rest, run := some ⟨k, 0, 0, [], none, s.sideCore b (k.word 1), s.sideCore b (k.word 2)⟩ }
    | some r =>
      let k := r.cmd
      if (k.opc == 2) != fill || s.plat.draining then s
      else if r.ending.isSome then s.completeCommand b r (r.ending.getD 0)
      else
        let code := if r.idx == 0 then k.check r.src r.dst else 0
        if code != 0 then s.endCommand b r code
        else if r.idx ≥ k.total then s.endCommand b r 0
        else if !s.drillRoom b.al || !s.drillTurn b then s
        else
          match s.element b r with
          | .error .held => s.modDBind bid fun x => { x with served := 0, last := s.turn }
          | .error (.code c) => s.endCommand b r c
          | .ok (s, line) =>
            let s := s.modAllot b.al fun a => { a with drillBytes := a.drillBytes + k.esize }
            let lines := match line with | some l => addOnce r.lines l | none => r.lines
            s.modDBind bid fun x =>
              { x.serve k.esize s.turn with run := some { r with idx := r.idx + 1, n := r.n + k.esize, lines } }

/-- A drill works on a copy, or on a command whose code is not assigned (R317). -/
def execDrillCopy (al bid : Nat) (s : State) : Host.Outcome State Fault Refusal :=
  match s.dbind? bid with
  | none => .next s
  | some b => if b.al == al then .next (drillStep false bid s) else .next s

/-- A drill works on a fill (R316, R317). -/
def execDrillFill (al bid : Nat) (s : State) : Host.Outcome State Fault Refusal :=
  match s.dbind? bid with
  | none => .next s
  | some b => if b.al == al then .next (drillStep true bid s) else .next s

end Sys2Proof.Machine
end

