-- ==== Sys2Proof/Machine/Placing.lean ====
section
/-! DEFINITION. Launch records and kernel headers (R290 to R293), resources on a core (R32, R33), the state of a placed block
(R17, R34, R39, R42, R44, R147), eviction of a fallow holder (R345). -/

namespace Sys2Proof.Machine

/-- How the module reads bytes of an allotment's memory: as an `open` of a running gang, or at the home. -/
abbrev Reader := State → Nat → Nat → M (List Byte × State)

/-- The reader of a running gang (R80): line by line. -/
def gangReader (c : Ctx) : Reader := fun s va n => s.readAsOpen c va n

/-- The reader of the module itself, which has no frames. -/
def homeReader (al : Nat) : Reader := fun s va n =>
  match s.translate (engineUnit 0) al va .read with
  | .error cause => trapWith (transTrap cause 0 va .read)
  | .ok (pa, s) => if isPeer pa then trapWith { cause := 0x1B, info1 := va } else .ok (s.mem.readN pa n, s)

/-- A kernel header (R290). -/
def kernelOf (kaddr : Nat) (w : Nat → Nat) (handlers : List Nat) : Kernel :=
  let a := w 1
  let b := w 2
  { kaddr := kaddr, entry := field (w 0) 0 32, trap := field (w 3) 0 32, hoff := field (w 4) 0 32,
    hcount := field (w 4) 32 8, regs := field a 0 6, scal := field a 6 5, lines := field a 11 5, tiles := field a 16 4,
    queues := field a 20 3, scratch := field a 23 9, guard := bitAt a 32, pop := bitAt a 33, inhv := bitAt b 0,
    inhlo := field b 1 6, inhhi := field b 7 6, popa := field b 16 9, popb := field b 25 9, handlers := handlers }

/-- A launch a record gives, not yet entered (R291). -/
def launchOf (k : Kernel) (rec : Nat) (w : Nat → Nat) (args : List W64) : Launch :=
  { lid := 0, recAddr := rec, k := k, grid := field (w 1) 0 32, threads := field (w 1) 32 10, csize := field (w 1) 42 3 + 1,
    mode := field (w 1) 45 2, prio := field (w 1) 47 2, args := args, seed := BitVec.ofNat 64 (w 3),
    spill := BitVec.ofNat 64 (w 4), crec := w 5, node := field (w 6) 0 6, glast := bitAt (w 6) 6, slast := bitAt (w 6) 7,
    jlast := bitAt (w 6) 8, graph := field (w 6) 16 16, stage := field (w 6) 32 16, vi := field (w 6) 48 6, job := 0,
    deps := BitVec.ofNat 64 (w 7), hl := false, dealt := 0, placed := 0, done := 0, exited := 0, faulted := 0, cause := 0,
    clevel := 0, cancelled := false, complete := false, completeNo := 0, startClk := none, recs := [], pstat := 0,
    arrivals := [], stop := none, logOpen := [], chunks := 0, isOver := false, gates := [], fsize := 0, gatemiss := 0,
    hashmiss := 0, hashes := [], inv := [], entered := 0, began := none, failed := false }

/-- Gangs of a block. -/
def gangsOf (threads : Nat) : Nat := (threads + 31) / 32

/-- A right over a range of addresses, page by page. -/
def State.rangeOk (s : State) (unit al lo len : Nat) (need : Need) : Bool :=
  (pagesOf lo len).all fun p =>
    match s.lookup unit al p with
    | .error _ => false
    | .ok (t, _) => (t.missing need).isNone && !isPeer (t.pbase + p % t.size)

/-- Gangs that an empty core takes within an allotment's quota (R33). -/
def gangRoom (slots gran regs : Nat) : Nat := 4 * Nat.min slots (if regs == 0 then slots else gran / regs)

/-- One block's needs fit an empty core within the quota (R33, R292 KIND 9). -/
def Allot.fitsEmpty (a : Allot) (k : Kernel) (threads : Nat) : Bool :=
  let n := gangsOf threads
  n ≤ gangRoom (a.count 0) (a.count 1) k.regs && 8 * k.lines * n ≤ a.count 2 && k.scratch ≤ a.count 3 &&
  k.tiles * n ≤ a.count 4

/-! Levels (R295, R297, R298). -/

def levelCode : Level → Nat
  | .launch => 0 | .graph => 1 | .stage => 2 | .job => 3

/-- The current job of an interface. -/
def Allot.jobOf (a : Allot) (vi : Nat) : Nat := a.jobs.get 0 vi

/-- The launches of a graph of the current job. -/
def Allot.graphOf (a : Allot) (vi stage graph : Nat) : List Launch :=
  a.launches.filter fun l => !l.hl && l.vi == vi && l.job == a.jobOf vi && l.stage == stage && l.graph == graph

def Allot.closedBy (a : Allot) (lv : Level) (vi stage graph : Nat) : Bool :=
  a.closed.any fun c => c.lv == lv && c.vi == vi && c.job == a.jobOf vi &&
    (lv == .job || (c.stage == stage && (lv == .stage || c.graph == graph)))

def Allot.graphClosed (a : Allot) (vi stage graph : Nat) : Bool :=
  a.closedBy .graph vi stage graph || a.closedBy .stage vi stage 0 || a.closedBy .job vi 0 0 ||
  (a.graphOf vi stage graph).any fun l => l.glast

def Allot.graphDone (a : Allot) (vi stage graph : Nat) : Bool :=
  a.graphClosed vi stage graph && (a.graphOf vi stage graph).all fun l => l.complete

/-- The launches of a stage of the current job. -/
def Allot.stageOf (a : Allot) (vi stage : Nat) : List Launch :=
  a.launches.filter fun l => !l.hl && l.vi == vi && l.job == a.jobOf vi && l.stage == stage

def Allot.stageClosed (a : Allot) (vi stage : Nat) : Bool :=
  a.closedBy .stage vi stage 0 || a.closedBy .job vi 0 0 || (a.stageOf vi stage).any fun l => l.slast

def numbers (f : Launch → Nat) (ls : List Launch) : List Nat := (ls.map f).foldl addOnce []

def Allot.stageDone (a : Allot) (vi stage : Nat) : Bool :=
  a.stageClosed vi stage && (numbers (·.graph) (a.stageOf vi stage)).all fun g => a.graphDone vi stage g

def Allot.jobLaunches (a : Allot) (vi : Nat) : List Launch :=
  a.launches.filter fun l => !l.hl && l.vi == vi && l.job == a.jobOf vi

def Allot.jobClosed (a : Allot) (vi : Nat) : Bool := a.closedBy .job vi 0 0 || (a.jobLaunches vi).any fun l => l.jlast

def Allot.jobDone (a : Allot) (vi : Nat) : Bool :=
  a.jobClosed vi && (numbers (·.stage) (a.jobLaunches vi)).all fun g => a.stageDone vi g

/-- The allotment with a new job begun on an interface whose job has completed (R295). -/
def Allot.freshJob (a : Allot) (vi : Nat) : Allot :=
  if a.jobDone vi then { a with jobs := a.jobs.set 0 vi (a.jobOf vi + 1) } else a

/-! The checks of R292. -/

def badRecord (kind rec : Nat) : TrapInfo := { cause := 0x35, kind := kind, info1 := rec }

/-- The words of a furrow header that entry looks at: SIZE, and in a replay STATE with OVER, and RGRID (R326, R327). -/
def State.furrowHead (s : State) (al : Nat) (l : Launch) : List Nat × State :=
  s.moduleWords al (if l.mode == 0 then [] else if l.mode == 1 then [l.fbase] else [l.fbase, l.fbase + 8, l.fbase + 16])

/-- SIZE of a furrow area (R327). -/
def furrowSize (ws : List Nat) : Nat := nth 0 ws 0 % 2 ^ 32

/-- Pages of the furrow area of a record or replay. -/
def Launch.furrowPages (l : Launch) : List Nat := if l.mode == 0 then [] else pagesOf l.fbase l.fsize

/-- The furrow-area checks (R326). -/
def State.furrowOk (s : State) (unit al : Nat) (l : Launch) : Bool :=
  if l.mode == 0 then true
  else
    let ws := (s.furrowHead al l).1
    let size := furrowSize ws
    l.crec != 0 && size % 128 == 0 && size ≥ l.chunkOff + 16 && s.rangeOk unit al l.fbase size .read &&
    s.rangeOk unit al l.fbase size .write &&
    (l.mode == 1 || (nth 0 ws 1 % 4 == 2 && !bitAt (nth 0 ws 1) 2 && nth 0 ws 2 % 2 ^ 32 == l.grid))

/-- The first record check that fails after KIND 0, in R292's order. `top` is the highest class the issuer may name. -/
def State.badKind (s : State) (unit al top : Nat) (l : Launch) (deps : Nat) (argsOk : Bool) (args : Nat) (spill : Nat) :
    Option Nat :=
  let k := l.k
  let a := (s.allot al).freshJob l.vi
  let n32 := 32 * gangsOf l.threads
  if l.grid == 0 || l.threads == 0 || l.threads > 512 || l.mode == 3 || l.grid % l.csize != 0 || l.grid * n32 > 2 ^ 32 ||
      l.prio > top then some 1
  else if args % 128 != 0 || !argsOk then some 2
  else if spill == 0 && k.pop && l.grid > 1 then some 4
  else if l.crec % 128 != 0 || (l.crec != 0 && !s.rangeOk unit al l.crec (128 * (1 + l.grid)) .write) ||
      !s.furrowOk unit al l then some 5
  else if !s.ownsVi al l.vi || (a.graphOf l.vi l.stage l.graph).any (fun x => x.node == l.node) ||
      a.graphClosed l.vi l.stage l.graph || a.stageClosed l.vi l.stage || a.jobClosed l.vi || (l.slast && !l.glast) ||
      (l.jlast && !(l.slast && l.glast)) then some 6
  else if bitAt deps l.node then some 7
  else if k.entry % 8 != 0 || k.entry < 64 then some 8
  else if k.regs == 0 || k.regs > 48 || k.scal > 16 || k.lines > 16 || k.tiles > 8 || k.queues > 4 || k.scratch > 384 ||
      !(s.allot al).fitsEmpty k l.threads then some 9
  else if (k.inhv && k.inhhi ≥ k.regs) || (k.pop && k.popb ≥ 8 * k.regs) || (k.pop && n32 * l.grid > 2 ^ 24) then some 10
  else if k.trap % 8 != 0 then some 11
  else if k.hcount != 0 && k.hoff % 8 != 0 then some 12
  else none

/-- Read the handler table, line by line. -/
def readTable (rd : Reader) (va : Nat) : Nat → State → M (List Nat × State)
  | 0, s => .ok ([], s)
  | n + 1, s => do
    let (bs, s) ← rd s va 8
    let (rest, s) ← readTable rd (va + 8) n s
    pure (ofBytes (bs.take 4) :: rest, s)

/-- Read and check a launch record and what it names (R292, R293): the launch, not yet entered. The headland's record has its
DEPS ignored (R350). -/
def State.readLaunch (s : State) (rd : Reader) (unit al top rec : Nat) (hl : Bool) : M (Launch × State) := do
  trapIf (rec % 64 != 0) (badRecord 0 rec)
  let (bs, s) ← rd s rec 64
  let w := wordAt bs
  let kaddr := w 0
  trapIf (kaddr ≥ 2 ^ 56 || kaddr % 128 != 0) (badRecord 0 rec)
  let (hb, s) ← rd s kaddr 64
  trapIf (!s.rangeOk unit al kaddr 64 .exec) (badRecord 0 rec)
  let args := w 2
  let (ab, argsOk, s) ← (match (if args % 128 == 0 then rd s args 128 else trapWith { cause := 0 }) with
    | .ok (b, s') => .ok (b, true, s')
    | .error (.trap _) => .ok ([], false, s)
    | .error h => .error h : M (List Byte × Bool × State))
  let k := kernelOf kaddr (wordAt hb) []
  let l := launchOf k rec w ((List.range 16).map fun i => BitVec.ofNat 64 (wordAt ab i))
  match s.badKind unit al top l (if hl then 0 else w 7) argsOk args (w 4) with
  | some kind => trapWith (badRecord kind rec)
  | none => do
    let (hs, s) ← readTable rd (kaddr + k.hoff) k.hcount s
    let (ws, s) := s.furrowHead al l
    let l := { l with fsize := furrowSize ws }
    let s := s.touch unit al (pagesOf kaddr 64 ++ (if l.crec == 0 then [] else pagesOf l.crec (128 * (1 + l.grid))) ++ l.furrowPages)
    pure ({ l with k := { k with handlers := hs }, hl := hl, dealt := if hl then l.grid else 0 }, s)

/-! Entering a launch (R293, R326, R330). -/

/-- The chunk that two words make (R328). -/
def chunkOfWords : List Nat → List Chunk
  | w0 :: w1 :: rest => ⟨w0 % 2 ^ 56 / 128 * 128, field w1 0 32, field w1 32 4, field w1 36 3, field w1 40 24⟩ :: chunkOfWords rest
  | _ => []

/-- The chunks a furrow log holds, as far as its area goes. -/
def State.readChunks (s : State) (al : Nat) (l : Launch) : List Chunk × State :=
  let (n, s) := s.moduleWord al (l.fbase + 24)
  let (ws, s) := s.moduleWords al ((List.range (2 * Nat.min n ((l.fsize - l.chunkOff) / 16))).map fun i => l.fbase + l.chunkOff + 8 * i)
  (chunkOfWords ws, s)

/-- What entry writes in the furrow header (R326). -/
def State.enterFurrow (s : State) (al : Nat) (l : Launch) (lid : Nat) : State :=
  if l.mode == 1 then
    (s.moduleWrite al (l.fbase + 8) (toBytes 8 1 ++ toBytes 8 (l.grid + lid * 2 ^ 32))).moduleWrite al (l.fbase + 24)
      (toBytes 8 0 ++ toBytes 8 0 ++ toBytes 8 0)
  else if l.mode == 2 then s.moduleWrite al (l.fbase + 32) (toBytes 8 0 ++ toBytes 8 0)
  else s

/-- The number of an allotment's next launch. Its identifier is the number modulo 2^32 (R293): launches whose identifiers are equal
stay apart. -/
def Allot.nextLid (a : Allot) : Nat := a.lids + 1

/-- The headland block's launch is none that `launch` counts: its number is 0 (assumption 32). -/
def headlandLid : Nat := 0

/-- Enter a launch in its allotment's queue (R293); a mode-2 launch takes an armed precise stop (R371). -/
def State.enter (s : State) (al : Nat) (l : Launch) : State × Nat :=
  let a := s.allot al
  let lid := if l.hl then headlandLid else a.nextLid
  let (chunks, s) := if l.mode == 2 then s.readChunks al l else ([], s)
  let s := s.enterFurrow al l lid
  (s.modAllot al fun a =>
    let a := if l.hl then a else a.freshJob l.vi
    let arm := l.mode == 2 && a.stopwho.getLsbD 63
    { a with lids := if l.hl then a.lids else lid
             stopwho := if arm then a.stopwho &&& 0x7FFFFFFFFFFFFFFF#64 else a.stopwho
             launches := a.launches ++ [{ l with
               lid := lid, job := a.jobOf l.vi, entered := s.turn, gates := chunks,
               stop := if arm then some (a.stopwho, a.stopcnt) else none }] }, lid)

/-! Units of a core (R32, R33, R336, R345). A number names a unit of its core: granule g of scheduler j 128 j + g, row r 512 + r,
tile slot t 1024 + t, gang slot k of the core 2048 + k, the eight frames of a line register 4096 + f. -/

/-- The units of a range item of an allotment's quota, of one scheduler where the item is by scheduler (R336). -/
def Allot.unitRange (a : Allot) (item sched : Nat) : List Nat :=
  let b := a.base item
  let n := a.count item
  match item with
  | 0 => (List.range n).map fun i => 2048 + 16 * sched + b + i
  | 1 => (List.range n).map fun i => 128 * sched + b + i
  | 2 => (List.range (n / 8)).map fun i => 4096 + b / 8 + i
  | 3 => (List.range n).map fun i => 512 + b + i
  | _ => (List.range n).map fun i => 1024 + b + i

/-- Units that are not spilled. -/
def present (units away : List Nat) : List Nat := units.filter fun u => !away.contains u

/-- The gangs of an allotment on a core, ended ones of a running block too. -/
def State.gangsHere (s : State) (al core : Nat) : List Gang :=
  s.gangs.filter fun g => g.core == core && (s.block? g.blk).any fun (b : Block) => b.al == al

/-- The blocks of an allotment on a core. -/
def State.blocksHere (s : State) (al core : Nat) : List Block := s.blocks.filter fun b => b.al == al && b.core == core

/-- The held ranges of an allotment on a core (R42). -/
def State.heldHere (s : State) (al core : Nat) : List Held := (s.core core).held.filter fun h => h.al == al

/-- The granules of a held range. -/
def Held.units (h : Held) : List Nat := h.gangs.flatMap fun g => g.units

/-- The units of a core that an allotment holds: its gangs', its blocks', its held ranges' but for those about to be taken (R33,
R42). -/
def State.unitsOf (s : State) (al core : Nat) (take : List Held) : List Nat :=
  ((s.gangsHere al core).flatMap fun g => present g.units g.away) ++
  ((s.blocksHere al core).flatMap fun b => present b.units b.away) ++
  (((s.heldHere al core).filter fun h => !take.any fun x => x.blk == h.blk).flatMap fun h => present h.units h.away)

/-- The free units of an item that an allotment may take, in ascending order, those last that a FALLOW allotment holds (the spec does
not say which are taken: assumption 79). -/
def State.freeUnits (s : State) (al core item sched : Nat) (take : List Held) : List Nat :=
  let mine := s.unitsOf al core take
  let theirs := ((List.range 16).filter (· != al)).flatMap fun v => s.unitsOf v core []
  let free := ((s.allot al).unitRange item sched).filter fun u => !mine.contains u
  (free.filter fun u => !theirs.contains u) ++ free.filter theirs.contains

/-- The gang slots of a scheduler that an allotment may take. -/
def State.freeSlots (s : State) (al core sched : Nat) : List Nat := (s.freeUnits al core 0 sched []).map (· - 2048)

/-- The held ranges that `n` blocks of a launch take on a core: the oldest (R42). -/
def State.heldFor (s : State) (al core : Nat) (l : Launch) (n : Nat) : List Held :=
  if l.k.inhv then ((s.heldHere al core).filter fun h => h.lid == l.lid).take n else []

/-- Slots for gangs of a kernel: the lowest scheduler and the lowest slot first. R18 leaves both open (assumption 79). -/
def State.slotsFor (s : State) (al core : Nat) (k : Kernel) (take : List Held) : List Nat :=
  (List.range 4).flatMap fun j =>
    (s.freeSlots al core j).take (if k.regs == 0 then 16 else (s.freeUnits al core 1 j take).length / k.regs)

/-- How many blocks of a kernel a core takes now (R33). -/
def State.blockRoom (s : State) (al core : Nat) (k : Kernel) (n : Nat) (take : List Held) : Nat :=
  let lim := fun (item need : Nat) => if need == 0 then 64 else (s.freeUnits al core item 0 []).length / need
  Nat.min (Nat.min ((s.slotsFor al core k take).length / Nat.max n 1) (lim 2 (k.lines * n)))
    (Nat.min (lim 3 k.scratch) (lim 4 (k.tiles * n)))

/-- Free gang slots of a core in the quota (R305). -/
def State.freeSlotCount (s : State) (al core : Nat) : Nat :=
  sumNat ((List.range 4).map fun j => (s.freeSlots al core j).length)

/-! Save areas (R345, R349). -/

/-- Bytes that an enabled core takes in an allotment's save area (R349). -/
def Allot.saveBytes (a : Allot) : Nat := 4096 * a.count 1 + 1024 * a.count 3 + 4096 * a.count 4 + 2048 * a.count 0

/-- Where a unit lies in the save area: core by core, the granules, rows, tile slots and gang slots of the quota's ranges (the spec
gives the sizes alone: assumption 14). A frame has no place. -/
def State.savePlace (s : State) (al core u : Nat) : Option Nat :=
  let a := s.allot al
  let at0 := field a.save.toNat 20 36 * 2 ^ 20 + (s.enabled.filter fun c => c < core).length * a.saveBytes
  let row0 := at0 + 4096 * a.count 1
  let tile0 := row0 + 1024 * a.count 3
  if u < 512 then some (at0 + 4096 * (u % 128 - a.base 1) + 1024 * (u / 128))
  else if u < 1024 then some (row0 + 1024 * (u - 512 - a.base 3))
  else if u < 2048 then some (tile0 + 4096 * (u - 1024 - a.base 4))
  else if u < 4096 then some (tile0 + 4096 * a.count 4 + 2048 * (u % 16 - a.base 0) + 512 * ((u - 2048) / 16))
  else none

/-- Copy units to the save area, each with its image. -/
def State.saveUnits (s : State) (al core : Nat) (us : List (Nat × List Byte)) : State :=
  us.foldl (fun s x => match s.savePlace al core x.1 with | some a => s.homeBytes a x.2 | none => s) s

/-- The image of eight vector registers from `n` up: register by register, lane by lane. -/
def granuleBytes (v : Store W32) (n : Nat) : List Byte :=
  (List.range 256).flatMap fun i => toBytes 4 (v.get 0#32 (32 * n + i)).toNat

/-- A unit's index among the units of its kind. -/
def unitIndex (units : List Nat) (lo hi u : Nat) : Nat := (units.filter fun x => lo ≤ x && x < hi).idxOf u

/-- The image of an accumulator of a tile slot (R247). -/
def Gang.tileBytes (g : Gang) (tile quarter : Nat) : List Byte :=
  (List.range 256).flatMap fun i => toBytes 4 (g.tiles.get 0#32 (256 * (4 * tile + quarter) + i)).toNat

/-- The image of a unit of a gang. Of a gang slot R345 says what it holds and not how: its bytes are free (assumption 14). A tile's
accumulators are saved where they are dirty (R249). -/
def Gang.image (g : Gang) (free u : Nat) : List Byte :=
  if u < 512 then granuleBytes g.v (8 * unitIndex g.units 0 512 u)
  else if u < 2048 then (if g.tdirty == 0#32 then [] else
    (List.range 4).flatMap fun j => g.tileBytes (unitIndex g.units 1024 2048 u) j)
  else (List.range 64).flatMap fun i => toBytes 8 (Config.freeWord free 11 (64 * (u % 64) + i)).toNat

/-! Eviction of a fallow holder's units (R345): only those that are claimed. -/

/-- The entries that some line registers of a gang hold. -/
def Gang.heldBy (g : Gang) (lns : List Nat) : List Nat := g.recalledEntries fun ln _ => lns.contains ln

/-- Units of a gang are spilled: the entries in claimed frames are written back and recalled with reason 3 from every register with a
reference to them (R90), the other units copied. Line register K of the gang has the K-th eight of its frames (assumption 14). -/
def State.spillGang (s : State) (al : Nat) (g : Gang) (us : List Nat) : State :=
  if us.isEmpty then s
  else
    let lns := (us.filter fun u => 4096 ≤ u).map fun u => unitIndex g.units 4096 8192 u
    let s := if lns.isEmpty then s else s.flushRecall g.core (fun x ln r =>
      x.uid == g.uid && lns.contains ln || r.entry.any (g.heldBy lns).contains) 3
    let s := s.saveUnits al g.core ((us.filter fun u => u < 4096).map fun u => (u, g.image s.free u))
    (s.modGang g.uid fun x =>
      { x with away := us ++ x.away, spilled := x.spilled || us.any fun u => 2048 ≤ u && u < 4096 }).signal g.core 29 al

/-- Rows of a block are spilled. -/
def State.spillBlock (s : State) (b : Block) (us : List Nat) : State :=
  if us.isEmpty then s
  else
    let s := s.saveUnits b.al b.core (us.map fun u => (u, b.rowBytes (1024 * b.units.idxOf u) 1024))
    (s.modBlock b.uid fun x => { x with away := us ++ x.away }).signal b.core 29 b.al

/-- The image of a granule of a held range. -/
def Held.image (h : Held) (inhlo u : Nat) : List Byte :=
  match h.gangs.find? fun g => g.units.contains u with
  | some g => granuleBytes g.regs (8 * (inhlo + g.units.idxOf u))
  | none => []

/-- Granules of a held range are spilled, like those of a gang (R43). -/
def State.spillHeld (s : State) (core : Nat) (h : Held) (us : List Nat) : State :=
  if us.isEmpty then s
  else
    let lo := ((s.launch? h.al h.lid).map fun (l : Launch) => l.k.inhlo).getD 0
    let s := s.saveUnits h.al core (us.map fun u => (u, h.image lo u))
    (s.modCore core fun c => { c with held := modWhere (fun x => x.blk == h.blk) (fun x => { x with away := us ++ x.away }) c.held }).signal
      core 29 h.al

/-- What an allotment holds of some units of a core is spilled. -/
def State.spillUnits (s : State) (al core : Nat) (claimed : List Nat) : State :=
  let hit := fun (units away : List Nat) => (present units away).filter claimed.contains
  let s := (s.gangsHere al core).foldl (fun s g => s.spillGang al g (hit g.units g.away)) s
  let s := (s.blocksHere al core).foldl (fun s b => s.spillBlock b (hit b.units b.away)) s
  (s.heldHere al core).foldl (fun s h => s.spillHeld core h (hit h.units h.away)) s

/-- An allotment claims units of a core: what others hold of them is evicted. -/
def State.claim (s : State) (al core : Nat) (us : List Nat) : State :=
  ((List.range 16).filter (· != al)).foldl (fun s v => s.spillUnits v core us) s

/-! Placed blocks. -/

/-- `lineage` at placement (R39); a handler block's gang, whose popid R311 makes all ones, reads 0 (assumption 79). -/
def lineageAt (pop : Bool) (id : Nat) : W64 := if pop then BitVec.ofNat 64 (id + id * 2 ^ 24) else 0

/-- A gang at placement (R34). `units` are the units of the core that it reserves, its granules first; `v` holds an inherited range, or
a message. Its slices have acquired at this turn (R155). -/
def Gang.placed (uid : Nat) (b : Block) (gid slot entry turn clock : Nat) (live : LaneMask) (args : List W64) (units : List Nat)
    (v : Store W32) : Gang :=
  let ks := slicesIn live
  { uid := uid, blk := b.uid, gid := gid, core := b.core, slot := slot, live := live, active := live,
    slices := (List.range 8).map fun k => if ks.contains k then { pc := entry } else {},
    groups := if ks.isEmpty then [] else [{ slices := ks, readySince := some clock }],
    v := v, uniV := [],
    s := Store.setMany 0#64 [] ((List.range (Nat.min 16 (4 * b.k.scal))).map fun i => (i, nth 0#64 args i)),
    p := [], lineage := Store.setMany 0#64 [] ((lanesOf live).map fun l => (l, lineageAt (b.k.pop && !b.handler) (popidOf b gid l))),
    refs := [], tiles := [], tvalid := 0, tdirty := 0, qb := [], joins := [], gfault := 0, fflag := 0, shadows := [], busy := [],
    seen := List.replicate 8 { last := turn, ord := 0, heard := 0 }, lateStores := [], lateLoads := [],
    floor := turn, stored := [], isOver := false, endCause := 0, born := live, units := units, away := [], spilled := false }

/-- Live lanes of gang `g` of a block (R17). -/
def liveOf (threads g : Nat) : LaneMask := maskOf ((List.range 32).filter fun l => 32 * g + l < threads)

/-- The entries of a core that an acquire marks stale (R155). -/
def State.markStale (s : State) (core : Nat) : State :=
  let free := fun (e : Entry) => s.holders core e.id == 0 && !e.inv
  s.modCore core fun c => { c with entries := modWhere free (fun e => { e with stale := true }) c.entries }

/-- A block to place. -/
structure Spot where
  core : Nat
  slots : List Nat
  bid : Nat
  cpos : Nat
  deriving DecidableEq, Repr, Inhabited

/-- The granules that a gang of a new block keeps of a held range, where its scheduler is the same (R42). -/
def keptUnits (held : Option Held) (gid slot : Nat) : List Nat :=
  match held.bind fun (h : Held) => h.gangs.find? fun x => x.gid == gid && x.sched == slot / 16 with
  | some x => x.units
  | none => []

/-- The units of the gangs of a kernel on the slots given: granules, the kept ones in their place, tile slots, the slot, frames. -/
def State.pickUnits (s : State) (al core : Nat) (k : Kernel) (held : Option Held) : Nat → List Nat → List Nat → List (List Nat)
  | _, [], _ => []
  | gid, slot :: rest, taken =>
    let pool := fun (item n : Nat) => ((s.freeUnits al core item (slot / 16) []).filter fun u => !taken.contains u).take n
    let kept := keptUnits held gid slot
    let new := pool 1 (k.regs - kept.length)
    let gran := if kept.isEmpty then new else new.take k.inhlo ++ kept ++ new.drop k.inhlo
    let us := gran ++ pool 4 k.tiles ++ [2048 + slot] ++ pool 2 k.lines
    us :: s.pickUnits al core k held (gid + 1) rest (us ++ taken)

/-- The registers that a gang of a new block receives of a held range (R42). -/
def inheritedRegs (held : Option Held) (gid : Nat) : Store W32 :=
  match held.bind fun (h : Held) => h.gangs.find? fun x => x.gid == gid with
  | some x => x.regs
  | none => []

/-- The units belong to a launch from now on (R138). -/
def State.tagUnits (s : State) (al lid core : Nat) (us : List Nat) : State :=
  s.modCore core fun c => { c with tags := Store.setMany 0 c.tags ((us.filter fun u => u < 2048).map fun u => (u, ownerTag al lid)) }

/-- Put a block with its gangs on its core: units are chosen and claimed, then the gangs begin, with the acquire of their slices (R33,
R34, R42, R294). `mk` makes gang `g` from its number and its units. -/
def State.seat (s : State) (b : Block) (held : Option Held) (slots : List Nat) (mk : Block → Nat → List Nat → Gang) : State :=
  let s := match held with
    | some h => s.modCore b.core fun c => { c with held := c.held.filter fun x => x.blk != h.blk }
    | none => s
  let kept := (List.range slots.length).flatMap fun g => keptUnits held g (nth 0 slots g)
  let gus := s.pickUnits b.al b.core b.k held 0 slots kept
  let rows := (s.freeUnits b.al b.core 3 0 []).take b.k.scratch
  let all := gus.flatten ++ rows
  let s := (s.claim b.al b.core all).tagUnits b.al b.lid b.core all
  let b := { b with units := rows }
  let gs := (List.range slots.length).map fun g => mk b g (nth [] gus g)
  let s := { s with nextUid := b.uid + 1 + slots.length, blocks := s.blocks ++ [b], gangs := s.gangs ++ gs }
  gs.foldl (fun s g => s.record b.core 1 b.al g.slot 0 0 (BitVec.ofNat 64 (b.lid % 2 ^ 32 + b.bid * 2 ^ 32))) (s.markStale b.core)

/-- A block before its gangs are there. -/
def Block.fresh (uid al core : Nat) (l : Launch) (bid : Nat) : Block :=
  { uid := uid, al := al, lid := l.lid, core := core, bid := bid, headland := false, handler := false,
    ngang := gangsOf l.threads, threads := l.threads, cpos := 0, csize := 1, cluster := 0,
    clmap := 0, chain := false, k := l.k, rows := [], guardUp := l.k.guard, bars := [], raws := [], hq := [],
    hqDrop := 0, ended := false, units := [], away := [], started := true }

/-- CLMAP where a block is alone at position 0 (R44, R147, R311). -/
def State.clmapAlone (s : State) (al core : Nat) : W64 := BitVec.ofNat 64 (8 + s.logicalCore al core % 4)

/-- Place one block of a launch (R34, R42, R294): its gangs, an inherited range if one is held, the acquire its slices perform. -/
def State.placeBlock (s : State) (al : Nat) (l : Launch) (p : Spot) (cluster : Nat) (clmap : W64) (hl : Bool) : State :=
  let held := (s.heldFor al p.core l 1).head?
  let uid := s.nextUid
  let b := { Block.fresh uid al p.core l p.bid with
    headland := hl, cpos := p.cpos, csize := l.csize, cluster := cluster, clmap := clmap, chain := held.isSome }
  let turn := s.turn
  let clock := s.clock
  let s := s.seat b held (p.slots.take b.ngang) fun b g us =>
    Gang.placed (uid + 1 + g) b g (nth 0 p.slots g) (l.k.kaddr + l.k.entry) turn clock (liveOf l.threads g) l.args us
      (inheritedRegs held g)
  let clk := (s.allot al).vclk.toNat
  s.modLaunch al l.lid fun x =>
    { x with placed := x.placed + 1, startClk := some (x.startClk.getD clk), began := some (x.began.getD turn) }

/-- CLMAP of a cluster (R147). -/
def State.clmapOf (s : State) (al : Nat) (ps : List Spot) : W64 :=
  BitVec.ofNat 64 (sumNat (ps.map fun p =>
    let slot := (ps.filter fun q => q.core == p.core && q.cpos < p.cpos).length
    (s.logicalCore al p.core % 4 + 4 * slot + 8) * 2 ^ (4 * p.cpos)))

/-- Place a whole cluster (R146). -/
def State.placeCluster (s : State) (al : Nat) (l : Launch) (ps : List Spot) : State :=
  let id := if l.csize > 1 then s.nextUid else 0
  let m := s.clmapOf al ps
  ps.foldl (fun s p => s.placeBlock al l p id m false) s

end Sys2Proof.Machine
end

