-- ==== Sys2Proof/Machine/Work.lean ====
section
/-! DEFINITION. The work family (R293, R301, R302, R310, R313), dealing, placing, stealing and completing (R296, R299, R304 to
R306, R311, R329, R333), promotion (R307). -/

namespace Sys2Proof.Machine

/-! Dependences (R296). -/

/-- The launches of the allotment that are nodes of a launch's graph. -/
def Allot.peersOf (a : Allot) (l : Launch) : List Launch :=
  a.launches.filter fun x => !x.hl && x.vi == l.vi && x.job == l.job && x.stage == l.stage && x.graph == l.graph

/-- Among (order of ending, cause) pairs, the first nonzero cause, 0 for none. -/
def firstCause (xs : List (Nat × Nat)) : Nat :=
  (xs.foldl (fun acc x =>
    if x.2 == 0 then acc
    else match acc with
      | none => some x
      | some y => if x.1 < y.1 then some x else some y) (none : Option (Nat × Nat))).elim 0 fun x => x.2

/-- The cause of the first dependence that completed with one. -/
def Allot.failedDep (a : Allot) (l : Launch) : Nat :=
  firstCause (((a.peersOf l).filter fun x => x.complete && l.deps.getLsbD x.node).map fun x => (x.completeNo, x.cause))

/-- Every named node has been entered and has completed. -/
def Allot.depsMet (a : Allot) (l : Launch) : Bool :=
  (List.range 64).all fun n => !l.deps.getLsbD n || (a.peersOf l).any fun x => x.node == n && x.complete

/-- Cancel, at the launch level, the launches whose dependence completed with a nonzero cause (R296). -/
def Allot.propagate (a : Allot) : Allot :=
  { a with launches := a.launches.map fun l =>
      let k := a.failedDep l
      if l.complete || l.cancelled || l.hl || k == 0 then l
      else { l with cancelled := true, cause := k, clevel := if k == 0x34 then 1 else 0 } }

/-! `launch` (R293). -/

/-- Launches of the queue that are not complete. -/
def Allot.queued (a : Allot) : Nat := (a.launches.filter fun l => !l.complete && !l.hl).length

/-- The highest class the issuer may name (R292, KIND 1). -/
def State.topClass (s : State) (c : Ctx) : Nat :=
  let q := (s.allot c.al).item 11
  if c.headland then q else Nat.min q (((s.launch? c.al c.blk.lid).map fun (l : Launch) => l.prio).getD 0)

/-- What a `launch` that does not complete leaves: a waiting one its publish, one that meets a damaged line the end of its launch (R140,
R293). -/
def launchBase (s : State) (c : Ctx) (e : LaneMask) : Halt → State
  | .wait => publishBase .device true false s c e .wait
  | .trap t => damageBase s c e (.trap t)
  | .damage kind line => damageBase s c e (.damage kind line)

/-- `launch` (R292, R293): the publish, the record, then the queue, where it waits while the queue is full. -/
def execLaunch (h : Hdr) (sd sa : Nat) (s : State) : Host.Outcome State Fault Refusal :=
  runWordWith launchBase .plain h [⟨fD, .s sd⟩, ⟨fA, .s sa⟩] (fun s c e => do
    if e == 0#32 then pure s
    else do
      let rec' := (s.readS c.gang sa).toNat
      let s ← s.settled c (slicesIn e) true
      let s ← s.publish c .device (slicesIn e)
      let (l, s) ← s.readLaunch (gangReader c) c.core c.al (s.topClass c) rec' false
      waitIf ((s.allot c.al).queued ≥ 4096)
      let (s, lid) := s.enter c.al l
      let s := s.modAllot c.al Allot.propagate
      s.writeDst c false true 0 e (.s sd) fun _ => BitVec.ofNat 64 (lid % 2 ^ 32)) s

/-! Levels as `cread` and `cancel` name them (R297, R298). -/

/-- The launch an identifier names, the latest of those it has named, while its status is kept. -/
def Allot.launchNamed (a : Allot) (id : Nat) : Option Launch :=
  a.launches.reverse.find? fun l => !l.hl && l.lid % 2 ^ 32 == id && (!l.complete || a.completions < l.completeNo + 4096)

/-- The launches of the current level an identifier names: none where it names no current level. -/
def Allot.levelOf (a : Allot) (lv : Level) (id : Nat) : List Launch :=
  let vi := field id 32 6
  let stage := field id 16 16
  let graph := field id 0 16
  match lv with
  | .launch => (a.launchNamed id).toList
  | .graph => if id ≥ 2 ^ 38 then [] else a.graphOf vi stage graph
  | .stage => if id ≥ 2 ^ 38 || graph != 0 then [] else a.stageOf vi stage
  | .job => if id ≥ 2 ^ 38 || id % 2 ^ 32 != 0 then [] else a.jobLaunches vi

/-- When a set of launches ended, and with which first cause. -/
def endOf (ls : List Launch) : Nat × Nat :=
  ((ls.map fun l => l.completeNo).foldl Nat.max 0, firstCause ((ls.filter fun l => l.complete).map fun l => (l.completeNo, l.cause)))

/-- The status word of R297 for a level. -/
def Allot.status (a : Allot) (lv : Level) (id : Nat) : W64 :=
  let vi := field id 32 6
  let stage := field id 16 16
  let word := fun (done : Nat) (closed complete : Bool) (cause : Nat) =>
    BitVec.ofNat 64 (packFields [(32, done), (1, b2n closed), (1, b2n complete), (1, 0), (6, cause)])
  let ls := a.levelOf lv id
  match ls with
  | [] => 0x400000000#64
  | l :: _ =>
    match lv with
    | .launch => word l.done true l.complete l.cause
    | .graph =>
      let g := field id 0 16
      word (ls.filter fun x => x.complete).length (a.graphClosed vi stage g) (a.graphDone vi stage g) (endOf ls).2
    | .stage =>
      let gs := (numbers (·.graph) ls).filter fun g => a.graphDone vi stage g
      word gs.length (a.stageClosed vi stage) (a.stageDone vi stage)
        (firstCause (gs.map fun g => endOf (a.graphOf vi stage g)))
    | .job =>
      let gs := (numbers (·.stage) ls).filter fun g => a.stageDone vi g
      word gs.length (a.jobClosed vi) (a.jobDone vi) (firstCause (gs.map fun g => endOf (a.stageOf vi g)))

/-- COMPLETE of a status word. -/
def statusDone (w : W64) : Bool := w.getLsbD 33

/-- `cread` (R301). -/
def execCread (h : Hdr) (lv : Level) (d : Dst) (sa : Nat) (s : State) : Host.Outcome State Fault Refusal :=
  runWord .plain h (d.uses true ++ [⟨fA, .s sa⟩]) (fun s c e => do
    if e == 0#32 then pure s
    else do
      let w := (s.allot c.al).status lv (s.readS c.gang sa).toNat
      let s ← if statusDone w then s.settled c (slicesIn e) true else pure s
      let s ← s.writeDst c false true 0 e d fun _ => w
      pure (if statusDone w then s.acquire c .device (slicesIn e) else s)) s

/-- Close the level that a cancel ends (R302). -/
def Allot.closeLevel (a : Allot) (lv : Level) (id : Nat) : Allot :=
  let vi := field id 32 6
  let k : Closed :=
    { lv := lv, vi := vi, job := a.jobOf vi, stage := if lv == .job then 0 else field id 16 16,
      graph := if lv == .graph then field id 0 16 else 0 }
  if lv == .launch || a.closed.contains k then a else { a with closed := k :: a.closed }

/-- End every member of a level (R302). -/
def State.cancelLevel (s : State) (c : Ctx) (lv : Level) (id : Nat) : State :=
  let ls := ((s.allot c.al).levelOf lv id).filter fun l => !l.complete
  let s := s.modAllot c.al fun a => a.closeLevel lv id
  ls.foldl (fun s l =>
    (s.record c.core 6 c.al c.gang.slot c.grp.low (levelCode lv + 1) (BitVec.ofNat 64 (l.lid % 2 ^ 32))).endLaunch c.al l.lid 0x34
      (levelCode lv + 1)) s

/-- `cancel` (R302): the group parks until the level is complete; a gang of the level ends with it. -/
def execCancel (h : Hdr) (lv : Level) (sa : Nat) (s : State) : Host.Outcome State Fault Refusal :=
  runWord .plain h [⟨fA, .s sa⟩] (fun s c e => do
    if e == 0#32 then pure s
    else
      let id := s.readS c.gang sa
      let a := s.allot c.al
      if (a.levelOf lv id.toNat).isEmpty || statusDone (a.status lv id.toNat) then pure s
      else
        let s := s.cancelLevel c lv id.toNat
        if statusDone ((s.allot c.al).status lv id.toNat) then pure s else pure (s.park c (.cancel lv id) none)) s

/-! Active messages (R310, R311). -/

/-- The 64 bytes a message carries: vC to vC + 3 of the four lanes of a slice, zero where a lane is not enabled. -/
def State.payload (s : State) (c : Ctx) (e : LaneMask) (k v : Nat) : Store W32 :=
  Store.setMany 0#32 [] ((List.range 16).map fun i =>
    (32 * (i / 4) + i % 4, if e.getLsbD (4 * k + i % 4) then s.readV c.gang (v + i / 4) (4 * k + i % 4) else 0#32))

/-- `amsend` (R310). -/
def execAmsend (h : Hdr) (pd : Nat) (a b : Src) (v : Nat) (s : State) : Host.Outcome State Fault Refusal :=
  runWordWith (fun s c e => publishBase .device true (awaitsPop c [a, b] s) s c e) .plain h
    ((⟨fD, .p pd⟩ : Use) :: a.uses fA false ++ b.uses fB false ++ dataUses fC .b128 v) (fun s c e => do
    if e == 0#32 then pure s
    else do
      let (os, s) ← popAll c [a, b] s
      let core := (s.lowVal c e false (os.headD ⟨.zero, none⟩)).toNat
      let idx := (s.lowVal c e false (nth ⟨.zero, none⟩ os 1)).toNat
      match s.place c.al 2 core with
      | none => trapWith { cause := 0x09, fld := fA, info1 := core }
      | some phys => do
        trapIf (idx ≥ c.blk.k.hcount) { cause := 0x37, lane := lowLane e, info1 := idx }
        let s ← s.settled c (slicesIn e) true
        let s ← s.publish c .device (slicesIn e)
        let full := ((s.core phys).sower.filter fun m => m.al == c.al).length ≥ 64
        let m : Msg :=
          { al := c.al, lid := c.blk.lid, handler := idx, payload := s.payload c e ((slicesIn e).headD 0) v }
        let s := if full then s else s.modCore phys fun x => { x with sower := x.sower ++ [m] }
        pure (s.writePred c false 0 e pd fun _ => !full)) s

/-- The handler block of a message (R311): one gang, whose lanes 0 to 3 are live, alone at position 0 (R147). -/
def State.placeHandler (s : State) (core : Nat) (l : Launch) (m : Msg) (slot : Nat) : State :=
  let uid := s.nextUid
  let b := { Block.fresh uid m.al core l 0xFFFFFFFF with
    handler := true, ngang := 1, threads := 4, clmap := s.clmapAlone m.al core }
  let entry := l.k.kaddr + nth 0 l.k.handlers m.handler
  let turn := s.turn
  let clock := s.clock
  s.seat b none [slot] fun b _ us => Gang.placed (uid + 1) b 0 slot entry turn clock 0xF#32 l.args us m.payload

/-- The first message of each launch in a list. -/
def firstOfLaunches : List Msg → List Nat → List Msg
  | [], _ => []
  | m :: ms, seen => if seen.contains m.lid then firstOfLaunches ms seen else m :: firstOfLaunches ms (m.lid :: seen)

/-- A sower spawns a handler block for its oldest message that fits (R311). -/
def execHandlerSpawn (core al : Nat) (s : State) : Host.Outcome State Fault Refusal :=
  let ms := firstOfLaunches ((s.core core).sower.filter fun m => m.al == al) []
  let fits := fun (m : Msg) => (s.launch? al m.lid).any fun l => s.blockRoom al core l.k 1 [] > 0
  if (s.allot al).st != .running then .next s
  else
    match ms.find? fits with
    | none => .next s
    | some m =>
      match s.launch? al m.lid with
      | none => .next s
      | some l =>
        let slot := (s.slotsFor al core l.k []).headD 0
        .next ((s.modCore core fun x => { x with sower := x.sower.erase m }).placeHandler core l m slot)

/-! Dealing and placing (R304, R305). -/

/-- The enabled cores of a logical die of an allotment: logical and physical number. -/
def State.coresOf (s : State) (al die : Nat) : List (Nat × Nat) :=
  (List.range 48).filterMap fun i =>
    match s.place al 2 (48 * die + i) with
    | some p => if s.enabled.contains p then some (48 * die + i, p) else none
    | none => none

/-- How many blocks of a launch a core takes now; each takes the oldest range that the core still holds (R33, R42). -/
def State.roomFor (s : State) (al : Nat) (l : Launch) (phys : Nat) : Nat :=
  let room := fun (n : Nat) => s.blockRoom al phys l.k (gangsOf l.threads) (s.heldFor al phys l n)
  if l.k.inhv then ((List.range 64).takeWhile fun i => room (i + 1) ≥ i + 1).length else room 0

/-- The cores of a logical field. -/
def fieldOf (cs : List (Nat × Nat)) (f : Nat) : List (Nat × Nat) := cs.filter fun x => x.1 / 4 == f

/-- The physical cores among places, each once: a place table may name one core twice. -/
def physOf (cs : List (Nat × Nat)) : List Nat := (cs.map (·.2)).foldl addOnce []

/-- Blocks that a field takes at once in whole clusters: at most two on a core (R146). -/
def State.fieldRoom (s : State) (al : Nat) (l : Launch) (cs : List (Nat × Nat)) : Nat :=
  sumNat ((physOf cs).map fun p => Nat.min 2 (s.roomFor al l p)) / l.csize * l.csize

/-- Blocks of a launch that a die takes at once. -/
def State.dieRoom (s : State) (al : Nat) (l : Launch) (die : Nat) : Nat :=
  let cs := s.coresOf al die
  if l.csize == 1 then sumNat ((physOf cs).map fun p => s.roomFor al l p)
  else sumNat ((List.range 12).map fun i => s.fieldRoom al l (fieldOf cs (12 * die + i)))

/-- Batches beyond what a capacity places at once. -/
def batchesBeyond : Nat → List Batch → Nat
  | _, [] => 0
  | cap, b :: bs =>
    let n := b.hi - b.lo
    if n ≤ cap then batchesBeyond (cap - n) bs else 1 + batchesBeyond 0 bs

/-- Blocks to a batch (R304). -/
def batchSize (csize : Nat) : Nat := 64 / csize * csize

/-- The launches of an allotment that wait at the package dispatcher. -/
def Allot.waiting (a : Allot) : List Launch :=
  a.launches.filter fun l => !l.hl && !l.complete && !l.cancelled && l.dealt < l.grid && a.depsMet l

/-- Launches at the package dispatcher, in the order they entered (R304). -/
def State.waiting (s : State) : List (Nat × Launch) :=
  let all := (List.range 16).flatMap fun al =>
    if (s.allot al).st == .running then ((s.allot al).waiting).map fun l => (al, l) else []
  all.mergeSort fun x y => x.2.entered ≤ y.2.entered

/-- The die that an allotment's logical die is (R70). Dispatchers are the dies' own, whatever an allotment calls them. -/
def State.dieOf (s : State) (al d : Nat) : Nat := (s.place al 0 d).getD d

/-- The batches that a die holds, every allotment's. -/
def State.batchesOn (s : State) (die : Nat) : List Batch := s.batches.filter fun b => s.dieOf b.al b.die == die

/-- The die that the next batch of a launch goes to: rotation, skipping what is full (R304). -/
def State.dealTo (s : State) (al : Nat) (l : Launch) : Option Nat :=
  ((List.range 4).map fun i => (s.plat.dealDie + i) % 4).find? fun d =>
    batchesBeyond (s.dieRoom al l d) (s.batchesOn (s.dieOf al d)) < 2

/-- The package dispatcher deals one batch (R304). -/
def execBatchDeal (s : State) : Host.Outcome State Fault Refusal :=
  match s.waiting.findSome? fun x => (s.dealTo x.1 x.2).map fun d => (x.1, x.2, d) with
  | none => .next s
  | some (al, l, d) =>
    let hi := Nat.min l.grid (l.dealt + batchSize l.csize)
    let b : Batch := ⟨al, l.lid, d, l.dealt, hi⟩
    let plat := { s.plat with dealDie := (d + 1) % 4 }
    .next ({ s with batches := s.batches ++ [b], plat := plat }.modLaunch al l.lid fun x => { x with dealt := hi })

/-- The element with the greatest score, the first on a tie. -/
def bestBy {α : Type} (score : α → Nat) : List α → Option α
  | [] => none
  | x :: xs =>
    match bestBy score xs with
    | none => some x
    | some y => if score x ≥ score y then some x else some y

/-- The place of a single block (R305): most free gang slots, lowest logical core. -/
def State.spotFor (s : State) (al : Nat) (l : Launch) (die bid : Nat) : Option Spot :=
  let fit := (s.coresOf al die).filter fun x => s.roomFor al l x.2 > 0
  (bestBy (fun x => s.freeSlotCount al x.2) fit).map fun x =>
    ⟨x.2, (s.slotsFor al x.2 l.k (s.heldFor al x.2 l 1)).take (gangsOf l.threads), bid, 0⟩

/-- The places of a cluster within a field, position by position: each position takes the core with most free gang slots that has room,
the lowest on a tie (R146 leaves it open; assumption 79). -/
def State.spotsIn (s : State) (al : Nat) (l : Launch) (cs : List (Nat × Nat)) (lo : Nat) : Nat → List Spot → List Spot
  | 0, acc => acc
  | m + 1, acc =>
    let n := gangsOf l.threads
    let used := fun (p : Nat) => (acc.filter fun q => q.core == p).length
    let fit := cs.filter fun x => used x.2 < Nat.min 2 (s.roomFor al l x.2)
    match bestBy (fun x => s.freeSlotCount al x.2 - n * used x.2) fit with
    | none => acc
    | some x =>
      let gone := (acc.filter fun q => q.core == x.2).flatMap fun q => q.slots
      let free := (s.slotsFor al x.2 l.k (s.heldFor al x.2 l (used x.2 + 1))).filter fun k => !gone.contains k
      let slots := free.take n
      s.spotsIn al l cs lo m (acc ++ [(⟨x.2, slots, lo + acc.length, acc.length⟩ : Spot)])

/-- The places of a cluster (R146, R305): the field with the most free gang slots that takes all of it, the lowest on a tie
(assumption 79). -/
def State.clusterSpots (s : State) (al : Nat) (l : Launch) (die lo : Nat) : Option (List Spot) :=
  let cs := s.coresOf al die
  let fs := (List.range 12).map fun i => fieldOf cs (12 * die + i)
  let fit := fs.filter fun f => s.fieldRoom al l f ≥ l.csize
  (bestBy (fun f => sumNat ((physOf f).map fun p => s.freeSlotCount al p)) fit).bind fun f =>
    let ps := s.spotsIn al l f lo l.csize []
    if ps.length == l.csize then some ps else none

/-- Where the next blocks of a launch go on a die, if they fit. -/
def State.spots (s : State) (al : Nat) (l : Launch) (die lo : Nat) : Option (List Spot) :=
  if l.csize == 1 then (s.spotFor al l die lo).map fun p => [p] else s.clusterSpots al l die lo

/-- The lowest batch of a launch on a die. -/
def State.nextBatch (s : State) (al lid die : Nat) : Option Batch :=
  bestBy (fun b => 2 ^ 32 - b.lo) (s.batches.filter fun b => b.al == al && b.lid == lid && b.die == die)

/-- An older launch, of whatever allotment, has a block that this die could place (R305). -/
def State.olderFits (s : State) (al : Nat) (l : Launch) (die : Nat) : Bool :=
  (s.batchesOn (s.dieOf al die)).any fun b =>
    (s.allot b.al).st == .running && (s.launch? b.al b.lid).any fun x => x.entered < l.entered && !x.cancelled &&
      (s.nextBatch b.al b.lid b.die).any fun n => (s.spots b.al x b.die n.lo).isSome

/-- A die dispatcher places the next block, or cluster, of a launch (R305); handler blocks of the launch come first on
their core. -/
def execBlockPlace (die al lid : Nat) (s : State) : Host.Outcome State Fault Refusal :=
  match s.launch? al lid, s.nextBatch al lid die with
  | some l, some b =>
    if (s.allot al).st != .running || l.cancelled || s.olderFits al l die then .next s
    else
      match s.spots al l die b.lo with
      | none => .next s
      | some ps =>
        if ps.any fun p => (s.core p.core).sower.any fun m => m.al == al && m.lid == lid then .next s
        else
          let lo := b.lo + l.csize
          let rest := s.batches.filterMap fun x =>
            if x == b then (if lo < b.hi then some { b with lo := lo } else none) else some x
          .next ({ s with batches := rest }.placeCluster al l ps)
  | _, _ => .next s

/-- A die with nothing left takes half of the batches of the die that holds the most of a launch (R306). -/
def execSteal (die al lid : Nat) (s : State) : Host.Outcome State Fault Refusal :=
  match s.launch? al lid with
  | none => .next s
  | some l =>
    let mine := !(s.batchesOn (s.dieOf al die)).isEmpty
    let count := fun (d : Nat) => (s.batches.filter fun b => b.al == al && b.lid == lid && b.die == d).length
    if die ≥ 4 || mine || l.cancelled || !s.waiting.isEmpty || s.dieRoom al l die == 0 then .next s
    else
      match bestBy count (List.range 4) with
      | none => .next s
      | some v =>
        let theirs := (s.batches.filter fun b => b.al == al && b.lid == lid && b.die == v).mergeSort fun x y => x.lo ≥ y.lo
        let taken := theirs.take (count v / 2)
        .next { s with batches := s.batches.map fun b => if taken.contains b then { b with die := die } else b }

/-! The pick of a scheduler (R307, R122). -/

/-- The group's scheduler has issue budget left for its allotment; a headland block is never held back (R340). -/
def State.budgetLeft (s : State) (c : Ctx) : Bool :=
  c.headland || (s.core c.core).issued.get 0 (16 * (c.gang.slot / 16) + c.al) < (s.allot c.al).item 6

/-- The group goes on: its allotment runs (R335), its core is enabled and has not frozen, nor been left silent by a freeze (R342,
R363, R364), its block has started. -/
def State.runs (s : State) (c : Ctx) : Bool :=
  (s.allot c.al).st == .running && !s.stopped c && !s.isalon.gathered && s.enabled.contains c.core && c.blk.started

/-- The group is eligible as far as that does not depend on its next word: it is not parked, and budget is left (R307, R340). -/
def State.eligible (s : State) (c : Ctx) : Bool := s.runs c && s.budgetLeft c && c.grp.wait == .none

/-- The priority class of a group: that of its launch (R307). -/
def State.classOf (s : State) (c : Ctx) : Nat := ((s.launch? c.al c.blk.lid).map fun (l : Launch) => l.prio).getD 0

/-- The scheduler of a group. -/
def Ctx.sched (c : Ctx) : Nat := c.gang.slot / 16

/-- The group is promoted: it has been eligible for 1,024 cycles without issuing (R307). -/
def State.promotedGroup (s : State) (c : Ctx) : Bool := c.grp.promoted || c.grp.readySince.any fun t => s.clock ≥ t + 1024

/-- What a scheduler's pick orders groups by: promoted, class, not the one that has ceded, age, lowest slice; the greatest first
(R122, R307). Age is the order of placement, in which gangs are numbered. -/
def State.pickKey (s : State) (c : Ctx) : List Int :=
  let ceded := (s.core c.core).ceded.get 0 c.sched == groupTag c.uid c.grp.low
  if s.promotedGroup c then [1, 0, 1, -(c.uid : Int), -(c.grp.low : Int)]
  else [0, s.classOf c, if ceded then 0 else 1, -(c.uid : Int), -(c.grp.low : Int)]

/-- A key that comes before another. -/
def keyAfter : List Int → List Int → Bool
  | x :: xs, y :: ys => y < x || (x == y && keyAfter xs ys)
  | _, _ => false

/-- The groups of a core's scheduler. -/
def State.schedGroups (s : State) (core sched : Nat) : List Ctx :=
  (s.gangs.filter fun g => g.core == core && g.slot / 16 == sched && !g.isOver && !g.spilled).flatMap fun g =>
    g.groups.filterMap fun x => s.ctx ⟨core, g.slot, x.low⟩

/-- The groups that a scheduler picks before this one: eligible, of a greater key, and not found to wait in this cycle (R307). -/
def State.ahead (s : State) (c : Ctx) : List Ctx :=
  (s.schedGroups c.core c.sched).filter fun o =>
    s.eligible o && o.grp.stalledAt != s.clock + 1 && keyAfter (s.pickKey o) (s.pickKey c)

/-- The group may issue: it is eligible, its scheduler has not issued in this cycle, and picks no other before it (R307). -/
def State.mayIssue (s : State) (c : Ctx) : Bool :=
  s.eligible c && (s.core c.core).lastIssue.get 0 c.sched != s.clock + 1 && (s.ahead c).isEmpty

/-- The promotion of a group that has been eligible for 1,024 cycles without issuing is kept until its next word (R307). -/
def execPromotion (k : GroupKey) (s : State) : Host.Outcome State Fault Refusal :=
  match s.ctx k with
  | none => .next s
  | some c =>
    if s.eligible c && s.promotedGroup c then
      .next (s.modGroup c fun x => { x with promoted := true })
    else .next s

/-- The groups that a spent budget has held become eligible anew (R307, R340). -/
def State.renewReady (s : State) : State :=
  { s with gangs := s.gangs.map fun g =>
      match s.block? g.blk with
      | none => g
      | some b =>
        if b.headland || (s.core g.core).issued.get 0 (16 * (g.slot / 16) + b.al) < (s.allot b.al).item 6 then g
        else { g with groups := g.groups.map fun x => { x with readySince := some s.clock } } }

/-! Completion (R299, R300, R329, R333). -/

/-- The words of a record, as bytes, with zeros up to 128. -/
def recordBytes (ws : List Nat) : List Byte := (List.range 16).flatMap fun i => toBytes 8 (nth 0 ws i)

/-- The furrow area's part of a completion in mode 1 (R329, R333). -/
def State.closeRecord (s : State) (al : Nat) (l : Launch) : State :=
  let s := l.logOpen.reverse.foldl (fun s k => s.appendChunk al l.lid k) s
  let l := (s.launch? al l.lid).getD l
  let s := l.hashes.foldl (fun s x =>
    s.moduleWrite al (l.fbase + 128 + 16 * x.1) (toBytes 8 (x.2.headD 0).toNat)) s
  let s := s.moduleWrite al (l.fbase + 24) (toBytes 8 l.chunks)
  s.moduleWrite al (l.fbase + 8) (toBytes 8 ((if l.cause == 0 then 2 else 1) + 4 * b2n l.isOver))

/-- Blocks of a replay whose hash differs from the recording's, or that wrote none (R333). -/
def State.missesOf (s : State) (al : Nat) (l : Launch) : Nat × State :=
  let (ws, s) := s.moduleWords al ((List.range l.grid).map fun b => l.fbase + 128 + 16 * b)
  (((List.range l.grid).filter fun b =>
    match l.hashes.get [] b with
    | [] => true
    | h :: _ => nth 0 ws b != h.toNat).length, s)

/-- The furrow area's part of a completion in mode 2 (R331, R333): the chunks whose slices have ended with admissions still owed are
departures; those that name a slice never placed, and those of their lines behind them, are none. -/
def State.closeReplay (s : State) (al : Nat) (l : Launch) : State :=
  let s := s.touch (engineUnit 0) al l.furrowPages
  let (miss, s) := s.missesOf al l
  let s := ((l.gates.map fun k => k.line).foldl addOnce []).foldl (fun s line =>
    s.dropDead al l.lid (s.onLine al line (s.memLine al line)) (l.gates.length + 1)) s
  let gone := ((s.launch? al l.lid).getD l).gatemiss
  let s := l.hashes.foldl (fun s x =>
    s.moduleWrite al (l.fbase + 136 + 16 * x.1) (toBytes 8 (x.2.headD 0).toNat)) s
  let s := s.moduleWrite al (l.fbase + 32) (toBytes 8 gone ++ toBytes 8 miss)
  s.modLaunch al l.lid fun x => { x with hashmiss := miss, gates := [] }

/-- The completion records (R299, R300). -/
def State.writeRecords (s : State) (al : Nat) (l : Launch) : State :=
  if l.crec == 0 then s
  else
    let vclk := (s.allot al).vclk.toNat
    let status := packFields [(6, l.cause), (2, 0), (3, if l.cause == 0x34 then l.clevel else 0), (21, 0), (32, l.lid)]
    let cycles := match l.startClk with | some t => vclk - t | none => 0
    let s := s.moduleWrite al l.crec (recordBytes [status, l.exited, l.faulted, cycles])
    (List.range l.grid).foldl (fun s b =>
      s.moduleWrite al (l.crec + 128 * (1 + b)) (recordBytes ((l.recs.get [] b).map fun w => w.toNat))) s

/-- Something of the launch has not ended: a block, a message, a request, a drill command (R299, R302, R311). -/
def State.unfinished (s : State) (al : Nat) (l : Launch) : Bool :=
  (s.blocks.any fun b => b.al == al && b.lid == l.lid && !b.ended) ||
  (s.cores.any fun c => c.sower.any fun m => m.al == al && m.lid == l.lid) ||
  (s.reqs.any fun r => r.al == al && r.lid == l.lid) ||
  (s.dbinds.any fun b => b.al == al && b.lid == l.lid && !b.pending.isEmpty) ||
  (!l.cancelled && l.done < l.grid)

/-- A launch completes (R296, R299), of a STOPPED allotment, whose memory is not written, once that runs again (R347). -/
def execLaunchComplete (al lid : Nat) (s : State) : Host.Outcome State Fault Refusal :=
  match s.launch? al lid with
  | none => .next s
  | some l =>
    if l.complete || l.hl || (s.allot al).st == .stopped || s.unfinished al l then .next s
    else
      let s := if l.mode == 1 then s.closeRecord al l else if l.mode == 2 then s.closeReplay al l else s
      let s := s.writeRecords al l
      let s := s.dropWork al lid
      let n := (s.allot al).completions + 1
      let s := s.modAllot al fun a => { a with completions := n }
      let s := s.modLaunch al lid fun x => { x with complete := true, completeNo := n }
      .next (s.modAllot al Allot.propagate)

end Sys2Proof.Machine
end

