-- ==== Sys2Proof/Machine/Populations.lean ====
section
/-! DEFINITION. `resamp` and the resample it joins (R282 to R289, R309). -/

namespace Sys2Proof.Machine

/-- Lanes that arrive, with their weights (R283): enabled lanes with A, other live lanes with +0; with U set every enabled
lane supplies the value of the lowest enabled lane of its slice. -/
def State.arrivalsOf (s : State) (c : Ctx) (uni : Bool) (e : LaneMask) (a : Opnd) : List RArr :=
  (lanesOf c.liveLanes).map fun l =>
    let from' := if uni then lowLane (e &&& sliceMask (l / 4)) else l
    ⟨c.uid, l, if e.getLsbD l then (s.opVal c false a from').setWidth 32 else 0#32⟩

/-- What a waiting `resamp` leaves: its publish, which every slice of the group makes once its weights are there. -/
def resampBase (a : Src) (s : State) (c : Ctx) (e : LaneMask) (x : Halt) : State :=
  publishBase .device true (e != 0#32 && awaitsPop c [a] s) s c c.liveLanes x

/-- `resamp` (R283): a collective of the population, whatever its guard enables. -/
def execResamp (h : Hdr) (pd : Nat) (a : Src) (s : State) : Host.Outcome State Fault Refusal :=
  runWordWith (resampBase a) .plain h ((⟨fD, .p pd⟩ : Use) :: a.uses fA false) (fun s c e => do
    trapIf (!c.blk.k.pop || c.blk.handler) { cause := 0x36 }
    let (os, s) ← if e == 0#32 then pure ([], s) else popAll c [a] s
    let s ← s.settled c c.grp.slices true
    let s ← s.publish c .device c.grp.slices
    let xs := s.arrivalsOf c h.uni e (os.headD ⟨.zero, none⟩)
    let s := s.modLaunch c.al c.blk.lid fun l => { l with arrivals := l.arrivals ++ xs }
    pure (s.park c (.resamp pd) (some 4))) s

/-! Weights, counts (R284 to R286). -/

/-- A sanitised weight, and whether it set SANE or CLAMP. -/
def saneWeight (w : W32) : Nat × Bool × Bool :=
  let n := w.toNat
  let neg := bitAt n 31
  let mag := n % 2 ^ 31
  if mag > 0x7F800000 then (0, true, false)
  else if neg then (0, mag != 0, false)
  else if mag == 0x7F800000 then (0x7F7FFFFF, false, true)
  else (mag, false, false)

/-- Magnitude of finite non-negative FP32 bits as m x 2^(e - 149). -/
def weightMag (n : Nat) : Nat × Nat :=
  let e := n / 2 ^ 23
  let m := n % 2 ^ 23
  if e == 0 then (m, 0) else (m + 2 ^ 23, e - 1)

/-- log2 of a weight, counted from 2^-149. -/
def weightExp (n : Nat) : Nat := let x := weightMag n; x.1.log2 + x.2

/-- The integer of a weight under the exponent of the largest (R284). -/
def weightInt (top n : Nat) : Nat :=
  let x := weightMag n
  let up := x.2 + 86
  if up ≥ top then x.1 * 2 ^ (up - top) else x.1 / 2 ^ (top - up)

/-- Inclusive prefix sums. -/
def prefixSums : Nat → List Nat → List Nat
  | _, [] => []
  | acc, x :: xs => (acc + x) :: prefixSums (acc + x) xs

/-- F(C) of R286: the k in 0 .. N - 1 with (k 2^64 + U) T below N C 2^64. -/
def countBelow (n t u c : Nat) : Nat :=
  let lhs := n * c * 2 ^ 64
  if lhs ≤ u * t then 0 else Nat.min n ((lhs - u * t + (2 ^ 64 * t - 1)) / (2 ^ 64 * t))

/-- Offspring of each member, from the prefix sums. -/
def offspring (n t u : Nat) : Nat → List Nat → List Nat
  | _, [] => []
  | prev, c :: cs =>
    let f := countBelow n t u c
    (f - prev) :: offspring n t u f cs

def rotl32 (x r : Nat) : Nat := (x * 2 ^ r + x / 2 ^ (32 - r)) % 2 ^ 32

/-- The rounds of the dibble function. -/
def dibbleRounds : List Nat → Nat → Nat × Nat → Nat × Nat
  | [], _, x => x
  | r :: rs, i, (x0, x1) =>
    let x0 := (x0 + x1 + i * 0x9E3779B9) % 2 ^ 32
    dibbleRounds rs (i + 1) (x0, rotl32 x1 r ^^^ x0)

/-- dibble(k, c) of R285. -/
def dibble (k c : Nat) : Nat :=
  let x0 := c % 2 ^ 32 ^^^ k % 2 ^ 32
  let x1 := c / 2 ^ 32 % 2 ^ 32 ^^^ k / 2 ^ 32 % 2 ^ 32
  let (x0, x1) := dibbleRounds [13, 15, 26, 6, 17, 29] 1 (x0, x1)
  (x1 + k % 2 ^ 32) % 2 ^ 32 * 2 ^ 32 + (x0 + k / 2 ^ 32) % 2 ^ 32

/-! Members and clones (R287). -/

/-- A member: its gang, lane, popid, block, core. -/
structure Member where
  gang : Nat
  lane : Nat
  popid : Nat
  blk : Nat
  core : Nat
  deriving DecidableEq, Repr, Inhabited

/-- The live threads of a population, in ascending popid (R282). -/
def State.members (s : State) (al lid : Nat) : List Member :=
  let bs := s.blocks.filter fun b => b.al == al && b.lid == lid && !b.handler && !b.ended
  let ms := bs.flatMap fun b =>
    (s.gangs.filter fun g => g.blk == b.uid && !g.isOver).flatMap fun g =>
      (lanesOf g.live).map fun l => ⟨g.uid, l, popidOf b g.gid l, b.uid, g.core⟩
  ms.mergeSort fun x y => x.popid ≤ y.popid

/-- Units of the six tiers, gang first (R287): cores, fields and dies by physical number (assumption 79). -/
def tierKey (t : Nat) (m : Member) : Nat :=
  match t with
  | 0 => m.gang
  | 1 => m.blk
  | 2 => m.core
  | 3 => m.core / 4
  | 4 => dieOfCore m.core
  | _ => 0

/-- Remove the first n elements that satisfy a predicate. -/
def dropFirst {α : Type} (p : α → Bool) : Nat → List α → List α
  | 0, xs => xs
  | _, [] => []
  | n + 1, x :: xs => if p x then dropFirst p n xs else x :: dropFirst p (n + 1) xs

/-- Clones and slots not yet matched, and the pairs made: (parent, slot). -/
structure Match where
  clones : List Member
  slots : List Member
  pairs : List (Member × Member)
  deriving DecidableEq, Repr, Inhabited

/-- Match within one unit of a tier. -/
def Match.unit (t : Nat) (m : Match) (k : Nat) : Match :=
  let p := fun (x : Member) => tierKey t x == k
  let ps := (m.clones.filter p).zip (m.slots.filter p)
  { clones := dropFirst p ps.length m.clones, slots := dropFirst p ps.length m.slots, pairs := m.pairs ++ ps }

/-- Match tier by tier (R287). -/
def Match.run (m : Match) : Match :=
  (List.range 6).foldl (fun m t => (numbersOf t m).foldl (Match.unit t) m) m
where
  numbersOf (t : Nat) (m : Match) : List Nat := (m.slots.map (tierKey t)).foldl addOnce []

/-- The pairs that offspring counts give. -/
def matchMembers (ms : List Member) (os : List Nat) : List (Member × Member) :=
  let xs := ms.zip os
  (Match.run ⟨xs.flatMap fun x => List.replicate (x.2 - 1) x.1, (xs.filter fun x => x.2 == 0).map (·.1), []⟩).pairs

/-! What the completion writes (R288). -/

/-- Lineage of a slot: GEN, PARENT, SELF (R39). -/
def lineageOf (gen parent self : Nat) : W64 := BitVec.ofNat 64 (packFields [(24, self), (24, parent), (16, gen)])

/-- A clone's registers and predicates in its slot: those of the parent in the population range, zero elsewhere. Results
outstanding in the lane are dropped. -/
def Gang.takeClone (g : Gang) (k : Kernel) (parent : Gang) (pl lane : Nat) : Gang :=
  let regs := (List.range (8 * k.regs)).map fun n =>
    (32 * n + lane, if k.popa ≤ n && n ≤ k.popb then parent.vAt n pl else 0#32)
  let bit := maskOf [lane]
  let preds := (List.range 7).map fun n =>
    (n, ((g.p.get 0#32 n) &&& ~~~bit) ||| (if (parent.p.get 0#32 n).getLsbD pl then bit else 0#32))
  { g with
    v := g.v.setMany 0#32 regs
    uniV := []
    p := g.p.setMany 0#32 preds
    shadows := g.shadows.map fun x => match x.reg with
      | .s _ => x
      | _ => { x with lanes := x.lanes &&& ~~~bit } }

/-- Write a lane's lineage. -/
def Gang.setLineage (g : Gang) (lane : Nat) (x : W64) : Gang := { g with lineage := g.lineage.set 0#64 lane x }

/-- The images that pass through the spill area leave it in a state nothing constrains: how they lie there is not stated
(assumption 33). -/
def State.spillImages (s : State) (al : Nat) (l : Launch) (n : Nat) : State :=
  if n == 0 then s
  else
    let base := field l.spill.toNat 12 44 * 4096
    let words := (field l.spill.toNat 0 12 + 1) * 512
    let bytes := (List.range words).flatMap fun i => toBytes 8 (Config.freeWord s.free 4 i).toNat
    { (s.moduleWrite al base bytes) with free := s.free + words }

/-- Images, survivors, clones, closed line registers (R288). -/
def State.writeImages (s : State) (al : Nat) (l : Launch) (ms : List Member) (os : List Nat) (count : Nat) : State :=
  let old := s.gangs
  let gen := count % 2 ^ 16
  let pairs := matchMembers ms os
  let s := s.spillImages al l (pairs.filter fun x => x.1.core != x.2.core).length
  let s := (ms.zip os).foldl (fun s x =>
    if x.2 == 0 then s
    else s.modGang x.1.gang fun g => g.setLineage x.1.lane (lineageOf gen x.1.popid x.1.popid)) s
  let s := pairs.foldl (fun s x =>
    match old.find? fun g => g.uid == x.1.gang with
    | none => s
    | some q => s.modGang x.2.gang fun g =>
        (g.takeClone l.k q x.1.lane x.2.lane).setLineage x.2.lane (lineageOf gen x.1.popid x.2.popid)) s
  let us := (ms.map fun m => m.gang).foldl addOnce []
  let s := us.foldl (fun s u => s.modGang u fun g => { g with refs := [] }) s
  ((ms.map fun m => m.core).foldl addOnce []).foldl State.settleVictims s

/-- PSTAT (R289). -/
def pstatWord (count : Nat) (sane clamp zero : Bool) : W64 :=
  BitVec.ofNat 64 (packFields [(48, count), (1, b2n sane), (1, b2n clamp), (1, b2n zero)])

/-- A member group resumes: pD, the contained acquire (R283, R288). -/
def State.endResamp (s : State) (k : GroupKey) (ok : Bool) : State :=
  match s.ctx k with
  | none => s
  | some c =>
    match c.grp.wait with
    | .resamp pd =>
      let s := s.modGang c.uid fun g =>
        g.putP 0 0 pd [] ((lanesOf c.liveLanes).map fun l => (l, ok))
      ((s.modGang c.uid fun g => g.observe c.grp.slices s.turn).acquire c .device c.grp.slices).wake c (some 4)
    | _ => s

/-- The groups of a launch that wait at a `resamp`. -/
def State.resampGroups (s : State) (al lid : Nat) : List GroupKey :=
  let bs := (s.blocks.filter fun b => b.al == al && b.lid == lid && !b.handler && !b.ended).map fun b => b.uid
  (s.gangs.filter fun g => bs.contains g.blk && !g.isOver).flatMap fun g =>
    g.groups.filterMap fun x => match x.wait with
      | .resamp _ => some ⟨g.core, g.slot, x.low⟩
      | _ => none

/-- The resample's work on a launch whose members have all arrived. -/
def State.resample (s : State) (al : Nat) (l : Launch) (ms : List Member) : State :=
  let weight := fun (m : Member) =>
    ((l.arrivals.find? fun a => a.gang == m.gang && a.lane == m.lane).map fun (a : RArr) => a.weight).getD 0#32
  let sane := ms.map fun m => saneWeight (weight m)
  let top := (sane.map fun w => if w.1 == 0 then 0 else weightExp w.1).foldl Nat.max 0
  let cs := prefixSums 0 (sane.map fun w => if w.1 == 0 then 0 else weightInt top w.1)
  let t := cs.foldl Nat.max 0
  let n := ms.length
  let zero := t == 0
  let count := (field l.pstat.toNat 0 48 + b2n (!zero)) % 2 ^ 48
  let u := dibble l.seed.toNat count
  let ps := pstatWord count (sane.any fun w => w.2.1) (sane.any fun w => w.2.2) zero
  let groups := s.resampGroups al l.lid
  let s := if zero then s else s.writeImages al l ms (offspring n t u 0 cs) count
  let s := s.modLaunch al l.lid fun x => { x with pstat := ps, arrivals := [] }
  let s := groups.foldl (fun s k => s.endResamp k (!zero)) s
  ((ms.map fun m => m.core).foldl addOnce []).foldl (fun s core =>
    s.record core 7 al 0 0 0 (BitVec.ofNat 64 count)) s

/-- The resample completes once every member has arrived (R283, R288), every block of the grid having been placed
(assumption 34) and no member gang being fallow. -/
def execResampleComplete (al lid : Nat) (s : State) : Host.Outcome State Fault Refusal :=
  match s.launch? al lid with
  | none => .next s
  | some l =>
    let ms := s.members al lid
    let arrived := ms.all fun m => l.arrivals.any fun a => a.gang == m.gang && a.lane == m.lane
    if (s.allot al).st != .running || l.placed < l.grid || l.cancelled || l.complete || ms.isEmpty || !arrived then .next s
    else .next (s.resample al l ms)

end Sys2Proof.Machine
end

