-- ==== Sys2Proof/Machine/Resets.lean ====
section
/-! DEFINITION. Resets (R394 to R396) and what starts and forgets an allotment (R335). -/

namespace Sys2Proof.Machine

/-- The retention region: 32 MiB of tier one (R395). -/
def retentionBase : Nat := 0x1FFFE000000

def inRetention (a : Nat) : Bool := retentionBase ≤ a && a < 0x20000000000

/-- The meters of an allotment, 32 words (R353). -/
def Allot.meterWords (a : Allot) : List W64 := (List.range 32).map fun i => a.meters.get 0#64 i

/-- An allotment after its release or a warm reset (R335, R396): what Isalon and the operator registers hold stays, and the
meters become the final report. -/
def Allot.released (a : Allot) : Allot :=
  { Allot.blank with
    serial := a.serial, meters := a.meters, repN := a.repN, chain := a.chain, final := some a.meterWords, place := a.place,
    pt2 := a.pt2, hlrec := a.hlrec, save := a.save, repSeq := a.repSeq }

/-- An allotment as a warm reset leaves it: quotas and place tables go, operator registers take their reset values. -/
def Allot.warm (k : Nat) (a : Allot) : Allot :=
  let b := if k == 0 then Allot.operator else Allot.blank
  { b with serial := a.serial, meters := a.meters, repN := a.repN, chain := a.chain
           final := if a.st == .free then a.final else some a.meterWords }

/-- Apply a function to each element with its index. -/
def mapIdx {α β : Type} (f : Nat → α → β) : Nat → List α → List β
  | _, [] => []
  | i, x :: xs => f i x :: mapIdx f (i + 1) xs

/-- A warm reset (R396). The cycle count, tier two, the retention region, flash, Isalon, retired units and the
links stay; the model's own numbering of turns and draws goes on. A freeze of the cores ends, and with it its originators and its
gathering (assumption 63). -/
def State.warmReset (s : State) : State :=
  let keep := fun (a : Nat) => inRetention a || !isTierOne a
  let iso := { s.isalon with freezeAt := none, origins := [], summary := [], gathered := false }
  let regs := { OpRegs.reset with
    chLost := s.regs.chLost, dirLost := s.regs.dirLost, fieldsLost := s.regs.fieldsLost, retirements := s.regs.retirements }
  let plat := { Platform.reset with
    cxlDown := s.plat.cxlDown, peerDown := s.plat.peerDown, peerFails := s.plat.peerFails, hdm := s.plat.hdm,
    harvested := s.plat.harvested }
  { State.reset with
    mem := s.mem.filter fun c => keep c.1
    vers := s.vers
    owners := s.owners.filter fun x => keep x.1
    poison := s.poison.filter keep
    clock := s.clock
    turn := s.turn
    free := s.free
    ticks := s.ticks
    agenda := s.agenda
    nextUid := s.nextUid
    allots := mapIdx Allot.warm 0 s.allots
    regs := regs
    isalon := iso
    plat := plat }

/-- A cold reset (R366, R395, R396): flash, the capsule count and final reports stay; the meters of an allotment that is live become its
final report. -/
def State.coldReset (s : State) : State :=
  let finals := (mapIdx (fun i a => (i, a)) 0 s.allots).foldl (fun (st : Store (List W64)) x =>
    match x.2.st, x.2.final with
    | .free, none => st
    | .free, some ws => st.set [] x.1 ws
    | _, _ => st.set [] x.1 x.2.meterWords) s.isalon.finals
  let iso := { Isalon.reset with
    flash := s.isalon.flash, serial := s.isalon.serial, dropped := s.isalon.dropped, finals := finals }
  let plat := { Platform.reset with hdm := s.plat.hdm, harvested := s.plat.harvested }
  { State.reset with
    turn := s.turn
    free := s.free
    agenda := s.agenda
    nextUid := s.nextUid
    isalon := iso
    plat := plat }

end Sys2Proof.Machine
end

