-- ==== Sys2Proof/Machine/Freezes.lean ====
section
/-! DEFINITION. The freeze order (R363) and the operator's records of events of no group (R128, R134). -/

namespace Sys2Proof.Machine

/-- Mark a group as frozen (R127, R129, R363). -/
def Group.freeze (g : Group) (origin pc : Nat) : Group :=
  g.withTrap (BitVec.ofNat 64 (packFields [(6, 0x3F), (6, 0), (2, 3), (2, 0), (8, sumNat (g.slices.map fun k => 2 ^ k))]))
    (BitVec.ofNat 64 pc) g.tword 0 (BitVec.ofNat 64 origin)

/-- A core freezes (R363): its groups stop, marked, and a FREEZE record is its last. `origin` is the originator's logical
core, `hops` the hop count of the first message. -/
def State.freezeCore (s : State) (core origin hops cause : Nat) : State :=
  if (s.core core).frozen.isSome then s
  else
    let s := { s with gangs := modWhere (fun g => g.core == core) (fun g =>
        { g with groups := g.groups.map fun (x : Group) => x.freeze origin (g.slice x.low).pc }) s.gangs }
    let pay := BitVec.ofNat 64 (packFields [(8, origin), (8, hops), (16, 0), (32, s.clock / 2 ^ 32)])
    let s := s.record core 32 0 0 0 cause pay
    let f : Freeze := ⟨origin, hops, cause, s.clock % 2 ^ 32, true⟩
    s.modCore core fun c => { c with frozen := some f }

/-- A core starts a freeze: it broadcasts, unless it has received a message before (R363). `raised` says that it raised
0x3E. -/
def State.startFreeze (s : State) (core cause : Nat) (raised : Bool) : State :=
  let logical := s.logicalCore 0 core
  let known := (s.core core).frozen.isSome
  let iso := s.isalon
  let iso := if raised then { iso with summary := iso.summary ++ [(core, 0x3E)] } else iso
  let iso := if known then iso
    else { iso with
      freezeAt := some (iso.freezeAt.getD s.clock), origins := iso.origins ++ [logical]
      fcause := if iso.freezeAt.isNone then cause else iso.fcause
      asked := if iso.freezeAt.isNone then !raised else iso.asked }
  { s with isalon := iso }.freezeCore core logical 0 cause

/-- An uncorrectable error in ownerless state (R134, R140): the device freezes; a record goes to the operator's ring, in which
SLICES, TPC, TWORD and WHO's launch, scheduler and slot are 0 (assumption 79), and which enters it in the place of its core. -/
def State.deviceFatal (s : State) (core kind place : Nat) : State :=
  let tc := packFields [(6, 0x3E), (6, 0), (2, 2)]
  let who := packFields [(8, s.logicalCore 0 core)]
  let s := s.modAllot 0 fun a => { a with pendTraps := a.pendTraps ++
    [⟨[BitVec.ofNat 64 tc, 0, 0, BitVec.ofNat 64 (kind * 2 ^ 16), BitVec.ofNat 64 place, BitVec.ofNat 64 who, 0], s.clock,
      packFields [(5, 0), (8, s.logicalCore 0 core)]⟩] }
  s.raiseOperator.startFreeze core 0x3E true

end Sys2Proof.Machine
end

