-- ==== Sys2Proof/Machine/System.lean ====
section
/-! DEFINITION. The system family and the debug words (R141 to R145, R372), the trap ring and its answers (R134 to R136),
precise stops (R371), shootdowns (R390, R391). -/

namespace Sys2Proof.Machine

/-! Traps by word, and the return. -/

/-- `trap` (R142). -/
def execTrap (h : Hdr) (a : Src) (code : BitVec 8) (s : State) : Host.Outcome State Fault Refusal :=
  runWord .plain h (a.uses fA false) (fun s c e => do
    if e == 0#32 then pure s
    else do
      let (os, s) ← popAll c [a] s
      let x := (s.lowVal c e false (os.headD ⟨.zero, none⟩)).toNat
      trapWith { cause := 0x3A, lane := lowLane e, info1 := code.toNat * 2 ^ 32 + x }) s

/-- `brk` (R372). -/
def execBrk (h : Hdr) (code : BitVec 8) (s : State) : Host.Outcome State Fault Refusal :=
  runWord .plain h [] (fun s _ e =>
    if e == 0#32 then pure s else trapWith { cause := 0x38, info1 := code.toNat }) s

/-- `halt` (R145). -/
def execHalt (h : Hdr) (s : State) : Host.Outcome State Fault Refusal :=
  runWord .plain h [] (fun s _ e => if e == 0#32 then pure s else trapWith { cause := 0x3C }) s

/-- Why a return is refused (R143), 0 for none. -/
def Ctx.retKind (c : Ctx) : Nat :=
  if !c.grp.inHandler then 3
  else if c.grp.slices != c.grp.savedSlices then 4
  else if c.grp.slices.any fun k => !c.grp.savedDepth.contains (k, (c.gang.slice k).stack.length) then 5
  else if c.grp.tpc.toNat % 8 != 0 then 6
  else 0

/-- A return from the handler to TPC + `skip`. -/
def returnWord (h : Hdr) (skip : Nat) : State → Host.Outcome State Fault Refusal :=
  runWord .plain h [] fun s c e => do
    if e == 0#32 then pure s
    else do
      trapIf (c.retKind != 0) { cause := 0x3B, kind := c.retKind }
      pure (s.modGang c.uid fun g => g.leaveHandler c.grp.low skip)

/-- `tret` (R143). -/
def execTret (h : Hdr) (s : State) : Host.Outcome State Fault Refusal := returnWord h 0 s

/-- `tret.skip` (R143). -/
def execTretSkip (h : Hdr) (s : State) : Host.Outcome State Fault Refusal := returnWord h 8 s

/-- `mark` (R372). -/
def execMark (h : Hdr) (tag : BitVec 8) (a : Src) (s : State) : Host.Outcome State Fault Refusal :=
  runWord .plain h (a.uses fA true) (fun s c e =>
    pure (if e == 0#32 then s
          else s.record c.core 40 c.al c.gang.slot c.grp.low tag.toNat (s.opVal c true ⟨a, none⟩ (lowLane e)))) s

/-! System registers (R141). -/

/-- The number lies in a range closed to this block. -/
def Ctx.closed (c : Ctx) (n : Nat) : Bool := (0x080 ≤ n && n < 0x100 && !c.headland) || (0x100 ≤ n && !c.operator)

/-- BSTAT (R44). -/
def bstatWord (b : Block) : W64 :=
  BitVec.ofNat 64 (packFields [(1, b2n b.chain), (1, b2n (b.k.pop && !b.handler)), (4, 0), (4, b.ngang - 1), (2, 0), (3, b.cpos),
    (1, 0), (3, b.csize - 1)])

/-- TSTAT (R246): bits of tiles not declared read zero. -/
def tstatWord (g : Gang) (k : Kernel) : W64 :=
  let m := 2 ^ (4 * k.tiles)
  BitVec.ofNat 64 (g.tvalid.toNat % m + g.tdirty.toNat % m * 2 ^ 32)

def AState.code : AState → Nat
  | .free => 0 | .ready => 1 | .running => 2 | .fallow => 3 | .stopped => 4

/-- Cm and Cl of R342. -/
def OpRegs.cm (r : OpRegs) : Nat := 4096 * (256 - r.chLost) / 256
def OpRegs.cl (r : OpRegs) : Nat := 4096 * (8 - r.dirLost) / 8

/-- Sum of MEMG (item 9) or LINKG (item 10) over allotments that are not FREE. -/
def State.guarantees (s : State) (item : Nat) : Nat :=
  sumNat (s.allots.map fun a => if a.st == .free then 0 else a.item item)

/-- A shortfall is on (R342). -/
def State.shortfall (s : State) : Bool := s.guarantees 9 > s.regs.cm || s.guarantees 10 > s.regs.cl

/-- SHORTT (R349). -/
def shorttWord (a : Allot) : W64 :=
  BitVec.ofNat 64 (packFields [(13, a.memg), (3, 0), (13, a.item 9), (2, 0), (1, b2n a.shortOn)])

/-- ASTAT (R349). -/
def astatWord (a : Allot) : W64 :=
  BitVec.ofNat 64 (packFields [(3, AState.code a.st), (1, b2n a.hldead), (1, b2n a.shortOn), (11, 0), (48, a.serial)])

/-- SHORT (R349). -/
def State.shortWord (s : State) : W64 :=
  BitVec.ofNat 64 (packFields [(13, s.regs.cm), (3, 0), (13, s.regs.cl), (2, 0), (1, b2n s.shortfall), (32, s.regs.retirements)])

/-- VIMASK (R349). -/
def State.vimask (s : State) (al : Nat) : W64 :=
  BitVec.ofNat 64 (sumNat (((List.range 64).filter fun v => s.ownsVi al v).map fun v => 2 ^ v))

/-- Numbers that only a write reaches. -/
def writeOnly (n : Nat) : Bool :=
  n == 0x083 || n == 0x086 || n == 0x087 || n == 0x08C || n == 0x08F || n == 0x184 || n == 0x1B0 || n == 0x1B2

/-- A register's 64 bits for the slice `k` of a group; none for a number that no chapter assigns (R141). -/
def State.sysReg (s : State) (c : Ctx) (n k : Nat) : Option W64 :=
  let a := s.allot c.al
  if n == 0x000 then some c.grp.tcause else if n == 0x001 then some c.grp.tpc else if n == 0x002 then some c.grp.tword
  else if n == 0x003 then some c.grp.tinfo0 else if n == 0x004 then some c.grp.tinfo1
  else if n == 0x010 then some (bstatWord c.blk) else if n == 0x011 then some c.gang.gfault
  else if n == 0x012 then some c.blk.clmap else if n == 0x013 then some c.gang.fflag
  else if n == 0x014 then some (tstatWord c.gang c.blk.k)
  else if n == 0x015 then some (((s.launch? c.al c.blk.lid).map fun (l : Launch) => l.pstat).getD 0)
  else if n == 0x016 then some (c.gang.slice k).retc
  else if n == 0x080 then some a.trbase else if n == 0x081 then some a.trhead else if n == 0x082 then some a.trtail
  else if n == 0x084 then some (BitVec.ofNat 64 (c.al + 16 * AState.code a.st)) else if n == 0x085 then some (s.vimask c.al)
  else if n == 0x088 then some (shorttWord a) else if n == 0x089 then some a.sampctl
  else if n == 0x08A then some a.stopwho else if n == 0x08B then some a.stopcnt
  else if n == 0x08D then some (if a.cntsel.toNat > 4095 then 0 else a.bank.get 0#64 a.cntsel.toNat)
  else if n == 0x08E then some a.pt1
  else if 0x100 ≤ n && n < 0x110 then some (astatWord (s.allot (n - 0x100)))
  else if n == 0x110 then some s.shortWord else if n == 0x111 then some s.regs.opwin
  else if 0x120 ≤ n && n < 0x130 then some (s.allot (n - 0x120)).hlrec
  else if 0x130 ≤ n && n < 0x140 then some (s.allot (n - 0x130)).save
  else if 0x140 ≤ n && n < 0x180 then some (s.regs.viown.get 0#64 (n - 0x140))
  else if n == 0x180 then some s.regs.trmask else if n == 0x181 then some s.regs.trtrig
  else if n == 0x183 then some s.regs.trctl
  else if 0x188 ≤ n && n < 0x190 then some (s.regs.devcell.get 0#64 (n - 0x188))
  else if 0x1A0 ≤ n && n < 0x1B0 then some (s.allot (n - 0x1A0)).pt2
  else if n == 0x1B1 then some s.regs.pcap
  else if 0x1C0 ≤ n then some (s.regs.viwin.get 0#64 (n - 0x1C0))
  else none

/-- Check 3 of R73 for a register number: a closed range traps before every later check of the word, whatever its guard enables (R68,
R141). -/
def openTo (n : Nat) (f : State → Host.Outcome State Fault Refusal) (s : State) : Host.Outcome State Fault Refusal :=
  match s.cur.bind s.ctx with
  | none => f s
  | some c => if c.closed n then .next (s.trapNow c s.word { cause := 0x08, fld := fB } 0) else f s

/-- `sread` (R144). -/
def execSread (h : Hdr) (d : Dst) (n : BitVec 9) (s : State) : Host.Outcome State Fault Refusal :=
  openTo n.toNat (runWord .plain h (d.uses true) fun s c e => do
    if e == 0#32 then pure s
    else do
      trapIf (writeOnly n.toNat) { cause := 0x3B, kind := 2, info1 := n.toNat }
      trapIf (s.sysReg c n.toNat 0).isNone { cause := 0x3B, kind := 1, info1 := n.toNat }
      s.writeDst c false true 0 e d fun l => (s.sysReg c n.toNat (l / 4)).getD 0) s

/-- The 64 bits an `swrite` supplies (R144): a scalar, or the pair of the lowest enabled lane. -/
def State.written (s : State) (c : Ctx) (e : LaneMask) (a : Src) : W64 := s.opVal c true ⟨a, none⟩ (lowLane e)

/-- A HOLD of the allotment names a held group. -/
def State.holds (s : State) (al hold : Nat) : Bool :=
  s.gangs.any fun g => !g.isOver && ((s.block? g.blk).any fun (b : Block) => b.al == al) &&
    g.groups.any fun x => x.wait == .held hold

/-- A write to TRES is kept until its action is taken (R136); one that names no held group is ignored. -/
def State.postTres (s : State) (al : Nat) (x : W64) : State :=
  let hold := field x.toNat 0 48
  if s.holds al hold then s.modAllot al fun a => { a with tres := a.tres ++ [(hold, field x.toNat 48 2)] } else s

/-- A new cell configuration: a run in progress is not counted (R374). -/
def State.setCell (s : State) (k : Nat) (x : W64) : State :=
  let clear := fun (c : Core) => { c with cells := modNth (fun z => { z with lastA := false, run := 0, count := 0 }) c.cells k }
  { s with regs := { s.regs with devcell := s.regs.devcell.set 0#64 k (x &&& 0x0001FFFFFFFF1FFF#64) }
           cores := s.cores.map clear }

/-- A write of SAMPCTL (R376). -/
def sampctlWrite (old x : W64) : W64 :=
  let k := field x.toNat 0 5
  if k < 8 || k > 20 then old else x &&& 0x11F#64

/-- A write of PCAP, of watts from 1,200 to 2,300 (R397); another changes nothing (assumption 60). -/
def pcapWrite (old x : W64) : W64 := if x.toNat < 1200 || 2300 < x.toNat then old else x

/-- A write of VSTAT (R349); an interface that is not owned is ignored (assumption 35). -/
def State.vstatWrite (s : State) (al : Nat) (x : W64) : State :=
  let v := field x.toNat 0 6
  if s.ownsVi al v then { s with regs := { s.regs with viapp := s.regs.viapp.set 0 v (field x.toNat 16 16) } } else s

/-- A write of VIOWN, ignored while the owner is RUNNING (R349; assumption 35). -/
def State.viownWrite (s : State) (v : Nat) (x : W64) : State :=
  let old := (s.regs.viown.get 0#64 v).toNat
  if bitAt old 4 && (s.allot (field old 0 4)).st == .running then s
  else { s with regs := { s.regs with viown := s.regs.viown.set 0#64 v (x &&& 0x00FFFFFFFFFFFF1F#64) } }

/-- A write of a register without a row of its own (R141, R349): the state, none for a register that takes no write. -/
def State.sysWrite (s : State) (c : Ctx) (n : Nat) (x : W64) : Option State :=
  let mod := fun f => some (s.modAllot c.al f)
  let base := x &&& 0x00FFFFFFFFFFF00F#64
  if n == 0x001 then some (s.modGroup c fun g => { g with tpc := x })
  else if n == 0x013 then some (s.modGang c.uid fun g => { g with fflag := x &&& 7#64 })
  else if n == 0x080 then mod fun a => { a with trbase := base }
  else if n == 0x081 then mod fun a => { a with trhead := x }
  else if n == 0x083 then some (s.postTres c.al x)
  else if n == 0x087 then some (s.vstatWrite c.al x)
  else if n == 0x089 then mod fun a => { a with sampctl := sampctlWrite a.sampctl x }
  else if n == 0x08A then mod fun a => { a with stopwho := x &&& 0x8000007FFFFFFFFF#64 }
  else if n == 0x08B then mod fun a => { a with stopcnt := x }
  else if n == 0x08C then mod fun a => { a with cntsel := x }
  else if n == 0x111 then some { s with regs := { s.regs with opwin := x &&& 0x00FFFFFFFFFFFFFF#64 } }
  else if 0x120 ≤ n && n < 0x130 then some (s.modAllot (n - 0x120) fun a => { a with hlrec := x })
  else if 0x130 ≤ n && n < 0x140 then some (s.modAllot (n - 0x130) fun a => { a with save := x &&& 0x00FFFFFFFFFFFFFF#64 })
  else if 0x140 ≤ n && n < 0x180 then some (s.viownWrite (n - 0x140) x)
  else if n == 0x181 then some { s with regs := { s.regs with trtrig := x &&& 0xFFFFFFF#64 } }
  else if n == 0x183 then some { s with regs := { s.regs with trctl := x &&& 0xF#64 } }
  else if 0x188 ≤ n && n < 0x190 then some (s.setCell (n - 0x188) x)
  else if n == 0x1B1 then some { s with regs := { s.regs with pcap := pcapWrite s.regs.pcap x } }
  else if 0x1C0 ≤ n then
    some { s with regs := { s.regs with viwin := s.regs.viwin.set 0#64 (n - 0x1C0) (x &&& 0x00FFFFFFFFE0003F#64) } }
  else none

/-- The checks of an `swrite` to a register that its block may reach (R134, R141). -/
def State.swriteCheck (s : State) (c : Ctx) (n : Nat) (x : W64) : M Unit := do
  trapIf ((s.sysReg c n 0).isNone && !writeOnly n) { cause := 0x3B, kind := 1, info1 := n }
  trapIf (n == 0x001 && !c.grp.inHandler) { cause := 0x3B, kind := 3, info1 := n }
  let size := field x.toNat 0 4
  trapIf (n == 0x080 && (size < 6 || size > 12)) { cause := 0x3B, kind := 2, info1 := n }

/-- `swrite` (R144). -/
def execSwrite (h : Hdr) (n : BitVec 9) (a : Src) (s : State) : Host.Outcome State Fault Refusal :=
  openTo n.toNat (runWord .plain h (a.uses fA true) fun s c e => do
    if e == 0#32 then pure s
    else do
      let x := s.written c e a
      s.swriteCheck c n.toNat x
      match s.sysWrite c n.toNat x with
      | some s' => pure s'
      | none => trapWith { cause := 0x3B, kind := 2, info1 := n.toNat }) s

/-- An `swrite` to a register with a row of its own: the range check, then its act on the value. -/
def specialWriteWith (base : State → Ctx → LaneMask → Halt → State) (h : Hdr) (n : Nat) (a : Src)
    (act : State → Ctx → LaneMask → W64 → M State) : State → Host.Outcome State Fault Refusal :=
  openTo n (runWordWith base .plain h (a.uses fA true) fun s c e =>
    if e == 0#32 then pure s else act s c e (s.written c e a))

/-- One of which nothing stands when it halts. -/
def specialWrite (h : Hdr) (n : Nat) (a : Src) (act : State → Ctx → LaneMask → W64 → M State) :
    State → Host.Outcome State Fault Refusal := specialWriteWith (fun s _ _ _ => s) h n a act

/-- A write of TRMASK (R360): the wired bits read 1, and cores stopped by a trigger record again (R362). -/
def execTrmaskWrite (h : Hdr) (a : Src) (s : State) : Host.Outcome State Fault Refusal :=
  specialWrite h 0x180 a (fun s _ _ x =>
    let go := fun (c : Core) => { c with post := if c.post == some 0 then none else c.post }
    let regs := { s.regs with trmask := x ||| 0xC000000700000000#64 }
    pure { s with regs := regs, cores := s.cores.map go }) s

/-- A write of 1 to FREEZE (R363). The cause it gives the freeze is not stated, so it is a free value (assumption 36). -/
def execFreezeWrite (h : Hdr) (a : Src) (s : State) : Host.Outcome State Fault Refusal :=
  specialWrite h 0x184 a (fun s c _ x =>
    pure (if x == 1#64 then s.startFreeze c.core ((Config.freeWord s.free 2 0).toNat % 64) false else s)) s

/-- A write to VIRQ (R349). -/
def execVirqWrite (h : Hdr) (a : Src) (s : State) : Host.Outcome State Fault Refusal :=
  specialWrite h 0x086 a (fun s c _ x =>
    let vi := field x.toNat 0 6
    let vec := field x.toNat 6 4
    pure (if vec != 0 && s.ownsVi c.al vi then s.raiseVector vi vec else s)) s

/-- A write of 1 to WARM (R396). -/
def execWarmWrite (h : Hdr) (a : Src) (s : State) : Host.Outcome State Fault Refusal :=
  specialWrite h 0x1B2 a (fun s _ _ x => pure (if x == 1#64 then s.warmReset else s)) s

/-! Shootdowns (R13, R14, R390, R391). -/

/-- Bytes of a size code (R348, R386). -/
def codeBytes (k : Nat) : Nat := if k == 0 then 2 ^ 12 else if k == 1 then 2 ^ 16 else if k == 2 then 2 ^ 21
  else if k == 3 then 2 ^ 25 else if k == 4 then 2 ^ 30 else 2 ^ 34

/-- A shootdown of a range of virtual (stage one) or intermediate (stage two) addresses of an allotment. A reference lies in it by the
address, or by the intermediate address, that it was bound with (R13). Every core writes back what it recalls before the recall
completes (R14, R90). -/
def State.shootdown (s : State) (al : Nat) (two : Bool) (lo len : Nat) : State :=
  let p := fun (g : Gang) (_ : Nat) (r : LRef) =>
    let a := lineOf (if two then r.ipa else r.addr.getD 0)
    ((s.block? g.blk).any fun (b : Block) => b.al == al) && lo ≤ a && a < lo + len
  let keep := fun (t : Tlb) => t.al != al || !(if two then rangesMeet t.ibase t.size lo len else rangesMeet t.vbase t.vsize lo len)
  let s := s.busyCores.foldl (fun s core => s.flush core p) s
  let s := s.busyCores.foldl (fun s core => s.recallOn core p 1) s
  { s with tlb := s.tlb.filter keep }

/-- What a SHOOT word asks: its checks, then the publish it starts with, then the shootdown. -/
def State.shoot (s : State) (c : Ctx) (e : LaneMask) (n : Nat) (two : Bool) (x : Nat) : M State := do
  let all := bitAt x 3
  trapIf (field x 8 4 != 0 || field x 56 8 != 0 || (!all && field x 0 3 > 5)) { cause := 0x3B, kind := 2, info1 := n }
  let s ← s.settled c (slicesIn e) true
  let s ← s.publish c .device (slicesIn e)
  let len := if all then 2 ^ 56 else codeBytes (field x 0 3)
  let lo := if all then 0 else alignDown (field x 12 44 * 4096) len
  pure (s.shootdown (if two then field x 4 4 else c.al) two lo len)

/-- A write to SHOOT1 (R390). -/
def execShoot1Write (h : Hdr) (a : Src) (s : State) : Host.Outcome State Fault Refusal :=
  specialWriteWith (publishBase .device true false) h 0x08F a (fun s c e x => s.shoot c e 0x08F false x.toNat) s

/-- A write to SHOOT2 (R390). -/
def execShoot2Write (h : Hdr) (a : Src) (s : State) : Host.Outcome State Fault Refusal :=
  specialWriteWith (publishBase .device true false) h 0x1B0 a (fun s c e x => s.shoot c e 0x1B0 true x.toNat) s

/-- A write to PT1 acts as one of ALL to SHOOT1 (R391). -/
def execPt1Write (h : Hdr) (a : Src) (s : State) : Host.Outcome State Fault Refusal :=
  specialWriteWith (publishBase .device true false) h 0x08E a (fun s c e x => do
    let s ← s.shoot c e 0x08E false 8
    pure (s.modAllot c.al fun y => { y with pt1 := x &&& 0x000FFFFFFFFFF000#64 })) s

/-- A write to PT2[a] acts as one of ALL to SHOOT2 for a (R391). -/
def execPt2Write (h : Hdr) (al : BitVec 4) (a : Src) (s : State) : Host.Outcome State Fault Refusal :=
  specialWriteWith (publishBase .device true false) h (0x1A0 + al.toNat) a (fun s c e x => do
    let s ← s.shoot c e (0x1A0 + al.toNat) true (8 + 16 * al.toNat)
    pure (s.modAllot al.toNat fun y => { y with pt2 := x &&& 0x000FFFFFFFFFF000#64 })) s

/-! The trap ring and TRES (R134 to R136). -/

/-- Records of the ring. -/
def Allot.ringSize (a : Allot) : Nat := 2 ^ field a.trbase.toNat 0 4

/-- The ring is full: undefined, and so drawn, while TRHEAD is out of its range (R134; assumption 20). -/
def State.ringFull (s : State) (a : Allot) : Bool :=
  let d := (a.trtail - a.trhead).toNat
  if d == a.ringSize then true else if d < a.ringSize then false else (Config.freeWord s.free 3 0).getLsbD 0

/-- The trap record that enters a ring next: in trap order, those of one cycle in the order of their groups' places (R134). -/
def nextRecord (clock : Nat) (rs : List TrapRec) : Option TrapRec :=
  (rs.filter fun r => r.clock < clock).foldl (fun best r =>
    match best with
    | none => some r
    | some b => if r.clock < b.clock || (r.clock == b.clock && r.rank < b.rank) then some r else some b) none

/-- A waiting record of an earlier cycle enters its allotment's ring; TRTAIL and the tail word advance with it. A ring whose size was
never written takes no record (assumption 37), and the memory of a STOPPED allotment is not written (R347). -/
def execTrapRecordAppend (al : Nat) (s : State) : Host.Outcome State Fault Refusal :=
  let a := s.allot al
  match nextRecord s.clock a.pendTraps with
  | none => .next s
  | some r =>
    let s := { s with free := s.free + 1 }
    if field a.trbase.toNat 0 4 < 6 || a.st == .stopped || s.ringFull a then .next s
    else
      let base := field a.trbase.toNat 12 44 * 4096
      let bytes := (r.words ++ [BitVec.ofNat 64 (a.seq + 1)]).flatMap fun w => toBytes 8 w.toNat
      let s := s.moduleWrite al (base + 64 * (a.trtail.toNat % a.ringSize)) bytes
      let tail := a.trtail + 1
      let s := s.moduleWrite al (base + 64 * a.ringSize) (toBytes 8 tail.toNat)
      .next (s.modAllot al fun a => { a with pendTraps := a.pendTraps.erase r, seq := a.seq + 1, trtail := tail })

/-- The held group a HOLD of an allotment names. -/
def State.heldGroup (s : State) (al hold : Nat) : Option Ctx :=
  (s.gangs.filter fun g => !g.isOver).findSome? fun g =>
    match s.block? g.blk, g.groups.find? fun x => x.wait == .held hold with
    | some b, some x => if b.al == al then some ⟨⟨g.core, g.slot, x.low⟩, g, x, b, (g.slice x.low).pc⟩ else none
    | _, _ => none

/-- Take the action a TRES write asked for; the groups of a frozen core have stopped (R363). -/
def tresStep (al hold action : Nat) (s : State) (f : State → Ctx → State) : Host.Outcome State Fault Refusal :=
  if !(s.allot al).tres.contains (hold, action) then .next s
  else
    let s := s.modAllot al fun a => { a with tres := a.tres.erase (hold, action) }
    match s.heldGroup al hold with
    | none => .next s
    | some c => if s.stopped c then .next s else .next (f s c)

/-- A held group resumes, with the record of R358. -/
def State.resume (s : State) (c : Ctx) (skip : Nat) : State :=
  let s := s.modGang c.uid fun g => g.resumeHeld c.grp.low skip
  (s.record c.core 3 c.al c.gang.slot c.grp.low 6 (BitVec.ofNat 64 (c.grp.tpc.toNat + skip))).signal c.core 19 c.al

/-- TRES action 0 (R136). -/
def execTresResume (al hold : Nat) (s : State) : Host.Outcome State Fault Refusal :=
  tresStep al hold 0 s fun s c => s.resume c 0

/-- TRES action 1 (R136). -/
def execTresSkip (al hold : Nat) (s : State) : Host.Outcome State Fault Refusal :=
  tresStep al hold 1 s fun s c => s.resume c 8

/-- TRES action 2 (R136): the group's active lanes end; lanes on its stacks run on. -/
def execTresEndGroup (al hold : Nat) (s : State) : Host.Outcome State Fault Refusal :=
  tresStep al hold 2 s fun s c =>
    let s := s.modGang c.uid fun g => g.modGroup c.grp.low fun x => { x with wait := .none, owesHeld := false }
    (s.endLanes c.uid c.lanes).sweep

/-- TRES action 3 (R136): the launch ends with the trap's cause. -/
def execTresEndLaunch (al hold : Nat) (s : State) : Host.Outcome State Fault Refusal :=
  tresStep al hold 3 s fun s c => s.endLaunch al c.blk.lid (field c.grp.tcause.toNat 0 6) 0

/-! Precise stops (R371). -/

/-- The group holds the slice at which the launch stops, and the slice has retired the count. -/
def State.stopDue (s : State) (c : Ctx) : Option Nat :=
  match (s.launch? c.al c.blk.lid).bind fun (l : Launch) => l.stop with
  | none => none
  | some (who, cnt) =>
    let w := who.toNat
    if !c.blk.handler && c.blk.bid == field w 0 32 && c.gang.gid == field w 32 4 && c.grp.slices.contains (field w 36 3) &&
        cnt.toNat ≤ (c.gang.slice (field w 36 3)).retc.toNat then some cnt.toNat else none

/-- The bits of the word at an address, 0 where none can be fetched. -/
def State.wordAt (s : State) (c : Ctx) (va : Nat) : W64 :=
  match s.fetchAddr c.core c.al va with
  | some (pa, _) => BitVec.ofNat 64 (s.homeWord pa)
  | none => 0

/-- The group traps with 0x39 before its next word (R371), once its earlier words have completed (R126), unless its core has frozen
(R363). -/
def execPreciseStop (k : GroupKey) (s : State) : Host.Outcome State Fault Refusal :=
  match s.ctx k with
  | none => .next s
  | some c =>
    match s.stopDue c with
    | none => .next s
    | some n =>
      if c.grp.wait != .none || s.draining c || (s.allot c.al).st != .running || s.stopped c then .next s
      else
        let s := s.modLaunch c.al c.blk.lid fun l => { l with stop := none }
        .next (s.takeTrap c (s.wordAt c c.pc) { cause := 0x39, info1 := n })

end Sys2Proof.Machine
end

