-- ==== Sys2Proof/Machine/Privileged.lean ====
section
/-! DEFINITION. The privileged allotment instructions (R335 to R350, R355). SHA-384 for the hash chain of R354. -/

namespace Sys2Proof.Machine

/-! SHA-384, which R354 names: the constants are the first 64 fraction bits of roots of primes. -/

/-- The greatest r + x with (r + x)^k at most n, for x of so many bits: bit by bit from above. -/
def rootDown (k n : Nat) : Nat → Nat → Nat
  | 0, r => r
  | i + 1, r => rootDown k n i (if (r + 2 ^ i) ^ k ≤ n then r + 2 ^ i else r)

/-- The first 64 fraction bits of the k-th root of a number below 2^(3 k). -/
def rootFraction (k p : Nat) : W64 := BitVec.ofNat 64 (rootDown k (p * 2 ^ (64 * k)) 67 0)

/-- The first 80 primes: those below 410. -/
def smallPrimes : List Nat :=
  (List.range 410).filter fun n => n ≥ 2 && (List.range 21).all fun d => d < 2 || d ≥ n || n % d != 0

/-- The eight working words of a block. -/
structure ShaWords where
  a : W64
  b : W64
  c : W64
  d : W64
  e : W64
  f : W64
  g : W64
  h : W64
  deriving DecidableEq, Repr, Inhabited

def ShaWords.plus (x y : ShaWords) : ShaWords :=
  ⟨x.a + y.a, x.b + y.b, x.c + y.c, x.d + y.d, x.e + y.e, x.f + y.f, x.g + y.g, x.h + y.h⟩

/-- Three rotations of a word, or two and a shift, joined. -/
def turned (x : W64) (i j k : Nat) (shift : Bool) : W64 :=
  x.rotateRight i ^^^ x.rotateRight j ^^^ (if shift then x >>> k else x.rotateRight k)

/-- One round takes the oldest of the sixteen words in view and puts a new one behind them. -/
def shaStep (x : ShaWords × List W64) (k : W64) : ShaWords × List W64 :=
  match x with
  | (v, w :: view) =>
    let fresh := turned (nth 0#64 view 13) 19 61 6 true + nth 0#64 view 8 + turned (nth 0#64 view 0) 1 8 7 true + w
    let p := v.h + turned v.e 14 18 41 false + (v.g ^^^ (v.e &&& (v.f ^^^ v.g))) + k + w
    let q := turned v.a 28 34 39 false + ((v.a &&& v.b) ||| (v.c &&& (v.a ||| v.b)))
    (⟨p + q, v.a, v.b, v.c, v.d + p, v.e, v.f, v.g⟩, view ++ [fresh])
  | (v, []) => (v, [])

/-- The number that bytes spell, the first the highest; and back. -/
def bigEndian (bs : List Byte) : W64 := BitVec.ofNat 64 (ofBytes bs.reverse)

def bigBytes (k n : Nat) : List Byte := (toBytes k n).reverse

/-- The digest of so many blocks of 128 bytes. -/
def shaRun (ks : List W64) : Nat → List Byte → ShaWords → ShaWords
  | 0, _, v => v
  | n + 1, bs, v =>
    let view := (List.range 16).map fun i => bigEndian ((bs.drop (8 * i)).take 8)
    shaRun ks n (bs.drop 128) (v.plus (ks.foldl shaStep (v, view)).1)

/-- SHA-384 of a byte string: a 1 bit, zeros and the length in bits fill the last block. -/
def sha384 (bs : List Byte) : List Byte :=
  let n := (bs.length + 16) / 128 + 1
  let msg := bs ++ 0x80#8 :: (List.replicate (128 * n - 17 - bs.length) 0#8 ++ bigBytes 16 (8 * bs.length))
  let r := fun (p : Nat) => rootFraction 2 p
  let v := shaRun (smallPrimes.map (rootFraction 3)) n msg ⟨r 23, r 29, r 31, r 37, r 41, r 43, r 47, r 53⟩
  [v.a, v.b, v.c, v.d, v.e, v.f].flatMap fun w => bigBytes 8 w.toNat

/-! `placeld` (R70, R355). -/

/-- The entry can be written: no reserved bit, a unit that exists and is not harvested (R355). -/
def State.entryOk (s : State) (part : Nat) (e : W64) : Bool :=
  let phys := field e.toNat 8 8
  (e &&& 0xFFFFFFFFFFFF00FE#64) == 0#64 &&
  (!e.getLsbD 0 || (phys < (if part == 0 then 4 else if part == 1 then 48 else 192) &&
    !(part == 2 && (s.plat.harvested.contains phys || s.regs.fieldsLost.contains (phys / 4))) &&
    !(part == 1 && s.regs.fieldsLost.contains phys)))

/-- Load a place entry, or none where it fails. -/
def State.loadPlace (s : State) (a : Nat) (e : W64) : Option State :=
  let al := field a 0 4
  let part := field a 8 2
  let idx := field a 16 8
  let limit := if part == 0 then 4 else if part == 1 then 48 else if part == 2 then 192 else 0
  if (s.allot al).st == .running || idx ≥ limit || !s.entryOk part e then none
  else some (s.modAllot al fun x => { x with place := x.place.set 0#64 (256 * part + idx) (placeHeld e) })

/-- A privileged word: its effect where it succeeds, pD in every enabled lane (R355). -/
def allotWordWith (base : State → Ctx → LaneMask → Halt → State) (h : Hdr) (pd : Nat) (us : List Use)
    (act : State → Ctx → M (Option State)) : State → Host.Outcome State Fault Refusal :=
  runWordWith base .plain h ((⟨fD, .p pd⟩ : Use) :: us) fun s c e => do
    if e == 0#32 then pure s
    else do
      let r ← act s c
      pure ((r.getD s).writePred c false 0 e pd fun _ => r.isSome)

/-- One that leaves nothing where it waits. -/
def allotWord (h : Hdr) (pd : Nat) (us : List Use) (act : State → Ctx → M (Option State)) :
    State → Host.Outcome State Fault Refusal := allotWordWith (fun s _ _ _ => s) h pd us act

/-- `placeld` (R355). -/
def execPlaceld (h : Hdr) (pd sa sb : Nat) (s : State) : Host.Outcome State Fault Refusal :=
  allotWord h pd [⟨fA, .s sa⟩, ⟨fB, .s sb⟩]
    (fun s c => pure (s.loadPlace (s.readS c.gang sa).toNat (s.readS c.gang sb))) s

/-! `quota` (R335 to R337). -/

/-- An item as written, whether or not it is in force yet. -/
def Allot.written (a : Allot) (i : Nat) : Nat := match a.quotaNext.get 0 i with | 0 => a.item i | n + 1 => n

/-- Sum of an item as written over the other allotments that are not FREE. -/
def State.othersSum (s : State) (al i : Nat) : Nat :=
  sumNat ((List.range 16).map fun k => if k == al || (s.allot k).st == .free then 0 else (s.allot k).written i)

/-- A mask that meets no other allotment's. -/
def State.disjoint (s : State) (al i v : Nat) : Bool :=
  (List.range 16).all fun k => k == al || (BitVec.ofNat 64 ((s.allot k).written i) &&& BitVec.ofNat 64 v) == 0#64

/-- The value lies within the item's limits (R336). -/
def State.quotaLimits (s : State) (al i v : Nat) : Bool :=
  let base := field v 0 16
  let count := field v 16 16
  let top := base + count
  match i with
  | 0 => v < 2 ^ 32 && top ≤ 16
  | 1 => v < 2 ^ 32 && top ≤ 128
  | 2 => v < 2 ^ 32 && base % 8 == 0 && count % 8 == 0 && top ≤ 2048
  | 3 => v < 2 ^ 32 && top ≤ 384
  | 4 => v < 2 ^ 32 && top ≤ 64
  | 5 => v < 2 ^ 24 && s.disjoint al 5 v
  | 6 => 1024 ≤ v && v ≤ 65536
  | 7 => v ≤ 2 ^ 40
  | 8 => s.disjoint al 8 v
  | 9 | 10 => 64 ≤ v && v ≤ 4096 && s.othersSum al i + v ≤ 4096
  | 11 => v ≤ 3
  | _ => false

/-- Bytes 7:0 of a meter report: creation serial and allotment, laid out as ASTAT lays the serial (assumption 38). -/
def idWord (al serial : Nat) : Nat := al + serial * 2 ^ 16

/-- Creation (R335): meters zeroed, the hash chain started, every item zero, counters cleared (R375). -/
def Allot.create (al : Nat) (a : Allot) : Allot :=
  let n := (a.serial + 1) % 2 ^ 48
  { Allot.blank with
    st := .ready, serial := n, chain := sha384 (toBytes 8 (idWord al n)), place := a.place, pt2 := a.pt2, hlrec := a.hlrec,
    save := a.save }

/-- Write an item: budgets and the class wait for the next period, guarantees for the next window (R337). -/
def Allot.setItem (a : Allot) (i v : Nat) : Allot :=
  if i == 6 || i == 7 || i == 11 then { a with quotaNext := a.quotaNext.set 0 i (v + 1) }
  else { a with quota := a.quota.set 0 i v }

/-- Complete a launch, where it can. -/
def State.completed (s : State) (al lid : Nat) : State :=
  match execLaunchComplete al lid s with
  | .next t => t
  | _ => s

/-- RELEASE (R335): every launch is cancelled and completes, the ranges are free, the final report is kept. -/
def State.release (s : State) (al : Nat) : State :=
  let lids := ((s.allot al).launches.filter fun l => !l.complete).map fun l => l.lid
  let s := lids.foldl (fun s l => s.endLaunch al l 0x34 1) s
  let s := lids.foldl (fun s l => s.completed al l) s
  let s := { s with dbinds := s.dbinds.filter fun b => b.al != al
                    hreqs := s.hreqs.filter fun r => r.al != al
                    tlb := s.tlb.filter fun t => t.al != al }
  s.modAllot al Allot.released

/-- The effect of `quota` on an item, or none where it fails (R336, R337). -/
def State.setQuota (s : State) (a v : Nat) : Option State :=
  let al := field a 0 4
  let i := field a 8 4
  let st := (s.allot al).st
  if a ≠ al + 256 * i then none
  else if i == 15 then (if v == 0 && (st == .ready || st == .stopped) then some (s.release al) else none)
  else if !s.quotaLimits al i v || ((i ≤ 5 || i == 8) && (st == .running || st == .fallow)) then none
  else some (s.modAllot al fun x => (if st == .free then x.create al else x).setItem i v)

/-- `quota` (R336). -/
def execQuota (h : Hdr) (pd sa sb : Nat) (s : State) : Host.Outcome State Fault Refusal :=
  allotWord h pd [⟨fA, .s sa⟩, ⟨fB, .s sb⟩]
    (fun s c => pure (s.setQuota (s.readS c.gang sa).toNat (s.readS c.gang sb).toNat)) s

/-- `quota` whose item is RELEASE (R335): the word is that of `quota`, and so is its meaning. -/
def execQuotaRelease (h : Hdr) (pd sa sb : Nat) (s : State) : Host.Outcome State Fault Refusal :=
  allotWord h pd [⟨fA, .s sa⟩, ⟨fB, .s sb⟩]
    (fun s c => pure (s.setQuota (s.readS c.gang sa).toNat (s.readS c.gang sb).toNat)) s

/-! `fallow` (R338, R344 to R350). -/

/-- Some gang of the allotment. -/
def State.gangsOfAllot (s : State) (al : Nat) : List Gang :=
  s.gangs.filter fun g => !g.isOver && (s.block? g.blk).any fun (b : Block) => b.al == al

/-- Ranges of two allotments overlap in some item (R338). -/
def Allot.overlaps (a b : Allot) : Bool :=
  (List.range 5).any fun i => rangesMeet (a.base i) (a.count i) (b.base i) (b.count i) && a.count i > 0 && b.count i > 0

/-- A RUNNING allotment overlaps this one. -/
def State.blockedBy (s : State) (al : Nat) : Bool :=
  (List.range 16).any fun k => k != al && (s.allot k).st == .running && (s.allot al).overlaps (s.allot k)

/-- One record on each core that holds a gang of the allotment. -/
def State.recordCores (s : State) (al cls : Nat) : State :=
  (((s.gangsOfAllot al).map fun g => g.core).foldl addOnce []).foldl
    (fun s core => s.record core cls al 0 0 0 (s.allot al).vclk) s

/-- A gang's accumulators that are valid and dirty are saved, each in its quarter of its tile's place (R249). -/
def State.saveTiles (s : State) (al : Nat) (g : Gang) : State :=
  let tiles := g.units.filter fun u => 1024 ≤ u && u < 2048
  ((List.range 32).filter fun i => g.tvalid.getLsbD i && g.tdirty.getLsbD i).foldl (fun s i =>
    match (tiles[i / 4]?).bind (s.savePlace al g.core) with
    | some a => s.homeBytes (a + 1024 * (i % 4)) (g.tileBytes (i / 4) (i % 4))
    | none => s) s

/-- Every gang is made fallow (R249, R344): valid dirty accumulators are saved, so they are clean. -/
def State.makeFallow (s : State) (al : Nat) : State :=
  let gs := s.gangsOfAllot al
  let us := gs.map fun g => g.uid
  let s := gs.foldl (fun s g => s.saveTiles al g) (s.recordCores al 4)
  let clean := fun (g : Gang) => if us.contains g.uid then { g with tdirty := g.tdirty &&& ~~~g.tvalid } else g
  { s with gangs := s.gangs.map clean }

/-- Matrix passes of an allotment in flight: fallow waits for them (R249). -/
def State.passesOf (s : State) (al : Nat) : Bool :=
  s.passes.any fun p => (s.gangsOfAllot al).any fun g => g.uid == p.gang

/-- The allotment a `fallow` word names. -/
def fallowAl (a : Nat) : Nat := field a 0 4

/-- `fallow.halt` (R344). -/
def State.fallowHalt (s : State) (al : Nat) : M (Option State) := do
  if al == 0 || (s.allot al).st != .running then pure none
  else do
    waitIf (s.passesOf al)
    pure (some ((s.makeFallow al).modAllot al fun a => { a with st := .fallow }))

/-- How a wait that fallow interrupted ends: `tryw`, `bar.try` and `vsync` give a clear predicate (R123, R204, R277). -/
def State.resumeGroup (s : State) (k : GroupKey) : State :=
  match s.ctx k with
  | none => s
  | some c =>
    let stop := fun (pd : Nat) (e : LaneMask) (why : Option Nat) =>
      (s.writePred c false 0 (e &&& c.gang.live) pd fun _ => false).wake c why
    match c.grp.wait with
    | .tryw pd _ e _ _ => stop pd e (some 1)
    | .barTry _ e _ _ _ pd _ => stop pd e (some 2)
    | .vsync _ _ _ _ pd e _ => stop pd e none
    | _ => s

/-- The units of a core that a fallow has spilled of an allotment. -/
def State.awayOf (s : State) (al core : Nat) : List Nat :=
  ((s.gangsHere al core).flatMap fun g => g.away) ++ ((s.blocksHere al core).flatMap fun b => b.away) ++
    ((s.heldHere al core).flatMap fun h => h.away)

/-- The spilled units of a core belong to the launches whose state comes back into them (R138, R346). -/
def State.retag (s : State) (al core : Nat) : State :=
  let lid := fun (u : Nat) => ((s.block? u).map fun (b : Block) => b.lid).getD 0
  let own := ((s.gangsHere al core).map fun g => (lid g.blk, g.away)) ++ ((s.blocksHere al core).map fun b => (b.lid, b.away)) ++
    (s.heldHere al core).map fun h => (h.lid, h.away)
  own.foldl (fun s x => s.tagUnits al x.1 core x.2) s

/-- Every spilled unit of an allotment is back. -/
def State.bringBack (s : State) (al : Nat) : State :=
  let mine := fun (g : Gang) => (s.block? g.blk).any fun (b : Block) => b.al == al
  { s with
    gangs := modWhere mine (fun g => { g with away := [], spilled := false }) s.gangs
    blocks := modWhere (fun b => b.al == al) (fun b => { b with away := [] }) s.blocks
    cores := s.cores.map fun c => { c with held := modWhere (fun h => h.al == al) (fun h => { h with away := [] }) c.held } }

/-- Units come back (R345, R346): they are claimed, so that what other FALLOW allotments hold of them is evicted, and tagged; waits that fallow ends
are over, those at the gates of a replay begin anew (R331). -/
def State.restore (s : State) (al : Nat) : State :=
  let gs := s.gangsOfAllot al
  let out := (List.range 192).filterMap fun core =>
    match s.awayOf al core with | [] => none | us => some (core, us)
  let s := (out.foldl (fun s x => (s.claim al x.1 x.2).retag al x.1) s).bringBack al
  let now := (s.allot al).vclk.toNat
  let s := { s with reqs := modWhere (fun r => r.al == al) (fun r => { r with since := now }) s.reqs }
  let keys := gs.flatMap fun g => g.groups.map fun x => (⟨g.core, g.slot, x.low⟩ : GroupKey)
  (keys.foldl State.resumeGroup s).recordCores al 5

/-- `fallow.resume` (R338, R346). -/
def State.fallowResume (s : State) (al : Nat) : Option State :=
  let st := (s.allot al).st
  if al == 0 || !(st == .fallow || st == .stopped) || s.blockedBy al then none
  else some ((s.restore al).modAllot al fun a => { a with st := .running })

/-- Bytes that the save area must hold (R349). -/
def State.saveNeed (s : State) (a : Allot) : Nat := s.enabled.length * a.saveBytes

/-- What bars a start but for the record (R338, R350). -/
def State.startOk (s : State) (al : Nat) : Bool :=
  let a := s.allot al
  a.st == .ready && a.count 0 != 0 && a.count 1 != 0 && a.count 2 != 0 && a.item 5 != 0 && a.written 6 != 0 && a.item 9 != 0 &&
  a.item 10 != 0 && field a.save.toNat 0 20 * 2 ^ 20 ≥ s.saveNeed a && !s.blockedBy al

/-- A start: the headland block is placed on logical core 0 (R350). None where it fails. -/
def State.start (s : State) (al : Nat) : Option State :=
  if !s.startOk al then none
  else
    match s.place al 2 0, s.readLaunch (homeReader al) (engineUnit 0) al ((s.allot al).item 11) (s.allot al).hlrec.toNat true with
    | some core, .ok (l, s) =>
      let n := gangsOf l.threads
      let slots := (s.slotsFor al core l.k []).take n
      if !s.enabled.contains core || slots.length < n then none
      else
        let (s, lid) := s.enter al l
        let s := s.placeBlock al { l with lid := lid } ⟨core, slots, 0, 0⟩ 0 (s.clmapAlone al core) true
        some (s.modAllot al fun a => { a with st := .running })
    | _, _ => none

/-- Clear the D bits of a reported page at stage two, in every entry of a CONT group, and let its next write set them again (R348,
R388). -/
def State.clearDirty (s : State) (al : Nat) (page : Nat × Nat) : State :=
  let root := field (s.allot al).pt2.toNat 12 40 * 4096
  let n := if page.1 % 2 == 1 then 16 else 1
  let s := match (if root == 0 then none else walkTwo s.mem page.2 5 root) with
    | some l => s.homeWrite (lineOf l.ent) ((List.range n).map fun i =>
        (l.ent % 128 + 8 * i, s.mem.read (l.ent + 8 * i) &&& 0x7F#8))
    | none => s
  let again := fun (t : Tlb) =>
    if t.al == al && rangesMeet t.ibase t.size page.2 (codeBytes page.1) then { t with dirty := false } else t
  { s with tlb := s.tlb.map again }

/-- The dirty-page report (R348), at its physical place in the operator window (assumption 39). -/
def State.report (s : State) (al : Nat) : State :=
  let a := s.allot al
  let n := a.repSeq + 1
  let win := s.regs.opwin.toNat
  let base := field win 12 44 * 4096 + 65536 * al
  let full := a.dirty.length > 8190
  let w0 := packFields [(32, n), (4, al), (27, 0), (1, b2n full)]
  let ents := if full then [] else a.dirty.map fun p => p.2 + p.1
  let bytes := (w0 :: ents.length :: ents).flatMap fun w => toBytes 8 w
  let fits := 65536 * (al + 1) ≤ (field win 0 12 + 1) * 4096
  let s := if fits then s.homeBytes base bytes else s
  let s := if full then s else a.dirty.foldl (fun s p => s.clearDirty al p) s
  s.modAllot al fun a => { a with repSeq := n, dirty := [] }

/-- Everything the allotment owes is written back (R347). -/
def State.flushAllot (s : State) (al : Nat) : State :=
  let s := (s.gangsOfAllot al).foldl (fun s g => (s.performLate g.uid fun _ => true).publishGang g.core g.uid (publisher g.uid 0)) s
  s.cores.foldl (fun s c => c.entries.foldl (fun s e =>
    if e.al == al && e.mask != 0 then s.writeBack c.id e else s) s) s

/-- The allotment's remaining units are spilled (R345, R347). -/
def State.spillAll (s : State) (al : Nat) : State :=
  (List.range 192).foldl (fun s core =>
    match s.unitsOf al core [] with | [] => s | us => s.spillUnits al core us) s

/-- The module has records of an allotment to write: a trap record that its ring takes, or those of a launch that has nothing left to
do (R134, R299). -/
def State.recordsDue (s : State) (al : Nat) : Bool :=
  let a := s.allot al
  (!a.pendTraps.isEmpty && field a.trbase.toNat 0 4 ≥ 6 && !s.ringFull a) ||
    a.launches.any fun l => !l.complete && !l.hl && !s.unfinished al l

/-- What a stop waits for: accesses of its gangs that are on their way, atomics, drill commands, matrix passes, and the records that the
module owes it, which are among the writes that a host reading STOPPED may rely on (R249, R344, R347, R356). -/
def State.stopWaits (s : State) (al : Nat) : Bool :=
  s.recordsDue al ||
  s.passesOf al || (s.reqs.any fun r => r.al == al) || (s.dbinds.any fun b => b.al == al && !b.pending.isEmpty) ||
    s.saccs.any fun a => (s.gangsOfAllot al).any fun g => g.uid == a.gang

/-- An allotment from which `fallow.stop` can lead to STOPPED. -/
def State.stoppable (s : State) (al : Nat) : Bool :=
  al != 0 && ((s.allot al).st == .running || (s.allot al).st == .fallow)

/-- `fallow.stop` (R347); markings of what it writes back may have to wait for harrow queues (R267). -/
def State.fallowStop (s : State) (al : Nat) : M (Option State) := do
  if !s.stoppable al then pure none
  else do
    waitIf (s.stopWaits al)
    let s := if (s.allot al).st == .running then s.makeFallow al else s
    let s := s.flushAllot al
    waitIf ((s.gangsOfAllot al).any fun g => !s.entered (publisher g.uid 0))
    let s := (s.spillAll al).report al
    let s := s.modAllot al fun a => { a with st := .stopped }
    pure (some ((s.raiseEvent al).raiseOperator))

/-- What a waiting `fallow.stop` leaves: once it waits for harrow queues alone, what it has written back. -/
def stopBase (sa : Nat) (s : State) (c : Ctx) (_e : LaneMask) : Halt → State
  | .wait =>
    let al := fallowAl (s.readS c.gang sa).toNat
    if s.stoppable al && !s.stopWaits al then s.flushAllot al else s
  | .trap _ | .damage _ _ => s

/-- `fallow.halt` (R344, R355). -/
def execFallowHalt (h : Hdr) (pd sa : Nat) (s : State) : Host.Outcome State Fault Refusal :=
  allotWord h pd [⟨fA, .s sa⟩] (fun s c => s.fallowHalt (fallowAl (s.readS c.gang sa).toNat)) s

/-- `fallow.resume` (R346, R355). -/
def execFallowResume (h : Hdr) (pd sa : Nat) (s : State) : Host.Outcome State Fault Refusal :=
  allotWord h pd [⟨fA, .s sa⟩] (fun s c => pure (s.fallowResume (fallowAl (s.readS c.gang sa).toNat))) s

/-- `fallow.start` (R350, R355). -/
def execFallowStart (h : Hdr) (pd sa : Nat) (s : State) : Host.Outcome State Fault Refusal :=
  allotWord h pd [⟨fA, .s sa⟩] (fun s c =>
    let al := fallowAl (s.readS c.gang sa).toNat
    pure (if al == 0 then none else s.start al)) s

/-- `fallow.stop` (R347, R355). -/
def execFallowStop (h : Hdr) (pd sa : Nat) (s : State) : Host.Outcome State Fault Refusal :=
  allotWordWith (stopBase sa) h pd [⟨fA, .s sa⟩] (fun s c => s.fallowStop (fallowAl (s.readS c.gang sa).toNat)) s

end Sys2Proof.Machine
end

