-- ==== Sys2Proof/Machine/Ticks.lean ====
section
/-! DEFINITION. What the passing of cycles brings: results of fixed latency (R97), time limits (R123, R202), periods
(R339), feedback windows (R341), the epochs of the trail (R359), derived events (R373, R374) and PC sampling (R376). -/

namespace Sys2Proof.Machine

/-! Fixed-latency results. -/

/-- A result of the group's own that its switch bit waits for (R8). -/
def State.awaitsResult (s : State) (c : Ctx) : Bool :=
  c.gang.resultsOut s.clock c.grp.slices

/-- A switch-bit park ends once every fixed-latency result of the group has been written (R8). -/
def State.endSwitch (s : State) (c : Ctx) : State :=
  if c.grp.wait == .switchBit && !s.awaitsResult c then s.wake c (some 0) else s

/-- The results of a group that are due are in their registers for good; a park that waited for them ends (R8, R97, R98). -/
def execFixedLatencyResultWrite (k : GroupKey) (s : State) : Host.Outcome State Fault Refusal :=
  match s.ctx k with
  | none => .next s
  | some c =>
    let due := fun (sh : Shadow) => if sh.due ≤ s.clock then sh.ofSlices c.grp.slices else 0#32
    let s := s.modGang c.uid fun g => { g with shadows := writeShadows due g.shadows }
    .next (s.endSwitch c)

/-! Time limits. -/

/-- The allotment's virtual cycle count has reached a deadline (R352). -/
def State.expired (s : State) (al d : Nat) : Bool := d ≤ (s.allot al).vclk.toNat

/-- The group's time stands still: its core has frozen, or its allotment does not run (R346, R363). -/
def State.still (s : State) (c : Ctx) : Bool := s.stopped c || (s.allot c.al).st != .running

/-- A `tryw` whose limit has come resumes (R123). -/
def execTrywTimeout (k : GroupKey) (s : State) : Host.Outcome State Fault Refusal :=
  match s.ctx k with
  | none => .next s
  | some c =>
    match c.grp.wait with
    | .tryw pd ln e vers (some d) =>
      if !s.still c && s.expired c.al d then .next ((s.wake c (some 1)).trywDone c pd (e &&& c.gang.live) (s.newerSlices c ln vers))
      else .next s
    | _ => .next s

/-- A `bar.try` whose limit has come resumes with the lanes that passed (R202). -/
def execBarTryTimeout (k : GroupKey) (s : State) : Host.Outcome State Fault Refusal :=
  match s.ctx k with
  | none => .next s
  | some c =>
    match c.grp.wait with
    | .barTry w e ts sc adv pd (some d) =>
      match s.block? w.blk with
      | none => .next s
      | some b =>
        let ok := barFree b w.off adv ts &&& c.gang.live
        if s.still c || !s.expired c.al d || (ok != 0#32 && s.outstanding c.uid (slicesIn e) true) then .next s
        else .next ((s.wake c (some 2)).tryDone c sc pd (e &&& c.gang.live) ok)
    | _ => .next s

/-! Steps at fixed cycles. -/

/-- The module's own periodic steps, each with the number under which `ticks` keeps its last occurrence. -/
def tickPeriod : Nat := 0
def tickWindow : Nat := 1
def tickEpoch : Nat := 2
def tickSample : Nat := 3
def tickThresh : Nat := 4

/-- The step is due in this cycle: the cycle is a multiple, and the step has not happened in it. -/
def State.due (s : State) (k every : Nat) : Bool := s.clock % every == 0 && s.ticks.get 0 k != s.clock + 1

/-- Note that a periodic step has happened in this cycle. -/
def State.ticked (s : State) (k : Nat) : State := { s with ticks := s.ticks.set 0 k (s.clock + 1) }

/-- Change every allotment. -/
def State.mapAllots (s : State) (f : Nat → Allot → Allot) : State := { s with allots := mapIdx f 0 s.allots }

/-- Change every core. -/
def State.mapCores (s : State) (f : Core → Core) : State := { s with cores := s.cores.map f }

/-- What was written of items 6, 7 and 11 takes effect (R337, R339). -/
def Allot.newBudgets (a : Allot) : Allot :=
  { a with quota := a.quotaNext.foldl (fun q x => q.set 0 x.1 (x.2 - 1)) a.quota, quotaNext := [], drillBytes := 0 }

/-- The boundary of a period (R339). -/
def execPeriodBoundary (s : State) : Host.Outcome State Fault Refusal :=
  if !s.due tickPeriod 65536 then .next s
  else .next (((s.ticked tickPeriod).renewReady.mapCores fun c => { c with issued := [] }).mapAllots fun _ a => a.newBudgets)

/-- A guarantee scaled to what is left (R342): `sum` of the guarantees, `cap` the capacity. -/
def scaleGuarantee (sum cap g : Nat) : Nat := if sum > cap then g * cap / sum else g

/-- An allotment's guarantees in force, from what is configured (R342, R343). -/
def State.guarantee (s : State) (a : Allot) : Allot :=
  let m := scaleGuarantee (s.guarantees 9) s.regs.cm (a.item 9)
  let l := scaleGuarantee (s.guarantees 10) s.regs.cl (a.item 10)
  if a.st == .free then a
  else { a with memg := m, linkg := l, shortOn := decide (m < a.item 9) || decide (l < a.item 10) }

/-- The vectors that a retirement raises, once the scaled guarantees are in force and meter 24 counts (R343). -/
def State.raiseShort (s : State) : State :=
  let due := (List.range 16).filter fun al => (s.allot al).shortDue
  (due.foldl (fun s al => if al == 0 then s.raiseOperator else s.raiseEvent al) s).mapAllots fun _ a => { a with shortDue := false }

/-- A feedback window begins (R341, R343): guarantees take force, meter 25 counts Cm x 512 (R353), and the vectors of a retirement
are raised. Which requests a field admits in the window is a matter of timing (assumption 2). -/
def execFeedbackWindow (s : State) : Host.Outcome State Fault Refusal :=
  if !s.due tickWindow 512 then .next s
  else
    let s := s.ticked tickWindow
    let n := BitVec.ofNat 64 (s.regs.cm * 512)
    .next (s.mapAllots fun _ a =>
      let a := s.guarantee a
      if a.st == .free then a
      else { a with memgIn := a.memg, linkgIn := a.linkg, meters := a.meters.set 0#64 25 (a.meters.get 0#64 25 + n) }).raiseShort

/-- The cycle count carries into bit 32: every core writes an EPOCH record (R359). -/
def execEpoch (s : State) : Host.Outcome State Fault Refusal :=
  if !s.due tickEpoch (2 ^ 32) || s.clock == 0 then .next s
  else
    .next (s.enabled.foldl (fun s core => s.record core 34 0 0 0 0 (BitVec.ofNat 64 (s.clock / 2 ^ 32)))
      (s.ticked tickEpoch))

/-! Derived events. -/

/-- Add to a counter of an allotment's bank (R374, R375). -/
def State.countBank (s : State) (al idx : Nat) : State :=
  s.modAllot al fun a => { a with bank := a.bank.set 0#64 idx (a.bank.get 0#64 idx + 1#64) }

/-- An output event of a cell on a core (R374): its counter, its record, and the trigger it may fire (R361). -/
def State.cellOutput (s : State) (core k bin : Nat) : State :=
  let w := (s.regs.devcell.get 0#64 k).toNat
  let s := s.countBank (field w 32 4) (field w 37 12 + bin)
  let n := (nth {} (s.core core).cells k).outputs + 1
  let s := s.modCore core fun c => { c with cells := modNth (fun z => { z with outputs := n }) c.cells k }
  let s := if bitAt w 36 then s.record core 49 (field w 32 4) 0 0 k (BitVec.ofNat 64 n) else s
  let t := s.regs.trtrig.toNat
  let c := s.core core
  if s.armed && bitAt t 14 && field t 11 3 == k && c.post.isNone && c.frozen.isNone then
    { (s.modCore core fun c => c.arm t s.clock) with agenda := Turn.now (.event .triggerFire) :: s.agenda }
  else s

/-- Bin of a run of cycles (R374). -/
def durBin (w run : Nat) : Nat :=
  ((List.range 7).find? fun i => run < w * 2 ^ i).getD 7

/-- A request of an allotment on a core is held while the routes change, which counts as throttled (R380): an atomic, a line, an access
to another core's rows, the write-backs of a publish, the elements of a drill's command. -/
def State.holdsRequest (s : State) (core al : Nat) : Bool :=
  s.plat.draining &&
    ((s.reqs.any fun r => r.core == core && r.al == al && s.heldUid r.id) ||
      ((s.core core).entries.any fun e => e.al == al && !e.arrived && s.heldTurn e.stamp) ||
      ((s.gangsOn core).any fun g => (s.block? g.blk).any (fun (b : Block) => b.al == al) &&
        ((g.groups.any fun x => x.pubHeld) ||
          s.saccs.any fun a => a.gang == g.uid && (s.block? a.blk).any fun (b : Block) => s.heldAcc a b)) ||
      (s.dbinds.any fun b => b.core == core && b.al == al && b.run.any fun (r : DRun) => r.ending.isNone && r.idx < r.cmd.total))

/-- Messages that were on their way when the drain began have not arrived (R380): atomics that no gate of a replay holds, accesses to
another core's rows, fetches that wait for no rebuild. -/
def State.onTheWay (s : State) : Bool :=
  (s.reqs.any fun r => !r.held && r.id < s.plat.drainUid) ||
    (s.saccs.any fun a => a.id < s.plat.drainUid && a.got.isNone && (s.block? a.blk).any fun (b : Block) =>
      !b.rowAway a.op.rows && (s.gang? a.gang).any fun (g : Gang) => g.core != b.core) ||
    s.cores.any fun c => c.entries.any fun e => !e.arrived && e.wantDue.isNone && e.stamp < s.plat.drainTurn

/-- The routes may switch: nothing is in flight, or the next 512 cycles would pass the 65,536 that the drain may take (R380). -/
def State.drainOver (s : State) : Bool := !s.onTheWay || s.plat.drainClock + 65536 < s.clock + 512

/-- Signals of timing, which the model does not follow: bank conflicts, throttling, the L2, stalls (assumption 21). -/
def State.timingSignal (s : State) (core code al : Nat) : Bool :=
  (code == 24 && s.holdsRequest core al) ||
  ((code == 12 || code == 24 || code == 25 || code == 26 || code == 30) &&
    (Config.freeWord s.free 9 ((s.clock * 32 + code) * 256 + core)).getLsbD 0)

/-- Whether a raw signal is high in a cycle for an allotment; `noted` are the signals of that cycle (R373). -/
def State.signalHigh (s : State) (core code al : Nat) (noted : List (Nat × Nat)) : Bool :=
  code == 31 || noted.contains (code, al) || s.timingSignal core code al

/-- One cycle of a cell (R374). -/
def State.cellCycle (s : State) (core k : Nat) (noted : List (Nat × Nat)) : State :=
  let w := (s.regs.devcell.get 0#64 k).toNat
  let al := field w 32 4
  let a := s.signalHigh core (field w 0 5) al noted
  let b := s.signalHigh core (field w 5 5) al noted
  let z := nth {} (s.core core).cells k
  let keep := fun (s : State) (z : Cell) => s.modCore core fun c => { c with cells := modNth (fun y => { z with outputs := y.outputs }) c.cells k }
  match field w 10 3 with
  | 1 => if a && b then s.cellOutput core k 0 else s
  | 2 =>
    let s := keep s { z with lastA := a }
    if a && !z.lastA && b then s.cellOutput core k 0 else s
  | 3 => if a then keep s { z with count := z.count + 1 } else s
  | 4 =>
    if a then keep s { z with lastA := true, run := z.run + 1 }
    else if z.lastA then
      (keep s { z with lastA := false, run := 0 }).cellOutput core k (durBin (Nat.max 1 (field w 16 16)) z.run)
    else s
  | _ => s

/-- One cycle of all cells of a core. -/
def State.coreCycle (s : State) (core : Nat) (noted : List (Nat × Nat)) : State :=
  (List.range 8).foldl (fun s k => s.cellCycle core k noted) s

/-- One cycle ends: the cells have seen its signals, and their records carry its count (R359, R374). -/
def State.endCycle (s : State) : State :=
  let s := s.enabled.foldl (fun s core => s.coreCycle core (s.core core).signals) s
  { s.mapCores fun c => { c with signals := [] } with clock := s.clock + 1 }

/-- Some cycles end, one after another. -/
def State.endCycles : Nat → State → State
  | 0, s => s
  | n + 1, s => State.endCycles n s.endCycle

/-- A THRESH window of 512 cycles ends (R374). -/
def execThreshWindow (s : State) : Host.Outcome State Fault Refusal :=
  if !s.due tickThresh 512 || s.clock == 0 then .next s
  else
    let s := s.ticked tickThresh
    let ks := (List.range 8).filter fun k => field (s.regs.devcell.get 0#64 k).toNat 10 3 == 3
    if ks.isEmpty then .next s
    else .next (s.enabled.foldl (fun s core => ks.foldl (fun s k =>
      let z := nth {} (s.core core).cells k
      let s := s.modCore core fun c => { c with cells := modNth (fun y => { y with count := 0 }) c.cells k }
      if z.count ≥ field (s.regs.devcell.get 0#64 k).toNat 16 16 then s.cellOutput core k 0 else s) s) s)

/-! PC sampling. -/

/-- The reason for which a parked group does not issue (R376). -/
def waitCode : Wait → Option Nat
  | .none => Option.none
  | .switchBit => some 7
  | .limit _ => some 12
  | .barWait .. | .barTry .. => some 14
  | .tryw .. => some 15
  | .regang => some 16
  | .resamp _ => some 17
  | .held _ => some 18
  | .cancel .. => some 19
  | .qfence .. => some 26
  | .vsync .. => some 31

/-- Reasons of timing, one of which holds where the state shows none (assumption 40). -/
def timingReasons : List Nat := [8, 9, 10, 13, 21, 24, 29, 30, 31]

/-- Why a group issues or does not in the present cycle (R376): 0 if its scheduler has issued a word of it; else the lowest reason that
holds: what it parks for or its next word waits for, a spent budget, and for a group that is not parked an older group or a higher
class picked, `cede`. -/
def State.sampleReason (s : State) (c : Ctx) (idx : Nat) : Nat :=
  let core := s.core c.core
  let tag := groupTag c.uid c.grp.low
  if core.lastIssue.get 0 c.sched == s.clock + 1 && core.lastWho.get 0 c.sched == tag then 0
  else
    let picked := (s.ahead c).filter fun _ => c.grp.wait == .none
    let rs := (waitCode c.grp.wait).toList ++
      (if c.grp.stalledAt == s.clock + 1 then [c.grp.stallWhy] else []) ++
      (if c.grp.probedAt == s.clock + 1 then [c.grp.probeWhy] else []) ++
      (if s.budgetLeft c then [] else [20]) ++
      (if c.grp.pubHeld && s.plat.draining then [21] else []) ++
      (if picked.any fun o => s.classOf o == s.classOf c then [22] else []) ++
      (if picked.any fun o => s.classOf o > s.classOf c then [23] else []) ++
      (if c.grp.wait == .none && core.ceded.get 0 c.sched == tag then [25] else [])
    match rs with
    | [] => nth 31 timingReasons ((Config.freeWord s.free 5 idx).toNat % timingReasons.length)
    | r :: rs => rs.foldl Nat.min r

/-- The resident groups of an allotment on a scheduler, as (place in slot order, gang, group). -/
def State.residents (s : State) (core sched al : Nat) : List (Nat × Gang × Group) :=
  let gs := (s.gangsOn core).filter fun g =>
    g.slot / 16 == sched && !g.spilled && (s.block? g.blk).any fun (b : Block) => b.al == al
  let xs := gs.flatMap fun g => g.groups.map fun x => (8 * (g.slot % 16) + x.low, g, x)
  xs.mergeSort fun x y => x.1 ≤ y.1

/-- The resident group whose turn to be sampled it is: the next in rotation of slot order (R376). -/
def State.sampleNext (s : State) (core sched al : Nat) : Option (Nat × Gang × Group) :=
  let xs := s.residents core sched al
  (xs.find? fun x => x.1 + 1 > (s.core core).rot.get 0 (16 * sched + al)).or xs.head?

/-- One sample of a scheduler (R376). -/
def State.sample (s : State) (core sched al : Nat) : State :=
  let key := 16 * sched + al
  match s.sampleNext core sched al with
  | none => s
  | some (p, g, x) =>
    let r := ((s.ctx ⟨core, g.slot, x.low⟩).map fun c => s.sampleReason c (64 * core + key)).getD 31
    let sl := g.slice x.low
    let kaddr := ((s.block? g.blk).map fun (b : Block) => b.k.kaddr).getD 0
    let pay := packFields [(32, wrapTo 32 ((sl.pc : Int) - kaddr)), (32, sl.retc.toNat)]
    let s := s.modCore core fun c => { c with rot := c.rot.set 0 key (p + 1) }
    s.record core 48 al g.slot x.low (r + 32 * b2n (r == 0)) (BitVec.ofNat 64 pay)

/-- The allotment samples in this cycle. -/
def State.samples (s : State) (a : Allot) : Bool :=
  a.st == .running && a.sampctl.getLsbD 8 && s.clock % 2 ^ field a.sampctl.toNat 0 5 == 0

/-- The allotments that sample in this cycle. -/
def State.sampleAls (s : State) : List Nat := (List.range 16).filter fun al => s.samples (s.allot al)

/-- The groups that the samples of this cycle are of. -/
def State.sampleKeys (s : State) : List GroupKey :=
  s.sampleAls.flatMap fun al => s.busyCores.flatMap fun core => (List.range 4).filterMap fun sched =>
    (s.sampleNext core sched al).map fun x => ⟨core, x.2.1.slot, x.2.2.low⟩

/-- Every scheduler samples for the allotments whose turn it is, at the end of the cycle (R376). -/
def execPcSample (s : State) : Host.Outcome State Fault Refusal :=
  if !s.due tickSample 256 || !s.regs.trmask.getLsbD 48 then .next s
  else
    let als := s.sampleAls
    let s := s.ticked tickSample
    .next (als.foldl (fun s al => s.busyCores.foldl (fun s core =>
      (List.range 4).foldl (fun s sched => s.sample core sched al) s) s) s)

/-! The passing of cycles. -/

/-- A guarantee in force, as the last feedback window gave it, is below its configured value (R343, R353). -/
def Allot.below (a : Allot) : Bool := a.memgIn < a.item 9 || a.linkgIn < a.item 10

/-- Add `n` cycles to an allotment: VCLK and meters 12, 13 and 24 (R352, R353). -/
def Allot.cycles (n : Nat) (a : Allot) : Allot :=
  let w := BitVec.ofNat 64 n
  let add := fun (m : Store W64) (i : Nat) => m.set 0#64 i (m.get 0#64 i + w)
  let a := if a.below then { a with meters := add a.meters 24 } else a
  match a.st with
  | .running => { a with vclk := a.vclk + w, meters := add a.meters 12 }
  | .fallow => { a with meters := add a.meters 13 }
  | _ => a

/-- The raw signals of a cycle end with it (R373). -/
def State.quietSignals (s : State) : State :=
  if s.cores.all fun c => c.signals.isEmpty then s else s.mapCores fun c => { c with signals := [] }

/-- Some cycles pass, none of which is beyond the next cycle of `State.nextTick`. -/
def State.pass (s : State) (n : Nat) : State :=
  if n == 0 then s
  else
    let t := if s.regs.devcell.isEmpty then { s.quietSignals with clock := s.clock + n } else State.endCycles n s
    t.mapAllots fun _ a => a.cycles n

/-- The module samples PCs: some allotment has EN set and SAMPLE is enabled. -/
def State.sampling (s : State) : Bool := s.regs.trmask.getLsbD 48 && s.allots.any fun a => a.sampctl.getLsbD 8

/-- Cycles until the next periodic step. -/
def State.toTick (s : State) : Nat := let g := if s.sampling then 256 else 512; g - s.clock % g

/-- The periodic steps at the start of the present cycle, an epoch first (R359); a drain that may take no longer ends (R380). -/
def State.tickSteps (s : State) : List Turn :=
  let at' := fun (n : Nat) (i : Instr) => if s.clock % n == 0 then [Turn.now (.event i)] else []
  at' (2 ^ 32) .epoch ++ at' 65536 .periodBoundary ++ at' 512 .feedbackWindow ++ at' 512 .threshWindow ++
    (if s.plat.draining && s.plat.drainClock + 65536 < s.clock + 512 then at' 512 .routeSwitch else [])

/-- Before the present cycle ends its groups are sampled (R376); a probe of each comes first. -/
def State.sampleFirst (s : State) (t : Turn) : Bool := t.dt > 0 && s.sampling && s.due tickSample 256

/-- Let the cycles of a turn pass. Where a periodic step falls within them, the turn's rest follows it: the answer is then
none, else the turn may act. -/
def State.passTurn (s : State) (t : Turn) : State × Bool :=
  let k := s.toTick
  if s.sampleFirst t then
    ({ s with agenda := s.sampleKeys.map (fun k => Turn.now (.probe k)) ++ Turn.now (.event .pcSample) :: t :: s.agenda }, false)
  else if t.dt < k then (s.pass t.dt, true)
  else
    let s := s.pass k
    ({ s with agenda := s.tickSteps ++ { t with dt := t.dt - k } :: s.agenda }, false)

end Sys2Proof.Machine
end

