-- ==== Sys2Proof/Machine/Capsules.lean ====
section
/-! DEFINITION. Triggers (R361, R362), the freeze (R363, R364), capsules and their storage (R365, R366), views (R367) and
retrieval (R368, R369), meter reports (R354). -/

namespace Sys2Proof.Machine

/-! Contents of a capsule (R365). -/

/-- The ring of a core, oldest record first. -/
def Core.ring (c : Core) : List TRec := c.trail.reverse

/-- Enabled cores in ascending logical number, the operator's numbering, with their physical numbers; a core that the operator's place
table does not name, as before BOOT, goes by its own (R364, R365). -/
def State.logicalCores (s : State) : List (Nat × Nat) :=
  (s.enabled.map fun p => (s.logicalCore 0 p, p)).mergeSort fun x y => x.1 ≤ y.1

/-- The dispatcher's entry of a launch (R365). -/
def launchEntry (al : Nat) (l : Launch) : List W64 :=
  [l.lid % 2 ^ 32, al, l.grid, l.placed, l.done, l.mode, l.recAddr].map fun n => BitVec.ofNat 64 n

/-- One entry for each launch not complete, in ascending allotment, then identifier (R365). -/
def State.launchEntries (s : State) : List (List W64) :=
  (List.range 16).flatMap fun al =>
    (((s.allot al).launches.filter fun l => !l.complete && !l.hl).mergeSort fun x y => x.lid ≤ y.lid).map (launchEntry al)

/-- The allotment table's 256 bytes for an allotment (R365). -/
def State.allotEntry (s : State) (al : Nat) : List W64 :=
  let a := s.allot al
  astatWord a :: ((List.range 12).map fun i => BitVec.ofNat 64 (a.item i)) ++ [shorttWord a, s.vimask al]

/-- TPC in a core's summary entry: that of its groups where they have one, else the manual names none (assumption 42). -/
def State.coreTpc (s : State) (core : Nat) : W64 :=
  match (((s.gangsOn core).flatMap fun g => g.groups.map fun x => x.tpc.toNat).foldl addOnce []) with
  | [x] => BitVec.ofNat 64 x
  | _ => Config.freeWord s.free 7 core

/-- A core's entry in the fault summary (R363 to R365): SILENT where a freeze's gathering finds no acknowledgement of it. -/
def State.summaryEntry (s : State) (silent : Bool) (l p : Nat) : W64 × W64 :=
  let c := s.core p
  let raised := s.isalon.summary.any fun x => x.1 == p
  let word := match c.frozen with
    | some f => packFields [(6, if raised then 0x3E else 0x3F), (1, 0), (1, b2n (s.isalon.origins.contains l)), (8, f.hops),
        (16, 0), (32, f.stamp)]
    | none => packFields [(6, 0), (1, b2n silent)]
  (BitVec.ofNat 64 word, s.coreTpc p)

/-- The fault summary, one entry for each logical core. -/
def State.faultSummary (s : State) (silent : Bool) : List (W64 × W64) :=
  let cs := s.logicalCores
  (List.range 192).map fun l =>
    match cs.find? fun x => x.1 == l with
    | some x => s.summaryEntry silent l x.2
    | none => (0, 0)

/-! Storage (R366). -/

/-- The lowest flash slot that is free. -/
def Isalon.freeSlot (i : Isalon) : Option Nat := [1, 2].find? fun k => !i.flash.any fun x => x.1 == k

/-- Keep a capsule: the newest for the retention region, and in flash where a slot is free (R366). -/
def Isalon.store (i : Isalon) (c : Capsule) : Isalon :=
  let c := { c with serial := i.serial + 1, dropped := i.dropped }
  let i := { i with serial := i.serial + 1, retention := some c }
  match i.freeSlot with
  | some k => { i with flash := i.flash ++ [(k, c)], dropped := 0 }
  | none => { i with dropped := i.dropped + 1 }

/-- A capsule of the present state over the rings of some cores. -/
def State.capsule (s : State) (kind count origin cause : Nat) (cores : List Nat) : Capsule :=
  { kind := kind, serial := 0, count := count, origin := origin, cause := cause, ncores := cores.length, dropped := 0,
    summary := s.faultSummary (kind != 1), entries := s.launchEntries, table := (List.range 16).map s.allotEntry,
    rings := cores.map fun p => (s.core p).ring }

/-! The bytes of a capsule (R365) and of a view (R367). -/

/-- 64-bit words as bytes, with zeros up to a length. -/
def wordsTo (len : Nat) (ws : List W64) : List Byte :=
  let bs := ws.flatMap fun w => toBytes 8 w.toNat
  bs ++ List.replicate (len - bs.length) 0#8

/-- A ring's 64 KiB. -/
def ringBytes (r : List TRec) : List Byte := wordsTo 65536 (r.flatMap fun x => [x.w0, x.w1])

/-- A capsule up to its digest; `full` is FULLHASH, in a view only. -/
def Capsule.body (c : Capsule) (full : List Byte) : List Byte :=
  let head := [c.kind, c.serial, c.count, packFields [(8, c.origin), (6, c.cause), (2, 0), (8, c.ncores)]]
  let h := (head.flatMap fun n => toBytes 8 n) ++ full ++ List.replicate (48 - full.length) 0#8 ++ toBytes 8 c.dropped
  let rest := List.replicate (4096 - h.length) 0#8
  h ++ rest ++ wordsTo 4096 (c.summary.flatMap fun x => [x.1, x.2]) ++
    wordsTo 4194304 (c.entries.flatMap fun e => e ++ List.replicate (8 - e.length) 0#64) ++
    wordsTo 4096 (c.table.flatMap fun e => e ++ List.replicate (32 - e.length) 0#64) ++ c.rings.flatMap ringBytes

/-- r and s of the ECDSA P-384 signature of bytes under the device key: 96 bytes (R354, R365). -/
def signatureOf (bs : List Byte) : List Byte := (List.range 96).map fun i => nth 0#8 (Config.signature bs) i

/-- The digest and the signature after a body. -/
def sealedBytes (body : List Byte) : List Byte := body ++ sha384 body ++ signatureOf body

/-- A record that a view keeps (R367). -/
def TRec.kept (al : Nat) (r : TRec) : Bool :=
  let n := r.w0.toNat
  let cls := field n 36 6
  field n 32 4 == al || cls == 32 || cls == 33 || cls == 63

/-- The REDACT record for a run; its STAMP is not stated: one free value for each place `at'` of a view (assumption 42). -/
def redactRec (serial at' run : Nat) : TRec :=
  ⟨recWord0 ((Config.freeWord serial 7 (1024 + at')).toNat % 2 ^ 32) 0 62 0 0 0 0, BitVec.ofNat 64 run⟩

/-- A ring as a view holds it: each run of other records is one REDACT record (R367). `base` numbers the ring's places. -/
def redact (al serial base : Nat) : Nat → List TRec → List TRec
  | run, [] => if run == 0 then [] else [redactRec serial base run]
  | run, r :: rest =>
    if r.kept al then
      (if run == 0 then [] else [redactRec serial (base + 1 + rest.length) run]) ++ r :: redact al serial base 0 rest
    else redact al serial base (run + 1) rest

/-- The view of a capsule for an allotment (R367): the same bytes at every READ. -/
def Capsule.view (c : Capsule) (al : Nat) : Capsule :=
  { c with
    entries := c.entries.filter fun e => (nth 0#64 e 1).toNat == al
    table := mapIdx (fun i e => if i == al then e else []) 0 c.table
    rings := mapIdx (fun i r => redact al c.serial (8192 * (16 * i + al)) 0 r) 0 c.rings }

/-- The bytes that a capsule is read as: whole by the operator, a view by an allotment (R367). -/
def Capsule.read (c : Capsule) (al : Option Nat) : List Byte :=
  match al with
  | none => sealedBytes (c.body [])
  | some a => sealedBytes ((c.view a).body (sha384 (c.body [])))

/-- The length of a capsule in bytes (R365). -/
def Capsule.len (c : Capsule) : Nat := 4108 * 1024 + 65536 * c.ncores + 144

/-- The bytes of Isalon's newest capsule go to the start of the retention region, in tier one (R366, R395): the homes accept the lines in
which some byte is or was not zero, as they accept any write. -/
def State.putRegion (s : State) (bs : List Byte) : State :=
  let inside := fun (a : Nat) => retentionBase ≤ a && a < retentionBase + bs.length
  let new := (bytesAt retentionBase bs).filter fun x => x.2 != Memory.unlisted
  let lines := (((s.mem.filter fun c => inside c.1) ++ new).map fun c => lineOf c.1).eraseDups
  let old := if s.anyLaunch then lines.map fun l => ⟨s.turn, l, BitVec.allOnes 128, s.homeLine l⟩ else []
  { s with mem := new.foldr (fun x m => Memory.write m x.1 x.2) (s.mem.filter fun c => !inside c.1)
           vers := lines.foldl (fun v l => v.set 0 l (s.version l + 1)) s.vers
           owners := lines.foldl (fun v l => v.set 0 l 0) s.owners
           writes := old ++ s.writes }

/-- Isalon stores a capsule (R366). What it delivers later is the capsule that it has sealed (assumption 42). -/
def State.storeCapsule (s : State) (c : Capsule) : State :=
  let iso := s.isalon.store c
  { s with isalon := iso }.putRegion ((iso.retention.map fun (k : Capsule) => k.read none).getD [])

/-! Triggers (R362). -/

/-- The trigger has fired on a core: its TRIGGER record is written, where another has not made it be, and EN is cleared in every core (R361,
R362). -/
def execTriggerFire (s : State) : Host.Outcome State Fault Refusal :=
  match s.cores.find? fun c => c.trigPend with
  | none => .next s
  | some c =>
    let x := c.trigger (field s.regs.trtrig.toNat 16 12) s.clock
    .next { s.modCore c.id (fun _ => { x with trigPend := false }) with
      regs := { s.regs with trtrig := s.regs.trtrig &&& 0xFFF7FFF#64 }
      agenda := sealTurn c x ++ s.agenda }

/-- A core has written its records after a trigger: Isalon seals its ring; word 2 is the cycle count at the trigger (R362, R365). -/
def execTriggerSeal (s : State) : Host.Outcome State Fault Refusal :=
  match s.cores.find? fun c => c.sealNow && c.post == some 0 with
  | some c =>
    let cap := s.capsule 1 c.trigAt (s.logicalCore 0 c.id) 0 [c.id]
    let s := s.modCore c.id fun x => { x with sealNow := false }
    .next (s.storeCapsule cap)
  | none => .next s

/-! The freeze (R363, R364). -/

/-- A core receives a freeze message: its first one freezes it (R363). -/
def execFreezeMessage (core origin hops : Nat) (s : State) : Host.Outcome State Fault Refusal :=
  if !s.isalon.origins.contains origin || !s.enabled.contains core then .next s
  else
    let cause := ((s.cores.filterMap fun c => c.frozen).find? fun f => f.origin == origin && f.hops == 0).map
      fun (f : Freeze) => f.cause
    .next (s.freezeCore core origin (hops % 256) (cause.getD s.isalon.fcause))

/-- Isalon gathers once every core has acknowledged, or 4,096 cycles after the first broadcast; the capsule's ORIGIN is the
lowest of the originators (R363, R364), its KIND 2 where the operator's write to FREEZE started the freeze (assumption 36). After a thermal freeze the dies are powered down (R397). -/
def execCapsuleGather (s : State) : Host.Outcome State Fault Refusal :=
  match s.isalon.freezeAt with
  | none => .next s
  | some t =>
    let cs := s.logicalCores.map fun x => x.2
    let all := cs.all fun p => (s.core p).frozen.any fun f => f.acked
    if s.isalon.gathered || !(all || s.clock ≥ t + 4096) then .next s
    else
      let origin := s.isalon.origins.foldl Nat.min (s.isalon.origins.headD 0)
      let s := s.storeCapsule (s.capsule (if s.isalon.asked then 2 else 0) t origin s.isalon.fcause cs)
      let plat := { s.plat with poweredDown := s.plat.thermal }
      .next { s with isalon := { s.isalon with gathered := true }, plat := plat }

/-- The inlet is above 50 °C or a junction above 105 °C: a fatal freeze with cause 0x3E, after which the dies are powered
down (R397). Which core starts it is not stated (assumption 43). -/
def execThermalFreeze (s : State) : Host.Outcome State Fault Refusal :=
  let cs := s.enabled
  let core := nth 0 cs ((Config.freeWord s.free 8 0).toNat % cs.length)
  let plat := { s.plat with thermal := true }
  let s := { s with plat := plat }
  .next (if s.isalon.freezeAt.isSome then s else s.startFreeze core 0x3E true)

/-! Retrieval (R368, R369). -/

/-- Whom a requester acts for: the operator, an allotment, or nobody. -/
inductive Asker where
  | operator | tenant (al : Nat) | nobody
  deriving DecidableEq, Repr, Inhabited

/-- The physical function and I3C are the operator's; a virtual function acts for the owner of its interface, allotment 0 no more than
another (R354, R368). -/
def State.asker (s : State) (who : Requester) : Asker :=
  match who with
  | .operator => .operator
  | .vi v =>
    let o := (s.regs.viown.get 0#64 v).toNat
    if v == 0 || 64 ≤ v || !bitAt o 4 then .nobody else .tenant (field o 0 4)

/-- Isalon's answer to a message. -/
def State.reply (s : State) (r : Option (List Byte)) : State := { s with isalon := { s.isalon with answer := r } }

/-- LIST: serial, kind, length and place of each capsule kept (R368), as four words each (assumption 44). -/
def execList (who : Requester) (s : State) : Host.Outcome State Fault Refusal :=
  let item := fun (c : Capsule) (p : Nat) => [c.serial, c.kind, c.len, p].flatMap fun n => toBytes 8 n
  let i := s.isalon
  let all := (i.retention.toList.map fun c => item c 0) ++ i.flash.map fun x => item x.2 x.1
  .next (if s.asker who == .nobody then s.reply none else s.reply (some (all.take 4).flatten))

/-- The capsule a serial names. -/
def Isalon.find (i : Isalon) (serial : Nat) : Option Capsule :=
  (i.retention.toList ++ i.flash.map fun x => x.2).find? fun c => c.serial == serial

/-- READ (R368, R369): more than 4,096 bytes, or an unknown serial, is an error. -/
def execRead (who : Requester) (serial off len : Nat) (s : State) : Host.Outcome State Fault Refusal :=
  let part := fun (c : Capsule) (al : Option Nat) => some (((c.read al).drop off).take len)
  match s.isalon.find serial, s.asker who with
  | some c, .operator => .next (s.reply (if len ≤ 4096 then part c none else none))
  | some c, .tenant al => .next (s.reply (if len ≤ 4096 then part c (some al) else none))
  | _, _ => .next (s.reply none)

/-- ACK (R366, R368, R369): the operator's alone. -/
def execAck (who : Requester) (serial : Nat) (s : State) : Host.Outcome State Fault Refusal :=
  match s.isalon.find serial, s.asker who with
  | some _, .operator =>
    let i := s.isalon
    let kept := i.retention.filter fun c => c.serial != serial
    let iso := { i with retention := kept, flash := i.flash.filter fun x => x.2.serial != serial, answer := some [] }
    .next { s with isalon := iso }
  | _, _ => .next (s.reply none)

/-! Meter reports (R354). -/

/-- H_0, or the last H of an allotment's chain. -/
def Allot.lastHash (al : Nat) (a : Allot) : List Byte :=
  if a.chain.isEmpty then sha384 (toBytes 8 (idWord al a.serial)) else a.chain

/-- Bytes 271:0 of a report. -/
def Allot.reportHead (al : Nat) (a : Allot) : List Byte :=
  toBytes 8 (idWord al a.serial) ++ toBytes 8 (a.repN + 1) ++ a.meterWords.flatMap fun w => toBytes 8 w.toNat

/-- The 352 bytes of a report (R354). -/
def Allot.reportBytes (al : Nat) (a : Allot) : List Byte :=
  let head := a.reportHead al
  head ++ sha384 (a.lastHash al ++ head) ++ List.replicate 32 0#8

/-- GET_MEASUREMENTS (R354): index 0x40 + a; a tenant may name its own only. The response is signed over the report and the
requester's nonce. -/
def execGetMeasurements (who : Requester) (index : Nat) (nonce : Nat) (s : State) : Host.Outcome State Fault Refusal :=
  let al := index - 0x40
  let ok := 0x40 ≤ index && index < 0x50 && (s.asker who == .operator || s.asker who == .tenant al)
  if !ok then .next (s.reply none)
  else
    let a := s.allot al
    let rep := a.reportBytes al
    let s := s.modAllot al fun x => { x with repN := a.repN + 1, chain := sha384 (a.lastHash al ++ a.reportHead al) }
    .next (s.reply (some (rep ++ signatureOf (rep ++ toBytes 32 nonce))))

end Sys2Proof.Machine
end

