-- ==== Sys2Proof/Machine/Outside.lean ====
section
/-! DEFINITION. What reaches the module from outside its cores: the gleaner (R139, R140), retirement and routing (R342,
R343, R380), the host link (R351, R392 to R394), memory and peer ports (R384, R385), power and coolant (R397), resets
(R396), and words of no instruction (R66). -/

namespace Sys2Proof.Machine

/-! The gleaner. -/

/-- A physical location as TINFO1 gives it; its layout is not stated (assumption 41). -/
def State.location (s : State) : Nat := (Config.freeWord s.free 6 0).toNat

/-- An uncorrectable error in a unit: the launch that it belongs to ends; an ownerless unit is the device's (R138, R140). -/
def State.damageOwned (s : State) (core tag kind : Nat) : State :=
  if tag == 0 then s.deviceFatal core 8 s.location else s.endOwned ((tag - 1) % 16) ((tag - 1) / 16) kind s.location

/-- An uncorrectable error in an entry (R140): a granule, a row, a tile slot by its number on its core. A clean line of the L2 is
refetched. -/
def State.uncorrectable (s : State) (loc : ArrayLoc) : State :=
  let unit := fun (core u : Nat) => (s.core core).tags.get 0 u
  match loc with
  | .reg core g => s.damageOwned core (unit core (g % 512)) 1
  | .row core r => s.damageOwned core (unit core (512 + r % 512)) 3
  | .tile core t => s.damageOwned core (unit core (1024 + t % 1024)) 4
  | .held core idx =>
    match (s.core core).held[idx]? with
    | none => s
    | some h => s.damageOwned core (ownerTag h.al h.lid) 1
  | .entry core eid =>
    match s.entry? core eid with
    | none => s
    | some e =>
      if s.holders core eid == 0 && e.mask == 0 then s.dropEntry core eid else s.damageOwned core (ownerTag e.al e.lid) 2
  | .l2 line dirty => if dirty then s.damageOwned (48 * homeDie line) (s.owners.get 0 (lineOf line)) 5 else s
  | .memory line => { s with poison := addOnce s.poison (lineOf line) }
  | .ownerless core => s.deviceFatal core 8 s.location

/-- The gleaner reads an entry (R139): a single error is corrected in place and changes nothing a program sees. -/
def execGleanerVisit (loc : ArrayLoc) (err : ArrayErr) (s : State) : Host.Outcome State Fault Refusal :=
  match err with
  | .uncorrectable => .next (s.uncorrectable loc)
  | _ => .next s

/-! Retirement and routing. -/

/-- What a retirement takes away. -/
def OpRegs.retire (r : OpRegs) (what : Retired) : OpRegs :=
  let r := { r with retirements := r.retirements + 1 }
  match what with
  | .channel => { r with chLost := Nat.min 256 (r.chLost + 1) }
  | .direction => { r with dirLost := Nat.min 8 (r.dirLost + 1) }
  | .fld f => { r with fieldsLost := addOnce r.fieldsLost f }

/-- What a retirement leaves of an allotment: SHORT and SHORTT at once, and, where a guarantee fell and for allotment 0, vectors that
the next feedback window raises (R343). -/
def State.fallen (s : State) (k : Nat) (a : Allot) : Allot :=
  let b := s.guarantee a
  { b with shortDue := a.shortDue || k == 0 || b.memg < a.memg || b.linkg < a.linkg }

/-- A channel, a boundary direction or a field is retired (R342, R343). The loss of a direction or a field changes the routes: from now
on no request is injected (R380). -/
def execRetirement (what : Retired) (s : State) : Host.Outcome State Fault Refusal :=
  let s := { s with regs := s.regs.retire what }
  let plat := if what == .channel || s.plat.draining then s.plat
    else { s.plat with draining := true, drainTurn := s.turn, drainUid := s.nextUid, drainClock := s.clock }
  .next { s.mapAllots s.fallen with plat := plat }

/-- Every router's tables switch and injection resumes (R380), once every message in flight has drained or the time for that is over: what
has waited for it to end ends. The tables only carry messages (assumption 18). -/
def execRouteSwitch (s : State) : Host.Outcome State Fault Refusal :=
  if s.plat.draining && !s.drainOver then .next s
  else .next { s with plat := { s.plat with draining := false } }.sweep

/-! The host link. -/

/-- One run of bytes within a line that the host writes, through stage two of an allotment: D is set, no view is marked
(R393). A run whose address stage two does not map for writing, or maps to a peer, is dropped (assumption 45). -/
def State.hostRun (s : State) (al : Nat) (x : Nat × List (Nat × Byte)) : State :=
  match s.stageTwo al x.1 with
  | .error _ => s
  | .ok (pa, leaf) =>
    if isPeer pa || leaf.any (fun l => !(l.r && l.w)) then s
    else
      let s := match leaf with
        | none => s
        | some l =>
          let fresh := !(s.mem.read l.ent).getLsbD 7
          let s := s.setAttr l.ent 0xC0#8
          if fresh then s.modAllot al fun a => a.noteDirty (sizeCode l.size, alignDown x.1 l.size) else s
      s.homeWrite pa x.2

/-- Bytes written from outside at an intermediate address of an allotment. -/
def State.hostWrite (s : State) (al a : Nat) (bs : List Byte) : State :=
  (homeRuns (bs.length / 128 + 2) a bs).foldl (fun s x => s.hostRun al x) s

/-- A host write to DOOR is stored at WATCH with system scope (R351); WATCH is an address of the owner's stage two, as the
memory window's is (assumption 46). -/
def execDoor (v : Nat) (data : W64) (s : State) : Host.Outcome State Fault Refusal :=
  let o := (s.regs.viown.get 0#64 v).toNat
  .next (if bitAt o 4 then s.hostWrite (field o 0 4) (field o 8 48 * 256) (toBytes 8 data.toNat) else s)

/-- A host write through BAR2 (R393). -/
def execHostMemoryWrite (v off : Nat) (data : List Byte) (s : State) : Host.Outcome State Fault Refusal :=
  let o := (s.regs.viown.get 0#64 v).toNat
  let w := (s.regs.viwin.get 0#64 v).toNat
  let k := field w 0 6
  if !bitAt o 4 || k < 21 || 44 < k || 2 ^ k < off + data.length then .next s
  else .next (s.hostWrite (field o 0 4) (alignDown (field w 21 35 * 2 ^ 21) (2 ^ k) + off) data)

/-- The bytes of an address and those after it that one run of a host read returns, and the state in which the leaf of stage two has been
accessed (R388, R393). What a run that does not map for reading, maps to a peer or meets a damaged line returns is open (assumption 74). -/
def State.hostReadRun (s : State) (al : Nat) (x : Nat × List (Nat × Byte)) : List Byte × State :=
  let unstated := fun (s : State) => (x.2.map fun y => (Config.freeWord s.free 12 (x.1 + y.1)).setWidth 8, s)
  match s.stageTwo al x.1 with
  | .error _ => unstated s
  | .ok (pa, leaf) =>
    if isPeer pa || leaf.any (fun l => !l.r) then unstated s
    else
      let s := match leaf with
        | none => s
        | some l => s.setAttr l.ent 0x40#8
      if s.damaged (lineOf pa) then unstated s else (x.2.map fun y => s.mem.read (pa + y.1), s)

/-- A host read through BAR2 (R393) of `n` bytes: what it returns stands in `Platform.seen`. A window without an owner or of a size out of
range reads as zero, and so does what lies beyond a window (assumption 74). -/
def State.hostRead (s : State) (v off n : Nat) : State :=
  let o := (s.regs.viown.get 0#64 v).toNat
  let w := (s.regs.viwin.get 0#64 v).toNat
  let k := field w 0 6
  let (bs, s) :=
    if !bitAt o 4 || k < 21 || 44 < k || 2 ^ k < off + n then (List.replicate n 0#8, s)
    else (homeRuns (n / 128 + 2) (alignDown (field w 21 35 * 2 ^ 21) (2 ^ k) + off) (List.replicate n 0#8)).foldl
      (fun (p : List Byte × State) x => let (bs, s) := p.2.hostReadRun (field o 0 4) x; (p.1 ++ bs, s)) ([], s)
  { s with plat := { s.plat with seen := bs } }

/-- A host write to BOOT (R394). Firmware has numbered the units by then (R69; assumption 9). -/
def execBoot (addr : W64) (s : State) : Host.Outcome State Fault Refusal :=
  if (s.allot 0).st != .ready then .next s
  else
    let s := s.modAllot 0 fun a => { a.numbered s.plat.harvested with hlrec := addr }
    .next ((s.start 0).getD s)

/-- A function-level reset of a virtual function (R392). -/
def execFunctionLevelReset (v : Nat) (s : State) : Host.Outcome State Fault Refusal :=
  if v == 0 || 64 ≤ v then .next s
  else
    let regs := { s.regs with viapp := s.regs.viapp.set 0 v 0, vipend := s.regs.vipend.set 0 v 0 }
    .next { s with regs := regs }.raiseOperator

/-! Ports, power, coolant. -/

/-- A CXL port's link is down: its lines count as poisoned (R384). -/
def execCxlLinkDown (port : Nat) (s : State) : Host.Outcome State Fault Refusal :=
  .next { s with plat := { s.plat with cxlDown := addOnce s.plat.cxlDown port } }

/-- A flit of a peer port fails its CRC and is replayed. A replay that fails once more counts; sixteen failures of one replay mark the
port down, and one that succeeds ends it (R385). -/
def execPeerFlitReplay (r : PeerReplay) (s : State) : Host.Outcome State Fault Refusal :=
  let n := if r.good then 0 else s.plat.peerFails.get 0 r.port + 1
  let down := if n ≥ 16 then addOnce s.plat.peerDown r.port else s.plat.peerDown
  .next { s with plat := { s.plat with peerFails := s.plat.peerFails.set 0 r.port n, peerDown := down } }

/-- A peer's write is accepted at the line's home (R154), where its first and its last byte lie in a tier; it marks no view (R266). -/
def execPeerWrite (addr : Nat) (data : List Byte) (s : State) : Host.Outcome State Fault Refusal :=
  let inside := fun (a : Nat) => isTierOne a || isTierTwo a
  .next (if inside addr && inside (addr + data.length - 1) then s.homeBytes addr data else s)

/-- The power averaged over 1 ms is compared with PCAP: above it matrix words are held, until it is below (R397). -/
def execPowerLimit (watts : Nat) (s : State) : Host.Outcome State Fault Refusal :=
  let cap := s.regs.pcap.toNat
  .next { s with plat := { s.plat with mxHold := decide (watts > cap) || s.plat.mxHold && watts == cap } }

/-- The inlet is above 45 °C (R397). -/
def execCoolantWarning (s : State) : Host.Outcome State Fault Refusal := .next s.raiseOperator

/-! Resets. -/

/-- Power-on or PERST# (R396). -/
def execColdReset (s : State) : Host.Outcome State Fault Refusal := .next s.coldReset

/-- A hot reset of the host link (R396). -/
def execWarmReset (s : State) : Host.Outcome State Fault Refusal := .next s.warmReset

/-! Words of no instruction. -/

/-- The half of an unassigned word that the check finds first, 0 for a full word (R65, R73). -/
def unassignedHalf (w : W64) : Nat :=
  if bitAt w.toNat 62 && (ropOf (field w.toNat 24 7)).isSome then 1 else 0

/-- A word whose major or restricted opcode is unassigned traps (R65, R66, R73). -/
def execUnassignedOpcode (w : W64) (s : State) : Host.Outcome State Fault Refusal :=
  match s.cur.bind s.ctx with
  | none => .next s
  | some c => .next (s.trapNow c w { cause := if bitAt w.toNat 62 then 0x07 else 0x01, half := unassignedHalf w, fld := fOp } 0)

end Sys2Proof.Machine
end

