-- ==== Sys2Proof/Machine/Paired.lean ====
section
/-! DEFINITION. Paired words (R7, R61 to R65): one definition for each operation of half 0, over one shared meaning. -/

namespace Sys2Proof.Machine

/-- The immediate of a half, sign-extended (R65). -/
def HArgs.imm (x : HArgs) : W64 := BitVec.ofNat 64 (wrapTo 32 (signedOf 7 x.hm))

/-- What a half computes from D and S (R65), by the operations of the full words. -/
def halfValue (o : ROp) (x : HArgs) (d b : W64) : W64 :=
  let f := fun (g : W32 → W32 → W32) => (g (d.setWidth 32) (b.setWidth 32)).setWidth 64
  match o with
  | .nop => d
  | .mov => b
  | .add => intAdd .n32 false d b
  | .sub => intSub .n32 false d b
  | .mul => intMul .n32 d b
  | .minI => intMin .i32 d b
  | .maxI => intMax .i32 d b
  | .minN => intMin .n32 d b
  | .maxN => intMax .n32 d b
  | .and => d &&& b
  | .or => d ||| b
  | .xor => d ^^^ b
  | .shl => intShl .n32 d (b.toNat % 32)
  | .shr => intShr .n32 d (b.toNat % 32)
  | .sar => intSar .i32 d (b.toNat % 32)
  | .fadd => f (fAdd .rne)
  | .fsub => f (fSub .rne)
  | .fmul => f (fMul .rne)
  | .fmin => f (fminmax false)
  | .fmax => f (fminmax true)
  | .movi => HArgs.imm x
  | .addI => intAdd .n32 false d (HArgs.imm x)
  | .subI => intSub .n32 false d (HArgs.imm x)
  | .andI => d &&& HArgs.imm x
  | .orI => d ||| HArgs.imm x
  | .xorI => d ^^^ HArgs.imm x
  | .shlI => intShl .n32 d x.hm
  | .shrI => intShr .n32 d x.hm
  | .sarI => intSar .i32 d x.hm

/-- Latency of a half: that of the full-word operation it names (R97). -/
def halfLatency : ROp → Nat
  | .mul | .fadd | .fsub | .fmul | .fmin | .fmax => 6
  | _ => 4

/-- The registers a half reads, with their fields: HD, and HS in register halves (R63). `nop` names none. -/
def halfReads (y : Half) : List Use :=
  match y.op with
  | .nop => []
  | o => if o.isImm then [⟨fD, .v y.x.hd⟩] else [⟨fD, .v y.x.hd⟩, ⟨fB, .v y.x.hs⟩]

/-- The bank of a register (R7). -/
def Reg.bank : Reg → Nat
  | .v n => n % 4
  | _ => 0

/-- Check 9 on a half. -/
def halfDeclared (c : Ctx) (half : Nat) : List Use → M Unit
  | [] => .ok ()
  | u :: us => do
    trapIf (!c.blk.k.declares u.reg) { cause := 0x05, half := half, fld := u.fld }
    halfDeclared c half us

/-- The bank rule (R63): the first register of half 1 in a bank that half 0 reads. -/
def bankRule (a b : List Use) : M Unit :=
  match b.find? fun u => a.any fun x => Reg.bank x.reg == Reg.bank u.reg with
  | some u => trapWith { cause := 0x06, half := 1, fld := u.fld }
  | none => .ok ()

/-- What a half writes: its lanes and their values, from the state before either half writes (R62). -/
def State.halfWrites (s : State) (c : Ctx) (y : Half) (e : LaneMask) : List (Nat × W32) :=
  match y.op with
  | .nop => []
  | o => (lanesOf e).map fun l =>
      (l, (halfValue o y.x ((s.readV c.gang y.x.hd l).setWidth 64) ((s.readV c.gang y.x.hs l).setWidth 64)).setWidth 32)

/-- A paired word: checks 9 and 10, the scoreboard, both halves on the old values (R61 to R64). -/
def pairWord (sw : Bool) (o : ROp) (x : HArgs) (y : Half) : State → Host.Outcome State Fault Refusal :=
  let z : Half := ⟨o, x⟩
  runWord .matrix { sw := sw, uni := false, g := 7, neg := false } [] fun s c _ => do
    halfDeclared c 0 (halfReads z)
    halfDeclared c 1 (halfReads y)
    bankRule (halfReads z) (halfReads y)
    scoreboard c (halfReads z ++ halfReads y ++ [⟨fGuard, .p x.hg⟩, ⟨fGuard, .p y.x.hg⟩])
    let e0 := s.enabledLanes c x.hg false
    let e1 := s.enabledLanes c y.x.hg false
    let w0 := s.halfWrites c z e0
    let w1 := s.halfWrites c y e1
    let s := s.modGang c.uid fun g =>
      let g := if w0.isEmpty then g else g.putV s.clock (halfLatency o) x.hd c.grp.slices w0
      if w1.isEmpty then g else g.putV s.clock (halfLatency y.op) y.x.hd c.grp.slices w1
    pure ((s.meter c.al 3 ((lanesOf e0).length + (lanesOf e1).length)).signal c.core 1 c.al)

/-- A pair whose half 0 is `nop` (R65). -/
def execPairNop (sw : Bool) (x : HArgs) (y : Half) (s : State) : Host.Outcome State Fault Refusal :=
  pairWord sw .nop x y s

/-- A pair whose half 0 is `mov` (R65). -/
def execPairMov (sw : Bool) (x : HArgs) (y : Half) (s : State) : Host.Outcome State Fault Refusal :=
  pairWord sw .mov x y s

/-- A pair whose half 0 is `add` (R65). -/
def execPairAdd (sw : Bool) (x : HArgs) (y : Half) (s : State) : Host.Outcome State Fault Refusal :=
  pairWord sw .add x y s

/-- A pair whose half 0 is `sub` (R65). -/
def execPairSub (sw : Bool) (x : HArgs) (y : Half) (s : State) : Host.Outcome State Fault Refusal :=
  pairWord sw .sub x y s

/-- A pair whose half 0 is `mul` (R65). -/
def execPairMul (sw : Bool) (x : HArgs) (y : Half) (s : State) : Host.Outcome State Fault Refusal :=
  pairWord sw .mul x y s

/-- A pair whose half 0 is `minI` (R65). -/
def execPairMinI32 (sw : Bool) (x : HArgs) (y : Half) (s : State) : Host.Outcome State Fault Refusal :=
  pairWord sw .minI x y s

/-- A pair whose half 0 is `maxI` (R65). -/
def execPairMaxI32 (sw : Bool) (x : HArgs) (y : Half) (s : State) : Host.Outcome State Fault Refusal :=
  pairWord sw .maxI x y s

/-- A pair whose half 0 is `minN` (R65). -/
def execPairMinN32 (sw : Bool) (x : HArgs) (y : Half) (s : State) : Host.Outcome State Fault Refusal :=
  pairWord sw .minN x y s

/-- A pair whose half 0 is `maxN` (R65). -/
def execPairMaxN32 (sw : Bool) (x : HArgs) (y : Half) (s : State) : Host.Outcome State Fault Refusal :=
  pairWord sw .maxN x y s

/-- A pair whose half 0 is `and` (R65). -/
def execPairAnd (sw : Bool) (x : HArgs) (y : Half) (s : State) : Host.Outcome State Fault Refusal :=
  pairWord sw .and x y s

/-- A pair whose half 0 is `or` (R65). -/
def execPairOr (sw : Bool) (x : HArgs) (y : Half) (s : State) : Host.Outcome State Fault Refusal :=
  pairWord sw .or x y s

/-- A pair whose half 0 is `xor` (R65). -/
def execPairXor (sw : Bool) (x : HArgs) (y : Half) (s : State) : Host.Outcome State Fault Refusal :=
  pairWord sw .xor x y s

/-- A pair whose half 0 is `shl` (R65). -/
def execPairShl (sw : Bool) (x : HArgs) (y : Half) (s : State) : Host.Outcome State Fault Refusal :=
  pairWord sw .shl x y s

/-- A pair whose half 0 is `shr` (R65). -/
def execPairShr (sw : Bool) (x : HArgs) (y : Half) (s : State) : Host.Outcome State Fault Refusal :=
  pairWord sw .shr x y s

/-- A pair whose half 0 is `sar` (R65). -/
def execPairSar (sw : Bool) (x : HArgs) (y : Half) (s : State) : Host.Outcome State Fault Refusal :=
  pairWord sw .sar x y s

/-- A pair whose half 0 is `fadd` (R65). -/
def execPairFadd (sw : Bool) (x : HArgs) (y : Half) (s : State) : Host.Outcome State Fault Refusal :=
  pairWord sw .fadd x y s

/-- A pair whose half 0 is `fsub` (R65). -/
def execPairFsub (sw : Bool) (x : HArgs) (y : Half) (s : State) : Host.Outcome State Fault Refusal :=
  pairWord sw .fsub x y s

/-- A pair whose half 0 is `fmul` (R65). -/
def execPairFmul (sw : Bool) (x : HArgs) (y : Half) (s : State) : Host.Outcome State Fault Refusal :=
  pairWord sw .fmul x y s

/-- A pair whose half 0 is `fmin` (R65). -/
def execPairFmin (sw : Bool) (x : HArgs) (y : Half) (s : State) : Host.Outcome State Fault Refusal :=
  pairWord sw .fmin x y s

/-- A pair whose half 0 is `fmax` (R65). -/
def execPairFmax (sw : Bool) (x : HArgs) (y : Half) (s : State) : Host.Outcome State Fault Refusal :=
  pairWord sw .fmax x y s

/-- A pair whose half 0 is `movi` (R65). -/
def execPairMovi (sw : Bool) (x : HArgs) (y : Half) (s : State) : Host.Outcome State Fault Refusal :=
  pairWord sw .movi x y s

/-- A pair whose half 0 is `addI` (R65). -/
def execPairAddImm (sw : Bool) (x : HArgs) (y : Half) (s : State) : Host.Outcome State Fault Refusal :=
  pairWord sw .addI x y s

/-- A pair whose half 0 is `subI` (R65). -/
def execPairSubImm (sw : Bool) (x : HArgs) (y : Half) (s : State) : Host.Outcome State Fault Refusal :=
  pairWord sw .subI x y s

/-- A pair whose half 0 is `andI` (R65). -/
def execPairAndImm (sw : Bool) (x : HArgs) (y : Half) (s : State) : Host.Outcome State Fault Refusal :=
  pairWord sw .andI x y s

/-- A pair whose half 0 is `orI` (R65). -/
def execPairOrImm (sw : Bool) (x : HArgs) (y : Half) (s : State) : Host.Outcome State Fault Refusal :=
  pairWord sw .orI x y s

/-- A pair whose half 0 is `xorI` (R65). -/
def execPairXorImm (sw : Bool) (x : HArgs) (y : Half) (s : State) : Host.Outcome State Fault Refusal :=
  pairWord sw .xorI x y s

/-- A pair whose half 0 is `shlI` (R65). -/
def execPairShlImm (sw : Bool) (x : HArgs) (y : Half) (s : State) : Host.Outcome State Fault Refusal :=
  pairWord sw .shlI x y s

/-- A pair whose half 0 is `shrI` (R65). -/
def execPairShrImm (sw : Bool) (x : HArgs) (y : Half) (s : State) : Host.Outcome State Fault Refusal :=
  pairWord sw .shrI x y s

/-- A pair whose half 0 is `sarI` (R65). -/
def execPairSarImm (sw : Bool) (x : HArgs) (y : Half) (s : State) : Host.Outcome State Fault Refusal :=
  pairWord sw .sarI x y s

end Sys2Proof.Machine
end

