-- ==== Sys2Proof/Machine/Dispatch.lean ====
section
/-! DEFINITION. One arm a row of the opcode table, each a direct call of that row's meaning. -/

namespace Sys2Proof.Machine

def exec (i : Instr) (s : State) : Host.Outcome State Fault Refusal :=
  match i with
  | .add a0 a1 a2 a3 a4 a5 => Sys2Proof.Machine.execAdd a0 a1 a2 a3 a4 a5 s
  | .sub a0 a1 a2 a3 a4 a5 => Sys2Proof.Machine.execSub a0 a1 a2 a3 a4 a5 s
  | .mul a0 a1 a2 a3 a4 => Sys2Proof.Machine.execMul a0 a1 a2 a3 a4 s
  | .mulh a0 a1 a2 a3 a4 => Sys2Proof.Machine.execMulh a0 a1 a2 a3 a4 s
  | .mad a0 a1 a2 a3 a4 a5 => Sys2Proof.Machine.execMad a0 a1 a2 a3 a4 a5 s
  | .min a0 a1 a2 a3 a4 => Sys2Proof.Machine.execMin a0 a1 a2 a3 a4 s
  | .max a0 a1 a2 a3 a4 => Sys2Proof.Machine.execMax a0 a1 a2 a3 a4 s
  | .abs a0 a1 a2 a3 => Sys2Proof.Machine.execAbs a0 a1 a2 a3 s
  | .neg a0 a1 a2 a3 => Sys2Proof.Machine.execNeg a0 a1 a2 a3 s
  | .and a0 a1 a2 a3 a4 => Sys2Proof.Machine.execAnd a0 a1 a2 a3 a4 s
  | .or a0 a1 a2 a3 a4 => Sys2Proof.Machine.execOr a0 a1 a2 a3 a4 s
  | .xor a0 a1 a2 a3 a4 => Sys2Proof.Machine.execXor a0 a1 a2 a3 a4 s
  | .not a0 a1 a2 a3 => Sys2Proof.Machine.execNot a0 a1 a2 a3 s
  | .shl a0 a1 a2 a3 a4 => Sys2Proof.Machine.execShl a0 a1 a2 a3 a4 s
  | .shr a0 a1 a2 a3 a4 => Sys2Proof.Machine.execShr a0 a1 a2 a3 a4 s
  | .sar a0 a1 a2 a3 a4 => Sys2Proof.Machine.execSar a0 a1 a2 a3 a4 s
  | .rot a0 a1 a2 a3 a4 => Sys2Proof.Machine.execRot a0 a1 a2 a3 a4 s
  | .clz a0 a1 a2 a3 => Sys2Proof.Machine.execClz a0 a1 a2 a3 s
  | .popc a0 a1 a2 a3 => Sys2Proof.Machine.execPopc a0 a1 a2 a3 s
  | .brev a0 a1 a2 a3 => Sys2Proof.Machine.execBrev a0 a1 a2 a3 s
  | .bfx a0 a1 a2 a3 a4 => Sys2Proof.Machine.execBfx a0 a1 a2 a3 a4 s
  | .bfi a0 a1 a2 a3 a4 a5 => Sys2Proof.Machine.execBfi a0 a1 a2 a3 a4 a5 s
  | .sel a0 a1 a2 a3 a4 a5 => Sys2Proof.Machine.execSel a0 a1 a2 a3 a4 a5 s
  | .setp a0 a1 a2 a3 a4 a5 => Sys2Proof.Machine.execSetp a0 a1 a2 a3 a4 a5 s
  | .mov a0 a1 a2 a3 => Sys2Proof.Machine.execMov a0 a1 a2 a3 s
  | .lea a0 a1 a2 a3 a4 a5 => Sys2Proof.Machine.execLea a0 a1 a2 a3 a4 a5 s
  | .cvt a0 a1 a2 a3 a4 a5 a6 => Sys2Proof.Machine.execCvt a0 a1 a2 a3 a4 a5 a6 s
  | .addImm a0 a1 a2 a3 a4 => Sys2Proof.Machine.execAddImm a0 a1 a2 a3 a4 s
  | .subImm a0 a1 a2 a3 a4 => Sys2Proof.Machine.execSubImm a0 a1 a2 a3 a4 s
  | .mulImm a0 a1 a2 a3 a4 => Sys2Proof.Machine.execMulImm a0 a1 a2 a3 a4 s
  | .minImm a0 a1 a2 a3 a4 => Sys2Proof.Machine.execMinImm a0 a1 a2 a3 a4 s
  | .maxImm a0 a1 a2 a3 a4 => Sys2Proof.Machine.execMaxImm a0 a1 a2 a3 a4 s
  | .andImm a0 a1 a2 a3 a4 => Sys2Proof.Machine.execAndImm a0 a1 a2 a3 a4 s
  | .orImm a0 a1 a2 a3 a4 => Sys2Proof.Machine.execOrImm a0 a1 a2 a3 a4 s
  | .xorImm a0 a1 a2 a3 a4 => Sys2Proof.Machine.execXorImm a0 a1 a2 a3 a4 s
  | .shlImm a0 a1 a2 a3 a4 => Sys2Proof.Machine.execShlImm a0 a1 a2 a3 a4 s
  | .shrImm a0 a1 a2 a3 a4 => Sys2Proof.Machine.execShrImm a0 a1 a2 a3 a4 s
  | .sarImm a0 a1 a2 a3 a4 => Sys2Proof.Machine.execSarImm a0 a1 a2 a3 a4 s
  | .rotImm a0 a1 a2 a3 a4 => Sys2Proof.Machine.execRotImm a0 a1 a2 a3 a4 s
  | .bfxImm a0 a1 a2 a3 a4 => Sys2Proof.Machine.execBfxImm a0 a1 a2 a3 a4 s
  | .movi a0 a1 a2 a3 => Sys2Proof.Machine.execMovi a0 a1 a2 a3 s
  | .moviHi a0 a1 a2 => Sys2Proof.Machine.execMoviHi a0 a1 a2 s
  | .leaImm a0 a1 a2 a3 a4 => Sys2Proof.Machine.execLeaImm a0 a1 a2 a3 a4 s
  | .setpEqImm a0 a1 a2 a3 a4 => Sys2Proof.Machine.execSetpEqImm a0 a1 a2 a3 a4 s
  | .setpNeImm a0 a1 a2 a3 a4 => Sys2Proof.Machine.execSetpNeImm a0 a1 a2 a3 a4 s
  | .setpLtImm a0 a1 a2 a3 a4 => Sys2Proof.Machine.execSetpLtImm a0 a1 a2 a3 a4 s
  | .setpLeImm a0 a1 a2 a3 a4 => Sys2Proof.Machine.execSetpLeImm a0 a1 a2 a3 a4 s
  | .setpGtImm a0 a1 a2 a3 a4 => Sys2Proof.Machine.execSetpGtImm a0 a1 a2 a3 a4 s
  | .setpGeImm a0 a1 a2 a3 a4 => Sys2Proof.Machine.execSetpGeImm a0 a1 a2 a3 a4 s
  | .pand a0 a1 a2 a3 a4 a5 => Sys2Proof.Machine.execPand a0 a1 a2 a3 a4 a5 s
  | .por a0 a1 a2 a3 a4 a5 => Sys2Proof.Machine.execPor a0 a1 a2 a3 a4 a5 s
  | .pxor a0 a1 a2 a3 a4 a5 => Sys2Proof.Machine.execPxor a0 a1 a2 a3 a4 a5 s
  | .pnot a0 a1 a2 a3 => Sys2Proof.Machine.execPnot a0 a1 a2 a3 s
  | .pmov a0 a1 a2 a3 => Sys2Proof.Machine.execPmov a0 a1 a2 a3 s
  | .fadd a0 a1 a2 a3 a4 => Sys2Proof.Machine.execFadd a0 a1 a2 a3 a4 s
  | .fsub a0 a1 a2 a3 a4 => Sys2Proof.Machine.execFsub a0 a1 a2 a3 a4 s
  | .fmul a0 a1 a2 a3 a4 => Sys2Proof.Machine.execFmul a0 a1 a2 a3 a4 s
  | .ffma a0 a1 a2 a3 a4 a5 => Sys2Proof.Machine.execFfma a0 a1 a2 a3 a4 a5 s
  | .fmin a0 a1 a2 a3 => Sys2Proof.Machine.execFmin a0 a1 a2 a3 s
  | .fmax a0 a1 a2 a3 => Sys2Proof.Machine.execFmax a0 a1 a2 a3 s
  | .frcp a0 a1 a2 a3 => Sys2Proof.Machine.execFrcp a0 a1 a2 a3 s
  | .frsq a0 a1 a2 a3 => Sys2Proof.Machine.execFrsq a0 a1 a2 a3 s
  | .fsqrt a0 a1 a2 a3 => Sys2Proof.Machine.execFsqrt a0 a1 a2 a3 s
  | .fexp2 a0 a1 a2 a3 => Sys2Proof.Machine.execFexp2 a0 a1 a2 a3 s
  | .flog2 a0 a1 a2 a3 => Sys2Proof.Machine.execFlog2 a0 a1 a2 a3 s
  | .fsin a0 a1 a2 a3 => Sys2Proof.Machine.execFsin a0 a1 a2 a3 s
  | .fcos a0 a1 a2 a3 => Sys2Proof.Machine.execFcos a0 a1 a2 a3 s
  | .fsetp a0 a1 a2 a3 a4 => Sys2Proof.Machine.execFsetp a0 a1 a2 a3 a4 s
  | .fcvt a0 a1 a2 a3 a4 a5 => Sys2Proof.Machine.execFcvt a0 a1 a2 a3 a4 a5 s
  | .frnd a0 a1 a2 a3 => Sys2Proof.Machine.execFrnd a0 a1 a2 a3 s
  | .fdot a0 a1 a2 a3 a4 a5 a6 => Sys2Proof.Machine.execFdot a0 a1 a2 a3 a4 a5 a6 s
  | .faddImm a0 a1 a2 a3 a4 => Sys2Proof.Machine.execFaddImm a0 a1 a2 a3 a4 s
  | .fsubImm a0 a1 a2 a3 a4 => Sys2Proof.Machine.execFsubImm a0 a1 a2 a3 a4 s
  | .fmulImm a0 a1 a2 a3 a4 => Sys2Proof.Machine.execFmulImm a0 a1 a2 a3 a4 s
  | .fminImm a0 a1 a2 a3 => Sys2Proof.Machine.execFminImm a0 a1 a2 a3 s
  | .fmaxImm a0 a1 a2 a3 => Sys2Proof.Machine.execFmaxImm a0 a1 a2 a3 s
  | .shfl a0 a1 a2 a3 a4 a5 => Sys2Proof.Machine.execShfl a0 a1 a2 a3 a4 a5 s
  | .shflImm a0 a1 a2 a3 a4 a5 => Sys2Proof.Machine.execShflImm a0 a1 a2 a3 a4 a5 s
  | .vote a0 a1 a2 a3 => Sys2Proof.Machine.execVote a0 a1 a2 a3 s
  | .voteBallot a0 a1 a2 => Sys2Proof.Machine.execVoteBallot a0 a1 a2 s
  | .matchv a0 a1 a2 a3 => Sys2Proof.Machine.execMatchv a0 a1 a2 a3 s
  | .redux a0 a1 a2 a3 => Sys2Proof.Machine.execRedux a0 a1 a2 a3 s
  | .bcast a0 a1 a2 a3 a4 => Sys2Proof.Machine.execBcast a0 a1 a2 a3 a4 s
  | .bcastLow a0 a1 a2 a3 => Sys2Proof.Machine.execBcastLow a0 a1 a2 a3 s
  | .br a0 a1 => Sys2Proof.Machine.execBr a0 a1 s
  | .bra a0 a1 a2 => Sys2Proof.Machine.execBra a0 a1 a2 s
  | .jmpi a0 a1 => Sys2Proof.Machine.execJmpi a0 a1 s
  | .call a0 a1 => Sys2Proof.Machine.execCall a0 a1 s
  | .calli a0 a1 => Sys2Proof.Machine.execCalli a0 a1 s
  | .ret a0 => Sys2Proof.Machine.execRet a0 s
  | .regang a0 => Sys2Proof.Machine.execRegang a0 s
  | .land a0 => Sys2Proof.Machine.execLand a0 s
  | .exit a0 => Sys2Proof.Machine.execExit a0 s
  | .cede a0 => Sys2Proof.Machine.execCede a0 s
  | .nop a0 => Sys2Proof.Machine.execNop a0 s
  | .tryw a0 a1 a2 a3 => Sys2Proof.Machine.execTryw a0 a1 a2 a3 s
  | .openR a0 a1 a2 a3 => Sys2Proof.Machine.execOpenR a0 a1 a2 a3 s
  | .openw a0 a1 a2 a3 => Sys2Proof.Machine.execOpenw a0 a1 a2 a3 s
  | .openz a0 a1 a2 a3 => Sys2Proof.Machine.execOpenz a0 a1 a2 a3 s
  | .openInv a0 a1 a2 a3 => Sys2Proof.Machine.execOpenInv a0 a1 a2 a3 s
  | .reopen a0 a1 => Sys2Proof.Machine.execReopen a0 a1 s
  | .close a0 a1 => Sys2Proof.Machine.execClose a0 a1 s
  | .ld a0 a1 a2 a3 a4 a5 => Sys2Proof.Machine.execLd a0 a1 a2 a3 a4 a5 s
  | .st a0 a1 a2 a3 a4 a5 => Sys2Proof.Machine.execSt a0 a1 a2 a3 a4 a5 s
  | .lprobe a0 a1 a2 => Sys2Proof.Machine.execLprobe a0 a1 a2 s
  | .lds a0 a1 a2 a3 a4 => Sys2Proof.Machine.execLds a0 a1 a2 a3 a4 s
  | .sts a0 a1 a2 a3 a4 => Sys2Proof.Machine.execSts a0 a1 a2 a3 a4 s
  | .ldsr a0 a1 a2 a3 a4 a5 => Sys2Proof.Machine.execLdsr a0 a1 a2 a3 a4 a5 s
  | .stsr a0 a1 a2 a3 a4 a5 => Sys2Proof.Machine.execStsr a0 a1 a2 a3 a4 a5 s
  | .swz a0 a1 a2 a3 a4 a5 => Sys2Proof.Machine.execSwz a0 a1 a2 a3 a4 a5 s
  | .atom a0 a1 a2 a3 a4 a5 a6 a7 a8 => Sys2Proof.Machine.execAtom a0 a1 a2 a3 a4 a5 a6 a7 a8 s
  | .red a0 a1 a2 a3 a4 a5 a6 => Sys2Proof.Machine.execRed a0 a1 a2 a3 a4 a5 a6 s
  | .barInit a0 a1 a2 a3 => Sys2Proof.Machine.execBarInit a0 a1 a2 a3 s
  | .barArr a0 a1 a2 a3 => Sys2Proof.Machine.execBarArr a0 a1 a2 a3 s
  | .barWait a0 a1 a2 a3 => Sys2Proof.Machine.execBarWait a0 a1 a2 a3 s
  | .barTry a0 a1 a2 a3 a4 a5 => Sys2Proof.Machine.execBarTry a0 a1 a2 a3 a4 a5 s
  | .fence a0 a1 => Sys2Proof.Machine.execFence a0 a1 s
  | .pub a0 a1 => Sys2Proof.Machine.execPub a0 a1 s
  | .acq a0 a1 => Sys2Proof.Machine.execAcq a0 a1 s
  | .mma a0 a1 a2 a3 a4 a5 a6 a7 => Sys2Proof.Machine.execMma a0 a1 a2 a3 a4 a5 a6 a7 s
  | .mld a0 a1 a2 a3 a4 a5 a6 => Sys2Proof.Machine.execMld a0 a1 a2 a3 a4 a5 a6 s
  | .mldV a0 a1 a2 => Sys2Proof.Machine.execMldV a0 a1 a2 s
  | .mldt a0 a1 a2 a3 a4 a5 a6 a7 a8 => Sys2Proof.Machine.execMldt a0 a1 a2 a3 a4 a5 a6 a7 a8 s
  | .mldr a0 a1 a2 a3 a4 a5 a6 a7 => Sys2Proof.Machine.execMldr a0 a1 a2 a3 a4 a5 a6 a7 s
  | .mst a0 a1 a2 a3 => Sys2Proof.Machine.execMst a0 a1 a2 a3 s
  | .tzero a0 a1 a2 => Sys2Proof.Machine.execTzero a0 a1 a2 s
  | .tmovToVreg a0 a1 a2 a3 => Sys2Proof.Machine.execTmovToVreg a0 a1 a2 a3 s
  | .tmovFromVreg a0 a1 a2 a3 => Sys2Proof.Machine.execTmovFromVreg a0 a1 a2 a3 s
  | .tmovTile a0 a1 a2 a3 => Sys2Proof.Machine.execTmovTile a0 a1 a2 a3 s
  | .tcvt a0 a1 a2 a3 a4 => Sys2Proof.Machine.execTcvt a0 a1 a2 a3 a4 s
  | .fmtset a0 a1 => Sys2Proof.Machine.execFmtset a0 a1 s
  | .fmtget a0 a1 => Sys2Proof.Machine.execFmtget a0 a1 s
  | .vreg a0 a1 a2 => Sys2Proof.Machine.execVreg a0 a1 a2 s
  | .vdrop a0 a1 => Sys2Proof.Machine.execVdrop a0 a1 s
  | .vopen a0 a1 a2 a3 a4 => Sys2Proof.Machine.execVopen a0 a1 a2 a3 a4 s
  | .vtagTag a0 a1 a2 a3 => Sys2Proof.Machine.execVtagTag a0 a1 a2 a3 s
  | .vtagGen a0 a1 a2 a3 => Sys2Proof.Machine.execVtagGen a0 a1 a2 a3 s
  | .vsync a0 a1 a2 a3 a4 => Sys2Proof.Machine.execVsync a0 a1 a2 a3 a4 s
  | .qbindDrill a0 a1 => Sys2Proof.Machine.execQbindDrill a0 a1 s
  | .qbindHarrow a0 a1 => Sys2Proof.Machine.execQbindHarrow a0 a1 s
  | .qbindNone a0 a1 => Sys2Proof.Machine.execQbindNone a0 a1 s
  | .qpush a0 a1 a2 => Sys2Proof.Machine.execQpush a0 a1 a2 s
  | .qpop a0 a1 a2 => Sys2Proof.Machine.execQpop a0 a1 a2 s
  | .qpopStat a0 a1 a2 => Sys2Proof.Machine.execQpopStat a0 a1 a2 s
  | .qfence a0 a1 => Sys2Proof.Machine.execQfence a0 a1 s
  | .qfenceWait a0 a1 => Sys2Proof.Machine.execQfenceWait a0 a1 s
  | .launch a0 a1 a2 => Sys2Proof.Machine.execLaunch a0 a1 a2 s
  | .cread a0 a1 a2 a3 => Sys2Proof.Machine.execCread a0 a1 a2 a3 s
  | .cancel a0 a1 a2 => Sys2Proof.Machine.execCancel a0 a1 a2 s
  | .amsend a0 a1 a2 a3 a4 => Sys2Proof.Machine.execAmsend a0 a1 a2 a3 a4 s
  | .resamp a0 a1 a2 => Sys2Proof.Machine.execResamp a0 a1 a2 s
  | .trap a0 a1 a2 => Sys2Proof.Machine.execTrap a0 a1 a2 s
  | .tret a0 => Sys2Proof.Machine.execTret a0 s
  | .tretSkip a0 => Sys2Proof.Machine.execTretSkip a0 s
  | .sread a0 a1 a2 => Sys2Proof.Machine.execSread a0 a1 a2 s
  | .swrite a0 a1 a2 => Sys2Proof.Machine.execSwrite a0 a1 a2 s
  | .halt a0 => Sys2Proof.Machine.execHalt a0 s
  | .brk a0 a1 => Sys2Proof.Machine.execBrk a0 a1 s
  | .mark a0 a1 a2 => Sys2Proof.Machine.execMark a0 a1 a2 s
  | .placeld a0 a1 a2 a3 => Sys2Proof.Machine.execPlaceld a0 a1 a2 a3 s
  | .quota a0 a1 a2 a3 => Sys2Proof.Machine.execQuota a0 a1 a2 a3 s
  | .quotaRelease a0 a1 a2 a3 => Sys2Proof.Machine.execQuotaRelease a0 a1 a2 a3 s
  | .fallowHalt a0 a1 a2 => Sys2Proof.Machine.execFallowHalt a0 a1 a2 s
  | .fallowResume a0 a1 a2 => Sys2Proof.Machine.execFallowResume a0 a1 a2 s
  | .fallowStart a0 a1 a2 => Sys2Proof.Machine.execFallowStart a0 a1 a2 s
  | .fallowStop a0 a1 a2 => Sys2Proof.Machine.execFallowStop a0 a1 a2 s
  | .pairNop a0 a1 a2 => Sys2Proof.Machine.execPairNop a0 a1 a2 s
  | .pairMov a0 a1 a2 => Sys2Proof.Machine.execPairMov a0 a1 a2 s
  | .pairAdd a0 a1 a2 => Sys2Proof.Machine.execPairAdd a0 a1 a2 s
  | .pairSub a0 a1 a2 => Sys2Proof.Machine.execPairSub a0 a1 a2 s
  | .pairMul a0 a1 a2 => Sys2Proof.Machine.execPairMul a0 a1 a2 s
  | .pairMinI32 a0 a1 a2 => Sys2Proof.Machine.execPairMinI32 a0 a1 a2 s
  | .pairMaxI32 a0 a1 a2 => Sys2Proof.Machine.execPairMaxI32 a0 a1 a2 s
  | .pairMinN32 a0 a1 a2 => Sys2Proof.Machine.execPairMinN32 a0 a1 a2 s
  | .pairMaxN32 a0 a1 a2 => Sys2Proof.Machine.execPairMaxN32 a0 a1 a2 s
  | .pairAnd a0 a1 a2 => Sys2Proof.Machine.execPairAnd a0 a1 a2 s
  | .pairOr a0 a1 a2 => Sys2Proof.Machine.execPairOr a0 a1 a2 s
  | .pairXor a0 a1 a2 => Sys2Proof.Machine.execPairXor a0 a1 a2 s
  | .pairShl a0 a1 a2 => Sys2Proof.Machine.execPairShl a0 a1 a2 s
  | .pairShr a0 a1 a2 => Sys2Proof.Machine.execPairShr a0 a1 a2 s
  | .pairSar a0 a1 a2 => Sys2Proof.Machine.execPairSar a0 a1 a2 s
  | .pairFadd a0 a1 a2 => Sys2Proof.Machine.execPairFadd a0 a1 a2 s
  | .pairFsub a0 a1 a2 => Sys2Proof.Machine.execPairFsub a0 a1 a2 s
  | .pairFmul a0 a1 a2 => Sys2Proof.Machine.execPairFmul a0 a1 a2 s
  | .pairFmin a0 a1 a2 => Sys2Proof.Machine.execPairFmin a0 a1 a2 s
  | .pairFmax a0 a1 a2 => Sys2Proof.Machine.execPairFmax a0 a1 a2 s
  | .pairMovi a0 a1 a2 => Sys2Proof.Machine.execPairMovi a0 a1 a2 s
  | .pairAddImm a0 a1 a2 => Sys2Proof.Machine.execPairAddImm a0 a1 a2 s
  | .pairSubImm a0 a1 a2 => Sys2Proof.Machine.execPairSubImm a0 a1 a2 s
  | .pairAndImm a0 a1 a2 => Sys2Proof.Machine.execPairAndImm a0 a1 a2 s
  | .pairOrImm a0 a1 a2 => Sys2Proof.Machine.execPairOrImm a0 a1 a2 s
  | .pairXorImm a0 a1 a2 => Sys2Proof.Machine.execPairXorImm a0 a1 a2 s
  | .pairShlImm a0 a1 a2 => Sys2Proof.Machine.execPairShlImm a0 a1 a2 s
  | .pairShrImm a0 a1 a2 => Sys2Proof.Machine.execPairShrImm a0 a1 a2 s
  | .pairSarImm a0 a1 a2 => Sys2Proof.Machine.execPairSarImm a0 a1 a2 s
  | .trmaskWrite a0 a1 => Sys2Proof.Machine.execTrmaskWrite a0 a1 s
  | .freezeWrite a0 a1 => Sys2Proof.Machine.execFreezeWrite a0 a1 s
  | .shoot1Write a0 a1 => Sys2Proof.Machine.execShoot1Write a0 a1 s
  | .shoot2Write a0 a1 => Sys2Proof.Machine.execShoot2Write a0 a1 s
  | .pt1Write a0 a1 => Sys2Proof.Machine.execPt1Write a0 a1 s
  | .pt2Write a0 a1 a2 => Sys2Proof.Machine.execPt2Write a0 a1 a2 s
  | .virqWrite a0 a1 => Sys2Proof.Machine.execVirqWrite a0 a1 s
  | .warmWrite a0 a1 => Sys2Proof.Machine.execWarmWrite a0 a1 s
  | .trapRecordAppend a0 => Sys2Proof.Machine.execTrapRecordAppend a0 s
  | .tresResume a0 a1 => Sys2Proof.Machine.execTresResume a0 a1 s
  | .tresSkip a0 a1 => Sys2Proof.Machine.execTresSkip a0 a1 s
  | .tresEndGroup a0 a1 => Sys2Proof.Machine.execTresEndGroup a0 a1 s
  | .tresEndLaunch a0 a1 => Sys2Proof.Machine.execTresEndLaunch a0 a1 s
  | .lineArrival a0 a1 => Sys2Proof.Machine.execLineArrival a0 a1 s
  | .victimWriteback a0 a1 => Sys2Proof.Machine.execVictimWriteback a0 a1 s
  | .trywTimeout a0 => Sys2Proof.Machine.execTrywTimeout a0 s
  | .barTryTimeout a0 => Sys2Proof.Machine.execBarTryTimeout a0 s
  | .atomicPerform a0 => Sys2Proof.Machine.execAtomicPerform a0 s
  | .matrixResultWrite a0 => Sys2Proof.Machine.execMatrixResultWrite a0 s
  | .harrowRebuild a0 a1 a2 => Sys2Proof.Machine.execHarrowRebuild a0 a1 a2 s
  | .vsyncTimeout a0 => Sys2Proof.Machine.execVsyncTimeout a0 s
  | .drillCopy a0 a1 => Sys2Proof.Machine.execDrillCopy a0 a1 s
  | .drillFill a0 a1 => Sys2Proof.Machine.execDrillFill a0 a1 s
  | .promotion a0 => Sys2Proof.Machine.execPromotion a0 s
  | .blockPlace a0 a1 a2 => Sys2Proof.Machine.execBlockPlace a0 a1 a2 s
  | .steal a0 a1 a2 => Sys2Proof.Machine.execSteal a0 a1 a2 s
  | .launchComplete a0 a1 => Sys2Proof.Machine.execLaunchComplete a0 a1 s
  | .handlerSpawn a0 a1 => Sys2Proof.Machine.execHandlerSpawn a0 a1 s
  | .resampleComplete a0 a1 => Sys2Proof.Machine.execResampleComplete a0 a1 s
  | .gateTimeout a0 a1 a2 => Sys2Proof.Machine.execGateTimeout a0 a1 a2 s
  | .preciseStop a0 => Sys2Proof.Machine.execPreciseStop a0 s
  | .gleanerVisit a0 a1 => Sys2Proof.Machine.execGleanerVisit a0 a1 s
  | .freezeMessage a0 a1 a2 => Sys2Proof.Machine.execFreezeMessage a0 a1 a2 s
  | .retirement a0 => Sys2Proof.Machine.execRetirement a0 s
  | .door a0 a1 => Sys2Proof.Machine.execDoor a0 a1 s
  | .boot a0 => Sys2Proof.Machine.execBoot a0 s
  | .hostMemoryWrite a0 a1 a2 => Sys2Proof.Machine.execHostMemoryWrite a0 a1 a2 s
  | .functionLevelReset a0 => Sys2Proof.Machine.execFunctionLevelReset a0 s
  | .powerLimit a0 => Sys2Proof.Machine.execPowerLimit a0 s
  | .cxlLinkDown a0 => Sys2Proof.Machine.execCxlLinkDown a0 s
  | .peerFlitReplay a0 => Sys2Proof.Machine.execPeerFlitReplay a0 s
  | .getMeasurements a0 a1 a2 => Sys2Proof.Machine.execGetMeasurements a0 a1 a2 s
  | .list a0 => Sys2Proof.Machine.execList a0 s
  | .read a0 a1 a2 a3 => Sys2Proof.Machine.execRead a0 a1 a2 a3 s
  | .ack a0 a1 => Sys2Proof.Machine.execAck a0 a1 s
  | .fixedLatencyResultWrite a0 => Sys2Proof.Machine.execFixedLatencyResultWrite a0 s
  | .scratchpadAccessPerform a0 => Sys2Proof.Machine.execScratchpadAccessPerform a0 s
  | .peerWrite a0 a1 => Sys2Proof.Machine.execPeerWrite a0 a1 s
  | .unassignedOpcode a0 => Sys2Proof.Machine.execUnassignedOpcode a0 s
  | .periodBoundary => Sys2Proof.Machine.execPeriodBoundary s
  | .feedbackWindow => Sys2Proof.Machine.execFeedbackWindow s
  | .batchDeal => Sys2Proof.Machine.execBatchDeal s
  | .epoch => Sys2Proof.Machine.execEpoch s
  | .pcSample => Sys2Proof.Machine.execPcSample s
  | .threshWindow => Sys2Proof.Machine.execThreshWindow s
  | .triggerFire => Sys2Proof.Machine.execTriggerFire s
  | .triggerSeal => Sys2Proof.Machine.execTriggerSeal s
  | .capsuleGather => Sys2Proof.Machine.execCapsuleGather s
  | .routeSwitch => Sys2Proof.Machine.execRouteSwitch s
  | .coldReset => Sys2Proof.Machine.execColdReset s
  | .warmReset => Sys2Proof.Machine.execWarmReset s
  | .coolantWarning => Sys2Proof.Machine.execCoolantWarning s
  | .thermalFreeze => Sys2Proof.Machine.execThermalFreeze s

end Sys2Proof.Machine
end

