-- ==== Sys2Proof/Machine/Issue.lean ====
section
/-! DEFINITION. The issue of a group: a parked group is looked at again (R123, R201, R302, R320), a ready one resolves its
stacks (R115), parts (R19), fetches (R125) and decodes (R73) its next word. -/

namespace Sys2Proof.Machine

/-! Parked groups. -/

/-- An acting reference of a watch has been recalled (R91, R123). -/
def Ctx.watchRecalled (c : Ctx) (ln : Nat) (e : LaneMask) : Bool :=
  (slicesIn e).any fun k => (c.gang.ref ln k).st == .recalled

/-- A parked group resumes where what it waits for has come; otherwise nothing changes. A `regang`, a `resamp` and a hold end
with steps of others. Late stores of its slices come before an acquire that it performs. -/
def State.rouse (s : State) (c : Ctx) : State :=
  let busy := fun (e : LaneMask) => s.outstanding c.uid (slicesIn e) true
  match c.grp.wait with
  | .none | .regang | .resamp _ | .held _ => s
  | .switchBit => s.endSwitch c
  | .tryw pd ln e vers _ =>
    let ks := s.newerSlices c ln vers
    if ks.isEmpty && !c.watchRecalled ln e then s else (s.wake c (some 1)).trywDone c pd (e &&& c.gang.live) ks
  | .barWait w e ts sc adv remote =>
    match s.block? w.blk with
    | none => s
    | some b =>
      let live := e &&& c.gang.live
      if (remote && b.rowAway [w.off / 1024]) || barFree b w.off adv ts &&& live != live || busy e then s
      else (s.wake c (some 2)).barDone c sc (slicesIn e)
  | .barTry w e ts sc adv pd _ =>
    match s.block? w.blk with
    | none => s
    | some b =>
      let live := e &&& c.gang.live
      if barFree b w.off adv ts &&& live != live || busy e then s
      else (s.wake c (some 2)).tryDone c sc pd live live
  | .limit isAtom => if s.atomLimit c.uid isAtom then s else s.wake c (some 5)
  | .qfence cmds e =>
    if s.cmdsLeft cmds || busy e then s
    else (s.wake c none).fenceDone c (slicesIn e)
  | .cancel lv id =>
    if statusDone ((s.allot c.al).status lv id.toNat) || ((s.allot c.al).levelOf lv id.toNat).isEmpty then s.wake c none
    else s
  | .vsync al slot serial ts pd e _ =>
    match s.view? al slot serial with
    | none => s
    | some v =>
      let ok := vsyncReached v ts
      if !vsyncSettled v ts || (ok && busy e) then s
      else (s.wake c none).vsyncDone c pd (e &&& c.gang.live) ok

/-! What may issue. -/

/-- The words that a power limit holds at issue (R397): those of the matrix family that work on tiles and operands. -/
def isMatrix : Instr → Bool
  | .mma .. | .mld .. | .mldV .. | .mldt .. | .mldr .. | .mst .. | .tzero .. | .tmovToVreg .. | .tmovFromVreg ..
  | .tmovTile .. | .tcvt .. => true
  | _ => false

/-- The steps that no word causes: what the turn stream may bring about as an event. -/
def isStep : Instr → Bool
  | .trapRecordAppend .. | .tresResume .. | .tresSkip .. | .tresEndGroup .. | .tresEndLaunch .. | .lineArrival ..
  | .victimWriteback .. | .trywTimeout .. | .barTryTimeout .. | .atomicPerform .. | .matrixResultWrite ..
  | .harrowRebuild .. | .vsyncTimeout .. | .drillCopy .. | .drillFill .. | .promotion .. | .blockPlace .. | .steal ..
  | .launchComplete .. | .handlerSpawn .. | .resampleComplete .. | .gateTimeout .. | .preciseStop .. | .gleanerVisit ..
  | .freezeMessage .. | .retirement .. | .door .. | .boot .. | .hostMemoryWrite .. | .functionLevelReset ..
  | .powerLimit .. | .cxlLinkDown .. | .peerFlitReplay .. | .getMeasurements .. | .list .. | .read .. | .ack ..
  | .fixedLatencyResultWrite .. | .scratchpadAccessPerform .. | .peerWrite .. | .periodBoundary | .feedbackWindow
  | .batchDeal | .epoch | .pcSample | .threshWindow | .triggerFire | .triggerSeal | .capsuleGather | .routeSwitch
  | .coldReset | .warmReset | .coolantWarning | .thermalFreeze => true
  | _ => false

/-- What a module that has frozen still accepts: resets and the retrieval messages (R364). Isalon's own gathering and the steps of the
cycle count go on besides. -/
def afterFreeze : Instr → Bool
  | .coldReset | .warmReset | .list .. | .read .. | .ack .. | .capsuleGather | .triggerSeal
  | .epoch | .periodBoundary | .feedbackWindow | .threshWindow | .pcSample => true
  | _ => false

/-- The module has frozen: every enabled core, or Isalon has gathered (R364). -/
def State.isFrozen (s : State) : Bool :=
  s.isalon.gathered || s.isalon.freezeAt.isSome && s.enabled.all fun k => (s.core k).frozen.isSome

/-- The event may act now. -/
def State.accepts (s : State) (i : Instr) : Bool := isStep i && (!s.isFrozen || afterFreeze i)

/-! The next word. -/

/-- Before a word issues, the stacks of the group's slices are resolved (R115), slices that have ended leave it (R21), and it
parts where counters differ (R19). -/
def State.settleGroup (s : State) (c : Ctx) : State :=
  s.modGang c.uid fun g => ((c.grp.slices.foldl Gang.resolve g).prune).split c.grp.low

/-- What a turn comes to: an instruction to run on a state, a state with nothing to run, an instruction to try on `s'` for what it tells
of a group of `s`, or a module without power. -/
inductive Picked where
  | run (i : Instr) (s : State)
  | done (s : State)
  | dry (k : GroupKey) (i : Instr) (s' s : State)
  | off
  deriving DecidableEq, Repr, Inhabited

/-- Decode a fetched word (R73): privilege, for a register number too, comes before every check but that of the major (R68, R141).
A word that a power limit holds waits (R397). -/
def State.decodeWord (s : State) (c : Ctx) (w : W64) : Picked :=
  if privilegedWord w && !c.operator then .done (s.trapNow c w { cause := 0x08, fld := fOp } 0)
  else if (sysRegWord w).any c.closed then .done (s.trapNow c w { cause := 0x08, fld := fB } 0)
  else
    match decode w with
    | .error x => .done (s.trapNow c w { cause := x.cause, half := x.half, fld := x.fld } 0)
    | .ok i => if isMatrix i && s.plat.mxHold then .done (s.stall c 10) else .run i s

/-- Fetch the word at a group's counter (R125); a damaged line ends the launch (R140). -/
def State.fetch (s : State) (c : Ctx) : Picked :=
  match s.fetchAddr c.core c.al c.pc with
  | none => .done (s.trapNow c s.word { cause := 0x24, info1 := c.pc } 0)
  | some (pa, s) =>
    if s.damaged (lineOf pa) then .done (s.endOwned c.al c.blk.lid (if isTierTwo pa then 7 else 6) (lineOf pa))
    else
      let w := BitVec.ofNat 64 (s.homeWord pa)
      { s with cur := some c.key, word := w }.decodeWord c w

/-- A group's turn to issue: a parked one is looked at again; a group whose scheduler picks another waits; a precise stop comes before
its word (R371). -/
def State.pick (s : State) (k : GroupKey) : Picked :=
  match s.ctx k with
  | none => .done s
  | some c =>
    if c.grp.wait != .none then .done (if s.runs c then s.rouse c else s)
    else if !s.mayIssue c then .done (s.signal c.core 30 c.al)
    else
      let s := s.settleGroup c
      match s.ctx k with
      | none => .done s
      | some c => if (s.stopDue c).isSome then .run (.preciseStop k) s else s.fetch c

/-! Probes. -/

/-- What a sample learns of a group from the state in which its next word has been tried: whether the word waits, and why (R376). -/
def State.noteProbe (s : State) (k : GroupKey) (t : State) : State :=
  match s.ctx k, t.ctx k with
  | some c, some c' =>
    if c'.grp.stalledAt == s.clock + 1 then
      s.modGroup c fun x => { x with probedAt := s.clock + 1, probeWhy := c'.grp.stallWhy }
    else s
  | _, _ => s

/-- A probe keeps nothing of the word it has tried but why that waits: sampling changes no issue decision (R376). -/
def State.noteTried (s : State) (k : GroupKey) : Host.Outcome State Fault Refusal → State
  | .next t => s.noteProbe k t
  | _ => s

/-- The next word of a group that is not parked, on trial. -/
def State.tryWord (s : State) (k : GroupKey) : Picked :=
  match s.ctx k with
  | none => .done s
  | some c =>
    if !s.runs c || c.grp.wait != .none then .done s
    else
      match ((s.settleGroup c).ctx k).map ((s.settleGroup c).fetch ·) with
      | some (.run i t) => .dry k i t s
      | some (.done t) => .done (s.noteProbe k t)
      | _ => .done s

/-! A turn. -/

/-- The next turn: the agenda's, else that of the surroundings (assumption 1). -/
def State.popTurn (s : State) : Turn × State :=
  let s' := { s with turn := s.turn + 1, free := s.free + 1 }
  match s.agenda with
  | [] => (Config.nextTurn s.turn, { s' with lax := (Config.nextTurn s.turn).lax })
  | t :: rest => (t, { s' with agenda := rest, lax := t.lax })

/-- What acts in a turn that has let its cycles pass. -/
def State.act (s : State) (a : Action) : Picked :=
  match a with
  | .idle => .done s
  | .issue k => s.pick k
  | .probe k => s.tryWord k
  | .hostRead v off n => .done (if s.isFrozen then s else s.hostRead v off n)
  | .event i => if s.accepts i then .run i { s with cur := none } else .done s

/-- One turn: its cycles pass, then its party acts. Launches whose writes have met damaged lines end before it (R140). Dies without power
do nothing until a cold reset (R396, R397). -/
def State.takeTurn (s : State) : Picked :=
  let met := !s.met.isEmpty
  let (t, s') := s.popTurn
  if met && !s.plat.poweredDown then .done { s with turn := s.turn + 1, free := s.free + 1 }.endMet
  else
  let s := s'
  if s.plat.poweredDown then
    if t.act == .event .coldReset then .run .coldReset s else .off
  else
    let (s, now) := s.passTurn t
    if now then s.act t.act else .done s

/-! A word to run. -/

/-- The kernel of the block that `State.withWord` places: every register that a block can declare. -/
def wordKernel : Kernel :=
  { kaddr := 0x10000, regs := 48, scal := 16, lines := 16, tiles := 8, queues := 4, scratch := 16 }

/-- The block that `State.withWord` places: a headland block of allotment 0 of one gang on core 0, which holds the rows 0 to 15. -/
def wordBlock (uid : Nat) : Block :=
  { uid := uid, al := 0, lid := headlandLid, core := 0, bid := 0, headland := true, handler := false, ngang := 1, threads := 32,
    cpos := 0, csize := 1, cluster := 0, clmap := 8, chain := false, k := wordKernel, rows := [], guardUp := false, bars := [],
    raws := [], hq := [], hqDrop := 0, ended := false, units := (List.range 16).map (512 + ·), away := [], started := true }

/-- The units of its gang: granules 0 to 47, tile slots 0 to 7, the slot, frame groups 0 to 15. -/
def wordUnits : List Nat :=
  List.range 48 ++ (List.range 8).map (1024 + ·) ++ [2048] ++ (List.range 16).map (4096 + ·)

/-- A word at 0x10000, mapped by one 1 GiB leaf of identity under tables at 0x1000, 0x2000 and 0x3000 (R386, R387). -/
def wordMemory (m : Memory) (w : Nat) : Memory :=
  (((m.writeN 0x1000 (toBytes 8 0x2001)).writeN 0x2000 (toBytes 8 0x3001)).writeN 0x3000 (toBytes 8 0x1F)).writeN 0x10000
    (toBytes 8 w)

/-- The state with a word as the next that a group issues: allotment 0 runs a headland block of one whole gang whose counter is
at the word, and the next turn is that group's (assumption 4). -/
def State.withWord (s : State) (w : Nat) : State :=
  let b := wordBlock s.nextUid
  let g := Gang.placed (s.nextUid + 1) b 0 0 0x10000 s.turn s.clock (BitVec.allOnes 32) [] wordUnits []
  let run := fun (a : Allot) => { a.numbered [] with st := .running, pt1 := 0x1000#64, pt2 := 0#64 }
  let plat := { s.plat with poweredDown := false, mxHold := false, harvested := [], draining := false }
  let regs := { s.regs with fieldsLost := [] }
  let core := fun (c : Core) => { c with frozen := none, issued := [], lastIssue := [], ceded := [], held := [] }
  { (s.modAllot 0 run).modCore 0 core with
    met := []
    mem := wordMemory s.mem w
    agenda := [Turn.now (.issue ⟨0, 0, 0⟩)]
    nextUid := s.nextUid + 2
    blocks := b :: s.blocks.filter fun x => x.core != 0
    gangs := g :: s.gangs.filter fun x => x.core != 0
    tlb := s.tlb.filter fun t => !(t.unit == 0 && t.al == 0)
    poison := s.poison.filter fun l => l != 0x10000
    plat := plat
    regs := regs
    isalon := { s.isalon with gathered := false } }

end Sys2Proof.Machine
end

