-- ==== Sys2Proof/Machine/Step.lean ====
section
/-! DEFINITION. One step of the machine, and the state in which a given word is the next to run. -/

namespace Sys2Proof.Machine

/-- One step: a turn of one party of the machine (R20, R173; assumption 1). -/
def step (s : State) : Host.Outcome State Fault Refusal :=
  match s.takeTurn with
  | .run i s => exec i s
  | .done s => .next s
  | .dry k i t s => .next (s.noteTried k (exec i t))
  | .off => .fault .poweredDown

/-- `s` with the word whose bits are `w` where the next step fetches (assumption 4). -/
def State.withFetchWord (s : State) (nbits w : Nat) : State := s.withWord (w % 2 ^ (Nat.min nbits 64))

end Sys2Proof.Machine
end

