-- ==== Sys2Proof/Safety.lean ====
section
/-! DEFINITION. The terms in which claims are made: what a safe state is, when a word issues, and what a step leaves alone. -/

namespace Sys2Proof.Machine

/-! Safe states. -/

/-- Memory is in its canonical form: strictly rising addresses, no entry equal to what an unlisted address reads as. -/
def State.memOk (s : State) : Prop := s.mem.wf = true

/-- A step that ends in neither a fault nor a refusal. -/
def Runs (s : State) : Prop := ∃ t, step s = .next t

/-! Issue. -/

/-- A word with header `h` that names the registers `us` issues for the group of `c`: it is the current group, the block
declares every register named (R30, R32), and none of them waits for a result (R8). -/
structure Issues (s : State) (c : Ctx) (h : Hdr) (us : List Use) : Prop where
  here : s.cur.bind s.ctx = some c
  declared : ∀ u ∈ us, c.blk.k.declares u.reg = true
  settled : ∀ u ∈ (⟨fGuard, .p h.g⟩ :: us : List Use), c.gang.busy.contains u.reg = false

/-- The lanes a word's guard enables (R47). -/
def State.lanesFor (s : State) (c : Ctx) (h : Hdr) : LaneMask := s.enabledLanes c h.g h.neg

/-- The state on which an issuing word acts: its group's counters have moved past it. -/
def State.issuing (s : State) (c : Ctx) (h : Hdr) : State := s.advance c (lanesOf (s.lanesFor c h)).length

/-- A word with header `h` traps (R126): nothing stands of it but that it has issued. -/
def State.trapped (s : State) (c : Ctx) (h : Hdr) (x : TrapInfo) : State :=
  s.trapNow c s.word x (lanesOf (s.lanesFor c h)).length

/-- The queue sources of a word, popped in field order (R31); a word with no enabled lane pops none. -/
def State.operands (s : State) (c : Ctx) (h : Hdr) (srcs : List Src) : M (List Opnd × State) :=
  if s.lanesFor c h = 0#32 then .ok ([], s.issuing c h) else popAll c srcs (s.issuing c h)

/-- A queue destination takes the lowest lane's value (R28, R315); other destinations, and a word with no enabled lane, push
nothing. -/
def State.delivers (p : State) (c : Ctx) (e : LaneMask) (d : Dst) (w : W64) : M State :=
  match d with
  | .q n => if e = 0#32 then .ok p else p.pushQ c (slicesIn e) n w
  | _ => .ok p

/-! What a step leaves alone. -/

/-- A core without its trail, its signals and its issue counts. -/
def Core.quiet (c : Core) : Core :=
  { c with trail := [], lost := 0, recCycle := 0, recCount := 0, bras := 0, post := none, trigPend := false, trigSrc := 0,
           trigAt := 0, sealNow := false, signals := [], issued := [], lastIssue := [], lastWho := [], ceded := [], rot := [] }

/-- An allotment without its yield meters. -/
def Allot.quiet (a : Allot) : Allot := { a with meters := [] }

/-- All of a state but its gangs, its agenda, the count of free values, trails, signals, issue counts and meters. -/
def State.rest (s : State) : State :=
  { s with gangs := [], agenda := [], free := 0, cores := s.cores.map Core.quiet, allots := s.allots.map Allot.quiet }

/-- All of a gang but its slices, its groups, what is remembered of outstanding results and of uniform registers, and what orders its
accesses. -/
def Gang.data (g : Gang) : Gang := { g with slices := [], groups := [], shadows := [], uniV := [], seen := [] }

/-- The trap registers of a group (R130, R131), whether it is in its handler (R132), and what it retires when it resumes (R370). -/
def Group.traps (x : Group) : W64 × W64 × W64 × W64 × W64 × Bool × Bool × Bool :=
  (x.tcause, x.tpc, x.tword, x.tinfo0, x.tinfo1, x.inHandler, x.owesRet, x.owesHeld)

/-- Every group of the later gang has its slices and its trap registers from one group of the earlier. -/
def TrapsKept (g g' : Gang) : Prop := ∀ y ∈ g'.groups, ∃ x ∈ g.groups, (∀ k ∈ y.slices, k ∈ x.slices) ∧ y.traps = x.traps

/-- A slice once the word of `s` is behind its group: the counter names the next word (R49), the word counts as retired
(R370); a slice of another group is as before. -/
def State.passed (s : State) (c : Ctx) (k : Nat) : SliceSt :=
  let x := c.gang.slice k
  if k ∈ c.grp.slices then
    { x with pc := (c.pc + 8) % 2 ^ 64, prev := c.pc, prevWord := s.word, retc := x.retc + BitVec.ofNat 64 (c.grp.slices.count k) }
  else x

/-- A slice once its group has parked in the word of `s`: the counter names the next word; the word retires when it completes
(R370). -/
def State.passing (s : State) (c : Ctx) (k : Nat) : SliceSt := { s.passed c k with retc := (c.gang.slice k).retc }

/-- A slice once the word in which its group waited has completed: it counts as retired (R370). -/
def Ctx.waited (c : Ctx) (k : Nat) : SliceSt :=
  let x := c.gang.slice k
  { x with retc := x.retc + BitVec.ofNat 64 (if c.grp.owes then c.grp.slices.count k else 0) }

/-- The group of `c` alone has its slices. -/
def Ctx.sole (c : Ctx) : Prop := (c.gang.groups.filter fun x => x.slices == c.grp.slices) = [c.grp]

/-- The slices of `g'` are those of the gang, each as `f` says. -/
def SlicesAre (c : Ctx) (g' : Gang) (f : Nat → SliceSt) : Prop :=
  g'.slices.length = c.gang.slices.length ∧ ∀ k, k < c.gang.slices.length → g'.slice k = f k

/-- The gang of `c` has become `g'`, and no other gang has changed. -/
def OnlyGang (s t : State) (c : Ctx) (g' : Gang) : Prop :=
  t.gang? c.uid = some g' ∧ ∀ u, u ≠ c.uid → t.gang? u = s.gang? u

/-- Between `u` and `t` nothing but gangs and the line store of core `x` has changed. -/
structure OnlyStore (u t : State) (x : Nat) : Prop where
  rest : t.rest = { u.rest with cores := t.rest.cores }
  others : ∀ y, y ≠ x → (t.core y).quiet = (u.core y).quiet
  mine : (t.core x).quiet = { (u.core x).quiet with entries := (t.core x).entries, nextEid := (t.core x).nextEid }

/-- Between `u` and `t` nothing has changed but the gang of `c`, whose slices are as `f` says and whose groups keep their
trap registers. -/
structure Moved (u t : State) (c : Ctx) (g' : Gang) (f : Nat → SliceSt) : Prop where
  rest : t.rest = u.rest
  gang : OnlyGang u t c g'
  slices : SlicesAre c g' f
  traps : TrapsKept c.gang g'

/-- A word of `s` has completed between `u` and `t`, and its group goes on at the next word. -/
abbrev Completed (s u t : State) (c : Ctx) (g' : Gang) : Prop := Moved u t c g' (s.passed c)

/-- The group of `c` waits for `w` in the later gang: so does every group of it that holds a slice of that group, and there is
one where the group has a live lane. -/
def Parked (c : Ctx) (g' : Gang) (w : Wait) : Prop :=
  (∀ x ∈ c.gang.groups, (∃ k ∈ x.slices, k ∈ c.grp.slices) → x = c.grp) →
    (∀ y ∈ g'.groups, (∃ k ∈ y.slices, k ∈ c.grp.slices) → y.wait = w) ∧
    ((∃ k ∈ c.grp.slices, c.gang.live &&& sliceMask k ≠ 0#32) → ∃ y ∈ g'.groups, y.wait = w)

/-! Registers of a gang after a word. -/

/-- The vector registers of `g'` are those of `g`, but that register `n` holds `f l` in each lane `l` of `e`. -/
def WroteV (g g' : Gang) (n : Nat) (e : LaneMask) (f : Nat → W32) : Prop :=
  ∀ m l, l < 32 → g'.vAt m l = if m = n ∧ e.getLsbD l = true then f l else g.vAt m l

/-- The same for a pair: bits 31:0 in register `n`, bits 63:32 in register `n + 1` (R26). -/
def WrotePair (g g' : Gang) (n : Nat) (e : LaneMask) (f : Nat → W64) : Prop :=
  ∀ m l, l < 32 → g'.vAt m l =
    if m = n ∧ e.getLsbD l = true then (f l).setWidth 32
    else if m = n + 1 ∧ e.getLsbD l = true then ((f l) >>> 32).setWidth 32
    else g.vAt m l

/-- The scalars of `g'` are those of `g`, but that scalar `n` holds `x`. -/
def WroteS (g g' : Gang) (n : Nat) (x : W64) : Prop :=
  ∀ m, g'.s.get 0#64 m = if m = n then x else g.s.get 0#64 m

/-- The predicates of `g'` are those of `g`, but that predicate `n`, unless it is p7, holds `f l` in each lane `l` of `e` (R27). -/
def WroteP (g g' : Gang) (n : Nat) (e : LaneMask) (f : Nat → Bool) : Prop :=
  ∀ m l, l < 32 → (g'.p.get 0#32 m).getLsbD l = if m = n ∧ n ≠ 7 ∧ e.getLsbD l = true then f l else (g.p.get 0#32 m).getLsbD l

/-- A result `f` in the lanes `e` of a destination (R28, R35, R60): a vector register or a pair lane by lane, or with the
lowest lane's value in every lane that it reaches for a uniform word; a scalar with the lowest lane's value; no register of the gang for
the zero destination, a queue or an empty set: a queue's header orders the gang's earlier stores before its command (R319). -/
def WroteD (g g' : Gang) (uni wide : Bool) (e : LaneMask) (d : Dst) (f : Nat → W64) : Prop :=
  match d with
  | .v n =>
    g'.data = { g.data with v := g'.v } ∧
    (if wide then WrotePair g g' n (g.reach uni e) fun l => f (if uni then lowLane e else l)
     else WroteV g g' n (g.reach uni e) fun l => (f (if uni then lowLane e else l)).setWidth 32)
  | .s n => g'.data = { g.data with s := g'.s } ∧ (if e = 0#32 then g'.s = g.s else WroteS g g' n (f (lowLane e)))
  | .q _ => g'.data = { g.data with busy := g'.busy, lateStores := g'.lateStores }
  | .zero => g'.data = g.data

/-- What a word does that computes `f` of its operands lane by lane and writes a destination (R28, R31, R47, R60): where its
sources and destination can take part, it completes; the destination holds the result in the enabled lanes; nothing else of
the machine changes but the counters that follow every word and the queues that the operands name. -/
def LaneResult (i : Instr) (h : Hdr) (srcs : List (Src × Bool)) (extra : List Use) (d : Dst) (wide : Bool)
    (f : State → Ctx → Nat → List W64 → W64) : Prop :=
  ∀ s c os p u, Issues s c h (d.uses wide ++ srcUses srcs ++ extra) →
    s.operands c h (srcs.map (·.1)) = .ok (os, p) →
    p.delivers c (s.lanesFor c h) d (f p c (lowLane (s.lanesFor c h)) (p.vals c srcs os (lowLane (s.lanesFor c h)))) = .ok u →
    ∃ t g', exec i s = .next t ∧ Completed s u t c g' ∧ (u.gang? c.uid).map (·.busy) = some g'.busy ∧
      WroteD c.gang g' h.uni wide (s.lanesFor c h) d fun l => f p c l (p.vals c srcs os l)

/-- The same for a word that writes a predicate (R27, R37). -/
def PredResult (i : Instr) (h : Hdr) (srcs : List (Src × Bool)) (extra : List Use) (pd : Nat)
    (f : State → Ctx → Nat → List W64 → Bool) : Prop :=
  ∀ s c os p, Issues s c h (⟨fD, .p pd⟩ :: srcUses srcs ++ extra) →
    s.operands c h (srcs.map (·.1)) = .ok (os, p) →
    ∃ t g', exec i s = .next t ∧ Completed s p t c g' ∧ g'.data = { c.gang.data with p := g'.p } ∧
      WroteP c.gang g' pd (s.lanesFor c h) fun l =>
        f p c (lead h (s.lanesFor c h) l) (p.vals c srcs os (lead h (s.lanesFor c h) l))

/-- The same for a word that reads across lanes (R111) and writes a destination: `f` gives a lane's result from the operands, the enabled
lanes and the state before any lane is written, and a queue takes the lowest lane's. -/
def CrossResult (i : Instr) (h : Hdr) (wideD wideA : Bool) (d : Dst) (a : Nat) (srcs : List Src)
    (f : State → Ctx → LaneMask → List Opnd → Nat → W64) : Prop :=
  ∀ s c os p u, Issues s c h (d.uses wideD ++ (Src.v a).uses fA wideA ++ srcs.flatMap fun x => x.uses fB false) →
    s.operands c h srcs = .ok (os, p) →
    p.delivers c (s.lanesFor c h) d (f p c (s.lanesFor c h) os (lowLane (s.lanesFor c h))) = .ok u →
    ∃ t g', exec i s = .next t ∧ Completed s u t c g' ∧ (u.gang? c.uid).map (·.busy) = some g'.busy ∧
      WroteD c.gang g' false wideD (s.lanesFor c h) d (f p c (s.lanesFor c h) os)

end Sys2Proof.Machine
end

