-- ==== Sys2Proof/Certificates/Slice0/Obligations.lean ====
section
/-! DEFINITION. The statements for the provers, from the numbered rules of the spec. Reference values stand before the
statements that use them; they are written from the rule's words over `BitVec` and `Int`, apart from the model's own
functions. -/

namespace Sys2Proof.Machine

/-! Reference values of the integer family (R99 to R104). -/

namespace Ref

/-- An operand at the width of its type (R99). -/
def opd (t : IntTy) (xs : List W64) (n : Nat) : BitVec t.bits := (arg xs n).setWidth t.bits

/-- A result as a destination receives it: zero above the width. -/
def out {w : Nat} (x : BitVec w) : W64 := x.setWidth 64

/-- The number an operand stands for under its type's signedness (R100, R102). -/
def num (t : IntTy) (x : BitVec t.bits) : Int := if t.signed then x.toInt else (x.toNat : Int)

/-- A number clamped to the range of a signed or unsigned type of `w` bits (R100). -/
def clamp (w : Nat) (signed : Bool) (i : Int) : Int :=
  if signed then max (-(2 ^ (w - 1) : Int)) (min i (2 ^ (w - 1) - 1)) else max 0 (min i (2 ^ w - 1))

def add (t : IntTy) (sat : Bool) (x y : BitVec t.bits) : BitVec t.bits :=
  if sat then BitVec.ofInt t.bits (clamp t.bits t.signed (num t x + num t y)) else x + y

def sub (t : IntTy) (sat : Bool) (x y : BitVec t.bits) : BitVec t.bits :=
  if sat then BitVec.ofInt t.bits (clamp t.bits t.signed (num t x - num t y)) else x - y

/-- Bits 2w - 1 to w of the double-width product. -/
def mulh (t : IntTy) (x y : BitVec t.bits) : BitVec t.bits :=
  let wide := fun (z : BitVec t.bits) => if t.signed then z.signExtend (2 * t.bits) else z.setWidth (2 * t.bits)
  (wide x * wide y).extractLsb' t.bits t.bits

/-- x is not above y in the order of the type. -/
def le (t : IntTy) (x y : BitVec t.bits) : Bool := if t.signed then x.sle y else x.ule y

def lt (t : IntTy) (x y : BitVec t.bits) : Bool := if t.signed then x.slt y else x.ult y

def min (t : IntTy) (x y : BitVec t.bits) : BitVec t.bits := if le t x y then x else y

def max (t : IntTy) (x y : BitVec t.bits) : BitVec t.bits := if le t x y then y else x

/-- The absolute value of a signed number, so that the most negative one gives itself; an unsigned one as it is (R100). -/
def abs (t : IntTy) (x : BitVec t.bits) : BitVec t.bits := if t.signed && x.msb then -x else x

/-- Whether x CMP y holds (R102). -/
def cmp (t : IntTy) (k : Cmp) (x y : BitVec t.bits) : Bool :=
  match k with
  | .eq => x == y
  | .ne => x != y
  | .lt => lt t x y
  | .le => le t x y
  | .gt => lt t y x
  | .ge => le t y x

/-- Bits pos + len - 1 to pos, with len cut to w - pos, extended from the top bit for `.i` (R101). -/
def bfx (t : IntTy) (x : BitVec t.bits) (pos len : Nat) : BitVec t.bits :=
  let n := Nat.min len (t.bits - pos)
  if pos ≥ t.bits ∨ len = 0 then 0
  else if t.signed then (x.extractLsb' pos n).signExtend t.bits else (x.extractLsb' pos n).setWidth t.bits

/-- y with bits pos + len - 1 to pos, len cut to w - pos, replaced by the low bits of x (R101). -/
def bfi (t : IntTy) (x y : BitVec t.bits) (pos len : Nat) : BitVec t.bits :=
  let mask := (BitVec.allOnes (Nat.min len (t.bits - pos))).setWidth t.bits <<< pos
  if pos ≥ t.bits ∨ len = 0 then y else (y &&& ~~~mask) ||| ((x <<< pos) &&& mask)

/-- Two operands of the type. -/
def on2 (t : IntTy) (f : BitVec t.bits → BitVec t.bits → BitVec t.bits) (_ : State) (_ : Ctx) (_ : Nat) (xs : List W64) : W64 :=
  out (f (opd t xs 0) (opd t xs 1))

/-- One operand of the type. -/
def on1 (t : IntTy) (f : BitVec t.bits → BitVec t.bits) (_ : State) (_ : Ctx) (_ : Nat) (xs : List W64) : W64 :=
  out (f (opd t xs 0))

end Ref

open Ref in
/-- An instruction of two operands of its type gives `f` of them. -/
def Int2 (i : Instr) (h : Hdr) (t : IntTy) (d : Dst) (a b : Src) (f : BitVec t.bits → BitVec t.bits → BitVec t.bits) : Prop :=
  LaneResult i h [(a, t.wide), (b, t.wide)] [] d t.wide (on2 t f)

open Ref in
/-- An instruction of one operand of its type gives `f` of it. -/
def Int1 (i : Instr) (h : Hdr) (t : IntTy) (d : Dst) (a : Src) (f : BitVec t.bits → BitVec t.bits) : Prop :=
  LaneResult i h [(a, t.wide)] [] d t.wide (on1 t f)

end Sys2Proof.Machine

open Sys2Proof Sys2Proof.Machine

/-- R100: addition, subtraction, multiplication, minimum, maximum, absolute value and negation at 32 and 64 bits, in the
register form and with a sign-extended immediate: the value of each, in every enabled lane and nowhere else. -/
def Obligations.IntegerArithmetic : Prop :=
  ∀ (h : Hdr) (t : IntTy) (d : Dst) (a b c : Src) (imm : BitVec 27),
    (∀ sat, Int2 (.add h t sat d a b) h t d a b (Ref.add t sat)) ∧
    (∀ sat, Int2 (.sub h t sat d a b) h t d a b (Ref.sub t sat)) ∧
    Int2 (.mul h t d a b) h t d a b (fun x y => x * y) ∧
    Int2 (.mulh h t d a b) h t d a b (Ref.mulh t) ∧
    LaneResult (.mad h t d a b c) h [(a, t.wide), (b, t.wide), (c, t.wide)] [] d t.wide
      (fun _ _ _ xs => Ref.out (Ref.opd t xs 0 * Ref.opd t xs 1 + Ref.opd t xs 2)) ∧
    Int2 (.min h t d a b) h t d a b (Ref.min t) ∧
    Int2 (.max h t d a b) h t d a b (Ref.max t) ∧
    Int1 (.abs h t d a) h t d a (Ref.abs t) ∧
    Int1 (.neg h t d a) h t d a (fun x => -x) ∧
    Int1 (.addImm h t d a imm) h t d a (fun x => x + imm.signExtend _) ∧
    Int1 (.subImm h t d a imm) h t d a (fun x => x - imm.signExtend _) ∧
    Int1 (.mulImm h t d a imm) h t d a (fun x => x * imm.signExtend _) ∧
    Int1 (.minImm h t d a imm) h t d a (fun x => Ref.min t x (imm.signExtend _)) ∧
    Int1 (.maxImm h t d a imm) h t d a (fun x => Ref.max t x (imm.signExtend _))

/-- R100, R101, R103: bitwise operations, shifts and rotates with their count modulo the width (below it in the immediate
form), counts of bits, bit reversal, selection, moves and address sums. -/
def Sys2Proof.Claims.LogicShiftsAndMoves : Prop :=
  ∀ (h : Hdr) (t : IntTy) (d : Dst) (a b : Src) (imm : BitVec 27) (pc : Nat) (sh : BitVec 3),
    Int2 (.and h t d a b) h t d a b (fun x y => x &&& y) ∧
    Int2 (.or h t d a b) h t d a b (fun x y => x ||| y) ∧
    Int2 (.xor h t d a b) h t d a b (fun x y => x ^^^ y) ∧
    Int1 (.not h t d a) h t d a (fun x => ~~~x) ∧
    Int1 (.andImm h t d a imm) h t d a (fun x => x &&& imm.signExtend _) ∧
    Int1 (.orImm h t d a imm) h t d a (fun x => x ||| imm.signExtend _) ∧
    Int1 (.xorImm h t d a imm) h t d a (fun x => x ^^^ imm.signExtend _) ∧
    Int2 (.shl h t d a b) h t d a b (fun x y => x <<< (y.toNat % t.bits)) ∧
    Int2 (.shr h t d a b) h t d a b (fun x y => x >>> (y.toNat % t.bits)) ∧
    Int2 (.sar h t d a b) h t d a b (fun x y => x.sshiftRight (y.toNat % t.bits)) ∧
    Int2 (.rot h t d a b) h t d a b (fun x y => x.rotateLeft (y.toNat % t.bits)) ∧
    (imm.toNat < t.bits →
      Int1 (.shlImm h t d a imm) h t d a (fun x => x <<< imm.toNat) ∧
      Int1 (.shrImm h t d a imm) h t d a (fun x => x >>> imm.toNat) ∧
      Int1 (.sarImm h t d a imm) h t d a (fun x => x.sshiftRight imm.toNat) ∧
      Int1 (.rotImm h t d a imm) h t d a (fun x => x.rotateLeft imm.toNat)) ∧
    Int1 (.clz h t d a) h t d a (fun x => x.clz) ∧
    Int1 (.popc h t d a) h t d a (fun x => x.cpop) ∧
    Int1 (.brev h t d a) h t d a (fun x => x.reverse) ∧
    LaneResult (.sel h t d a b pc) h [(a, t.wide), (b, t.wide)] [⟨fC, .p pc⟩] d t.wide
      (fun p c l xs => Ref.out (if p.readP c.gang pc l then Ref.opd t xs 0 else Ref.opd t xs 1)) ∧
    Int1 (.mov h t d a) h t d a (fun x => x) ∧
    LaneResult (.movi h t d imm) h [] [] d t.wide (fun _ _ _ _ => Ref.out (imm.signExtend t.bits)) ∧
    LaneResult (.moviHi h d imm) h [] [] d false
      (fun _ _ _ _ => Ref.out (imm.setWidth 16 ++ (0 : BitVec 16) : BitVec 32)) ∧
    LaneResult (.lea h t sh d a b) h [(a, t.wide), (b, false)] [] d t.wide
      (fun _ _ _ xs => Ref.out (Ref.opd t xs 0 +
        (if t.signed then ((arg xs 1).setWidth 32).signExtend t.bits else ((arg xs 1).setWidth 32).setWidth t.bits) <<< sh.toNat)) ∧
    Int1 (.leaImm h t d a imm) h t d a (fun x => x + imm.signExtend _)

/-- R101: bit-field extraction and insertion: position and length from bits 7:0 and 15:8 of an operand or the immediate,
the length cut to what lies above the position. -/
def Sys2Proof.Claims.BitFields : Prop :=
  ∀ (h : Hdr) (t : IntTy) (d : Dst) (a b c : Src) (imm : BitVec 27),
    Int2 (.bfx h t d a b) h t d a b (fun x y => Ref.bfx t x (y.toNat % 256) (y.toNat / 256 % 256)) ∧
    Int1 (.bfxImm h t d a imm) h t d a (fun x => Ref.bfx t x (imm.toNat % 256) (imm.toNat / 256 % 256)) ∧
    LaneResult (.bfi h t d a b c) h [(a, t.wide), (b, t.wide), (c, t.wide)] [] d t.wide
      (fun _ _ _ xs => Ref.out (Ref.bfi t (Ref.opd t xs 0) (Ref.opd t xs 1)
        ((Ref.opd t xs 2).toNat % 256) ((Ref.opd t xs 2).toNat / 256 % 256)))

/-- R102: comparisons write a predicate in the enabled lanes, with p7 discarded (R27), in the register form and with a
sign-extended immediate. -/
def Sys2Proof.Claims.IntegerComparisons : Prop :=
  ∀ (h : Hdr) (t : IntTy) (pd : Nat) (a b : Src) (imm : BitVec 27),
    (∀ k, PredResult (.setp h t k pd a b) h [(a, t.wide), (b, t.wide)] [] pd
      (fun _ _ _ xs => Ref.cmp t k (Ref.opd t xs 0) (Ref.opd t xs 1))) ∧
    ∀ i k, (i, k) ∈ [(Instr.setpEqImm h t pd a imm, Cmp.eq), (.setpNeImm h t pd a imm, .ne), (.setpLtImm h t pd a imm, .lt),
        (.setpLeImm h t pd a imm, .le), (.setpGtImm h t pd a imm, .gt), (.setpGeImm h t pd a imm, .ge)] →
      PredResult i h [(a, t.wide)] [] pd (fun _ _ _ xs => Ref.cmp t k (Ref.opd t xs 0) (imm.signExtend _))

/-- R104: conversion of an integer to an integer type: clamped to the range or cut to the low bits, then extended into the
destination register by the type's signedness. -/
def Sys2Proof.Claims.IntegerConversions : Prop :=
  ∀ (h : Hdr) (st : IntTy) (dt : CvtTy) (r : Rnd) (sat : Bool) (d : Dst) (a : Src) (w : Nat) (sg : Bool),
    (dt, w, sg) ∈ [(CvtTy.i32, 32, true), (.n32, 32, false), (.b32, 32, false), (.i64, 64, true), (.n64, 64, false),
      (.b64, 64, false), (.i8, 8, true), (.n8, 8, false), (.i16, 16, true), (.n16, 16, false)] →
    LaneResult (.cvt h st dt r sat d a) h [(a, st.wide)] [] d dt.wide (fun _ _ _ xs =>
      let x := Ref.num st (Ref.opd st xs 0)
      let y := BitVec.ofInt w (if sat then Ref.clamp w sg x else x)
      Ref.out (if sg then y.signExtend (if dt.wide then 64 else 32) else y.setWidth (if dt.wide then 64 else 32)))

namespace Sys2Proof.Machine.Ref

/-! Reference values of the floating formats (R223 to R237), over the rational numbers. -/

/-- 2^e. -/
def pow2 (e : Int) : Rat := if 0 ≤ e then ((2 ^ e.toNat : Nat) : Rat) else 1 / ((2 ^ (-e).toNat : Nat) : Rat)

/-- An exact value: NaN, an infinity, or a number with the sign that a zero carries. -/
inductive Ext where
  | nan
  | inf (neg : Bool)
  | fin (neg : Bool) (x : Rat)

/-- The fields of an encoding (R223). -/
def expo (f : Fmt) (b : Nat) : Nat := b / 2 ^ f.mw % 2 ^ f.ew
def mant (f : Fmt) (b : Nat) : Nat := b % 2 ^ f.mw
def sgn (f : Fmt) (b : Nat) : Bool := b / 2 ^ (f.ew + f.mw) % 2 == 1

/-- Special encodings (R225): with infinities, an exponent of all ones; in E4M3 the NaN of all ones alone. -/
def special (f : Fmt) (b : Nat) : Bool :=
  match f.kind with
  | .ieee => expo f b == 2 ^ f.ew - 1
  | .e4m3 => expo f b == 2 ^ f.ew - 1 && mant f b == 2 ^ f.mw - 1
  | .fp6 => false

/-- The magnitude of a finite encoding (R224). -/
def mag (f : Fmt) (b : Nat) : Rat :=
  if expo f b = 0 then pow2 (1 - f.bias) * ((mant f b : Rat) / ((2 ^ f.mw : Nat) : Rat))
  else pow2 ((expo f b : Int) - f.bias) * (1 + (mant f b : Rat) / ((2 ^ f.mw : Nat) : Rat))

/-- The value of a finite encoding. -/
def val (f : Fmt) (b : Nat) : Rat := if sgn f b then -mag f b else mag f b

/-- The exact value of an encoding (R224, R225). -/
def ext (f : Fmt) (b : Nat) : Ext :=
  if special f b then (if f.kind = .ieee ∧ mant f b = 0 then .inf (sgn f b) else .nan) else .fin (sgn f b) (val f b)

/-- An encoding of the format's width that is finite. -/
def Finite (f : Fmt) (b : Nat) : Prop := b < 2 ^ (1 + f.ew + f.mw) ∧ special f b = false

/-- The largest finite magnitude: the bits below those of an infinity, or of E4M3's NaN (R225). -/
def largest (f : Fmt) : Nat :=
  match f.kind with
  | .ieee => (2 ^ f.ew - 1) * 2 ^ f.mw - 1
  | .e4m3 => 2 ^ (f.ew + f.mw) - 2
  | .fp6 => 2 ^ (f.ew + f.mw) - 1

/-- Bits of a magnitude with a sign. -/
def signed (f : Fmt) (neg : Bool) (b : Nat) : Nat := if neg then 2 ^ (f.ew + f.mw) + b else b

/-- The overflow value of a sign (R235). -/
def overflow (f : Fmt) (sat neg : Bool) : Nat :=
  if sat then signed f neg (largest f)
  else
    match f.kind with
    | .ieee => signed f neg (largest f + 1)
    | .e4m3 => 0x7F
    | .fp6 => signed f neg (largest f)

/-- `b` is the one rounding under `r` of a number that is not zero (R235). The number is given by what lies at or below it
(`lo`) and at or above it (`hi`). -/
def Rounded (f : Fmt) (r : Rnd) (sat neg : Bool) (lo hi : Rat → Prop) (b : Nat) : Prop :=
  let top := val f (largest f)
  let half := (top - val f (largest f - 1)) / 2
  let beyond := match r with
    | .rne => if neg then hi (-(top + half)) else lo (top + half)
    | .rz => False
    | .ru => ¬ hi top
    | .rd => ¬ lo (-top)
  (beyond → b = overflow f sat neg) ∧ (¬ beyond → Finite f b ∧ sgn f b = neg ∧
    match r with
    | .rd => lo (val f b) ∧ ∀ u, Finite f u → lo (val f u) → val f u ≤ val f b
    | .ru => hi (val f b) ∧ ∀ u, Finite f u → hi (val f u) → val f b ≤ val f u
    | .rz =>
      if neg then hi (val f b) ∧ ∀ u, Finite f u → hi (val f u) → val f b ≤ val f u
      else lo (val f b) ∧ ∀ u, Finite f u → lo (val f u) → val f u ≤ val f b
    | .rne =>
      ∀ u, Finite f u →
        (val f b < val f u → hi ((val f b + val f u) / 2) ∧ (lo ((val f b + val f u) / 2) → mant f b % 2 = 0)) ∧
        (val f u < val f b → lo ((val f b + val f u) / 2) ∧ (hi ((val f b + val f u) / 2) → mant f b % 2 = 0)))

/-- `b` is an exact value narrowed into a format (R235, R236). -/
def Narrowed (f : Fmt) (r : Rnd) (sat : Bool) (x : Ext) (b : Nat) : Prop :=
  match x with
  | .nan => b = (match f.kind with | .ieee => (2 ^ f.ew - 1) * 2 ^ f.mw + 2 ^ (f.mw - 1) | .e4m3 => 0x7F | .fp6 => 0)
  | .inf neg => b = overflow f sat neg
  | .fin neg q => if q = 0 then b = signed f neg 0 else Rounded f r sat (decide (q < 0)) (fun y => y ≤ q) (fun y => q ≤ y) b

/-- A sum of two (R108): an exact zero sum of operands of opposite sign is +0, or -0 under rounding down. -/
def Ext.add (r : Rnd) : Ext → Ext → Ext
  | .nan, _ => .nan
  | _, .nan => .nan
  | .inf a, .inf b => if a = b then .inf a else .nan
  | .inf a, .fin _ _ => .inf a
  | .fin _ _, .inf b => .inf b
  | .fin a x, .fin b y => .fin (if a = b then a else r == .rd) (x + y)

/-- A product (R108): 0 times an infinity is NaN. -/
def Ext.mul : Ext → Ext → Ext
  | .nan, _ => .nan
  | _, .nan => .nan
  | .inf a, .inf b => .inf (a != b)
  | .inf a, .fin b y => if y = 0 then .nan else .inf (a != b)
  | .fin a x, .inf b => if x = 0 then .nan else .inf (a != b)
  | .fin a x, .fin b y => .fin (a != b) (x * y)

def Ext.neg : Ext → Ext
  | .nan => .nan
  | .inf a => .inf (!a)
  | .fin a x => .fin (!a) (-x)

def Ext.isNan : Ext → Bool
  | .nan => true
  | _ => false

/-- A sum of terms, decided as R241 and R261 say. -/
def Ext.sum (r : Rnd) (ts : List Ext) : Ext :=
  let some := fun (p : Ext → Bool) => ts.any p
  let isInf := fun (a : Bool) (t : Ext) => match t with | .inf b => a == b | _ => false
  if some Ext.isNan || (some (isInf false) && some (isInf true)) then .nan
  else if some (isInf false) then .inf false
  else if some (isInf true) then .inf true
  else .fin ((ts.all fun t => match t with | .fin a x => a && x == 0 | _ => false) || r == .rd)
    (ts.foldl (fun s t => match t with | .fin _ x => s + x | _ => s) 0)

/-- FP32 bits as an exact value. -/
def ext32 (w : W32) : Ext := ext fp32 w.toNat

/-- The result of an FP32 operation of one, two or three operands is the exact value rounded once under SUB (R107). -/
def Float1 (i : Instr) (h : Hdr) (d : Dst) (a : Src) (spec : W32 → W32 → Prop) : Prop :=
  ∃ f : W32 → W32, (∀ x, spec x (f x)) ∧
    LaneResult i h [(a, false)] [] d false fun _ _ _ xs => out (f ((arg xs 0).setWidth 32))

def Float2 (i : Instr) (h : Hdr) (d : Dst) (a b : Src) (spec : W32 → W32 → W32 → Prop) : Prop :=
  ∃ f : W32 → W32 → W32, (∀ x y, spec x y (f x y)) ∧
    LaneResult i h [(a, false), (b, false)] [] d false fun _ _ _ xs =>
      out (f ((arg xs 0).setWidth 32) ((arg xs 1).setWidth 32))

def Float3 (i : Instr) (h : Hdr) (d : Dst) (a b c : Src) (spec : W32 → W32 → W32 → W32 → Prop) : Prop :=
  ∃ f : W32 → W32 → W32 → W32, (∀ x y z, spec x y z (f x y z)) ∧
    LaneResult i h [(a, false), (b, false), (c, false)] [] d false fun _ _ _ xs =>
      out (f ((arg xs 0).setWidth 32) ((arg xs 1).setWidth 32) ((arg xs 2).setWidth 32))

/-- A float immediate: bits 31:5 of an FP32 value (R106). -/
def fimm (imm : BitVec 27) : W32 := imm ++ 0#5

/-- FP32 bits of an exact value under a rounding. -/
def IsF32 (r : Rnd) (x : Ext) (w : W32) : Prop := Narrowed fp32 r false x w.toNat

/-- NaN: exponent of all ones, mantissa not zero (R225). -/
def nan32 (w : W32) : Bool := w &&& 0x7F800000#32 == 0x7F800000#32 && w &&& 0x007FFFFF#32 != 0#32

/-- A place in the order of FP32 values: the magnitude with its sign, so that -0 and +0 share a place. -/
def place (w : W32) : Int := if w.msb then -((w &&& 0x7FFFFFFF#32).toNat : Int) else ((w &&& 0x7FFFFFFF#32).toNat : Int)

/-- The place with -0 below +0 (R109). -/
def placeZ (w : W32) : Int := if w.msb then place w - 1 else place w

/-- The smaller (R109): one NaN gives the other operand, two the canonical NaN. -/
def fmin (x y : W32) : W32 :=
  if nan32 x && nan32 y then 0x7FC00000#32 else if nan32 x then y else if nan32 y then x
  else if placeZ x ≤ placeZ y then x else y

/-- The larger (R109). -/
def fmax (x y : W32) : W32 :=
  if nan32 x && nan32 y then 0x7FC00000#32 else if nan32 x then y else if nan32 y then x
  else if placeZ x ≤ placeZ y then y else x

/-- The comparisons of `fsetp` (R109). -/
def fcmp (k : FCmp) (x y : W32) : Bool :=
  let n := nan32 x || nan32 y
  match k with
  | .eq => !n && place x == place y
  | .ne => n || place x != place y
  | .lt => !n && decide (place x < place y)
  | .le => !n && decide (place x ≤ place y)
  | .gt => !n && decide (place y < place x)
  | .ge => !n && decide (place y ≤ place x)
  | .num => !n
  | .nan => n

/-- A number rounded to a whole one (R110, R237). -/
def whole (r : Rnd) (x : Rat) : Int :=
  match r with
  | .rd => x.floor
  | .ru => x.ceil
  | .rz => if x < 0 then x.ceil else x.floor
  | .rne =>
    let d := x - x.floor
    if d < 1 / 2 then x.floor else if 1 / 2 < d then x.floor + 1 else if x.floor % 2 = 0 then x.floor else x.floor + 1

/-- A conversion to an integer range: rounded, clamped; NaN and the zeros give 0 (R110, R237). -/
def toRange (r : Rnd) (lo hi : Int) (x : Ext) : Int :=
  match x with
  | .nan => 0
  | .inf neg => if neg then lo else hi
  | .fin _ q => Max.max lo (Min.min (whole r q) hi)

/-- Element `i` of a source of `fdot` (R261). -/
def dotElem (f : DotFmt) (w : W32) (i : Nat) : Ext :=
  let int := fun (k : Nat) => let n := ((w >>> (k * i)).setWidth k).toInt; Ext.fin (decide (n < 0)) (n : Rat)
  match f with
  | .f16 => ext fp16 ((w >>> (16 * i)).setWidth 16).toNat
  | .bf16 => ext bf16 ((w >>> (16 * i)).setWidth 16).toNat
  | .f8e4 => ext e4m3 ((w >>> (8 * i)).setWidth 8).toNat
  | .f8e5 => ext e5m2 ((w >>> (8 * i)).setWidth 8).toNat
  | .i8 => int 8
  | .i4 => int 4

/-- Elements of a 32-bit source (R261). -/
def dotCount : DotFmt → Nat
  | .f16 | .bf16 => 2
  | .f8e4 | .f8e5 | .i8 => 4
  | .i4 => 8

/-- A product of elements: of two whole numbers a zero has no sign (R226; assumption 24). -/
def Ext.prod (whole : Bool) (x y : Ext) : Ext :=
  match x.mul y with
  | .fin neg q => .fin (neg && !(whole && q == 0)) q
  | v => v

/-- c and the products of the elements. -/
def dotTerms (f : DotFmt) (x y z : W32) : List Ext :=
  ext32 z :: (List.range (dotCount f)).map fun i => Ext.prod (f == .i8 || f == .i4) (dotElem f x i) (dotElem f y i)

end Sys2Proof.Machine.Ref

/-- R107, R108: the FP32 sum, difference, product and fused multiply-add, each the exact value rounded once under SUB, with
its special values, in the register form and with an immediate (R106). -/
def Obligations.FloatArithmetic : Prop :=
  ∀ (h : Hdr) (r : Rnd) (d : Dst) (a b c : Src) (imm : BitVec 27),
    Ref.Float2 (.fadd h r d a b) h d a b (fun x y w => Ref.IsF32 r (Ref.Ext.add r (Ref.ext32 x) (Ref.ext32 y)) w) ∧
    Ref.Float2 (.fsub h r d a b) h d a b (fun x y w => Ref.IsF32 r (Ref.Ext.add r (Ref.ext32 x) (Ref.ext32 y).neg) w) ∧
    Ref.Float2 (.fmul h r d a b) h d a b (fun x y w => Ref.IsF32 r ((Ref.ext32 x).mul (Ref.ext32 y)) w) ∧
    Ref.Float3 (.ffma h r d a b c) h d a b c (fun x y z w =>
      Ref.IsF32 r (Ref.Ext.add r ((Ref.ext32 x).mul (Ref.ext32 y)) (Ref.ext32 z)) w) ∧
    Ref.Float1 (.faddImm h r d a imm) h d a (fun x w =>
      Ref.IsF32 r (Ref.Ext.add r (Ref.ext32 x) (Ref.ext32 (Ref.fimm imm))) w) ∧
    Ref.Float1 (.fsubImm h r d a imm) h d a (fun x w =>
      Ref.IsF32 r (Ref.Ext.add r (Ref.ext32 x) (Ref.ext32 (Ref.fimm imm)).neg) w) ∧
    Ref.Float1 (.fmulImm h r d a imm) h d a (fun x w =>
      Ref.IsF32 r ((Ref.ext32 x).mul (Ref.ext32 (Ref.fimm imm))) w)

/-- R109: `fmin` and `fmax`, with a register or an immediate, and `fsetp` complete wherever they issue and their operands can be had: the order
of FP32 values, -0 below +0 for the minimum and the maximum and equal to it
for the comparisons, and what a NaN gives. -/
def Sys2Proof.Claims.FloatOrder : Prop :=
  ∀ (h : Hdr) (d : Dst) (a b : Src) (imm : BitVec 27) (k : FCmp) (pd : Nat),
    let two := fun (f : W32 → W32 → W32) (_ : State) (_ : Ctx) (_ : Nat) (xs : List W64) =>
      Ref.out (f ((arg xs 0).setWidth 32) ((arg xs 1).setWidth 32))
    let one := fun (f : W32 → W32) (_ : State) (_ : Ctx) (_ : Nat) (xs : List W64) => Ref.out (f ((arg xs 0).setWidth 32))
    LaneResult (.fmin h d a b) h [(a, false), (b, false)] [] d false (two Ref.fmin) ∧
    LaneResult (.fmax h d a b) h [(a, false), (b, false)] [] d false (two Ref.fmax) ∧
    LaneResult (.fminImm h d a imm) h [(a, false)] [] d false (one fun x => Ref.fmin x (Ref.fimm imm)) ∧
    LaneResult (.fmaxImm h d a imm) h [(a, false)] [] d false (one fun x => Ref.fmax x (Ref.fimm imm)) ∧
    PredResult (.fsetp h k pd a b) h [(a, false), (b, false)] [] pd (fun _ _ _ xs =>
      Ref.fcmp k ((arg xs 0).setWidth 32) ((arg xs 1).setWidth 32))

/-- R107, R108: the reciprocal, the square root and its reciprocal are the exact value rounded once under SUB. The root of x
is known by what lies below it: the numbers whose square is at most x. -/
def Sys2Proof.Claims.ReciprocalsAndRoots : Prop :=
  ∀ (h : Hdr) (r : Rnd) (d : Dst) (a : Src),
    Ref.Float1 (.frcp h r d a) h d a (fun x w =>
      match Ref.ext32 x with
      | .nan => w = 0x7FC00000#32
      | .inf neg => Ref.IsF32 r (.fin neg 0) w
      | .fin neg q => if q = 0 then Ref.IsF32 r (.inf neg) w else Ref.IsF32 r (.fin neg (1 / q)) w) ∧
    Ref.Float1 (.fsqrt h r d a) h d a (fun x w =>
      match Ref.ext32 x with
      | .nan => w = 0x7FC00000#32
      | .inf neg => Ref.IsF32 r (if neg then .nan else .inf false) w
      | .fin neg q =>
        if q = 0 then w = x
        else if neg then w = 0x7FC00000#32
        else Ref.Rounded fp32 r false false (fun y => y ≤ 0 ∨ y * y ≤ q) (fun y => 0 ≤ y ∧ q ≤ y * y) w.toNat) ∧
    Ref.Float1 (.frsq h r d a) h d a (fun x w =>
      match Ref.ext32 x with
      | .nan => w = 0x7FC00000#32
      | .inf neg => Ref.IsF32 r (if neg then .nan else .fin false 0) w
      | .fin neg q =>
        if q = 0 then Ref.IsF32 r (.inf neg) w
        else if neg then w = 0x7FC00000#32
        else Ref.Rounded fp32 r false false (fun y => y ≤ 0 ∨ y * y * q ≤ 1) (fun y => 0 ≤ y ∧ 1 ≤ y * y * q) w.toNat)

/-- R107, R108: `fexp2`, `flog2`, `fsin` and `fcos` complete in every enabled lane, with the special values that R108 lists.
(Their results elsewhere are computed to a fixed precision: assumption 16.) -/
def Sys2Proof.Claims.TranscendentalSpecialValues : Prop :=
  ∀ (h : Hdr) (r : Rnd) (d : Dst) (a : Src),
    Ref.Float1 (.fexp2 h r d a) h d a (fun x w =>
      (Ref.nan32 x = true → w = 0x7FC00000#32) ∧ (x = 0xFF800000#32 → w = 0#32) ∧ (x = 0x7F800000#32 → w = x) ∧
      (x &&& 0x7FFFFFFF#32 = 0#32 → w = 0x3F800000#32)) ∧
    Ref.Float1 (.flog2 h r d a) h d a (fun x w =>
      (Ref.nan32 x = true → w = 0x7FC00000#32) ∧ (x &&& 0x7FFFFFFF#32 = 0#32 → w = 0xFF800000#32) ∧
      (x.msb = true ∧ x ≠ 0x80000000#32 → w = 0x7FC00000#32) ∧ (x = 0x3F800000#32 → w = 0#32) ∧
      (x = 0x7F800000#32 → w = x)) ∧
    Ref.Float1 (.fsin h r d a) h d a (fun x w =>
      (Ref.nan32 x = true ∨ x &&& 0x7FFFFFFF#32 = 0x7F800000#32 → w = 0x7FC00000#32) ∧
      (x &&& 0x7FFFFFFF#32 = 0#32 → w = x) ∧
      (∀ n : Int, n ≠ 0 → Ref.ext32 x = .fin (decide (n < 0)) n → w = if n < 0 then 0x80000000#32 else 0#32)) ∧
    Ref.Float1 (.fcos h r d a) h d a (fun x w =>
      (Ref.nan32 x = true ∨ x &&& 0x7FFFFFFF#32 = 0x7F800000#32 → w = 0x7FC00000#32) ∧
      (∀ n : Int, ∀ neg, Ref.ext32 x = .fin neg ((n : Rat) + 1 / 2) → w = 0#32))

/-- R110, R234 to R237: `fcvt` and `frnd`, and `cvt` to FP32 (R104), complete wherever they issue and their operand can be had: to integers rounded and clamped, between floating
formats rounded once (widening exactly), to a whole number with the sign of a zero result kept. -/
def Sys2Proof.Claims.FloatConversions : Prop :=
  ∀ (h : Hdr) (r : Rnd) (sat : Bool) (d : Dst) (a : Src) (st : IntTy),
    (∀ m lo hi, (m, lo, hi) ∈ [(FMode.toI32, -(2 ^ 31 : Int), (2 ^ 31 - 1 : Int)), (.toN32, 0, 2 ^ 32 - 1),
        (.toI64, -(2 ^ 63), 2 ^ 63 - 1), (.toN64, 0, 2 ^ 64 - 1)] →
      LaneResult (.fcvt h r m sat d a) h [(a, false)] [] d (m == .toI64 || m == .toN64) (fun _ _ _ xs =>
        let n := Ref.toRange r lo hi (Ref.ext32 ((arg xs 0).setWidth 32))
        if m == .toI64 || m == .toN64 then BitVec.ofInt 64 n else Ref.out (BitVec.ofInt 32 n))) ∧
    (∀ m f, (m, f) ∈ [(FMode.toF16, fp16), (.toBf16, bf16), (.toE4, e4m3), (.toE5, e5m2)] →
      Ref.Float1 (.fcvt h r m sat d a) h d a (fun x w => Ref.Narrowed f r sat (Ref.ext32 x) w.toNat)) ∧
    (∀ m f, (m, f) ∈ [(FMode.ofF16, fp16), (.ofBf16, bf16), (.ofE4, e4m3), (.ofE5, e5m2)] →
      Ref.Float1 (.fcvt h r m sat d a) h d a (fun x w =>
        Ref.IsF32 r (Ref.ext f (x.toNat % 2 ^ (1 + f.ew + f.mw))) w)) ∧
    Ref.Float1 (.frnd h r d a) h d a (fun x w =>
      match Ref.ext32 x with
      | .nan => w = 0x7FC00000#32
      | .inf _ => w = x
      | .fin neg q => Ref.ext32 w = .fin neg (Ref.whole r q)) ∧
    ∃ f : Int → W32, (∀ n : Int, Ref.IsF32 r (.fin (decide (n < 0)) (n : Rat)) (f n)) ∧
      LaneResult (.cvt h st .f32 r false d a) h [(a, st.wide)] [] d false (fun _ _ _ xs =>
        Ref.out (f (Ref.num st (Ref.opd st xs 0))))

/-- R261: `fdot` completes wherever it issues and its operands can be had: it gives c plus the exact sum of the products of its elements, rounded once under SUB, special cases decided as
for the chunks of R241; a product of two integer elements that is zero is +0 (assumption 24). -/
def Sys2Proof.Claims.DotProducts : Prop :=
  ∀ (h : Hdr) (r : Rnd) (fmt : DotFmt) (d : Dst) (a b c : Src),
    Ref.Float3 (.fdot h r fmt d a b c) h d a b c (fun x y z w => Ref.IsF32 r (Ref.Ext.sum r (Ref.dotTerms fmt x y z)) w)

/-- R105: the predicate family: conjunction, disjunction, exclusive or, negation and copy, each source inverted where its bit
says so; a uniform word writes the lowest enabled lane's value. -/
def Sys2Proof.Claims.PredicateWords : Prop :=
  ∀ (h : Hdr) (ia ib : Bool) (pd pa pb : Nat),
    let src := fun (inv : Bool) (n : Nat) (p : State) (c : Ctx) (l : Nat) => if inv then !p.readP c.gang n l else p.readP c.gang n l
    let two := [(⟨fA, .p pa⟩ : Use), ⟨fB, .p pb⟩]
    let one := [(⟨fA, .p pa⟩ : Use)]
    PredResult (.pand h ia ib pd pa pb) h [] two pd (fun p c l _ => src ia pa p c l && src ib pb p c l) ∧
    PredResult (.por h ia ib pd pa pb) h [] two pd (fun p c l _ => src ia pa p c l || src ib pb p c l) ∧
    PredResult (.pxor h ia ib pd pa pb) h [] two pd (fun p c l _ => src ia pa p c l ^^ src ib pb p c l) ∧
    PredResult (.pnot h ia pd pa) h [] one pd (fun p c l _ => !src ia pa p c l) ∧
    PredResult (.pmov h ia pd pa) h [] one pd (fun p c l _ => src ia pa p c l)

namespace Sys2Proof.Machine.Ref

/-- The lane `shfl` would read (R112). -/
def shflLane (mode : ShMode) (l b : Nat) : Int :=
  match mode with
  | .idx => b
  | .up => (l : Int) - b
  | .down => (l : Int) + b
  | .xor => (l ^^^ b : Nat)

/-- A of the source lane when it is a lane of the gang and enabled, else A of the lane itself (R112). -/
def shfl (mode : ShMode) (wide : Bool) (a : Nat) (b : Nat → Nat) (p : State) (c : Ctx) (e : LaneMask) (l : Nat) : W64 :=
  let k := shflLane mode l (b l)
  if 0 ≤ k ∧ k ≤ 31 ∧ e.getLsbD k.toNat = true then p.laneReg c wide a k.toNat else p.laneReg c wide a l

/-- One operation of `redux` (R113). -/
def redux (op : RedOp) (x y : BitVec 32) : BitVec 32 :=
  match op with
  | .add => x + y
  | .minI => if x.sle y then x else y
  | .maxI => if x.sle y then y else x
  | .minN => if x.ule y then x else y
  | .maxN => if x.ule y then y else x
  | .and => x &&& y
  | .or => x ||| y
  | .xor => x ^^^ y

end Sys2Proof.Machine.Ref

/-- R28, R111 to R113: the words that read across the enabled lanes and write a destination: a vector register in them, `zero`, or a queue
register, which takes the lowest enabled lane's value; `match` writes a vector register. -/
def Sys2Proof.Claims.CrossLaneWords : Prop :=
  ∀ (h : Hdr) (mode : ShMode) (wide : Bool) (d : Dst) (n a : Nat) (b : Src) (lane : BitVec 5) (op : RedOp),
    CrossResult (.shfl h mode wide d a b) h wide wide d a [b]
      (fun p c e os => Ref.shfl mode wide a (fun l => (p.opHead c os l).toNat) p c e) ∧
    CrossResult (.shflImm h mode wide d a lane) h wide wide d a []
      (fun p c e _ => Ref.shfl mode wide a (fun _ => lane.toNat) p c e) ∧
    (∃ f : State → Ctx → LaneMask → Nat → LaneMask,
      (∀ p c e l m, (f p c e l).getLsbD m = (e.getLsbD m && p.laneReg c wide a m == p.laneReg c wide a l)) ∧
      CrossResult (.matchv h wide n a) h false wide (.v n) a [] (fun p c e _ l => Ref.out (f p c e l))) ∧
    CrossResult (.redux h op d a) h false false d a [] (fun p c e _ _ =>
      match (lanesOf e).map fun l => p.readV c.gang a l with
      | [] => 0
      | x :: xs => Ref.out (xs.foldl (Ref.redux op) x)) ∧
    CrossResult (.bcast h wide d a b) h wide wide d a [b] (fun p c e os _ =>
      let k := (p.opHead c os (lowLane e)).toNat % 32
      p.laneReg c wide a (if e.getLsbD k then k else lowLane e)) ∧
    CrossResult (.bcastLow h wide d a) h wide wide d a [] (fun p c e _ _ => p.laneReg c wide a (lowLane e))

/-- R113: votes. `vote.any`, `vote.all` and `vote.eq` write their predicate in every active lane of the group, enabled or not,
also when no lane is enabled; `vote.ballot` writes the mask of the enabled lanes whose predicate is set, in the enabled lanes. -/
def Sys2Proof.Claims.Votes : Prop :=
  ∀ (s : State) (c : Ctx) (h : Hdr) (kind : VoteKind) (pd pa d : Nat),
    let e := s.lanesFor c h
    let p := s.issuing c h
    let set := fun l => p.readP c.gang pa l
    (Issues s c h [⟨fD, .p pd⟩, ⟨fA, .p pa⟩] →
      ∃ t g', exec (.vote h kind pd pa) s = .next t ∧ Completed s p t c g' ∧ g'.data = { c.gang.data with p := g'.p } ∧
        WroteP c.gang g' pd c.lanes fun _ =>
          match kind with
          | .any => (lanesOf e).any set
          | .all => (lanesOf e).all set
          | .eq => (lanesOf e).all set || (lanesOf e).all fun l => !set l) ∧
    (Issues s c h ((Dst.v d).uses false ++ [⟨fA, .p pa⟩]) →
      ∃ t g' mask, exec (.voteBallot h d pa) s = .next t ∧ Completed s p t c g' ∧
        (∀ l, mask.getLsbD l = (e.getLsbD l && set l)) ∧ WroteD c.gang g' false false e (.v d) fun _ => Ref.out (mask : LaneMask))

/-- R28: what each operand reads, shown by the move that copies it: registers, the special operands, and in 32 bits the low
half of each. -/
def Sys2Proof.Claims.OperandValues : Prop :=
  ∀ (s : State) (c : Ctx) (h : Hdr) (d n : Nat) (src : Src) (f : Nat → W64),
    h.uni = false → c.gang.shadows = [] →
    (src, f) ∈ [
      (Src.v n, fun l => (c.gang.vAt (n + 1) l ++ c.gang.vAt n l : BitVec 64)),
      (.s n, fun _ => c.gang.s.get 0#64 n),
      (.zero, fun _ => 0),
      (.laneid, fun l => BitVec.ofNat 64 l),
      (.sliceid, fun l => BitVec.ofNat 64 (l / 4)),
      (.gangid, fun _ => BitVec.ofNat 64 c.gang.gid),
      (.blockid, fun _ => if c.blk.handler then 0xFFFFFFFF#64 else BitVec.ofNat 64 c.blk.bid),
      (.popid, fun l => if c.blk.handler then 0xFFFFFFFF#64 else
        BitVec.ofNat 64 ((32 * ((c.blk.threads + 31) / 32) * c.blk.bid + 32 * c.gang.gid + l) % 2 ^ 32)),
      (.lineage, fun l => c.gang.lineage.get 0#64 l),
      (.clk, fun _ => (s.allot c.al).vclk)] →
    (Issues s c h ((Dst.v d).uses true ++ srcUses [(src, true)] ++ []) →
      ∃ t g', exec (.mov h .n64 (.v d) src) s = .next t ∧ Completed s (s.issuing c h) t c g' ∧
        WroteD c.gang g' false true (s.lanesFor c h) (.v d) f) ∧
    (Issues s c h ((Dst.v d).uses false ++ srcUses [(src, false)] ++ []) →
      ∃ t g', exec (.mov h .n32 (.v d) src) s = .next t ∧ Completed s (s.issuing c h) t c g' ∧
        WroteD c.gang g' false false (s.lanesFor c h) (.v d) f)

/-- R28, R31, R315, R321: a queue source takes the oldest word of the queue's return side, which loses it; two queue sources
are popped in field order, so that one queue named twice gives its two oldest words. -/
def Sys2Proof.Claims.QueueSources : Prop :=
  ∀ (s : State) (c : Ctx) (h : Hdr) (d q id : Nat) (b : DBind) (x y : W64) (rest : List W64),
    let us := (Dst.v d).uses true ++ srcUses [(Src.q q, true), (.q q, true)] ++ []
    Issues s c h us → s.lanesFor c h ≠ 0#32 → c.gang.qbind q = .drill id → s.dbind? id = some b → b.ret = x :: y :: rest →
    ∃ t g', exec (.sub h .n64 false (.v d) (.q q) (.q q)) s = .next t ∧
      t.rest = { (s.issuing c h).rest with dbinds := t.dbinds } ∧ OnlyGang s t c g' ∧ SlicesAre c g' (s.passed c) ∧
      t.dbind? id = some { b with ret := rest } ∧ (∀ j, j ≠ id → t.dbind? j = s.dbind? j) ∧
      WroteD c.gang g' h.uni true (s.lanesFor c h) (.v d) fun _ => x - y

/-- R28, R315: a queue destination pushes the lowest enabled lane's value, once, behind what the queue holds. -/
def Sys2Proof.Claims.QueueDestinations : Prop :=
  ∀ (s : State) (c : Ctx) (h : Hdr) (q id : Nat) (b : DBind) (w : W64) (rest : List W64),
    Issues s c h ((Dst.q q).uses true ++ srcUses [(Src.clk, true)] ++ []) → s.lanesFor c h ≠ 0#32 →
    c.gang.qbind q = .drill id → s.dbind? id = some b → b.part = w :: rest → rest.length + 2 < cmdLength w →
    b.buffered < 32 →
    ∃ t g', exec (.mov h .n64 (.q q) .clk) s = .next t ∧
      t.rest = { (s.issuing c h).rest with dbinds := t.dbinds } ∧ OnlyGang s t c g' ∧ g'.data = c.gang.data ∧ SlicesAre c g' (s.passed c) ∧
      t.dbind? id = some { b with part := b.part ++ [(s.allot c.al).vclk] } ∧ ∀ j, j ≠ id → t.dbind? j = s.dbind? j

/-- R47: a lane is enabled when it is active in the issuing group and its guard predicate, inverted where N says so, is true;
p7 is true in every lane (R27). -/
def Sys2Proof.Claims.GuardedLanes : Prop :=
  ∀ (s : State) (c : Ctx) (h : Hdr) (l : Nat), c.gang.shadows = [] →
    ((s.lanesFor c h).getLsbD l = true ↔
      c.gang.live.getLsbD l = true ∧ c.gang.active.getLsbD l = true ∧ (∃ k ∈ c.grp.slices, l / 4 = k ∧ l < 32) ∧
        (if h.g = 7 then h.neg = false else (c.gang.p.get 0#32 h.g).getLsbD l = !h.neg))

/-- R97, R98: until its latency has passed, a result that a word leaves in a vector register reads, in each lane, as the old
value or the new one; from then on as the new one. The cycles are those of R97, two more at 64 bits. -/
def Sys2Proof.Claims.EarlyReads : Prop :=
  ∀ (s : State) (c : Ctx) (h : Hdr) (d n m : Nat) (r : Rnd) (i : Instr) (lat : Nat) (us : List Use) (wide : Bool),
    (i, lat, us, wide) ∈ [
      (Instr.add h .i32 false (.v d) (.v n) (.v m), 4, (Dst.v d).uses false ++ srcUses [(Src.v n, false), (.v m, false)] ++ [], false),
      (.add h .i64 false (.v d) (.v n) (.v m), 6, (Dst.v d).uses true ++ srcUses [(Src.v n, true), (.v m, true)] ++ [], true),
      (.mul h .n32 (.v d) (.v n) (.v m), 6, (Dst.v d).uses false ++ srcUses [(Src.v n, false), (.v m, false)] ++ [], false),
      (.fadd h r (.v d) (.v n) (.v m), 6, (Dst.v d).uses false ++ srcUses [(Src.v n, false), (.v m, false)] ++ [], false),
      (.frcp h r (.v d) (.v n), 16, (Dst.v d).uses false ++ srcUses [(Src.v n, false)] ++ [], false),
      (.bcastLow h false (.v d) n, 8, (Dst.v d).uses false ++ (Src.v n).uses fA false ++ [], false)] →
    Issues s c h us → c.gang.shadows = [] →
    ∃ t g', exec i s = .next t ∧ t.gang? c.uid = some g' ∧
      (∀ (x : State) k l, x.readV g' k l = g'.vAt k l ∨ x.readV g' k l = c.gang.vAt k l) ∧
      (∀ (x : State) k l, s.clock + lat ≤ x.clock → x.readV g' k l = g'.vAt k l) ∧
      ∀ (x : State) k l, k ≠ d → (wide = true → k ≠ d + 1) → x.readV g' k l = g'.vAt k l

/-- R116, R54: `br` moves each slice whose active lanes are all enabled to the address its offset in words names, lets each
slice with no enabled lane fall through, and traps with 0x20 before anything moves where a slice of the group is mixed. -/
def Sys2Proof.Claims.Branches : Prop :=
  ∀ (s : State) (c : Ctx) (h : Hdr) (dest : BitVec 27), Issues s c h [] →
    let on := fun k => s.lanesFor c h &&& sliceMask k
    let all := fun k => c.lanes &&& sliceMask k
    let target := (BitVec.ofNat 64 c.pc + (dest.signExtend 64 <<< 3)).toNat
    ((∀ k ∈ c.grp.slices, on k = 0#32 ∨ on k = all k) →
      ∃ t g', exec (.br h dest) s = .next t ∧ g'.data = c.gang.data ∧
        Moved s t c g' fun k => { s.passed c k with pc := if on k = 0#32 then (s.passed c k).pc else target }) ∧
    ∀ k, c.grp.slices.find? (fun k => on k != 0#32 && on k != all k) = some k →
      exec (.br h dest) s = .next (s.trapped c h { cause := 0x20, slice := k })

/-- R117, R54: `bra` in each slice: all lanes enabled, to the target; none, to the next word; some, a DIV entry with the
others' lanes and the next word, and the enabled lanes at the target. It traps with 0x21 where such a slice has no room. -/
def Sys2Proof.Claims.DivergentBranches : Prop :=
  ∀ (s : State) (c : Ctx) (h : Hdr) (dest : BitVec 27) (ro : BitVec 18), Issues s c h [] →
    let on := fun k => s.lanesFor c h &&& sliceMask k
    let all := fun k => c.lanes &&& sliceMask k
    let mixed := fun k => on k != 0#32 && on k != all k
    let full := fun k => decide (16 ≤ (c.gang.slice k).stack.length)
    let target := (BitVec.ofNat 64 c.pc + (dest.signExtend 64 <<< 3)).toNat
    let join := (BitVec.ofNat 64 c.pc + (ro.signExtend 64 <<< 3)).toNat
    (c.grp.slices.Nodup → (∀ k ∈ c.grp.slices, ¬ (mixed k = true ∧ full k = true)) →
      ∃ t g', exec (.bra h dest ro) s = .next t ∧ g'.data = { c.gang.data with active := g'.active } ∧
        Moved s t c g' (fun k =>
          let x := s.passed c k
          if on k = 0#32 then x
          else if on k = all k then { x with pc := target }
          else { x with pc := target, stack := ⟨true, join, all k &&& ~~~(on k), (c.pc + 8) % 2 ^ 64, all k, x.fmt⟩ :: x.stack }) ∧
        ∀ l, l < 32 → g'.active.getLsbD l =
          if l / 4 ∈ c.grp.slices ∧ mixed (l / 4) = true then (s.lanesFor c h).getLsbD l else c.gang.active.getLsbD l) ∧
    ∀ k, c.grp.slices.find? (fun k => mixed k && full k) = some k →
      exec (.bra h dest ro) s = .next (s.trapped c h { cause := 0x21, slice := k })

/-- R118: `call` in each slice with an enabled lane: a CALL entry with the next word, the active mask and `fmt`; the enabled
lanes run at the target. It traps with 0x21 where such a slice has no room, before any slice changes. -/
def Sys2Proof.Claims.Calls : Prop :=
  ∀ (s : State) (c : Ctx) (h : Hdr) (dest : BitVec 27), Issues s c h [] →
    let on := fun k => s.lanesFor c h &&& sliceMask k
    let full := fun k => decide (16 ≤ (c.gang.slice k).stack.length)
    let target := (BitVec.ofNat 64 c.pc + (dest.signExtend 64 <<< 3)).toNat
    ((∀ k, k < 8 → on k ≠ 0#32 → full k = false) →
      ∃ t g', exec (.call h dest) s = .next t ∧ g'.data = { c.gang.data with active := g'.active } ∧
        Moved s t c g' (fun k =>
          let x := s.passed c k
          if on k = 0#32 then x
          else { x with pc := target, stack := ⟨false, (c.pc + 8) % 2 ^ 64, 0#32, 0, c.lanes &&& sliceMask k, x.fmt⟩ :: x.stack }) ∧
        ∀ l, l < 32 → g'.active.getLsbD l =
          if on (l / 4) ≠ 0#32 then (s.lanesFor c h).getLsbD l else c.gang.active.getLsbD l) ∧
    ∀ k, (List.range 8).find? (fun k => on k != 0#32 && full k) = some k →
      exec (.call h dest) s = .next (s.trapped c h { cause := 0x21, slice := k })

/-- R118: `ret` in each slice with an enabled lane, all of whose active lanes are enabled and whose top entry is a CALL: the
mask of the entry's lanes still live, the return address and `fmt` of the entry, which is popped. A mixed slice traps with
0x20, an absent or a DIV entry with 0x22, with what it found. -/
def Sys2Proof.Claims.Returns : Prop :=
  ∀ (s : State) (c : Ctx) (h : Hdr), Issues s c h [] →
    let on := fun k => s.lanesFor c h &&& sliceMask k
    let all := fun k => c.lanes &&& sliceMask k
    ((∀ k ∈ c.grp.slices, on k = 0#32 ∨ (on k = all k ∧ ∃ x rest, (c.gang.slice k).stack = x :: rest ∧ x.div = false ∧
        x.outer &&& ~~~(sliceMask k) = 0#32)) →
      ∃ t g', exec (.ret h) s = .next t ∧ g'.data = { c.gang.data with active := g'.active } ∧
        Moved s t c g' (fun k =>
          let x := s.passed c k
          if on k = 0#32 then x
          else match x.stack with
            | [] => x
            | y :: rest => { x with pc := y.rpc, fmt := y.fmt, stack := rest }) ∧
        ∀ l, l < 32 → l / 4 < c.gang.slices.length → g'.active.getLsbD l =
          if on (l / 4) = 0#32 then c.gang.active.getLsbD l
          else match (c.gang.slice (l / 4)).stack with
            | [] => c.gang.active.getLsbD l
            | y :: _ => y.outer.getLsbD l && c.gang.live.getLsbD l) ∧
    ∀ first k rest', c.grp.slices = first ++ k :: rest' → on k ≠ 0#32 →
      (∀ j ∈ first, on j = 0#32 ∨ (on j = all j ∧ ∃ x rest, (c.gang.slice j).stack = x :: rest ∧ x.div = false)) →
      (on k ≠ all k → exec (.ret h) s = .next (s.trapped c h { cause := 0x20, slice := k })) ∧
      (on k = all k → (c.gang.slice k).stack = [] →
        exec (.ret h) s = .next (s.trapped c h { cause := 0x22, slice := k, kind := 0 })) ∧
      (∀ x rest, on k = all k → (c.gang.slice k).stack = x :: rest → x.div = true →
        exec (.ret h) s = .next (s.trapped c h { cause := 0x22, slice := k, kind := 1 }))

/-- R119: `jmpi` and `calli` once every enabled lane's target has passed its checks: the slices with an enabled lane go to the
target of their lowest such lane as `br` and `call` would. -/
def Sys2Proof.Claims.IndirectMoves : Prop :=
  ∀ (s : State) (c : Ctx) (h : Hdr) (a : Src) (p : State), Issues s c h (a.uses fA true) →
    let e := s.lanesFor c h
    let on := fun k => e &&& sliceMask k
    let to' := fun l => ((s.issuing c h).opVal c true ⟨a, none⟩ l).toNat
    checkTargets c e to' (lanesOf e) (s.issuing c h) = .ok p →
    ((∀ k ∈ c.grp.slices, on k = 0#32 ∨ on k = c.lanes &&& sliceMask k) →
      ∃ t g', exec (.jmpi h a) s = .next t ∧ g'.data = c.gang.data ∧
        Moved p t c g' fun k => { s.passed c k with pc := if on k = 0#32 then (s.passed c k).pc else to' (lowLane (on k)) }) ∧
    ((∀ k, k < 8 → on k ≠ 0#32 → (c.gang.slice k).stack.length < 16) →
      ∃ t g', exec (.calli h a) s = .next t ∧ g'.data = { c.gang.data with active := g'.active } ∧
        Moved p t c g' (fun k =>
          let x := s.passed c k
          if on k = 0#32 then x
          else { x with
            pc := to' (lowLane (on k))
            stack := ⟨false, (c.pc + 8) % 2 ^ 64, 0#32, 0, c.lanes &&& sliceMask k, x.fmt⟩ :: x.stack }) ∧
        ∀ l, l < 32 → g'.active.getLsbD l = if on (l / 4) ≠ 0#32 then e.getLsbD l else c.gang.active.getLsbD l)

/-- R119: the enabled lanes are checked in ascending order, and of several failures of a lane the lowest kind is reported: no
word can be fetched at its target (1), the target is not a multiple of 8 (2), its word is no `land` (3), it is not the target
of the lowest moving lane of its slice (4). The first lane that fails traps with 0x23, its number, its target and the kind; one whose word
lies on a damaged line ends its launch there (R140). A slice of which some lanes are enabled traps `jmpi` with 0x20 before; a full
stack traps `calli` with 0x21 after the targets (assumption 53). -/
def Sys2Proof.Claims.IndirectChecks : Prop :=
  ∀ (s : State) (c : Ctx) (h : Hdr) (a : Src) (before after : List Nat) (l : Nat) (p : State), Issues s c h (a.uses fA true) →
    let e := s.lanesFor c h
    let to' := fun l => ((s.issuing c h).opVal c true ⟨a, none⟩ l).toNat
    let even := fun k => e &&& sliceMask k = 0#32 ∨ e &&& sliceMask k = c.lanes &&& sliceMask k
    let both := fun (t : State) => ((∀ k ∈ c.grp.slices, even k) → exec (.jmpi h a) s = .next t) ∧ exec (.calli h a) s = .next t
    let traps := fun (kind : Nat) => both (s.trapped c h { cause := 0x23, lane := l, kind := kind, info1 := to' l })
    (∀ first k rest, c.grp.slices = first ++ k :: rest → (∀ j ∈ first, even j) → ¬ even k →
      exec (.jmpi h a) s = .next (s.trapped c h { cause := 0x20, slice := k })) ∧
    (∀ q first k rest, checkTargets c e to' (lanesOf e) (s.issuing c h) = .ok q → slicesIn e = first ++ k :: rest →
      (∀ j ∈ first, (c.gang.slice j).stack.length < 16) → 16 ≤ (c.gang.slice k).stack.length →
      exec (.calli h a) s = .next (s.trapped c h { cause := 0x21, slice := k })) ∧
    (lanesOf e = before ++ l :: after → checkTargets c e to' before (s.issuing c h) = .ok p →
    (p.fetchAddr c.core c.al (to' l) = none → traps 1) ∧
    ∀ pa q, p.fetchAddr c.core c.al (to' l) = some (pa, q) →
      let land := q.homeWord pa / 2 ^ 48 % 2 ^ 9 = 0x0B7 ∧ q.homeWord pa / 2 ^ 62 % 2 = 0
      let line := pa / 128 * 128
      (to' l % 8 ≠ 0 → traps 2) ∧
      (to' l % 8 = 0 → q.damaged line = true → both (damageBase s c e (.damage (if isTierTwo pa then 7 else 6) line))) ∧
      (to' l % 8 = 0 → q.damaged line = false → ¬ land → traps 3) ∧
      (to' l % 8 = 0 → q.damaged line = false → land → to' l ≠ to' (lowLane (e &&& sliceMask (l / 4))) → traps 4))

/-- R122, R307: a scheduler that has not issued in this cycle picks the eligible group that comes first among those not yet found to
wait in it: one that has been eligible for 1,024 cycles, or has been promoted, before the others, the oldest of these first; then the one
of the highest class, of a class one that has not just ceded, then the oldest, of one gang the lowest slice. An enabled `cede` puts its group
there; the next word of the scheduler, whichever it is, takes it away again. -/
def Sys2Proof.Claims.SchedulerPicks : Prop :=
  (∀ (s : State) (c : Ctx),
    let promoted := fun (o : Ctx) => o.grp.promoted = true ∨ ∃ t, o.grp.readySince = some t ∧ t + 1024 ≤ s.clock
    let rank := fun (o : Ctx) => ((s.launch? o.al o.blk.lid).map (·.prio)).getD 0
    let ceded := fun (o : Ctx) => (s.core o.core).ceded.get 0 (o.gang.slot / 16) = 8 * o.uid + o.grp.low + 1
    let older := fun (o : Ctx) => o.uid < c.uid ∨ (o.uid = c.uid ∧ o.grp.low < c.grp.low)
    let before := fun (o : Ctx) => (promoted o ∧ (¬ promoted c ∨ older o)) ∨
      (¬ promoted o ∧ ¬ promoted c ∧ (rank c < rank o ∨ (rank o = rank c ∧ ((¬ ceded o ∧ ceded c) ∨ ((ceded o ↔ ceded c) ∧ older o)))))
    s.mayIssue c = true ↔ s.eligible c = true ∧ (s.core c.core).lastIssue.get 0 (c.gang.slot / 16) ≠ s.clock + 1 ∧
      ∀ o ∈ s.schedGroups c.core (c.gang.slot / 16), s.eligible o = true → o.grp.stalledAt ≠ s.clock + 1 → ¬ before o) ∧
  ∀ (s : State) (c : Ctx) (h : Hdr), Issues s c h [] → s.lanesFor c h ≠ 0#32 → c.core < s.cores.length →
    let tag := fun (t : State) => (t.core c.core).ceded.get 0 (c.gang.slot / 16)
    (∃ t, exec (.cede h) s = .next t ∧ tag t = 8 * c.uid + c.grp.low + 1) ∧ ∃ t, exec (.nop h) s = .next t ∧ tag t = 0

/-- R119, R122, R48: `land` and `nop` complete with no effect; `cede` changes no more than the standing of its group among those
ready to issue. -/
def Sys2Proof.Claims.NoEffectWords : Prop :=
  ∀ (s : State) (c : Ctx) (h : Hdr) (i : Instr), i ∈ [Instr.land h, .nop h, .cede h] → Issues s c h [] →
    ∃ t g', exec i s = .next t ∧ Completed s s t c g' ∧ g'.data = c.gang.data

/-- R121, R21: `exit` ends the enabled lanes, and then what has nothing left: they leave the live mask; a gang of which lanes
remain goes on at the next word, and its block counts the threads that have ended. Results outstanding for the lanes that end are
discarded: a register keeps in them what an early read finds. Where rows hold no barrier word no byte of them changes. -/
def Sys2Proof.Claims.Exits : Prop :=
  ∀ (s : State) (c : Ctx) (h : Hdr), Issues s c h [] →
    ∃ t g', exec (.exit h) s = .next t.sweep ∧ t.rest = { s.rest with blocks := t.blocks } ∧ OnlyGang s t c g' ∧
      g'.data = { c.gang.data with live := c.gang.live &&& ~~~(s.lanesFor c h), v := g'.v, shadows := g'.shadows } ∧
      (∀ n l, l < 32 → ((s.lanesFor c h).getLsbD l = false ∨ c.gang.shadows = []) → g'.vAt n l = c.gang.vAt n l) ∧
      (∀ n l, l < 32 → (s.lanesFor c h).getLsbD l = true → c.gang.live.getLsbD l = true → g'.vAt n l = (s.issuing c h).readV c.gang n l) ∧
      SlicesAre c g' (s.passed c) ∧
      TrapsKept c.gang g' ∧ ((∀ b ∈ s.blocks, b.bars = [] ∧ b.raws = []) → t.blocks = s.blocks)

/-- R21, R121: what is settled after lanes have ended: a gang with a live lane keeps every register and nothing else changes, but
that words in which its groups waited may complete (R370); a gang without one is over, and with the last gang of its block the
block, which its launch then counts as done (R299). A block that ends by `exit` waits for its outstanding accesses (R162). -/
def Sys2Proof.Claims.EndedGangs : Prop :=
  ∀ (s : State) (g : Gang) (b : Block), s.gangs = [g] → g.isOver = false → s.block? g.blk = some b →
    (g.live ≠ 0#32 → ∃ g', s.sweep.gangs = [g'] ∧ g'.data = g.data ∧ s.sweep.rest = s.rest ∧
      (g'.slices.map fun x => { x with retc := 0 }) = g.slices.map fun x => { x with retc := 0 }) ∧
    (g.live = 0#32 → (s.blocks.filter fun x => x.uid == g.blk) = [b] → b.ended = false → b.cluster = 0 → s.dbinds = [] →
      (g.endCause ≠ 0 ∨ (s.plat.draining = false ∧ (∀ r ∈ s.reqs, r.blk ≠ b.uid) ∧ (∀ a ∈ s.saccs, a.gang ≠ g.uid) ∧
        s.hreqs = [] ∧ g.stored = [])) →
      s.sweep.gangs = [] ∧ s.sweep.block? g.blk = none ∧
      ∀ l, b.handler = false → s.launch? b.al b.lid = some l → b.al < s.allots.length →
        (s.sweep.launch? b.al b.lid).map (·.done) = some (l.done + 1))

/-- R120: `regang` in a gang whose slices were never parted passes at once; in a parted gang the group parks at the next word,
which then has not retired yet (R370), and what every group waits for is settled then. -/
def Sys2Proof.Claims.Regangs : Prop :=
  ∀ (s : State) (c : Ctx) (h : Hdr), Issues s c h [] →
    ∃ t g', exec (.regang h) s = .next t.sweep ∧ g'.data = c.gang.data ∧
      (c.gang.groups.length ≤ 1 → Completed s s t c g') ∧
      (2 ≤ c.gang.groups.length → Moved s t c g' (s.passing c)) ∧
      (2 ≤ c.gang.groups.length → (∀ k ∈ c.grp.slices, c.gang.live &&& sliceMask k ≠ 0#32) →
        (∀ x ∈ c.gang.groups, (∃ k ∈ x.slices, k ∈ c.grp.slices) → x = c.grp) → ∀ y ∈ g'.groups, y.slices = c.grp.slices → y.wait = .regang)

/-- R120, R408, R8: when every group of a gang waits at a `regang`, groups at one address become one, which holds all their slices
and waits no longer, but for the results that a switch bit makes it wait for; groups at different addresses go on as they
are. -/
def Sys2Proof.Claims.RegangMerges : Prop :=
  ∀ (g : Gang) (clock : Nat), g.groups ≠ [] → (∀ x ∈ g.groups, x.wait = .regang ∧ x.slices ≠ []) →
    (∀ x ∈ g.groups, ∀ k ∈ x.slices, k < 8 ∧ (g.slice k).pc = (g.slice x.low).pc) →
    let after := g.tryRegang clock
    (∀ y ∈ after.groups, y.wait = .none ∨ y.wait = .switchBit) ∧
    ((∀ x ∈ g.groups, x.sw = false) → ∀ y ∈ after.groups, y.wait = .none) ∧
    (∀ x ∈ g.groups, ∀ k ∈ x.slices, ∃ y ∈ after.groups, k ∈ y.slices) ∧
    (∀ y ∈ after.groups, ∀ j ∈ y.slices, ∀ k ∈ y.slices, (g.slice j).pc = (g.slice k).pc) ∧
    ∀ y ∈ after.groups, ∀ z ∈ after.groups, (g.slice y.low).pc = (g.slice z.low).pc → y = z

/-- A turn of an issue group that its scheduler picks (R307) and whose word is fetched and decodes: `step` is `exec` of the decoded
instruction, on the state in which the turn has begun, the group's stacks are resolved and the fetch's translation is cached. A
turn of another party is `exec` of that step. -/
def Obligations.StepRunsDecoded : Prop :=
  ∀ (s : State) (k : GroupKey) (lax : Nat) (rest : List Turn) (i : Instr), s.plat.poweredDown = false → s.met = [] →
    (∀ c c' pa s', s.agenda = ⟨0, .issue k, lax⟩ :: rest →
      let s1 := { s with agenda := rest, turn := s.turn + 1, free := s.free + 1, lax := lax }
      let s2 := s1.settleGroup c
      let w := BitVec.ofNat 64 (s'.homeWord pa)
      s1.ctx k = some c → s1.mayIssue c = true → c.grp.wait = .none →
      s2.ctx k = some c' → s2.stopDue c' = none →
      s2.fetchAddr c'.core c'.al c'.pc = some (pa, s') → s'.damaged (lineOf pa) = false →
      decode w = .ok i → (privilegedWord w = true → c'.operator = true) → (sysRegWord w).any c'.closed = false → (isMatrix i = true → s'.plat.mxHold = false) →
      step s = exec i { s' with cur := some k, word := w }) ∧
    (s.agenda = ⟨0, .event i, lax⟩ :: rest →
      let s1 := { s with agenda := rest, turn := s.turn + 1, free := s.free + 1, lax := lax, cur := none }
      s1.accepts i = true → step s = exec i s1)

/-- R73, R68, R125, R131: a word that cannot be fetched traps with 0x24 and the address asked for; one of the privileged majors
outside the headland program of allotment 0 traps with 0x08, before any other check but those of the major, and so does one that
names a system register closed to its block (with FIELD 6: assumption 37); a word that does
not decode traps with the cause of the first check that fails. -/
def Sys2Proof.Claims.FetchAndDecodeTraps : Prop :=
  ∀ (s : State) (k : GroupKey) (lax : Nat) (rest : List Turn) (c c' : Ctx), s.plat.poweredDown = false → s.met = [] →
    s.agenda = ⟨0, .issue k, lax⟩ :: rest →
    let s1 := { s with agenda := rest, turn := s.turn + 1, free := s.free + 1, lax := lax }
    let s2 := s1.settleGroup c
    s1.ctx k = some c → s1.mayIssue c = true → c.grp.wait = .none → s2.ctx k = some c' → s2.stopDue c' = none →
    (s2.fetchAddr c'.core c'.al c'.pc = none →
      step s = .next (s2.trapNow c' s2.word { cause := 0x24, info1 := c'.pc } 0)) ∧
    ∀ pa s', s2.fetchAddr c'.core c'.al c'.pc = some (pa, s') → s'.damaged (lineOf pa) = false →
      let w := BitVec.ofNat 64 (s'.homeWord pa)
      let s3 := { s' with cur := some k, word := w }
      (w.getLsbD 62 = false → 0x150 ≤ w.toNat / 2 ^ 48 % 2 ^ 9 → w.toNat / 2 ^ 48 % 2 ^ 9 ≤ 0x152 →
        ¬ (c'.blk.headland = true ∧ c'.blk.al = 0) → step s = .next (s3.trapNow c' w { cause := 0x08, fld := 1 } 0)) ∧
      (privilegedWord w = false → (sysRegWord w).any c'.closed = true → step s = .next (s3.trapNow c' w { cause := 0x08, fld := 6 } 0)) ∧
      ∀ x, (privilegedWord w = true → c'.operator = true) → (sysRegWord w).any c'.closed = false → decode w = .error x →
        step s = .next (s3.trapNow c' w { cause := x.cause, half := x.half, fld := x.fld } 0)

/-- R30, R73, R32: a word that names a register its block has not declared traps with 0x05 and the field of the first such
register in the order D, A, B; a line of a memory form is field 6 and a tile of a matrix form field 8. -/
def Sys2Proof.Claims.UndeclaredRegisters : Prop :=
  ∀ (s : State) (c : Ctx) (h : Hdr) (d a b : Nat), s.cur.bind s.ctx = some c →
    let holds := fun n => n < 8 * c.blk.k.regs
    let trap := fun (f : Nat) => Host.Outcome.next (s.trapped c h { cause := 0x05, fld := f })
    (¬ holds d → exec (.add h .i32 false (.v d) (.v a) (.v b)) s = trap 4) ∧
    (holds d → ¬ holds a → exec (.add h .i32 false (.v d) (.v a) (.v b)) s = trap 5) ∧
    (holds d → holds a → ¬ holds b → exec (.add h .i32 false (.v d) (.v a) (.v b)) s = trap 6) ∧
    (holds d → ¬ a < 4 * c.blk.k.scal → exec (.mov h .n32 (.v d) (.s a)) s = trap 5) ∧
    (holds d → ¬ a < c.blk.k.queues → exec (.qpop h (.v d) a) s = trap 5) ∧
    (¬ a < c.blk.k.lines → exec (.reopen h a) s = trap 6) ∧
    (¬ a < c.blk.k.tiles → exec (.tzero h 15 a) s = .next (s.trapNow c s.word { cause := 0x05, fld := 8 } 0))

/-- R8, R97: a word that names a register which waits for a result of no fixed latency does nothing and issues again. -/
def Sys2Proof.Claims.PendingRegistersWait : Prop :=
  ∀ (s : State) (c : Ctx) (h : Hdr) (d a b : Nat), s.cur.bind s.ctx = some c →
    d < 8 * c.blk.k.regs → a < 8 * c.blk.k.regs → b < 8 * c.blk.k.regs →
    (c.gang.busy.contains (.v d) || c.gang.busy.contains (.v a) || c.gang.busy.contains (.v b) ||
      c.gang.busy.contains (.p h.g)) = true →
    ∃ t g', exec (.add h .i32 false (.v d) (.v a) (.v b)) s = .next t ∧ Moved s t c g' c.gang.slice ∧ g'.data = c.gang.data

/-- R126, R128 to R132, R134: what taking a precise trap, when the group's earlier words have completed, writes into the group: TCAUSE, TPC (the following word for 0x38, 0x3A
and 0x3C; for a fetch fault the word that led there), TWORD (at a fetch fault that of the word that led there: assumption 47), TINFO0 and TINFO1. A cause routed to the handler enters it, where
the launch names one and the group is not in it: masks and depths are saved and the slices go to its first word. Every other
trap holds the group and makes a record for the headland's ring. Registers, predicates, masks and stacks stay as they were; results
of a fixed latency are written, and so are stores that were late (assumption 78). -/
def Obligations.TrapEntry : Prop :=
  ∀ (s : State) (c : Ctx) (w : W64) (x : TrapInfo) (t : State), s.cur.bind s.ctx = some c →
    (t = s.takeTrap c w x ∨ s.draining c = false ∧ ∃ n, t = s.trapNow c w x n) →
    let p := s.performLate c.uid (LateStore.of c.grp.slices)
    let handler := (x.cause = 0x10 ∨ x.cause = 0x38 ∨ x.cause = 0x39 ∨ x.cause = 0x3A) ∧ c.blk.k.trap ≠ 0 ∧ c.grp.inHandler = false
    let led := c.gang.slice c.grp.low
    let tpc := BitVec.ofNat 64 (if x.cause = 0x24 then led.prev
      else if x.cause = 0x38 ∨ x.cause = 0x3A ∨ x.cause = 0x3C then c.pc + 8 else c.pc)
    let tword := if x.cause = 0x24 then led.prevWord else w
    let route := if (x.cause = 0x10 ∨ x.cause = 0x38 ∨ x.cause = 0x39 ∨ x.cause = 0x3A) ∧ c.blk.k.trap ≠ 0 ∧
      c.grp.inHandler = false then 0 else 1
    ∃ g' y, OnlyGang s t c g' ∧ (p.gang? c.uid).map Gang.data = some g'.data ∧
      g'.data = { c.gang.data with lateStores := g'.lateStores } ∧ y ∈ g'.groups ∧ y.slices = c.grp.slices ∧
      y.tpc = tpc ∧ y.tword = tword ∧ y.tinfo1 = BitVec.ofNat 64 x.info1 ∧
      y.tcause = BitVec.ofNat 64 (x.cause % 64 + (if c.grp.inHandler then 2 ^ 6 else 0) + x.half % 2 * 2 ^ 7 + x.fld % 16 * 2 ^ 8 +
        route * 2 ^ 12 + (c.grp.slices.map fun k => 2 ^ k).sum % 256 * 2 ^ 16) ∧
      y.tinfo0 = BitVec.ofNat 64 (x.reg % 16 + x.slice % 8 * 2 ^ 8 + x.lane % 32 * 2 ^ 11 + x.kind % 16 * 2 ^ 16) ∧
      (∀ sh ∈ g'.shadows, (∀ n, sh.reg ≠ .s n) → sh.lanes &&& slicesMask c.grp.slices = 0#32) ∧
      (handler → t.rest = p.rest ∧ y.inHandler = true ∧ y.wait = .none ∧ y.savedSlices = c.grp.slices ∧
        y.savedMask = c.gang.active &&& c.gang.live &&& slicesMask c.grp.slices ∧
        (∀ k ∈ c.grp.slices, (k, (c.gang.slice k).stack.length) ∈ y.savedDepth) ∧
        SlicesAre c g' fun k =>
          let x := c.gang.slice k
          if k ∈ c.grp.slices then { x with pc := c.blk.k.kaddr + c.blk.k.trap } else x) ∧
      (¬ handler → g'.slices = c.gang.slices ∧ t.rest = { p.rest with allots := t.rest.allots } ∧
        (∀ a, a ≠ c.al → (t.allot a).quiet = (s.allot a).quiet) ∧
        (c.al < s.allots.length → y.wait = .held ((s.allot c.al).holdNo + 1) ∧
          (t.allot c.al).quiet = { (s.allot c.al).quiet with
            holdNo := (s.allot c.al).holdNo + 1
            pendTraps := (s.allot c.al).pendTraps ++ [⟨[y.tcause, y.tpc, y.tword, y.tinfo0, y.tinfo1, s.whoWord c,
              BitVec.ofNat 64 ((s.allot c.al).holdNo + 1)], s.clock, s.trapRank c⟩] }))

/-- R142, R372, R145: `trap`, `brk` and `halt` take their traps where a lane is enabled, once the group's earlier words have
completed, with the code and the value they carry; with no lane enabled they do nothing. -/
def Sys2Proof.Claims.TrapWords : Prop :=
  ∀ (s : State) (c : Ctx) (h : Hdr) (a : Src) (code : BitVec 8),
    let e := s.lanesFor c h
    let none' := fun (i : Instr) => ∃ t g', exec i s = .next t ∧ Completed s s t c g' ∧ g'.data = c.gang.data
    (Issues s c h (a.uses fA false) →
      (e = 0#32 → none' (.trap h a code)) ∧
      ∀ os p, e ≠ 0#32 → s.draining c = false → popAll c [a] (s.issuing c h) = .ok (os, p) →
        let info := code.toNat * 2 ^ 32 + (p.opHead c os (lowLane e)).toNat
        exec (.trap h a code) s = .next (s.trapped c h { cause := 0x3A, lane := lowLane e, info1 := info })) ∧
    (Issues s c h [] →
      (e = 0#32 → none' (.brk h code) ∧ none' (.halt h)) ∧
      (e ≠ 0#32 → s.draining c = false →
        exec (.brk h code) s = .next (s.trapped c h { cause := 0x38, info1 := code.toNat }) ∧
        exec (.halt h) s = .next (s.trapped c h { cause := 0x3C })))

/-- R143, R370: `tret` and `tret.skip` in a handler entered with these slices and depths: the saved masks of live lanes, the
in-handler flag clear, the counters at TPC or TPC + 8, the retirement that a `brk` or `trap` owes. -/
def Sys2Proof.Claims.HandlerReturns : Prop :=
  ∀ (s : State) (c : Ctx) (h : Hdr) (i : Instr) (skip : Nat), (i, skip) ∈ [(Instr.tret h, 0), (.tretSkip h, 8)] →
    Issues s c h [] → s.lanesFor c h ≠ 0#32 →
    let trap := fun (kind : Nat) => Host.Outcome.next (s.trapped c h { cause := 0x3B, kind := kind })
    let depths := ∀ k ∈ c.grp.slices, (k, (c.gang.slice k).stack.length) ∈ c.grp.savedDepth
    (c.grp.inHandler = false → exec i s = trap 3) ∧
    (c.grp.inHandler = true → c.grp.slices ≠ c.grp.savedSlices → exec i s = trap 4) ∧
    (c.grp.inHandler = true → c.grp.slices = c.grp.savedSlices → ¬ depths → exec i s = trap 5) ∧
    (c.grp.inHandler = true → c.grp.slices = c.grp.savedSlices → depths → c.grp.tpc.toNat % 8 ≠ 0 → exec i s = trap 6) ∧
    (c.grp.inHandler = true → c.grp.slices = c.grp.savedSlices → depths → c.grp.tpc.toNat % 8 = 0 →
      ∃ t g', exec i s = .next t ∧ t.rest = s.rest ∧ OnlyGang s t c g' ∧
        g'.data = { c.gang.data with
          active := (c.gang.active &&& ~~~(slicesMask c.grp.slices)) ||| (c.grp.savedMask &&& c.gang.live)
        } ∧
        (SlicesAre c g' fun k =>
          let x := s.passed c k
          if k ∈ c.grp.slices then
            { x with
              pc := (c.grp.tpc.toNat + skip) % 2 ^ 64
              retc := x.retc + (if c.grp.owesRet then BitVec.ofNat 64 (c.grp.slices.count k) else 0) }
          else x) ∧
        ((∀ x ∈ c.gang.groups, (∃ k ∈ x.slices, k ∈ c.grp.slices) → x = c.grp) →
          ∀ y ∈ g'.groups, (∃ k ∈ y.slices, k ∈ c.grp.slices) → y.inHandler = false ∧ y.owesRet = false))

/-- R134, R135, R347: the oldest waiting record enters the ring, while that is not full and the allotment is not STOPPED, at its place with the next SEQ, TRTAIL
advances and its new value goes to the tail word: the oldest by its cycle, within a cycle by its group's core, scheduler and lowest
slice. -/
def Sys2Proof.Claims.TrapRecords : Prop :=
  ∀ (s : State) (al : Nat) (r : TrapRec) (before after : List TrapRec), (s.allot al).pendTraps = before ++ r :: after →
    let earlier := fun (x y : TrapRec) => x.clock < y.clock ∨ (x.clock = y.clock ∧ x.rank < y.rank)
    r.clock < s.clock → (∀ x ∈ before, earlier r x) → (∀ x ∈ after, ¬ earlier x r) →
    let a := s.allot al
    let size := a.trbase.toNat % 16
    (a.st = .stopped → ∃ t, exec (.trapRecordAppend al) s = .next t ∧ t.mem = s.mem) ∧
    (6 ≤ size → (a.trtail - a.trhead).toNat < 2 ^ size → a.st ≠ .stopped →
    let base := a.trbase.toNat / 2 ^ 12 % 2 ^ 44 * 4096
    let bytes := (r.words ++ [BitVec.ofNat 64 (a.seq + 1)]).flatMap fun w => toBytes 8 w.toNat
    let s1 := ({ s with free := s.free + 1 } : State).moduleWrite al (base + 64 * (a.trtail.toNat % 2 ^ size)) bytes
    let s2 := s1.moduleWrite al (base + 64 * 2 ^ size) (toBytes 8 (a.trtail + 1).toNat)
    exec (.trapRecordAppend al) s =
      .next (s2.modAllot al fun x => { x with pendTraps := before ++ after, seq := a.seq + 1, trtail := a.trtail + 1 }))

/-- R136: the answers of TRES to a held group: it resumes at TPC (0) or TPC + 8 (1); its active lanes end (2); its launch ends
with the cause of the trap (3). The answer is consumed; a group of a frozen core stays as it is (R363). -/
def Sys2Proof.Claims.HoldAnswers : Prop :=
  ∀ (s : State) (al hold : Nat) (c : Ctx), s.heldGroup al hold = some c → s.gang? c.uid = some c.gang →
    c.gang.group? c.grp.low = some c.grp →
    let took := fun (n : Nat) => s.modAllot al fun a => { a with tres := a.tres.erase (hold, n) }
    let asked := fun (n : Nat) => (hold, n) ∈ (s.allot al).tres ∧ s.stopped c = false
    ((∀ i n, (i, n) ∈ [(Instr.tresResume al hold, 0), (.tresSkip al hold, 1), (.tresEndGroup al hold, 2), (.tresEndLaunch al hold, 3)] →
      (hold, n) ∈ (s.allot al).tres → s.stopped c = true → exec i s = .next (took n))) ∧
    (∀ i skip n, (i, skip, n) ∈ [(Instr.tresResume al hold, 0, 0), (.tresSkip al hold, 8, 1)] → asked n →
      ∃ t g', exec i s = .next t ∧ t.rest = (took n).rest ∧ OnlyGang s t c g' ∧ g'.data = c.gang.data ∧
        (SlicesAre c g' fun k =>
          let x := c.gang.slice k
          if k ∈ c.grp.slices then
            { x with
              pc := (c.grp.tpc.toNat + skip) % 2 ^ 64
              retc := x.retc + (if c.grp.owesHeld then BitVec.ofNat 64 (c.grp.slices.count k) else 0) }
          else x) ∧
        ∀ y ∈ g'.groups, y.low = c.grp.low → y.wait = .none) ∧
    (asked 2 → ∃ t g', exec (.tresEndGroup al hold) s = .next t.sweep ∧ t.rest = { (took 2).rest with blocks := t.blocks } ∧
      OnlyGang s t c g' ∧ g'.data = { c.gang.data with live := c.gang.live &&& ~~~c.lanes } ∧ g'.slices = c.gang.slices) ∧
    (asked 3 → exec (.tresEndLaunch al hold) s =
      .next ((took 3).endLaunch al c.blk.lid (c.grp.tcause.toNat % 64) 0))

/-- R12: a line load or store whose guard is false in every lane of its gang does not use its line register: whatever the states of
the register's references, opening and recalled ones among them, it completes and changes nothing. -/
def Obligations.UnguardedLineAccesses : Prop :=
  ∀ (s : State) (c : Ctx) (h : Hdr) (w : MemW) (d ln : Nat) (o : Src) (disp : BitVec 7),
    s.lanesFor c h = 0#32 →
    (Issues s c h (dataUses fD w d ++ (⟨fB, .ln ln⟩ : Use) :: o.uses fB false) →
      ∃ t g', exec (.ld h w d ln o disp) s = .next t ∧ Completed s (s.issuing c h) t c g' ∧ g'.data = c.gang.data) ∧
    (Issues s c h (dataUses fA w d ++ (⟨fB, .ln ln⟩ : Use) :: o.uses fB false) →
      ∃ t g', exec (.st h w d ln o disp) s = .next t ∧ Completed s (s.issuing c h) t c g' ∧ g'.data = c.gang.data)

/-- R68: `placeld`, `quota` and `fallow`, the full words of majors 0x150 to 0x152, run in the headland program of allotment 0 only: in any
other block such a word traps with 0x08 and runs nothing; there, one that decodes runs. -/
def Obligations.PrivilegedWords : Prop :=
  ∀ (s : State) (c : Ctx) (w : W64), w.getLsbD 62 = false → 0x150 ≤ w.toNat / 2 ^ 48 % 2 ^ 9 → w.toNat / 2 ^ 48 % 2 ^ 9 ≤ 0x152 →
    (¬ (c.blk.headland = true ∧ c.blk.al = 0) → s.decodeWord c w = .done (s.trapNow c w { cause := 0x08, fld := 1 } 0)) ∧
    (c.blk.headland = true → c.blk.al = 0 → ∀ i, decode w = .ok i → s.decodeWord c w = .run i s ∧
      ((∃ h pd sa sb, i = .placeld h pd sa sb) ∨ (∃ h pd sa sb, i = .quota h pd sa sb) ∨
        ∃ h pd sa, i ∈ [Instr.fallowHalt h pd sa, .fallowResume h pd sa, .fallowStart h pd sa, .fallowStop h pd sa]))

/-- Reference values of loads and stores (R86). -/
def Ref.loadWord (w : MemW) (byte : Nat → Byte) (j : Nat) : W32 :=
  match w with
  | .b8 => (byte 0).setWidth 32
  | .i8 => (byte 0).signExtend 32
  | .b16 => (byte 1 ++ byte 0 : BitVec 16).setWidth 32
  | .i16 => (byte 1 ++ byte 0 : BitVec 16).signExtend 32
  | _ => (byte (4 * j + 3) ++ byte (4 * j + 2) ++ byte (4 * j + 1) ++ byte (4 * j) : BitVec 32)

/-- R77 to R84: an open, in its five forms, whose addresses have passed their checks binds the reference of each slice with an
enabled lane to the line its lowest enabled lane names: the reference holds that address and the form, and an entry of the
line. An `openz` entry is empty. Nothing else of the gang changes, but where the line store is full the victim's frame is taken, and stores
and loads of it that were late perform (R83; assumption 78). pD is set in the enabled lanes whose address lies in their slice's line and clear in the
group's other live lanes; pF of `vopen` tells whether the line's group is fresh or its policy promises it. With no lane
enabled nothing is bound. -/
def Obligations.LineOpens : Prop :=
  ∀ (s u : State) (c : Ctx) (h : Hdr) (ln pd pf : Nat) (a : Src) (xs : List (Nat × OForm × Nat × Nat)) (i : Instr) (form : OForm)
    (us : List Use),
    let e := s.lanesFor c h
    let p := s.issuing c h
    let addr := fun l => (p.opVal c true ⟨a, none⟩ l).toNat
    let first := fun k => addr (lowLane (e &&& sliceMask k))
    (i, form, us) ∈ [(Instr.openR h ln pd a, OForm.openR, []), (.openw h ln pd a, .openw, []), (.openz h ln pd a, .openz, []),
      (.openInv h ln pd a, .openInv, []), (.vopen h ln pd pf a, .vopen, [⟨fM, .p pf⟩])] →
    Issues s c h ((⟨fD, .p pd⟩ : Use) :: a.uses fA true ++ [⟨fB, .ln ln⟩] ++ us) →
    (e = 0#32 → ∃ t g', exec i s = .next t ∧ Completed s p t c g' ∧ g'.data = c.gang.data) ∧
    (e ≠ 0#32 → p.acqPending c (slicesIn e) = false →
      checkAll c ln ((slicesIn e).map fun k => (k, form, first k)) p = .ok (xs, u) →
      ∃ t g', exec i s = .next t ∧ t.gang? c.uid = some g' ∧ SlicesAre c g' (s.passed c) ∧ TrapsKept c.gang g' ∧
        g'.data = { c.gang.data with
          p := g'.p, refs := g'.refs, lateStores := g'.lateStores, v := g'.v, busy := g'.busy, lateLoads := g'.lateLoads } ∧
        (∀ j k, k < 8 → (j ≠ ln ∨ k ∉ slicesIn e) → g'.ref j k = c.gang.ref j k) ∧
        (∀ k ∈ slicesIn e, (g'.ref ln k).addr = some (first k) ∧ (g'.ref ln k).form = form ∧ (g'.ref ln k).why = 0 ∧
          ((g'.ref ln k).st = .opened ∨ (g'.ref ln k).st = .opening)) ∧
        (∀ m l, l < 32 → (g'.p.get 0#32 m).getLsbD l =
          if form = .vopen ∧ m = pf ∧ pf ≠ 7 ∧ c.liveLanes.getLsbD l = true then
            e.getLsbD l && match (xs.find? fun x => x.1 == l / 4).bind fun x => u.viewOfData c.al (x.2.2.2 / 128 * 128) with
              | some (v, g, _) => v.policy != 0 || (decide (v.dueOf g ≤ v.tagOf g % 2 ^ 63) && v.tagOf g / 2 ^ 63 % 2 == 0)
              | none => false
          else if m = pd ∧ pd ≠ 7 ∧ c.liveLanes.getLsbD l = true then
            e.getLsbD l && addr l / 128 == first (l / 4) / 128
          else (c.gang.p.get 0#32 m).getLsbD l) ∧
        ((u.core c.core).entries.length + 8 ≤ 2048 → c.core < u.cores.length →
          OnlyGang s t c g' ∧ g'.data = { c.gang.data with p := g'.p, refs := g'.refs } ∧
          (if form = .vopen then
            t.rest = { u.rest with
              cores := t.rest.cores, allots := t.rest.allots, mem := t.mem, vers := t.vers, owners := t.owners, writes := t.writes
              tlb := t.tlb, met := t.met }
          else t.rest = { u.rest with cores := t.rest.cores, allots := t.rest.allots }) ∧
          ∀ k ∈ slicesIn e, ∃ en ∈ (t.core c.core).entries, (g'.ref ln k).entry = some en.id ∧ en.al = c.al ∧
            (form = .openz → en.data = 0 ∧ en.mask = 0) ∧ ∃ x ∈ xs, x.1 = k ∧ x.2.2.1 = first k ∧ en.line = x.2.2.2 / 128 * 128))

/-- R79, R80, R96, R386 to R390: the address of the lowest slice that acts is refused, with its slice, the address and the
rights asked for: above bit 55 (0x19); one of which no translation is cached, where the entry of its root table is not mapped (0x11) or stage
two does not map that table (0x17); a cached translation without the right in stage one (0x12) or stage two (0x18); a peer
page (0x1B); view storage opened for writing (0x12). That a missing right comes before the peer page is the model's choice (assumption 79). -/
def Sys2Proof.Claims.AddressChecks : Prop :=
  ∀ (s : State) (c : Ctx) (h : Hdr) (ln pd k : Nat) (ks : List Nat) (a : Src) (i : Instr) (wr : Bool),
    let e := s.lanesFor c h
    let p := s.issuing c h
    let va := (p.opVal c true ⟨a, none⟩ (lowLane (e &&& sliceMask k))).toNat
    let trap := fun (cause kind : Nat) => Host.Outcome.next (s.trapped c h { cause := cause, slice := k, kind := kind, info1 := va })
    let right := if wr then 2 else 1
    (i, wr) ∈ [(Instr.openR h ln pd a, false), (.openw h ln pd a, true), (.openz h ln pd a, true), (.openInv h ln pd a, false)] →
    Issues s c h ((⟨fD, .p pd⟩ : Use) :: a.uses fA true ++ [⟨fB, .ln ln⟩]) →
    slicesIn e = k :: ks → p.acqPending c (slicesIn e) = false →
    (2 ^ 56 ≤ va → exec i s = trap 0x19 0) ∧
    (va < 2 ^ 56 → (∀ x ∈ s.tlb, x.covers c.core c.al va = false) →
      let root := (s.allot c.al).pt1.toNat / 2 ^ 12 % 2 ^ 40 * 2 ^ 12
      (∀ q l, s.stageTwo c.al root = .ok (q, l) → (s.mem.read (q + 8 * (va / 2 ^ 48 % 2 ^ 8))).getLsbD 0 = false → exec i s = trap 0x11 right) ∧
      (s.stageTwo c.al root = .error 0x17 → exec i s = trap 0x17 right)) ∧
    (va < 2 ^ 56 → ∀ x, s.tlb.find? (fun x => x.covers c.core c.al va) = some x →
      let pa := x.pbase + va % x.size
      let one := x.r1 && (!wr || x.w1)
      let two := x.r2 && (!wr || x.w2)
      (one = false → exec i s = trap 0x12 right) ∧
      (one = true → two = false → exec i s = trap 0x18 right) ∧
      (one = true → two = true → wr = false ∨ x.dirty = true →
        (0x8000000000000 ≤ pa → pa < 0x10000000000000 → exec i s = trap 0x1B 0) ∧
        (pa < 0x8000000000000 → wr = true →
          (∃ b, b < 16 ∧ ∃ v ∈ (s.allot b).views, ∃ q ∈ v.storage, q.base ≤ pa ∧ pa < q.base + q.size) → exec i s = trap 0x12 2)))

/-- R92, R93, R94: `reopen` repeats the last form on the last address of every slice of the group that holds one, whatever its
lanes, and traps with 0x1C where none does; `close` closes the references of the slices with an enabled lane, which keep their
address and form; `lprobe` gives each enabled lane the status of its slice's reference, in which DIRTY counts the slice's own late stores
(assumption 78), and changes nothing else. -/
def Obligations.LineRegisters : Prop :=
  ∀ (s u : State) (c : Ctx) (h : Hdr) (d ln : Nat) (xs : List (Nat × OForm × Nat × Nat)),
    let e := s.lanesFor c h
    let p := s.issuing c h
    let held := c.grp.slices.filterMap fun k => (c.gang.ref ln k).addr.map fun (a : Nat) => (k, (c.gang.ref ln k).form, a)
    (Issues s c h [⟨fB, .ln ln⟩] →
      (e = 0#32 → ∃ t g', exec (.reopen h ln) s = .next t ∧ Completed s p t c g' ∧ g'.data = c.gang.data) ∧
      (e ≠ 0#32 → held = [] → exec (.reopen h ln) s = .next (s.trapped c h { cause := 0x1C, reg := ln })) ∧
      (e ≠ 0#32 → held ≠ [] → p.acqPending c (slicesIn e) = false → checkAll c ln held p = .ok (xs, u) →
        ∃ t g', exec (.reopen h ln) s = .next t ∧ t.gang? c.uid = some g' ∧ SlicesAre c g' (s.passed c) ∧ TrapsKept c.gang g' ∧
          g'.data = { c.gang.data with
            refs := g'.refs, lateStores := g'.lateStores, v := g'.v, busy := g'.busy, lateLoads := g'.lateLoads } ∧
          ((u.core c.core).entries.length + 8 ≤ 2048 → OnlyGang s t c g' ∧ g'.data = { c.gang.data with refs := g'.refs }) ∧
          (∀ n, (∀ x ∈ held, n ≠ 8 * ln + x.1) → g'.refs.get LRef.none n = c.gang.refs.get LRef.none n) ∧
          ∀ x ∈ held, (g'.ref ln x.1).addr = some x.2.2 ∧ (g'.ref ln x.1).form = x.2.1 ∧ (g'.ref ln x.1).why = 0 ∧
            ((g'.ref ln x.1).st = .opened ∨ (g'.ref ln x.1).st = .opening)) ∧
      ∃ t g', exec (.close h ln) s = .next t ∧ OnlyStore s t c.core ∧ OnlyGang s t c g' ∧ SlicesAre c g' (s.passed c) ∧
        TrapsKept c.gang g' ∧ g'.data = { c.gang.data with refs := g'.refs } ∧
        ∀ j k, k < 8 → g'.ref j k =
          if j = ln ∧ k ∈ slicesIn e then { c.gang.ref j k with st := .closed, entry := none } else c.gang.ref j k) ∧
    (Issues s c h ((Dst.v d).uses true ++ [⟨fB, .ln ln⟩]) →
      ∃ t g', exec (.lprobe h d ln) s = .next t ∧ Completed s p t c g' ∧ WroteD c.gang g' false true e (.v d) fun l =>
        let r := c.gang.ref ln (l / 4)
        let st := match r.st with | .closed => 0 | .opening => 1 | .opened => 2 | .recalled => 3
        let form := match r.form with | .openR => 0 | .openw => 1 | .openz => 2 | .openInv => 3 | .vopen => 4
        let late := fun (id : Nat) => c.gang.lateStores.any fun x => x.slices.contains (l / 4) && x.lanes.any fun y => y.1 == id
        let dirty := match r.entry.bind (p.entry? c.core) with | some en => en.mask != 0 || late en.id | none => false
        let shared := match r.entry with | some id => decide (1 < p.holders c.core id) | none => false
        BitVec.ofNat 64 (st + 2 ^ 2 * (form % 4) + 2 ^ 4 * dirty.toNat + 2 ^ 5 * shared.toNat + 2 ^ 6 * r.addr.isSome.toNat +
          2 ^ 7 * (r.addr.getD 0 / 128 % 2 ^ 49) + 2 ^ 56 * (r.why % 16) + 2 ^ 60 * (form / 4)))

/-- R86, R87, R2: `ld` in each enabled lane, once its slice's reference is open and its offset, which never wraps, keeps the
access inside the line and aligned: the register takes the bytes of its slice's line from the offset up, the lowest in its
low bits, extended as the form says; nothing else changes, but that late stores of the slices that meet these bytes come first
(R166; assumption 78). The bytes are those the entry holds, but where a launch has broken its promise of R85 on the line. A load
that performs after its word, which no `vopen` reference allows, leaves its registers pending (R178, R181; assumption 78). -/
def Sys2Proof.Claims.LineLoads : Prop :=
  ∀ (s p : State) (c : Ctx) (h : Hdr) (w : MemW) (d ln : Nat) (o : Src) (disp : BitVec 7) (os : List Opnd),
    let e := s.lanesFor c h
    let off := fun l => (p.opHead c os l).toNat + disp.toNat
    let q := p.meetLate c ln (lanesOf e) off (MemW.bytes w)
    let line := fun l => (q.refEntry c ln (l / 4)).data
    Issues s c h (dataUses fD w d ++ (⟨fB, .ln ln⟩ : Use) :: o.uses fB false) → s.operands c h [o] = .ok (os, p) →
    (∀ l ∈ lanesOf e, off l + MemW.bytes w ≤ 128 ∧ off l % MemW.bytes w = 0) →
    (∀ x ∈ c.gang.lateLoads, x.meets c ln (lanesOf e) off (MemW.bytes w) = false) →
    (e ≠ 0#32 → (∀ k ∈ slicesIn e, ((c.gang.ref ln k).st = .opened ∨ (c.gang.ref ln k).st = .opening) ∧ (c.gang.ref ln k).form ≠ .vopen) →
      s.loose 1 = true →
      ∃ t g' x, exec (.ld h w d ln o disp) s = .next t ∧ Completed s p t c g' ∧ g'.lateLoads = c.gang.lateLoads ++ [x] ∧
        x.slices = slicesIn e ∧ x.w = w ∧ x.d = d ∧ x.lanes = (lanesOf e).map (fun l => (l, ((c.gang.ref ln (l / 4)).entry.getD 0, off l))) ∧
        g'.data = { c.gang.data with
          busy := (List.range (MemW.regs w)).map (fun i => Reg.v (d + i)) ++ c.gang.busy, lateLoads := g'.lateLoads }) ∧
    ((∀ k ∈ slicesIn e, (c.gang.ref ln k).st = .opened) → s.loose 1 = false ∨ (∃ k ∈ slicesIn e, (c.gang.ref ln k).form = .vopen) →
    ∃ t g', exec (.ld h w d ln o disp) s = .next t ∧ Completed s q t c g' ∧
      g'.data = { c.gang.data with v := g'.v, lateStores := g'.lateStores } ∧ (c.gang.lateStores = [] → q = p) ∧
      (∀ m l, l < 32 → ¬ (e.getLsbD l = true ∧ d ≤ m ∧ m < d + MemW.regs w) → g'.vAt m l = c.gang.vAt m l) ∧
      ∀ j l, l ∈ lanesOf e → j < MemW.regs w →
        (∀ x, q.launch? c.al c.blk.lid = some x → (q.refEntry c ln (l / 4)).line ∉ x.inv) →
        g'.vAt (d + j) l = match w with
          | .b8 => ((line l).extractLsb' (8 * off l) 8).setWidth 32
          | .i8 => ((line l).extractLsb' (8 * off l) 8).signExtend 32
          | .b16 => ((line l).extractLsb' (8 * off l) 16).setWidth 32
          | .i16 => ((line l).extractLsb' (8 * off l) 16).signExtend 32
          | _ => (line l).extractLsb' (8 * off l + 32 * j) 32)

/-- R86, R87, R156, R82: `st` under the same conditions, through references opened for writing: byte i of each entry of the
core becomes the byte of the highest enabled lane that stores to it, is marked dirty and owed by the gang; every other byte of
every entry is as before, and memory is untouched. A store that performs late (R161; assumption 78) does so when it performs. -/
def Sys2Proof.Claims.LineStores : Prop :=
  ∀ (s p : State) (c : Ctx) (h : Hdr) (w : MemW) (a ln : Nat) (o : Src) (disp : BitVec 7) (os : List Opnd),
    let e := s.lanesFor c h
    let off := fun l => (p.opHead c os l).toNat + disp.toNat
    w ≠ .i8 → w ≠ .i16 →
    Issues s c h (dataUses fA w a ++ (⟨fB, .ln ln⟩ : Use) :: o.uses fB false) → s.operands c h [o] = .ok (os, p) →
    (∀ k ∈ slicesIn e, (c.gang.ref ln k).st = .opened ∧ ((c.gang.ref ln k).form = .openw ∨ (c.gang.ref ln k).form = .openz)) →
    (∀ l ∈ lanesOf e, off l + MemW.bytes w ≤ 128 ∧ off l % MemW.bytes w = 0) →
    (∀ x ∈ c.gang.lateLoads, x.meets c ln (lanesOf e) off (MemW.bytes w) = false) →
    ∃ t g', exec (.st h w a ln o disp) s = .next t ∧ OnlyStore p t c.core ∧ OnlyGang s t c g' ∧ TrapsKept c.gang g' ∧
      g'.data = { c.gang.data with stored := g'.stored, lateStores := g'.lateStores } ∧
      (SlicesAre c g' fun k => { s.passed c k with hash := (g'.slice k).hash }) ∧
      (s.loose 0 = true → t.rest = p.rest ∧ ∃ x, g'.lateStores = c.gang.lateStores ++ [x]) ∧
      let u := if s.loose 0 then t.performLate c.uid fun _ => true else t
      c.gang.lateStores = [] → ∀ id en, p.entry? c.core id = some en → ∃ en', u.entry? c.core id = some en' ∧
        en' = { en with data := en'.data, mask := en'.mask, owed := en'.owed, lid := en'.lid } ∧
        (en'.owed ≠ en.owed → c.uid ∈ en'.owed) ∧
        ∀ i, i < 128 →
          let at' := (lanesOf e).filter fun l => decide ((c.gang.ref ln (l / 4)).entry = some id ∧ off l ≤ i ∧ i < off l + MemW.bytes w)
          match at'.getLast? with
          | some l => en'.data.extractLsb' (8 * i) 8 = (p.readV c.gang (a + (i - off l) / 4) l).extractLsb' (8 * ((i - off l) % 4)) 8 ∧
              en'.mask.getLsbD i = true ∧ c.uid ∈ en'.owed
          | none => en'.data.extractLsb' (8 * i) 8 = en.data.extractLsb' (8 * i) 8 ∧ en'.mask.getLsbD i = en.mask.getLsbD i

/-- R87: the checks of a line access, in their order: the first slice, ascending, whose reference is closed (0x1A), recalled
(0x10, with the reason and the address) or, for a store, bound for reading (0x14) or as invariant (0x15); then, every reference
open, the first lane, ascending, whose access leaves the line (0x13) or is misaligned (0x16). While a reference is opening and
none is refused the access waits, but for the freedom of a load (assumption 78). -/
def Sys2Proof.Claims.LineAccessTraps : Prop :=
  ∀ (s p : State) (c : Ctx) (h : Hdr) (w : MemW) (r ln : Nat) (o : Src) (disp : BitVec 7) (os : List Opnd) (i : Instr) (store : Bool),
    let e := s.lanesFor c h
    let off := fun l => (p.opHead c os l).toNat + disp.toNat
    let bar := fun k => match (c.gang.ref ln k).st with
      | .closed => 0x1A
      | .recalled => 0x10
      | _ => if store then (match (c.gang.ref ln k).form with | .openR | .vopen => 0x14 | .openInv => 0x15 | _ => 0) else 0
    (i, store) ∈ [(Instr.ld h w r ln o disp, false), (.st h w r ln o disp, true)] →
    Issues s c h (dataUses (if store then fA else fD) w r ++ (⟨fB, .ln ln⟩ : Use) :: o.uses fB false) →
    s.operands c h [o] = .ok (os, p) → e ≠ 0#32 →
    (∀ before k after, slicesIn e = before ++ k :: after → (∀ j ∈ before, bar j = 0) → bar k ≠ 0 →
      exec i s = .next (s.trapped c h (if bar k = 0x10 then
          { cause := 0x10, reg := ln, slice := k, kind := (c.gang.ref ln k).why, info1 := (c.gang.ref ln k).addr.getD 0 }
        else { cause := bar k, reg := ln, slice := k }))) ∧
    ((∀ k ∈ slicesIn e, bar k = 0) → (∃ k ∈ slicesIn e, (c.gang.ref ln k).st = .opening) →
      store = true ∨ s.loose 1 = false ∨ (∃ k ∈ slicesIn e, (c.gang.ref ln k).form = .vopen) →
      ∃ t g', exec i s = .next t ∧ Moved s t c g' c.gang.slice ∧ g'.data = c.gang.data) ∧
    ((∀ k ∈ slicesIn e, bar k = 0 ∧ (c.gang.ref ln k).st = .opened) →
      ∀ before l after, lanesOf e = before ++ l :: after → (∀ j ∈ before, off j + MemW.bytes w ≤ 128 ∧ off j % MemW.bytes w = 0) →
        (128 < off l + MemW.bytes w → exec i s = .next (s.trapped c h { cause := 0x13, reg := ln, lane := l, info1 := off l })) ∧
        (off l + MemW.bytes w ≤ 128 → off l % MemW.bytes w ≠ 0 →
          exec i s = .next (s.trapped c h { cause := 0x16, reg := ln, lane := l, info1 := off l })))

/-- R76, R82, R83, R157, R173, R181: a fetched line that is whole arrives: its entry has arrived and, but for a view's data line, shows the
bytes that the home has, save those that a publish has copied into it meanwhile, and the home's version; the references of its core that
wait for it are open, nothing else changes but for loads that wait for it. A load that has been issued from an entry already there performs: its
registers take the entry's bytes and are pending no longer. The core writes back a victim's dirty bytes: the home's bytes under the mask take the entry's
values, every other byte of memory is as before, the line's version goes up by one, it belongs to the launch that stored last
(R138), and the entry stays, clean. -/
def Sys2Proof.Claims.LineStoreSteps : Prop :=
  ∀ (s : State) (core id : Nat) (en : Entry), s.entry? core id = some en →
    s.plat.draining = false →
    (en.arrived = false → en.wantDue = none → s.damaged en.line = false → (∀ g ∈ s.gangs, g.core = core → g.lateLoads = []) →
      ∃ t en', exec (.lineArrival core id) s = .next t ∧ OnlyStore s t core ∧ t.entry? core id = some en' ∧
        (en.version.isSome = true → en' = { en with arrived := true }) ∧
        (en.version = none → en' = { en with arrived := true, data := en'.data, version := some (s.version en.line) } ∧
          ∀ i, i < 128 → en'.data.extractLsb' (8 * i) 8 =
            if en.mask.getLsbD i then en.data.extractLsb' (8 * i) 8 else s.mem.read (en.line + i)) ∧
        (∀ j, j ≠ id → t.entry? core j = s.entry? core j) ∧
        ∀ g ∈ s.gangs, s.gang? g.uid = some g → ∃ g', t.gang? g.uid = some g' ∧ g' = { g with refs := g'.refs } ∧
          ∀ ln k, k < 8 → g'.ref ln k =
            if g.core = core ∧ (g.ref ln k).entry = some id ∧ (g.ref ln k).st = .opening then { g.ref ln k with st := .opened }
            else g.ref ln k) ∧
    (en.arrived = true → ∀ (g : Gang) (b : Block) (x : LateLoad), s.gangs = [g] → g.core = core → g.isOver = false → s.block? g.blk = some b →
      g.lateLoads = [x] → x.lanes ≠ [] → (∀ l ∈ x.lanes, l.2.1 = id) → (x.lanes.map (·.1)).Nodup →
      (∀ l, s.launch? b.al b.lid = some l → en.line ∉ l.inv) →
      ∃ t g', exec (.lineArrival core id) s = .next t ∧ t.rest = s.rest ∧ t.gangs = [g'] ∧
        g'.data = { g.data with v := g'.v, busy := g'.busy, lateLoads := [] } ∧ g'.slices = g.slices ∧ g'.groups = g.groups ∧
        (∀ r, r ∈ g'.busy ↔ r ∈ g.busy ∧ ∀ j, j < MemW.regs x.w → r ≠ .v (x.d + j)) ∧
        ∀ m l, l < 32 → g'.vAt m l = match x.lanes.find? fun y => y.1 == l with
          | some y => if g.live.getLsbD l = true ∧ x.d ≤ m ∧ m < x.d + MemW.regs x.w then
              Ref.loadWord x.w (fun i => en.data.extractLsb' (8 * (y.2.2 + i)) 8) (m - x.d) else g.vAt m l
          | none => g.vAt m l) ∧
    (s.holders core id = 0 → en.mask ≠ 0 →
      ∃ t, exec (.victimWriteback core id) s = .next t ∧
        t.rest = { s.rest with
          mem := t.mem, vers := t.vers, owners := t.owners, writes := t.writes, met := t.met, cores := t.rest.cores } ∧
        (s.damaged en.line = false → t.met = s.met) ∧ t.gangs = s.gangs ∧ t.owners.get 0 en.line = 1 + en.al + 16 * en.lid ∧
        t.entry? core id = some { en with mask := 0, owed := [] } ∧ (∀ j, j ≠ id → t.entry? core j = s.entry? core j) ∧
        (∀ a, t.mem.read a =
          if en.line ≤ a ∧ a < en.line + 128 ∧ en.mask.getLsbD (a - en.line) = true then en.data.extractLsb' (8 * (a - en.line)) 8
          else s.mem.read a) ∧
        ∀ n, t.version n = if n = en.line then s.version n + 1 else s.version n)

/-- Byte `j` of a lane's data in the registers from `a` up. -/
def Ref.dataByte (p : State) (c : Ctx) (a l j : Nat) : Byte := (p.readV c.gang (a + j / 4) l).extractLsb' (8 * (j % 4)) 8

/-- R190, R191, R192, R148: a scratchpad access, own or of a block that c.N names, whose lanes all lie in their target's rows,
is queued: one access for each slice and target row, with that slice's lanes, or the lowest lane alone for a uniform word; of the
lanes of a slice's store that write one byte the highest writes it; a load's registers are pending from then on. A load to `zero` discards what
it would give (R28), and one to a queue pushes bits 63:0 of its lowest lane's value (assumption 79 for the bits of a `b128` load), once the
earlier accesses of that lane's slice to the rows have performed. Nothing else changes but the counters, the numbers of accesses and, in a launch that hashes
its stores, the slices' hashes. -/
def Sys2Proof.Claims.ScratchAccesses : Prop :=
  ∀ (s p : State) (c : Ctx) (h : Hdr) (w : MemW) (r q : Nat) (n : BitVec 2) (pl : SPlace) (a : Src) (disp : BitVec 9) (os : List Opnd)
    (target : Nat → Option (Block × Nat)),
    let e := s.lanesFor c h
    let acting := if h.uni then [lowLane e] else lanesOf e
    let place := fun l => target ((p.opHead c os l).toNat + disp.toNat)
    let blk := fun l => match place l with | some (b, _) => b.uid | none => 0
    let off := fun l => match place l with | some (_, o) => o | none => 0
    let key := fun l => (l / 4, blk l, off l / 1024)
    let later := fun l i => acting.any fun m => decide (l < m ∧ m / 4 = l / 4 ∧ blk m = blk l ∧ off m ≤ i ∧ i < off m + MemW.bytes w)
    let queued := fun (t : State) (op : List Nat → SOp) => ∃ (new : List SAcc) (keys : List (Nat × Nat × Nat)), t.saccs = p.saccs ++ new ∧ keys.Nodup ∧
      (∀ k, k ∈ keys ↔ ∃ l ∈ acting, key l = k) ∧
      new.length = keys.length ∧ ∀ x k, (x, k) ∈ new.zip keys → x.gang = c.uid ∧ x.got = none ∧ x.slices = [k.1] ∧ x.blk = k.2.1 ∧
        x.op = op (acting.filter fun l => key l == k)
    let moved := fun (t : State) (g' : Gang) => t.rest = { p.rest with saccs := t.saccs, nextUid := t.nextUid } ∧ OnlyGang s t c g' ∧
      TrapsKept c.gang g'
    e ≠ 0#32 → s.operands c h [a] = .ok (os, p) → p.placeTarget c pl = .ok target →
    (∀ l ∈ acting, ∃ b o, place l = some (b, o) ∧ o + MemW.bytes w ≤ 1024 * b.k.scratch ∧ (b.k.guard && b.guardUp) = false) →
    (∀ i, (i, pl) ∈ [(Instr.lds h w (.v r) a disp, none), (.ldsr h w (.v r) n a disp, some n)] →
      Issues s c h (dataUses fD w r ++ a.uses fA false) →
      ∃ t g', exec i s = .next t.sweep ∧ moved t g' ∧ SlicesAre c g' (s.passed c) ∧
        g'.data = { c.gang.data with busy := (List.range (MemW.regs w)).map (fun i => Reg.v (r + i)) ++ c.gang.busy } ∧
        queued t fun ls => .load w r (ls.map fun l => (l, off l)) (if h.uni then c.gang.reach true e else 0#32)) ∧
    (∀ i, (i, pl) ∈ [(Instr.lds h w .zero a disp, none), (.ldsr h w .zero n a disp, some n)] → Issues s c h (a.uses fA false) →
      ∃ t g', exec i s = .next t.sweep ∧ Completed s p t c g' ∧ g'.data = c.gang.data) ∧
    (∀ i x xs b o u, (i, pl) ∈ [(Instr.lds h w (.q q) a disp, none), (.ldsr h w (.q q) n a disp, some n)] →
      Issues s c h (⟨fD, .q q⟩ :: a.uses fA false) → acting = x :: xs → place x = some (b, o) → p.block? b.uid = some b →
      let rows := [o / 1024, (o + MemW.bytes w - 1) / 1024]
      let word := fun j => if j < MemW.regs w then Ref.loadWord w (fun i => b.rows.get 0#8 (o + i)) j else 0
      b.away = [] →
      (∀ y ∈ p.saccs, y.gang = c.uid → x / 4 ∈ y.slices → y.blk = b.uid → y.got = none → ∀ k ∈ y.op.rows, k ∉ rows) →
      p.delivers c e (.q q) (word 1 ++ word 0) = .ok u →
      ∃ t g', exec i s = .next t.sweep ∧ Completed s u t c g' ∧ (u.gang? c.uid).map Gang.data = some g'.data) ∧
    (∀ i, (i, pl) ∈ [(Instr.sts h w a disp r, none), (.stsr h w n a disp r, some n)] →
      Issues s c h (a.uses fA false ++ dataUses fB w r) →
      ∃ t g', exec i s = .next t.sweep ∧ moved t g' ∧ g'.data = c.gang.data ∧
        (SlicesAre c g' fun k => { s.passed c k with hash := (g'.slice k).hash }) ∧
        queued t fun ls => .store (ls.flatMap fun l => ((List.range (MemW.bytes w)).map fun j =>
          (off l + j, Ref.dataByte p c r l j)).filter fun x => !later l x.1) [] true)

/-- R137, R188, R191: an enabled lane whose address has no target in its cluster, or leaves the target's rows (reason 1), or
meets a guarded block with no barrier word (reason 2), does not access: it is switched off, its bit of GFAULT is set, and the
first such lane of a gang leaves its reason and its number there. -/
def Sys2Proof.Claims.LanesSwitchedOff : Prop :=
  ∀ (s p : State) (c : Ctx) (h : Hdr) (w : MemW) (r : Nat) (a : Src) (disp : BitVec 9) (os : List Opnd) (i : Instr) (us : List Use)
    (l : Nat) (ls : List Nat) (b : Block),
    let e := s.lanesFor c h
    let acting := if h.uni then [lowLane e] else lanesOf e
    let beyond := fun l => decide (1024 * b.k.scratch < (p.opHead c os l).toNat + disp.toNat + MemW.bytes w)
    let bad := acting.filter fun l => beyond l || (b.k.guard && b.guardUp)
    e ≠ 0#32 → s.operands c h [a] = .ok (os, p) → p.block? c.blk.uid = some b → bad = l :: ls →
    (i, us) ∈ [(Instr.lds h w (.v r) a disp, dataUses fD w r ++ a.uses fA false), (.sts h w a disp r, a.uses fA false ++ dataUses fB w r)] →
    Issues s c h us →
    ∃ t g', exec i s = .next t.sweep ∧ OnlyGang s t c g' ∧
      (∀ m, m < 32 → g'.live.getLsbD m = (c.gang.live.getLsbD m && !bad.contains m)) ∧
      (∀ m, m < 32 → g'.gfault.getLsbD m = (c.gang.gfault.getLsbD m || bad.contains m)) ∧
      (c.gang.gfault.extractLsb' 32 2 = 0 → c.gang.gfault.extractLsb' 34 5 = 0 →
        g'.gfault.extractLsb' 32 2 = (if beyond l then 1 else 2) ∧ g'.gfault.extractLsb' 34 5 = BitVec.ofNat 5 l) ∧
      (c.gang.gfault.extractLsb' 32 2 ≠ 0 → g'.gfault.extractLsb' 32 32 = c.gang.gfault.extractLsb' 32 32)

/-- R192, R190, R35, R191, R194: the oldest queued access of its slices to a row of a target performs: a store writes its bytes into the rows, the
last of two to one byte standing, but those that a higher slice's part of the same word has written, which lower parts then leave alone; a raw
store that gives an aligned word a non-zero EXPECTED makes it a barrier word, other bytes do not (assumption 27); a load writes the live lanes of its registers from the rows, extended as its form says, a uniform one of a whole gang in every lane, and frees
its registers once no other access of its word is outstanding. -/
def Sys2Proof.Claims.ScratchPerforms : Prop :=
  ∀ (s : State) (a : SAcc) (b : Block) (before after : List SAcc),
    s.saccs = before ++ a :: after → s.block? a.blk = some b → b.rowAway a.op.rows = false → a.got = none → s.heldAcc a b = false →
    (∀ x ∈ before, x.id ≠ a.id ∧ (x.got = none → x.gang = a.gang → x.blk = a.blk → (∃ k ∈ x.slices, k ∈ a.slices) →
      ∀ r ∈ x.op.rows, r ∉ a.op.rows)) →
    let left := s.saccs.filter fun x => x.id != a.id
    (∀ bytes done raw, a.op = .store bytes done raw → ∃ (t : State) (b' : Block), exec (.scratchpadAccessPerform a.id) s = .next t.sweep ∧
      (∀ u, (t.gang? u).map (fun g => { g with seen := [] }) = (s.gang? u).map fun g => { g with seen := [] }) ∧
      t.rest = { s.rest with saccs := t.saccs, blocks := t.blocks } ∧ t.block? b.uid = some b' ∧
      (t.saccs = left.map fun x =>
        match x.op with
        | .store bs dn rw =>
          if x.inst = a.inst ∧ x.blk = a.blk ∧ x.slices.headD 0 < a.slices.headD 0 then { x with op := .store bs (bytes.map (·.1) ++ dn) rw } else x
        | _ => x) ∧
      b' = { b with rows := b'.rows, raws := b'.raws } ∧
      (∀ u, u ≠ b.uid → t.block? u = s.block? u) ∧
      (∀ n, b'.rows.get 0#8 n = match (bytes.filter fun x => x.1 == n && !done.contains n).getLast? with
        | some x => x.2
        | none => b.rows.get 0#8 n) ∧
      ∀ off, off % 8 = 0 → (off ∈ b'.raws ↔
        if ∃ x ∈ bytes, x.1 ∉ done ∧ (x.1 = off ∨ x.1 = off + 1) then
          raw = true ∧ ¬ (b'.rows.get 0#8 off = 0 ∧ b'.rows.get 0#8 (off + 1) = 0) ∧ ∀ r ∈ b.bars, r.off ≠ off
        else off ∈ b.raws)) ∧
    (∀ w d lanes uni g, a.op = .load w d lanes uni → s.gang? a.gang = some g → (lanes.map (·.1)).Nodup →
      let from' := fun l => if uni = 0#32 then (lanes.find? fun x => x.1 == l).map (·.2)
        else if uni.getLsbD l then lanes.head?.map (·.2) else none
      ∃ (t : State) (g' : Gang), exec (.scratchpadAccessPerform a.id) s = .next t.sweep ∧ t.rest = { s.rest with saccs := left } ∧ t.gang? a.gang = some g' ∧
        (∀ u, u ≠ a.gang → t.gang? u = s.gang? u) ∧
        g'.data = { g.data with v := g'.v, busy := g'.busy } ∧ g'.slices = g.slices ∧ g'.groups = g.groups ∧
        (∀ x, x ∈ g'.busy ↔ x ∈ g.busy ∧ ((∃ y ∈ left, y.inst = a.inst) ∨ ∀ j, j < MemW.regs w → x ≠ .v (d + j))) ∧
        ∀ m l, l < 32 → g'.vAt m l = match from' l with
          | some o => if (g.live.getLsbD l = true ∨ uni = BitVec.allOnes 32) ∧ d ≤ m ∧ m < d + MemW.regs w then
              Ref.loadWord w (fun i => b.rows.get 0#8 (o + i)) (m - d) else g.vAt m l
          | none => g.vAt m l)

/-- R193: `swz` adds B to A whose bits from G up are exchanged, by exclusive or, with the bits of A from P + 7 up, 7 - G of
them. -/
def Sys2Proof.Claims.SwizzledOffsets : Prop :=
  ∀ (h : Hdr) (d : Dst) (a b : Src) (g p : Nat), g ≤ 7 →
    LaneResult (.swz h d a b g p) h [(a, false), (b, false)] [] d false fun _ _ _ xs =>
      let x : BitVec 32 := (arg xs 0).setWidth 32
      ((x ^^^ (((x >>> (p + 7)) &&& (BitVec.ofNat 32 (2 ^ (7 - g) - 1))) <<< g)) + (arg xs 1).setWidth 32).setWidth 64

/-- R194, R195, R196, R198 to R200: `bar.init` and `bar.arr` at a word of the rows that holds no error. The first sets the count,
no arrivals, the lanes of its set that have ended and keeps the generation; it forgets the arrivals, and with a count it lifts
the scratch guard. The second, once its publish has been made, counts the acting lanes and records them; where the count is then
complete the generation advances, arrivals start again and deferred deductions count. One arrival too many traps with 0x31, a
local word that is not initialised with 0x30, as does a misaligned or outside word; the rows then stay as they were. -/
def Sys2Proof.Claims.BarrierWords : Prop :=
  ∀ (s p : State) (c : Ctx) (h : Hdr) (a : Src) (os : List Opnd) (b : Block),
    let e := s.lanesFor c h
    let o := (p.opHead c os (lowLane e)).toNat
    let acting := if h.uni then [lowLane e] else lanesOf e
    let only := fun (t : State) (b' : Block) => t.block? b.uid = some b' ∧ b' = { b with rows := b'.rows, bars := b'.bars, guardUp := b'.guardUp, raws := b'.raws } ∧
      ∀ u, u ≠ b.uid → t.block? u = p.block? u
    let elsewhere := fun (b' : Block) (off : Nat) => (∀ m, m < off ∨ off + 8 ≤ m → b'.rows.get 0#8 m = b.rows.get 0#8 m) ∧
      ∀ j, j ≠ off → b'.bar j = b.bar j
    e ≠ 0#32 → p.outstanding c.uid (slicesIn e) true = false →
    (p.block? c.blk.uid = some b → o % 8 = 0 → o + 8 ≤ 1024 * b.k.scratch →
      let ended := fun (cl : Bool) => ((if cl then p.clusterOf b else [b]).map fun x =>
        x.threads - ((p.gangs.filter fun g => g.blk == x.uid).map fun g => (lanesOf g.live).length).sum).sum
      let made := fun (i : Instr) (cl : Bool) (n : Nat) => ∃ t g' b', exec i s = .next t ∧ Completed s { p with blocks := t.blocks } t c g' ∧
        g'.data = c.gang.data ∧ only t b' ∧ elsewhere b' o ∧ b'.bar o = { b.bar o with off := o, cl := cl, arr := [], deferred := 0 } ∧ b'.guardUp = (b.guardUp && n == 0) ∧
        b'.word o = n + 2 ^ 32 * (b.word o / 2 ^ 32 % 2 ^ 16) + 2 ^ 48 * (ended cl % 2 ^ 16)
      (∀ cl n, Issues s c h (a.uses fA false) → s.operands c h [a] = .ok (os, p) → made (.barInit h cl a (.imm n)) cl n.toNat) ∧
      (∀ cl k ka kb, Issues s c h (a.uses fA false ++ k.uses fB false) → s.operands c h [a, k] = .ok (os, p) → os = [ka, kb] →
        made (.barInit h cl a (.reg k)) cl ((p.opVal c false kb (lowLane e)).toNat % 2 ^ 16))) ∧
    (∀ (sc : Scope) (pl : SPlace) (target : Nat → Option (Block × Nat)) (off : Nat), Issues s c h (a.uses fA false) →
      s.operands c h [a] = .ok (os, p) → p.placeTarget c pl = .ok target → target o = some (b, off) → p.block? b.uid = some b →
      let trap := fun (i : Instr) => exec i s = .next (s.trapped c h { cause := 0x30, lane := lowLane e, info1 := o })
      let b1 := b.nameBar off
      let w := b1.word off
      let exp := w % 2 ^ 16
      let arr := w / 2 ^ 16 % 2 ^ 16
      let gen := w / 2 ^ 32 % 2 ^ 16
      let ded := w / 2 ^ 48 % 2 ^ 16
      let sum := arr + acting.length + ded
      (off % 8 ≠ 0 ∨ 1024 * b.k.scratch < off + 8 → trap (.barArr h sc pl a) ∧ trap (.barWait h sc pl a)) ∧
      (off % 8 = 0 → off + 8 ≤ 1024 * b.k.scratch →
        (exp = 0 → pl = none → trap (.barArr h sc pl a) ∧ trap (.barWait h sc pl a)) ∧
        (∀ q, exp ≠ 0 → (pl.isSome && b.rowAway [off / 1024]) = false →
          (p.performLate c.uid (LateStore.of (slicesIn e))).publish c sc (slicesIn e) = .ok q →
          (exp < sum → ∃ u : State, u.blocks = s.blocks ∧ exec (.barArr h sc pl a) s =
            .next (u.trapNow c u.word { cause := 0x31, lane := lowLane e, info1 := o } (lanesOf e).length)) ∧
          (sum ≤ exp → ∃ t g' b', exec (.barArr h sc pl a) s = .next t ∧ Completed s { q with blocks := t.blocks } t c g' ∧
            g'.data = { c.gang.data with stored := g'.stored, lateStores := g'.lateStores } ∧ only t b' ∧ elsewhere b' off ∧
            (∀ l ∈ acting, ⟨c.uid, l, gen, decide (sum < exp)⟩ ∈ (b'.bar off).arr) ∧
            (b'.bar off).deferred = (if sum < exp then (b1.bar off).deferred else 0) ∧
            (b'.bar off).adv = (b1.bar off).adv + (if sum < exp then 0 else 1) ∧
            (b'.bar off).gen = (if sum < exp then (b1.bar off).gen else (gen + 1) % 2 ^ 16) ∧
            b'.word off = if sum < exp then exp + 2 ^ 16 * (arr + acting.length) + 2 ^ 32 * gen + 2 ^ 48 * ded
              else exp + 2 ^ 32 * ((gen + 1) % 2 ^ 16) + 2 ^ 48 * ((ded + (b1.bar off).deferred) % 2 ^ 16)))))

/-- R196, R121: a participant lane that ends is deducted at once from an initialised word of its block, and completes the
generation where it was the last one missing; where the lane has arrived in the present generation, the deduction is deferred. A
word that a raw store has initialised and no barrier instruction has named is deducted at the same moment, for any thread of its block
(R195; assumption 27 for which words those are); the first instruction that names it finds its bytes as they stand. -/
def Sys2Proof.Claims.EndedLanesAreDeducted : Prop :=
  (∀ (b : Block) (off : Nat),
    let b' := b.nameBar off
    ((∃ r ∈ b.bars, r.off = off) → b' = b) ∧
    ((∀ r ∈ b.bars, r.off ≠ off) →
      b' = { b with bars := b'.bars, raws := b'.raws } ∧ b'.bar off = ⟨off, false, [], 0, 0, 0, 0⟩ ∧
        (∀ j, j ≠ off → b'.bar j = b.bar j) ∧ ∀ j, j ∈ b'.raws ↔ j ∈ b.raws ∧ j ≠ off)) ∧
  (∀ (b : Block) (off : Nat), b.raws = [off] →
    let w := b.word off
    let b' := b.deductRaws 1
    let exp := w % 2 ^ 16
    let arr := w / 2 ^ 16 % 2 ^ 16
    let gen := w / 2 ^ 32 % 2 ^ 16
    let ded := w / 2 ^ 48 % 2 ^ 16
    b' = { b with rows := b'.rows } ∧ (∀ m, m < off ∨ off + 8 ≤ m → b'.rows.get 0#8 m = b.rows.get 0#8 m) ∧
    (exp ≠ 0 → ded + 1 < 2 ^ 16 →
      b'.word off = if arr + ded + 1 < exp then exp + 2 ^ 16 * arr + 2 ^ 32 * gen + 2 ^ 48 * (ded + 1)
        else exp + 2 ^ 32 * ((gen + 1) % 2 ^ 16) + 2 ^ 48 * (ded + 1))) ∧
  ∀ (b : Block) (gang lane : Nat) (r : BarRec), b.bars = [r] → r.off + 8 ≤ 1024 * b.k.scratch →
    let w := b.word r.off
    let b' := b.deductLane true gang lane
    let exp := w % 2 ^ 16
    let arr := w / 2 ^ 16 % 2 ^ 16
    let gen := w / 2 ^ 32 % 2 ^ 16
    let ded := w / 2 ^ 48 % 2 ^ 16
    let arrived := ∃ x ∈ r.arr, x.gang = gang ∧ x.lane = lane ∧ x.cur = true ∧ x.gen = gen
    (exp = 0 → b' = b) ∧
    (exp ≠ 0 → arrived → b'.rows = b.rows ∧ (b'.bar r.off).deferred = r.deferred + 1) ∧
    (exp ≠ 0 → ¬ arrived → ded + 1 < 2 ^ 16 →
      b'.word r.off = if arr + ded + 1 < exp then exp + 2 ^ 16 * arr + 2 ^ 32 * gen + 2 ^ 48 * (ded + 1)
        else exp + 2 ^ 32 * ((gen + 1) % 2 ^ 16) + 2 ^ 48 * ((ded + 1 + r.deferred) % 2 ^ 16))

/-- R201, R202, R123, R158: `bar.wait` goes on where every enabled lane's generation has passed and earlier accesses have
performed, and acquires; where they have not performed it waits, and where a lane has not passed its group parks with the
generations it waits for, 2^16 standing for one that has passed, and the count of the word's advances. `bar.try` with limit 0 tells
each lane at once; with another limit it parks until that many virtual cycles from now, for ever with all ones; a remote word
without `bar.init` clears pD. `tryw` parks with the versions its slices' frames show. -/
def Sys2Proof.Claims.WaitingWords : Prop :=
  ∀ (s p : State) (c : Ctx) (h : Hdr) (a lim : Src) (os : List Opnd) (b : Block) (sc : Scope) (pl : SPlace) (pd off ln : Nat)
    (target : Nat → Option (Block × Nat)),
    let e := s.lanesFor c h
    let o := (p.opHead c os (lowLane e)).toNat
    let b1 := b.nameBar off
    let gen := b1.word off / 2 ^ 32 % 2 ^ 16
    let goal := fun l => match (b1.bar off).arr.find? fun x => x.gang == c.uid && x.lane == l with
      | some x => x.gen
      | none => gen
    let busy := p.outstanding c.uid (slicesIn e) true
    let all := ∀ l ∈ lanesOf e, goal l ≠ gen
    let goals := (lanesOf e).map fun l => (l, if goal l ≠ gen then 2 ^ 16 else goal l)
    let adv := (b1.bar off).adv
    let q := p.performLate c.uid (LateStore.of (slicesIn e))
    let parks := fun (u : State) (i : Instr) (w : Wait) => ∃ t g', exec i s = .next t ∧
      Moved { u with blocks := t.blocks } t c g' (s.passing c) ∧
      g'.data = { c.gang.data with lateStores := g'.lateStores } ∧ Parked c g' w
    let waits := fun (i : Instr) => ∃ t g', exec i s = .next t ∧ Moved s t c g' c.gang.slice ∧ g'.data = c.gang.data
    let until' := fun (limit : W64) => if limit.toNat = 0xFFFFFFFF then none else some ((s.allot c.al).vclk.toNat + limit.toNat)
    e ≠ 0#32 →
    (p.placeTarget c pl = .ok target → target o = some (b, off) → off % 8 = 0 → off + 8 ≤ 1024 * b.k.scratch →
      (pl.isSome && b.rowAway [off / 1024]) = false →
      (Issues s c h (a.uses fA false) → s.operands c h [a] = .ok (os, p) → b.word off % 2 ^ 16 ≠ 0 →
        (all → busy = false → ∃ t g', exec (.barWait h sc pl a) s = .next t ∧ OnlyGang s t c g' ∧ SlicesAre c g' (s.passed c) ∧
          TrapsKept c.gang g' ∧ g'.data = { c.gang.data with
            floor := if Scope.far sc then s.turn else c.gang.floor, lateStores := g'.lateStores } ∧
          t.rest = { p.rest with blocks := t.blocks, cores := t.rest.cores }) ∧
        (all → busy = true → waits (.barWait h sc pl a)) ∧
        (¬ all → parks q (.barWait h sc pl a) (.barWait ⟨b.uid, off⟩ e goals sc adv pl.isSome))) ∧
      (∀ oa ol, Issues s c h ((⟨fD, .p pd⟩ : Use) :: a.uses fA false ++ lim.uses fB false) → s.operands c h [a, lim] = .ok (os, p) →
        os = [oa, ol] →
        let limit := p.opVal c false ol (lowLane e)
        let tells := fun (f : Nat → Bool) => ∃ t g', exec (.barTry h sc pl pd a lim) s = .next t ∧ OnlyGang s t c g' ∧
          SlicesAre c g' (s.passed c) ∧ TrapsKept c.gang g' ∧ WroteP c.gang g' pd e f ∧
          g'.data = { c.gang.data with p := g'.p, floor := g'.floor, lateStores := g'.lateStores } ∧
          t.rest = { p.rest with blocks := t.blocks, cores := t.rest.cores }
        (pl.isSome = true → b.word off % 2 ^ 16 = 0 → tells fun _ => false) ∧
        (b.word off % 2 ^ 16 ≠ 0 →
          (limit = 0 → busy = false ∨ (∀ l ∈ lanesOf e, goal l = gen) → tells fun l => goal l != gen) ∧
          (busy = true → (limit = 0 ∧ ∃ l ∈ lanesOf e, goal l ≠ gen) ∨ (limit ≠ 0 ∧ all) → waits (.barTry h sc pl pd a lim)) ∧
          (limit ≠ 0 → all → busy = false → tells fun _ => true) ∧
          (limit ≠ 0 → ¬ all → parks q (.barTry h sc pl pd a lim) (.barTry ⟨b.uid, off⟩ e goals sc adv pd (until' limit)))))) ∧
    (Issues s c h ((⟨fD, .p pd⟩ : Use) :: a.uses fA false ++ [⟨fM, .ln ln⟩]) → s.operands c h [a] = .ok (os, p) →
      (∀ k ∈ slicesIn e, (c.gang.ref ln k).st = .opened) →
      parks p (.tryw h pd ln a) (.tryw pd ln e ((slicesIn e).map fun k => (k, match (p.refEntry c ln k).version with
        | some v => v
        | none => p.version (p.refEntry c ln k).line)) (until' (p.opHead c os (lowLane e)))))

/-- R123, R202: the end of a `tryw`'s or a `bar.try`'s limit: the group goes on; pD is written in the lanes still live, set where
the slice's line has a newer version, or where an advance of the word since the group parked has released the lane (R194). The word then retires (R370). Before the limit, and while the
core has frozen or the allotment does not run (R346, R363), nothing happens. -/
def Sys2Proof.Claims.LimitsExpire : Prop :=
  ∀ (s : State) (k : GroupKey) (c : Ctx), s.ctx k = some c → c.sole →
    let stays := fun (i : Instr) => exec i s = .next s
    let ends := fun (i : Instr) (pd : Nat) (e : LaneMask) (f : Nat → Bool) => ∃ t g', exec i s = .next t ∧ OnlyGang s t c g' ∧
      SlicesAre c g' c.waited ∧ (c.grp.sw = false → Parked c g' .none) ∧ WroteP c.gang g' pd (e &&& c.gang.live) f ∧ t.mem = s.mem ∧ t.blocks = s.blocks
    (∀ pd ln e vers d, c.grp.wait = .tryw pd ln e vers (some d) →
      ((s.allot c.al).vclk.toNat < d ∨ s.still c = true → stays (.trywTimeout k)) ∧
      (d ≤ (s.allot c.al).vclk.toNat → s.still c = false → ends (.trywTimeout k) pd e fun l =>
        vers.any fun x => x.1 == l / 4 && (c.gang.ref ln x.1).entry.isSome && decide (x.2 < s.version (s.refEntry c ln x.1).line))) ∧
    (∀ w e ts sc adv pd d b, c.grp.wait = .barTry w e ts sc adv pd (some d) → s.block? w.blk = some b →
      ((s.allot c.al).vclk.toNat < d ∨ s.still c = true → stays (.barTryTimeout k)) ∧
      (d ≤ (s.allot c.al).vclk.toNat → s.still c = false → s.outstanding c.uid (slicesIn e) true = false →
        ends (.barTryTimeout k) pd e fun l => ts.any fun x => x.1 == l &&
          (x.2 == 2 ^ 16 || adv < (b.bar w.off).adv && (adv < (b.bar w.off).run || (b.bar w.off).gen != x.2))))

/-- R159, R213, R157, R158, R156, R8: `fence`, `pub` and `acq` wait while an earlier access of their slices has not performed, and
then complete. A publish at field scope or wider writes back every entry that the gang owes; an entry it alone owes puts its dirty
bytes, and no other byte, into memory. A narrower one leaves memory alone. An acquire at field scope or wider moves the gang's
floor, so that no line bound earlier serves a later open unconfirmed, and makes what no reference holds stale. The slices' stores
that were late perform first (assumption 78). A fence of gang scope or wider is an ordering point of the slices with an enabled lane and of no
other (R161, R213). A publish of one turn is stated here; one that takes its write-backs one turn at a
time (assumption 78), waits for the routes (R380) or for a harrow's queue (R267) has not completed. -/
def Obligations.OrderingWords : Prop :=
  ∀ (s : State) (c : Ctx) (h : Hdr) (sc : Scope), Issues s c h [] →
    let e := s.lanesFor c h
    let p := s.issuing c h
    let owes := fun (en : Entry) => en.owed.contains c.uid && en.mask != 0
    let q := p.performLate c.uid (LateStore.of (slicesIn e))
    let late := fun (g' : Gang) => { c.gang.data with lateStores := g'.lateStores }
    (c.gang.lateStores = [] → q = p) ∧
    (p.outstanding c.uid (slicesIn e) true = true → ∀ i ∈ [Instr.fence h sc, .pub h sc, .acq h sc],
      ∃ t g', exec i s = .next t ∧ Moved s t c g' c.gang.slice ∧ g'.data = c.gang.data) ∧
    (p.outstanding c.uid (slicesIn e) true = false →
      (∃ t g', exec (.fence h sc) s = .next t ∧ Completed s q t c g' ∧ g'.data = late g' ∧
        (c.gang.lateStores = [] → ∀ k, k < 8 →
          let x := c.gang.seenOf k
          let m := Nat.max x.last x.heard
          g'.seenOf k = if k ∈ slicesIn e ∧ Scope.gang.code ≤ sc.code then { x with last := m, ord := m } else x)) ∧
      (∃ t g', exec (.acq h sc) s = .next t ∧ OnlyStore s t c.core ∧ OnlyGang s t c g' ∧ SlicesAre c g' (s.passed c) ∧
        TrapsKept c.gang g' ∧ g'.data = { late g' with
          floor := if Scope.far sc = true ∧ e ≠ 0#32 then s.turn else c.gang.floor
        } ∧
        ∀ id en, q.entry? c.core id = some en → t.entry? c.core id = some { en with
          stale := en.stale || (Scope.far sc && e != 0#32 && !en.inv && p.holders c.core id == 0) }) ∧
      (e = 0#32 → ∃ t g', exec (.pub h sc) s = .next t ∧ Completed s p t c g' ∧ g'.data = c.gang.data) ∧
      (e ≠ 0#32 → Scope.far sc = false → s.entered (publisher c.uid c.grp.low) = true →
        ∃ t g', exec (.pub h sc) s = .next t ∧ OnlyStore s t c.core ∧ OnlyGang s t c g' ∧ SlicesAre c g' (s.passed c) ∧
          TrapsKept c.gang g' ∧ g'.data = late g') ∧
      (e ≠ 0#32 → Scope.far sc = true → s.entered (publisher c.uid c.grp.low) = true → (∀ a, (s.allot a).views = []) → s.plat.draining = false →
        s.loose 3 = false →
        ∃ t g', exec (.pub h sc) s = .next t ∧ OnlyGang s t c g' ∧ SlicesAre c g' (s.passed c) ∧ TrapsKept c.gang g' ∧
          g'.data = { late g' with stored := [] } ∧
          t.rest = { s.rest with
            mem := t.mem, vers := t.vers, owners := t.owners, writes := t.writes, met := t.met, cores := t.rest.cores } ∧
          (∀ id en, q.entry? c.core id = some en → owes en = true → t.entry? c.core id = some { en with mask := 0, owed := [] }) ∧
          (∀ en, (q.core c.core).entries.filter owes = [en] → q.entry? c.core en.id = some en → ∀ a, t.mem.read a =
            if en.line ≤ a ∧ a < en.line + 128 ∧ en.mask.getLsbD (a - en.line) = true then en.data.extractLsb' (8 * (a - en.line)) 8
            else s.mem.read a)))

/-- R8, R91, R120, R123, R201, R211, R283, R134: a parked group's turn. One that waits at a barrier goes on, and acquires, once
each of its live lanes has been released, by an advance of the word since it parked to a generation that the lane does not wait past (R194,
R206), whatever raw stores have made of the word, and its earlier accesses have performed; one that watches lines once a newer
version is there or a reference has been recalled; one at the limit of outstanding atomics once it is below it. Until then, and
while it waits for a `regang`, a resample or an answer to a hold, its turn changes nothing; nor does the turn of a group that does
not run. The word in which it waited retires when it goes on (R370). -/
def Sys2Proof.Claims.ParkedGroups : Prop :=
  ∀ (s : State) (k : GroupKey) (lax : Nat) (rest : List Turn) (c : Ctx), s.plat.poweredDown = false → s.met = [] →
    s.agenda = ⟨0, .issue k, lax⟩ :: rest →
    let s1 := { s with agenda := rest, turn := s.turn + 1, free := s.free + 1, lax := lax }
    s1.ctx k = some c → c.sole →
    let stays := step s = .next s1
    let goes := ∃ t g', step s = .next t ∧ OnlyGang s t c g' ∧ SlicesAre c g' c.waited ∧ t.mem = s.mem ∧
      (c.grp.sw = false → Parked c g' .none)
    (c.grp.wait ≠ .none → s1.runs c = false → stays) ∧ (s1.runs c = true →
    (∀ w e ts sc adv remote b, c.grp.wait = .barWait w e ts sc adv remote → s.block? w.blk = some b →
      let ready := (∀ l, l < 32 → e.getLsbD l = true → c.gang.live.getLsbD l = true →
          ∃ x ∈ ts, x.1 = l ∧ (x.2 = 2 ^ 16 ∨
            (adv < (b.bar w.off).adv ∧ (adv < (b.bar w.off).run ∨ (b.bar w.off).gen ≠ x.2)))) ∧
        (remote && b.rowAway [w.off / 1024]) = false ∧ s.outstanding c.uid (slicesIn e) true = false
      (ready → goes) ∧ (¬ ready → stays)) ∧
    (∀ pd ln e vers d, c.grp.wait = .tryw pd ln e vers d →
      let ready := (∃ x ∈ vers, (c.gang.ref ln x.1).entry.isSome = true ∧ x.2 < s.version (s.refEntry c ln x.1).line) ∨
        ∃ k ∈ slicesIn e, (c.gang.ref ln k).st = .recalled
      (ready → goes) ∧ (¬ ready → stays)) ∧
    (∀ isAtom, c.grp.wait = .limit isAtom →
      (s.atomsOut c.uid isAtom < (if isAtom then 4 else 16) → goes) ∧
      ((if isAtom then 4 else 16) ≤ s.atomsOut c.uid isAtom → stays)) ∧
    ((c.grp.wait = .regang ∨ (∃ pd, c.grp.wait = .resamp pd) ∨ ∃ n, c.grp.wait = .held n) → stays))

namespace Sys2Proof.Machine

/-- What an atomic stores and whether it succeeds, on values of its width (R208). -/
def Ref.atomic {w : Nat} (op : AOp) (signed : Bool) (old b c : BitVec w) : BitVec w × Bool :=
  let lt := if signed then old.slt b else old.ult b
  match op with
  | .add => (old + b, false)
  | .addb => if old.toNat + b.toNat < 2 ^ w ∧ old.toNat + b.toNat ≤ c.toNat then (old + b, true) else (old, false)
  | .incw => (if c.ule old then 0 else old + 1, false)
  | .decw => (if old = 0 ∨ c.ult old then c else old - 1, false)
  | .min => (if lt then old else b, false)
  | .max => (if lt then b else old, false)
  | .and => (old &&& b, false)
  | .or => (old ||| b, false)
  | .xor => (old ^^^ b, false)
  | .exch => (b, false)
  | .cas => if old = c then (b, true) else (old, false)
  | .fadd => ((fAdd .rne (old.setWidth 32) (b.setWidth 32)).setWidth w, false)

end Sys2Proof.Machine

/-- R207, R209, R211, R160: `atom` and `red` whose acting lanes have passed their checks: once the earlier scratchpad accesses
have performed and the contained publish is made, each acting lane (the lowest alone for a uniform word) has one request on its
way, in ascending order, with its address, its operands, the operation, the type and the scope; the registers of an `atom` are
pending. A uniform one of a whole gang reaches every lane (R35). A gang with 4 `atom` or 16 `red` outstanding parks, and the word issues again later. -/
def Sys2Proof.Claims.AtomicWords : Prop :=
  ∀ (s p u : State) (c : Ctx) (h : Hdr) (sc : Scope) (op : AOp) (t : ATy) (d pd : Nat) (a b k : Src) (oa ob ok : Opnd)
    (xs : List (Nat × Nat × Nat)) (i : Instr) (isAtom : Bool),
    let e := s.lanesFor c h
    let acting := if h.uni then [lowLane e] else lanesOf e
    let addr := fun l => (p.opVal c true oa l).toNat
    let wide := t == .n64 || t == .i64
    let dst : List Use := if isAtom then (Dst.v d).uses wide ++ [⟨fM, .p pd⟩] else []
    (i, isAtom) ∈ [(Instr.atom h sc op t d pd a b k, true), (.red h sc op t a b k, false)] →
    Issues s c h (dst ++ a.uses fA true ++ b.uses fB wide ++ k.uses fC wide) → e ≠ 0#32 →
    s.operands c h [a, b, k] = .ok ([oa, ob, ok], p) → checkAtomics c sc t addr acting p = .ok (xs, u) →
    ((if isAtom then 4 else 16) ≤ u.atomsOut c.uid isAtom →
      ∃ t' g', exec i s = .next t' ∧ t'.rest = s.rest ∧ OnlyGang s t' c g' ∧ g'.data = c.gang.data ∧ g'.slices = c.gang.slices ∧
        Parked c g' (.limit isAtom)) ∧
    (∀ q, u.atomsOut c.uid isAtom < (if isAtom then 4 else 16) → u.outstanding c.uid (slicesIn e) false = false →
      (u.performLate c.uid (LateStore.of (slicesIn e))).publish c sc (slicesIn e) = .ok q →
      ∃ t' g' new, exec i s = .next t' ∧ Completed s { q with reqs := t'.reqs, nextUid := t'.nextUid } t' c g' ∧
        g'.data = { c.gang.data with
          stored := g'.stored
          lateStores := g'.lateStores
          busy := (if isAtom then (Reg.v d :: (if wide then [.v (d + 1)] else [])) ++ (if pd = 7 then [] else [.p pd]) else []) ++
            c.gang.busy
        } ∧
        t'.reqs = q.reqs ++ new ∧ new.map (·.lane) = acting ∧ new.Pairwise (fun x y => x.id < y.id ∧ x.inst = y.inst) ∧
        ∀ r ∈ new, r.gang = c.uid ∧ r.al = c.al ∧ r.slice = r.lane / 4 ∧ r.lanes = (if h.uni then c.gang.reach true e else e) ∧ r.isAtom = isAtom ∧ r.op = op ∧ r.ty = t ∧
          r.sc = sc ∧ r.vaddr = addr r.lane ∧ (r.lane, r.vaddr, r.addr) ∈ xs ∧ r.b = p.opVal c wide ob r.lane ∧
          r.c = p.opVal c wide ok r.lane ∧ (isAtom = true → r.d = d ∧ r.p = pd))

/-- R209: the lowest acting lane of an atomic is refused: view storage (0x12), a peer page at a scope narrower than system
(0x1B), an address that is no multiple of the width (0x33); no request leaves. -/
def Sys2Proof.Claims.AtomicTraps : Prop :=
  ∀ (s p u : State) (c : Ctx) (h : Hdr) (sc : Scope) (op : AOp) (t : ATy) (d pd : Nat) (a b k : Src) (oa ob ok : Opnd) (pa : Nat)
    (i : Instr) (dst : List Use),
    let e := s.lanesFor c h
    let l := lowLane e
    let va := (p.opVal c true oa l).toNat
    let wide := t == .n64 || t == .i64
    let trap := fun (x : TrapInfo) => exec i s = .next (s.trapped c h x)
    (i, dst) ∈ [(Instr.atom h sc op t d pd a b k, (Dst.v d).uses wide ++ [⟨fM, .p pd⟩]), (.red h sc op t a b k, [])] →
    Issues s c h (dst ++ a.uses fA true ++ b.uses fB wide ++ k.uses fC wide) → e ≠ 0#32 →
    s.operands c h [a, b, k] = .ok ([oa, ob, ok], p) → p.translate c.core c.al va .write = .ok (pa, u) →
    let stored := ∃ b, b < 16 ∧ ∃ v ∈ (u.allot b).views, ∃ q ∈ v.storage, q.base ≤ pa ∧ pa < q.base + q.size
    let peer := 0x8000000000000 ≤ pa ∧ pa < 0x10000000000000 ∧ sc ≠ .system
    (stored → trap { cause := 0x12, slice := l / 4, kind := 2, info1 := va }) ∧
    (¬ stored → peer → trap { cause := 0x1B, slice := l / 4, info1 := va }) ∧
    (¬ stored → ¬ peer → va % (if wide then 8 else 4) ≠ 0 → trap { cause := 0x33, lane := l, info1 := va })

/-- R208, R210 to R212, R330: a request that no earlier one of its instruction at its location, or of its slice in its line (assumption 28),
comes before, outside record and replay,
performs in one step: the location takes the operation's value, every other byte of memory is as before, the line's version goes
up by one, and the request is gone. When the last request of an `atom` performs, the live lanes receive the old values (the one
value in every enabled lane for a uniform word, in every lane for one of a whole gang) and their success bits, the registers are
free again, and a slice that still lives acquires (R160). What waited for the request to end is swept. -/
def Sys2Proof.Claims.AtomicsPerform : Prop :=
  ∀ (s : State) (r : AReq) (w : Nat), w = (if r.ty = .n64 ∨ r.ty = .i64 then 64 else 32) →
    s.reqs.find? (fun x => x.id == r.id) = some r → s.damaged (r.addr / 128 * 128) = false → r.addr % (w / 8) = 0 →
    (∀ l, s.launch? r.al r.lid = some l → l.mode = 0) → s.plat.draining = false →
    (∀ x ∈ s.reqs, x.id < r.id → (x.inst = r.inst → r.addr + w / 8 ≤ x.addr ∨ x.addr + atomBytes x.ty ≤ r.addr) ∧
      (x.gang = r.gang → x.slice = r.slice → x.addr / 128 ≠ r.addr / 128)) →
    let old : BitVec w := BitVec.ofNat w (ofBytes (s.mem.readN r.addr (w / 8)))
    let res := Ref.atomic r.op (r.ty == .i32 || r.ty == .i64) old (r.b.setWidth w) (r.c.setWidth w)
    let left := s.reqs.filter fun x => x.id != r.id
    let mine := s.results.filter (fun x => x.inst == r.inst) ++ [⟨r.inst, r.gang, r.lane, old.setWidth 64, res.2⟩]
    let stored := fun (t : State) =>
      (∀ a, t.mem.read a = if r.addr ≤ a ∧ a < r.addr + w / 8 then res.1.extractLsb' (8 * (a - r.addr)) 8 else s.mem.read a) ∧
      (∀ n, t.version n = if n = r.addr / 128 * 128 then s.version n + 1 else s.version n) ∧
      t.owners.get 0 (r.addr / 128 * 128) = 1 + r.al + 16 * r.lid
    let unseen := fun (g : Gang) => { g with seen := [] }
    (r.isAtom = false → ∃ t, exec (.atomicPerform r.id) s = .next t.sweep ∧ stored t ∧
      t.gangs.map unseen = s.gangs.map unseen ∧
      t.rest = { s.rest with mem := t.mem, vers := t.vers, owners := t.owners, writes := t.writes, reqs := left }) ∧
    (r.isAtom = true → (∃ x ∈ left, x.inst = r.inst) → ∃ t, exec (.atomicPerform r.id) s = .next t.sweep ∧ stored t ∧ t.gangs = s.gangs ∧
      t.rest = { s.rest with
        mem := t.mem, vers := t.vers, owners := t.owners, writes := t.writes, reqs := left
        results := s.results ++ [⟨r.inst, r.gang, r.lane, old.setWidth 64, res.2⟩]
      }) ∧
    (∀ g, r.isAtom = true → (∀ x ∈ left, x.inst ≠ r.inst) → s.gang? r.gang = some g → (mine.map (·.lane)).Nodup →
      let uni := mine.length ≠ (lanesOf r.lanes).length
      let from' := fun l => if ¬ uni then mine.find? fun x => x.lane == l
        else if r.lanes.getLsbD l then mine.head? else none
      ∃ t g', exec (.atomicPerform r.id) s = .next t.sweep ∧ stored t ∧ t.gang? r.gang = some g' ∧
        (∀ n, n ≠ r.gang → t.gang? n = s.gang? n) ∧
        g'.data = { g.data with v := g'.v, p := g'.p, busy := g'.busy, floor := g'.floor } ∧
        t.rest = { s.rest with
          mem := t.mem, vers := t.vers, owners := t.owners, writes := t.writes, reqs := left
          results := s.results.filter fun x => x.inst != r.inst
          cores := t.rest.cores
        } ∧
        (s.block? r.blk ≠ none → g'.floor = if Scope.far r.sc = true ∧ (∃ x ∈ g.groups, ∃ l ∈ lanesOf r.lanes, l / 4 ∈ x.slices) then s.turn
          else g.floor) ∧
        (∀ m l, l < 32 → g'.vAt m l = match from' l with
          | some x => if g.live.getLsbD l = false ∧ ¬ (uni ∧ r.lanes = BitVec.allOnes 32) then g.vAt m l
            else if m = r.d then x.val.setWidth 32
            else if w = 64 ∧ m = r.d + 1 then (x.val >>> 32).setWidth 32
            else g.vAt m l
          | none => g.vAt m l) ∧
        (∀ m l, l < 32 → (g'.p.get 0#32 m).getLsbD l = match from' l with
          | some x => if m = r.p ∧ m ≠ 7 ∧ g.live.getLsbD l = true then x.ok else (g.p.get 0#32 m).getLsbD l
          | none => (g.p.get 0#32 m).getLsbD l) ∧
        ∀ x, x ∈ g'.busy ↔ x ∈ g.busy ∧ x ≠ .p r.p ∧ x ≠ .v r.d ∧ (w = 64 → x ≠ .v (r.d + 1)))

/-- R330, R331: in a replay a request of another slice than the first chunk of its line names is not admitted (a chunk is one of the memory
line, under whatever name: assumption 28), while that slice
may still send one: nothing happens but that the request is noted as held. A request that has waited 2^24 virtual cycles at the gate of its line drops the chunk,
which is counted, and every request of the line waits anew. -/
def Sys2Proof.Claims.GatedRequests : Prop :=
  ∀ (s : State) (r : AReq) (l : Launch) (k : Chunk) (line : Nat), s.launch? r.al r.lid = some l → l.mode = 2 →
    line = r.vaddr / 128 * 128 → s.memLine r.al line = some (r.addr / 128 * 128) → l.gates.find? (s.chunkOf r) = some k → r.handler = false →
    ¬ (0x8000000000000 ≤ r.addr ∧ r.addr < 0x10000000000000) →
    (s.reqs.find? (fun x => x.id == r.id) = some r → s.damaged (r.addr / 128 * 128) = false → s.chunkDead r.al r.lid l k = false →
      ¬ (k.blk = r.bid ∧ k.gang = r.gid ∧ k.slice = r.slice) →
      ∃ t, exec (.atomicPerform r.id) s = .next t ∧ t.gangs = s.gangs ∧ t.rest = { s.rest with reqs := t.reqs } ∧
        (t.reqs.map fun x => { x with held := true }) = s.reqs.map fun x => { x with held := true }) ∧
    (r ∈ s.reqs →
      let now := (s.allot r.al).vclk.toNat
      let mine := fun (x : AReq) => x.al == r.al && x.lid == r.lid &&
        (k.line == x.vaddr / 128 * 128 || s.memLine r.al k.line == some (x.addr / 128 * 128))
      (r.since + 2 ^ 24 ≤ now → ∃ t, exec (.gateTimeout r.al r.lid line) s = .next t ∧ t.gangs = s.gangs ∧ t.mem = s.mem ∧
        t.reqs = s.reqs.map (fun x => if mine x then { x with since := now } else x) ∧
        t.launch? r.al r.lid = some { l with gates := l.gates.erase k, gatemiss := l.gatemiss + 1 } ∧
        t.rest = { s.rest with reqs := t.reqs, allots := t.rest.allots }) ∧
      ((∀ x ∈ s.reqs, mine x = true → now < x.since + 2 ^ 24) → exec (.gateTimeout r.al r.lid line) s = .next s))

namespace Sys2Proof.Machine.Ref

/-! Reference values of the matrix family (R220 to R245). -/

/-- The active lanes of the group in a quarter (R16). -/
def quarterLanes (c : Ctx) (q : Nat) : LaneMask := c.lanes &&& (0xFF#32 <<< (8 * q))

/-- No enabled lane in the quarter: it does not act (R245). -/
def idle (c : Ctx) (e : LaneMask) (q : Nat) : Bool := e &&& quarterLanes c q == 0#32

/-- Both slices of the quarter are of the group and have a live lane (R245). -/
def whole' (c : Ctx) (q : Nat) : Bool :=
  [2 * q, 2 * q + 1].all fun k => c.grp.slices.contains k && c.gang.live &&& sliceMask k != 0#32

/-- The quarter raises no trap of R245: it does not act, or all its active lanes are enabled, it is whole and its two slices have
the same `fmt`. -/
def fine (c : Ctx) (e : LaneMask) (q : Nat) : Prop :=
  idle c e q = true ∨ (e &&& quarterLanes c q = quarterLanes c q ∧ whole' c q = true ∧
    (c.gang.slice (2 * q)).fmt = (c.gang.slice (2 * q + 1)).fmt)

/-- The quarters of a mask that act (R245). -/
def acting (c : Ctx) (qm : Nat) (e : LaneMask) : List Nat := (List.range 4).filter fun q => qm / 2 ^ q % 2 == 1 && !idle c e q

/-- A quarter mask with no trap of R245. -/
def calm (c : Ctx) (qm : Nat) (e : LaneMask) : Prop := ∀ q, q < 4 → qm / 2 ^ q % 2 = 1 → fine c e q

/-- The `fmt` of a quarter (R40), the format of a side, and SCALE (R53). -/
def fmt (c : Ctx) (q : Nat) : Nat := (c.gang.slice (2 * q)).fmt.toNat
def code (c : Ctx) (q field side : Nat) : Nat := if field = 15 then fmt c q / 2 ^ (4 * side) % 16 else field
def scale (c : Ctx) (q : Nat) : Nat := fmt c q / 2 ^ 8 % 8

/-- Registers of an operand (R243): 32 of data, 2 of scales, 2 of outlier bytes in the 4-bit class. -/
def regs (cd sc : Nat) : Nat := 32 + (if sc = 1 then 2 else 0) + (if sc = 1 ∧ (cd = 7 ∨ cd = 8) then 2 else 0)

/-- The bytes of `n` registers of a quarter (R243, R244): 32 a register, 4 a lane; those of exited lanes are zero. -/
def operand (p : State) (c : Ctx) (base q n : Nat) : List Byte :=
  (List.range (32 * n)).map fun x =>
    let lane := 8 * q + x % 32 / 4
    if c.gang.live.getLsbD lane then (p.readV c.gang (base + x / 32) lane).extractLsb' (8 * (x % 4)) 8 else 0

/-- Class of a format (R242): its K. -/
def classOf (cd : Nat) : Nat := if cd ≤ 1 then 32 else if cd ≤ 6 then 64 else if cd ≤ 8 then 128 else 0

/-- An integer element. -/
def int (w n : Nat) : Ext := let x := (BitVec.ofNat w n).toInt; .fin (decide (x < 0)) (x : Rat)

/-- Element `k` of operand row `r` (R224 to R232, R243): `data` at 64 bytes a row, `ox` the outlier bytes at 4 a row. -/
def elem (cd : Nat) (data ox : List Byte) (r k : Nat) : Ext :=
  let row := ofBytes ((data.drop (64 * r)).take 64)
  let bits := fun (w : Nat) => row / 2 ^ (w * k) % 2 ^ w
  match cd with
  | 0 => ext fp16 (bits 16)
  | 1 => ext bf16 (bits 16)
  | 2 => ext e4m3 (bits 8)
  | 3 => ext e5m2 (bits 8)
  | 4 => ext e3m2 (row / 2 ^ (192 * (k / 32) + 6 * (k % 32)) % 2 ^ 6)
  | 5 => ext e2m3 (row / 2 ^ (192 * (k / 32) + 6 * (k % 32)) % 2 ^ 6)
  | 6 => int 8 (bits 8)
  | 7 => int 4 (bits 4)
  | _ =>
    let mine := bits 4
    let other := row / 2 ^ (4 * (if k % 2 = 0 then k + 1 else k - 1)) % 2 ^ 4
    let x := (nth 0#8 ox (4 * r + k / 32)).toNat % 16
    if mine = 8 ∧ other = 8 then .fin false 0
    else if mine = 8 then ext e4m3 (128 * (other / 8) + 8 * x + other % 8)
    else if other = 8 then .fin false 0
    else int 4 mine

/-- The element is a whole number but for its scale (R226, R229). -/
def wholeElem (cd : Nat) (data : List Byte) (r k : Nat) : Bool :=
  let row := ofBytes ((data.drop (64 * r)).take 64)
  let nib := fun (j : Nat) => row / 2 ^ (4 * j) % 2 ^ 4
  cd == 6 || cd == 7 || (cd == 8 && (nib k != 8 || nib (if k % 2 = 0 then k + 1 else k - 1) == 8))

/-- An element under the scale byte of its block of 32 (R227, R228). -/
def scaled (sc : Bool) (b : Byte) (x : Ext) : Ext :=
  if sc = false then x
  else if b = 0xFF#8 then .nan
  else match x with
    | .fin neg q => .fin neg (q * pow2 ((b.toNat : Int) - 127))
    | y => y

/-- An element of an operand with its scale bytes, 4 a row. -/
def dec (cd : Nat) (sc : Bool) (data scales ox : List Byte) (r k : Nat) : Ext :=
  scaled sc (nth 0#8 scales (4 * r + k / 32)) (elem cd data ox r k)

/-- An entry of a tile (R246). -/
def entry (g : Gang) (t q i : Nat) : W32 := g.tiles.get 0#32 (256 * (4 * t + q) + i)

/-- What a word that queues passes leaves: the passes, one for each acting quarter, on its scheduler's unit; nothing else. -/
def Queues (s : State) (c : Ctx) (i : Instr) (t : Nat) (ops : List (Nat × PassOp)) : Prop :=
  ∃ u g' new, exec i s = .next u ∧ Completed s { s with passes := u.passes, nextUid := u.nextUid } u c g' ∧ g'.data = c.gang.data ∧
    u.passes = s.passes ++ new ∧ new.map (fun x => (x.quarter, x.op)) = ops ∧
    ∀ x ∈ new, x.gang = c.uid ∧ x.core = c.core ∧ x.sched = c.gang.slot / 16 ∧ x.tile = t

/-- An accumulator that holds a value, now or once the queued passes have been made (R246, R247). -/
def valid (s : State) (c : Ctx) (t q : Nat) : Prop :=
  c.gang.tvalid.getLsbD (4 * t + q) = true ∨ ∃ x ∈ s.passes, x.gang = c.uid ∧ x.tile = t ∧ x.quarter = q

/-- No pass on its way to an accumulator. -/
def still (s : State) (c : Ctx) (t q : Nat) : Prop := ∀ x ∈ s.passes, ¬ (x.gang = c.uid ∧ x.tile = t ∧ x.quarter = q)

/-- A run of registers that exists, is declared and waits for nothing (R244, R97). -/
def range (c : Ctx) (base n : Nat) : Prop :=
  base + n ≤ 384 ∧ base + n ≤ 8 * c.blk.k.regs ∧ ∀ i, i < n → Reg.v (base + i) ∉ c.gang.busy

end Sys2Proof.Machine.Ref

/-- R245: the quarters of a mask act as the enabled lanes say. The lowest quarter of the mask that is partly enabled traps with
0x27, one that the group does not hold whole with 0x25 kind 1, one whose slices differ in `fmt` with 0x25 kind 2, each naming
the quarter's even slice. With no acting quarter the word does nothing. -/
def Sys2Proof.Claims.MatrixQuarters : Prop :=
  ∀ (s : State) (c : Ctx) (h : Hdr) (qm af bf t t' a b : Nat) (z side bc : Bool) (o : Src) (g' p' : Nat) (n : BitVec 2)
    (i : Instr) (us : List Use),
    let e := s.lanesFor c h
    (i, us) ∈ [(Instr.mma h z qm af bf t a b, [⟨fD, .v a⟩, ⟨fA, .v b⟩, ⟨fM, .t t⟩]), (.tzero h qm t, [⟨fM, .t t⟩]),
      (.tmovToVreg h qm a t, [⟨fD, .v a⟩, ⟨fM, .t t⟩]), (.tmovFromVreg h qm t a, [⟨fA, .v a⟩, ⟨fM, .t t⟩]),
      (.tmovTile h qm t t', [⟨fM, .t t⟩, ⟨fM, .t t'⟩]), (.tcvt h qm af a t, [⟨fD, .v a⟩, ⟨fM, .t t⟩]),
      (.mst h qm t o, o.uses fA false ++ [⟨fM, .t t⟩]), (.mld h side bc qm af a o, ⟨fD, .v a⟩ :: o.uses fA false),
      (.mldt h side bc qm af g' p' a o, ⟨fD, .v a⟩ :: o.uses fA false), (.mldr h side bc qm af n a o, ⟨fD, .v a⟩ :: o.uses fA false)] →
    Issues s c h us →
    (Ref.calm c qm e → Ref.acting c qm e = [] →
      ∃ u g'', exec i s = .next u ∧ Completed s s u c g'' ∧ g''.data = c.gang.data) ∧
    ∀ q, q < 4 → qm / 2 ^ q % 2 = 1 → (∀ j, j < q → qm / 2 ^ j % 2 = 1 → Ref.fine c e j) → Ref.idle c e q = false →
      let trap := fun (x : TrapInfo) => exec i s = .next (s.trapNow c s.word x 0)
      let full := e &&& Ref.quarterLanes c q = Ref.quarterLanes c q
      (¬ full → trap { cause := 0x27, slice := 2 * q }) ∧
      (full → Ref.whole' c q = false → trap { cause := 0x25, slice := 2 * q, kind := 1 }) ∧
      (full → Ref.whole' c q = true → (c.gang.slice (2 * q)).fmt ≠ (c.gang.slice (2 * q + 1)).fmt →
        trap { cause := 0x25, slice := 2 * q, kind := 2 })

/-- R246, R247, R257 to R259, R40, R235 to R237: `tzero` and the `tmov` forms into a tile queue one pass for each acting quarter,
with zeros or the entries moved; `mst` queues one scratchpad store for each acting quarter, of its entries, row-major; `tmov` out of a tile and `tcvt` fill the live lanes of registers with the entries, as they are or each rounded
once into the format, packed from the lowest bit up. -/
def Sys2Proof.Claims.TileWords : Prop :=
  ∀ (s : State) (c : Ctx) (h : Hdr) (qm t j d : Nat),
    let e := s.lanesFor c h
    let p := s.advance c 0
    let qs := Ref.acting c qm e
    let fills := fun (i : Instr) (n : Nat → Nat) (flag : W64) (f : Nat → Nat → Nat → W32) => ∃ u g', exec i s = .next u ∧ Completed s s u c g' ∧
      g'.data = { c.gang.data with v := g'.v, fflag := c.gang.fflag ||| flag } ∧
      ∀ m l, l < 32 → g'.vAt m l = if l / 8 ∈ qs ∧ c.gang.live.getLsbD l = true ∧ d ≤ m ∧ m < d + n (l / 8) then f (l / 8) (m - d) (l % 8)
        else c.gang.vAt m l
    Ref.calm c qm e → qs ≠ [] →
    (Issues s c h [⟨fM, .t t⟩] → Ref.Queues s c (.tzero h qm t) t (qs.map fun q => (q, .zero))) ∧
    (Issues s c h [⟨fA, .v d⟩, ⟨fM, .t t⟩] → Ref.range c d 32 →
      ∃ es : Nat → Store W32, Ref.Queues s c (.tmovFromVreg h qm t d) t (qs.map fun q => (q, .load (es q))) ∧
        ∀ q ∈ qs, ∀ i, i < 256 → (es q).get 0#32 i =
          if c.gang.live.getLsbD (8 * q + i % 8) then p.readV c.gang (d + i / 8) (8 * q + i % 8) else 0#32) ∧
    (Issues s c h [⟨fM, .t t⟩, ⟨fM, .t j⟩] → (∀ q ∈ qs, Ref.valid s c j q ∧ Ref.still s c j q) →
      ∃ es : Nat → Store W32, Ref.Queues s c (.tmovTile h qm t j) t (qs.map fun q => (q, .load (es q))) ∧
        ∀ q ∈ qs, ∀ i, i < 256 → (es q).get 0#32 i = Ref.entry c.gang j q i) ∧
    (Issues s c h [⟨fD, .v d⟩, ⟨fM, .t t⟩] → Ref.range c d 32 → (∀ q ∈ qs, Ref.valid s c t q ∧ Ref.still s c t q) →
      fills (.tmovToVreg h qm d t) (fun _ => 32) 0 fun q m l => Ref.entry c.gang t q (8 * m + l)) ∧
    (∀ (a : Src) (os : List Opnd) (u' : State) (off : Nat → Nat), Issues s c h (a.uses fA false ++ [⟨fM, .t t⟩]) →
      popAll c [a] (p.signal c.core 2 c.al) = .ok (os, u') → (∀ q ∈ qs, Ref.valid s c t q ∧ Ref.still s c t q) →
      (∀ b, u'.block? c.blk.uid = some b → (b.k.guard && b.guardUp) = false ∧ ∀ q ∈ qs, off q + 1024 ≤ 1024 * b.k.scratch) →
      (u'.block? c.blk.uid).isSome = true →
      (∀ q ∈ qs, off q = (u'.opHead c os (lowLane (e &&& (0xFF#32 <<< (8 * q))))).toNat) →
      ∃ (u : State) (g' : Gang) (new : List SAcc), exec (.mst h qm t a) s = .next u ∧ u.rest = { u'.rest with saccs := u'.saccs ++ new, nextUid := u.nextUid } ∧
        OnlyGang s u c g' ∧ TrapsKept c.gang g' ∧ g'.data = c.gang.data ∧
        (SlicesAre c g' fun k => { s.passed c k with hash := (g'.slice k).hash }) ∧
        new.length = qs.length ∧ ∀ x q, (x, q) ∈ new.zip qs → x.gang = c.uid ∧ x.blk = c.blk.uid ∧ x.got = none ∧ x.slices = [2 * q, 2 * q + 1] ∧
          x.op = .store ((List.range 1024).map fun i =>
            (off q + i, (Ref.entry c.gang t q (i / 4)).extractLsb' (8 * (i % 4)) 8)) [] false) ∧
    (∀ af, let w := fun q => elemBits (Ref.code c q af 0)
      Issues s c h [⟨fD, .v d⟩, ⟨fM, .t t⟩] → (∀ q ∈ qs, Ref.code c q af 0 < 8 ∧ Ref.range c d (w q)) →
      (∀ q ∈ qs, Ref.valid s c t q ∧ Ref.still s c t q) →
      ∃ bits : Nat → Nat → Nat, ∃ flag,
        (∀ q ∈ qs, ∀ i, i < 256 →
          let x := Ref.ext32 (Ref.entry c.gang t q i)
          let sat := Ref.fmt c q / 2 ^ 13 % 2 == 1
          let r := match Ref.fmt c q / 2 ^ 11 % 4 with | 0 => Rnd.rne | 1 => .rz | 2 => .ru | _ => .rd
          match narrowFmt (Ref.code c q af 0) with
          | some f => Ref.Narrowed f r sat x (bits q i)
          | none => bits q i = (BitVec.ofInt (w q) (Ref.toRange r (-(2 ^ (w q - 1))) (2 ^ (w q - 1) - 1) x)).toNat) ∧
        (flag = 0#64 ∨ flag = 4#64) ∧
        (flag = 4#64 ↔ ∃ q ∈ qs, 4 ≤ Ref.code c q af 0 ∧ ∃ i, i < 256 ∧ Ref.nan32 (Ref.entry c.gang t q i) = true) ∧
        fills (.tcvt h qm af d t) w flag fun q m l =>
          BitVec.ofNat 32 (((List.range 256).map fun i => bits q i * 2 ^ (w q * i)).sum / 2 ^ (256 * m + 32 * l)))

/-- R260, R40, R48: `fmtset` gives each slice with an enabled lane bits 13:0 of its lowest enabled lane's operand; `fmtget`
reads them. -/
def Sys2Proof.Claims.FormatWords : Prop :=
  ∀ (s : State) (c : Ctx) (h : Hdr) (a : Src) (d : Nat),
    let e := s.lanesFor c h
    let p := s.advance c 0
    (Issues s c h (a.uses fA false) → ∃ t g', exec (.fmtset h a) s = .next t ∧ g'.data = c.gang.data ∧
      Moved s t c g' fun k => { s.passed c k with
        fmt := if e &&& sliceMask k = 0#32 then (c.gang.slice k).fmt
          else ((p.opVal c false ⟨a, none⟩ (lowLane (e &&& sliceMask k))).setWidth 14).setWidth 32
      }) ∧
    (Issues s c h [⟨fD, .v d⟩] → ∃ t g', exec (.fmtget h d) s = .next t ∧ Completed s s t c g' ∧
      WroteD c.gang g' false false e (.v d) fun l => ((c.gang.slice (l / 4)).fmt.setWidth 14).setWidth 64)

/-- R252 to R254, R256, R243: a load of operands from rows, whose quarters' sources hold no error, makes the registers pending and
queues its fetches: one for each slice, of the bytes that the slice takes, or, of a remote load, one for each distinct source, with
the slices of every quarter that it serves; a transposed load reads each element where the swizzle puts it. The lowest acting quarter whose
format is not admitted traps with 0x28 and its `fmt`, one whose source is no target, lies under the scratch guard or passes the end of the
rows with 0x29 and the offset of the first such byte. -/
def Sys2Proof.Claims.MatrixLoads : Prop :=
  ∀ (s u' : State) (c : Ctx) (h : Hdr) (side bc : Bool) (qm af d : Nat) (a : Src) (os : List Opnd) (n : BitVec 2) (g p : Nat)
    (pl : SPlace) (target : Nat → Option (Block × Nat)),
    let e := s.lanesFor c h
    let qs := Ref.acting c qm e
    let cd := fun q => Ref.code c q af side.toNat
    let rs := fun q => Ref.regs (cd q) (Ref.scale c q)
    let o := fun q => (u'.opHead c os (lowLane (if bc then e else e &&& (0xFF#32 <<< (8 * q))))).toNat
    let plain := fun (off q : Nat) => (List.range (32 * rs q)).map fun i => off + i
    let trans := fun (off q : Nat) =>
      let eb := elemBits (cd q) / 8
      (List.range (32 * rs q)).map fun i => if i < 1024 then
          let at' := 16 * eb * (i % 64 / eb) + eb * (i / 64)
          off + (at' ^^^ (at' / 2 ^ (p + 7) % 2 ^ (7 - g) * 2 ^ g)) + i % eb
        else off + i
    Ref.calm c qm e → qs ≠ [] → Issues s c h ((⟨fD, .v d⟩ : Use) :: a.uses fA false) → popAll c [a] ((s.advance c 0).signal c.core 2 c.al) = .ok (os, u') →
    u'.placeTarget c pl = .ok target →
    (∀ i offs, (i, pl, offs) ∈ [(Instr.mld h side bc qm af d a, none, plain), (.mldt h side bc qm af g p d a, none, trans),
        (.mldr h side bc qm af n d a, some n, plain)] →
      let good := fun q => cd q < 9 ∧ Ref.scale c q ≤ 1 ∧ (cd q = 8 → Ref.scale c q = 1) ∧
        (i = .mldt h side bc qm af g p d a → cd q ≤ 3 ∨ cd q = 6)
      let fits := fun q => Ref.range c d (rs q) ∧
        ∃ b off, target (o q) = some (b, off) ∧ (b.k.guard && b.guardUp) = false ∧ off + 32 * rs q ≤ 1024 * b.k.scratch
      (∀ q ∈ qs, (∀ r ∈ qs, r < q → good r ∧ fits r) →
        let trap := fun (x : TrapInfo) => exec i s = .next (s.trapNow c s.word x 0)
        (¬ good q → trap { cause := 0x28, slice := 2 * q, info1 := Ref.fmt c q }) ∧
        (good q → Ref.range c d (rs q) →
          (target (o q) = none → trap { cause := 0x29, slice := 2 * q, info1 := o q }) ∧
          ∀ b off, target (o q) = some (b, off) →
            ((b.k.guard && b.guardUp) = true → trap { cause := 0x29, slice := 2 * q, info1 := o q }) ∧
            ((b.k.guard && b.guardUp) = false → 1024 * b.k.scratch < off + 32 * rs q →
              trap { cause := 0x29, slice := 2 * q, info1 := o q + (1024 * b.k.scratch - off) }))) ∧
      ((∀ q ∈ qs, good q ∧ fits q) →
      ∃ t g' new, exec i s = .next t ∧ Completed s { u' with saccs := t.saccs, nextUid := t.nextUid } t c g' ∧
        g'.data = { c.gang.data with busy := g'.busy } ∧ t.saccs = u'.saccs ++ new ∧
        (∀ x, x ∈ g'.busy ↔ x ∈ c.gang.busy ∨ ∃ q ∈ qs, ∃ j, j < rs q ∧ x = .v (d + j)) ∧
        (∀ q ∈ qs, ∀ k, k / 2 = q → ∃ b off, target (o q) = some (b, off) ∧ ∃ x ∈ new, ∃ parts, k ∈ x.slices ∧ x.blk = b.uid ∧
          x.op = .mload d parts ∧
          (k, (offs off q).zipIdx.filterMap fun y => if y.2 / 16 % 2 = k % 2 then some y.1 else none) ∈ parts) ∧
        (pl = none → ∀ x ∈ new, x.slices.length = 1) ∧
        (pl.isSome = true → ∀ q ∈ qs, ∀ r ∈ qs, ∀ b off, target (o q) = some (b, off) → target (o r) = some (b, off) →
          ∀ x ∈ new, 2 * q ∈ x.slices → 2 * r ∈ x.slices ∧ 2 * r + 1 ∈ x.slices) ∧
        (new.flatMap (·.slices)).Nodup ∧
        ∀ x ∈ new, x.gang = c.uid ∧ x.got = none ∧ ∃ parts, x.op = .mload d parts ∧ x.slices = parts.map (·.1)))

/-- R254, R192: a fetch of a matrix load performs: its bytes are those the rows hold then; while another fetch of its word is
outstanding no register changes; with the last one, every live lane of its slices receives its four bytes of each register. -/
def Sys2Proof.Claims.MatrixFetches : Prop :=
  ∀ (s : State) (x : SAcc) (b : Block) (d : Nat) (parts : List (Nat × List Nat)) (before after : List SAcc),
    x.op = .mload d parts → x.got = none → s.saccs = before ++ x :: after →
    s.block? x.blk = some b → b.rowAway x.op.rows = false → s.heldAcc x b = false →
    (∀ y ∈ before, y.id ≠ x.id ∧ (y.got = none → y.gang = x.gang → y.blk = x.blk → (∃ k ∈ y.slices, k ∈ x.slices) →
      ∀ r ∈ y.op.rows, r ∉ x.op.rows)) → (∀ y ∈ after, y.id ≠ x.id) →
    let bytes := parts.map fun p => p.2.map fun o => b.rows.get 0#8 o
    ((∃ y ∈ before ++ after, y.inst = x.inst ∧ y.got = none) →
      ∃ t : State, exec (.scratchpadAccessPerform x.id) s = .next t.sweep ∧
        (t.gangs.map fun g => { g with seen := [] }) = (s.gangs.map fun g => { g with seen := [] }) ∧
        t.rest = { s.rest with saccs := before ++ { x with got := some bytes } :: after }) ∧
    (∀ g n, (∀ y ∈ before ++ after, y.inst ≠ x.inst) → s.gang? x.gang = some g → (parts.map (·.1)).Nodup →
      (∀ p ∈ parts, p.1 < 8 ∧ p.2.length = 16 * n) → parts ≠ [] →
      ∃ (t : State) (g' : Gang), exec (.scratchpadAccessPerform x.id) s = .next t.sweep ∧
        t.rest = { s.rest with saccs := s.saccs.filter fun y => y.inst != x.inst } ∧
        t.gang? x.gang = some g' ∧ g'.data = { g.data with v := g'.v, busy := g'.busy } ∧
        (∀ r, r ∈ g'.busy ↔ r ∈ g.busy ∧ ∀ j, j < n → r ≠ .v (d + j)) ∧
        ∀ m l, l < 32 → g'.vAt m l = match parts.find? fun p => p.1 == l / 4 with
          | none => g.vAt m l
          | some p => if g.live.getLsbD l = true ∧ d ≤ m ∧ m < d + n then
              let byte := fun j => b.rows.get 0#8 (nth 0 p.2 (16 * (m - d) + 4 * (l % 4) + j))
              (byte 3 ++ byte 2 ++ byte 1 ++ byte 0 : BitVec 32)
            else g.vAt m l)

/-- R221, R255, R275, R41: `mld.v` in a gang that is one whole group, its guard true in every active lane, one `fmt` in each quarter
and its eight references open: every live lane of registers D to D + 35 takes its bytes of the operand: the eight lines one after another, then the scale
bytes and the outlier bytes that the references captured, eight for each slice; late accesses that meet the lines come first (R166;
assumption 78). A lane without its guard traps with 0x27, naming the lower slice of its quarter (assumption 79), a slice outside the group
with 0x25 kind 1, a quarter with two `fmt` with kind 2. -/
def Sys2Proof.Claims.ViewLoads : Prop :=
  ∀ (s : State) (c : Ctx) (h : Hdr) (d ln : Nat), Issues s c h [⟨fD, .v d⟩, ⟨fM, .ln ln⟩] →
    let e := s.lanesFor c h
    let p := s.advance c 0
    let ls := (List.range 8).map fun k => 4 * k
    let r := p.meetLate c ln ls (fun _ => 0) 128
    let line := fun k => r.refEntry c ln k
    let bytes := (List.range 8).flatMap (fun k => (List.range 128).map fun i => (line k).data.extractLsb' (8 * i) 8) ++
      (List.range 8).flatMap (fun k => crownBytes8 (((line k).crown.map (·.scale)).getD [])) ++
      (List.range 8).flatMap (fun k => crownBytes8 (((line k).crown.map (·.oexp)).getD []))
    (e = 0#32 → ∃ t g', exec (.mldV h d ln) s = .next t ∧ Completed s s t c g' ∧ g'.data = c.gang.data) ∧
    (e ≠ 0#32 → e = c.lanes → (∀ k, k < 8 → k ∈ c.grp.slices) → Ref.range c d 36 →
      (∀ q, q < 4 → (c.gang.slice (2 * q)).fmt = (c.gang.slice (2 * q + 1)).fmt) →
      (∀ k, k < 8 → (c.gang.ref ln k).st = .opened) →
      (∀ x ∈ c.gang.lateLoads, x.meets c ln ls (fun _ => 0) 128 = false) →
      (∀ k x, k < 8 → s.launch? c.al c.blk.lid = some x → (line k).line ∉ x.inv) →
      ∃ t g', exec (.mldV h d ln) s = .next t ∧ Completed s r t c g' ∧ g'.data = { c.gang.data with v := g'.v, lateStores := g'.lateStores } ∧
        (c.gang.lateStores = [] → r = p) ∧
        ∀ m l, l < 32 → g'.vAt m l = if c.gang.live.getLsbD l = true ∧ d ≤ m ∧ m < d + 36 then
            let byte := fun j => nth 0#8 bytes (32 * (m - d) + 4 * (l % 8) + j)
            (byte 3 ++ byte 2 ++ byte 1 ++ byte 0 : BitVec 32)
          else c.gang.vAt m l) ∧
    (e ≠ c.lanes → e ≠ 0#32 → exec (.mldV h d ln) s = .next (s.trapNow c s.word
      { cause := 0x27, slice := lowLane (c.lanes &&& ~~~e) / 8 * 2 } 0)) ∧
    (∀ k, k < 8 → e = c.lanes → e ≠ 0#32 → (∀ j, j < k → j ∈ c.grp.slices) → k ∉ c.grp.slices →
      exec (.mldV h d ln) s = .next (s.trapNow c s.word { cause := 0x25, slice := k / 2 * 2, kind := 1 } 0)) ∧
    ∀ q, q < 4 → e = c.lanes → e ≠ 0#32 → (∀ k, k < 8 → k ∈ c.grp.slices) →
      (∀ j, j < q → (c.gang.slice (2 * j)).fmt = (c.gang.slice (2 * j + 1)).fmt) →
      (c.gang.slice (2 * q)).fmt ≠ (c.gang.slice (2 * q + 1)).fmt →
      exec (.mldV h d ln) s = .next (s.trapNow c s.word { cause := 0x25, slice := 2 * q, kind := 2 } 0)

/-- R251, R240, R241, R242, R246, R247: an `mma` whose acting quarters hold an admitted pair of formats, declared operands and a
valid accumulator completes and queues one pass for each, with the operands' bytes. The result write of the oldest pass of a matrix
unit completes (`matrixResultWrite`) and writes its accumulator:
each entry of a product starts from its old value, or +0, and adds, chunk by chunk in ascending order, the exact sum of the
chunk's products rounded once to FP32; the accumulator is then valid and dirty. A product of two elements that are whole numbers but for
their scales is +0 where it is zero (assumption 24). FFLAG gains T4PAIR where a Tilth-4 byte 0x88 was decoded, SCALENAN where a scale of
0xFF was applied (R239), nothing from other passes. -/
def Obligations.MatrixProducts : Prop :=
  (∀ (s : State) (c : Ctx) (h : Hdr) (z : Bool) (qm af bf t a b : Nat), Issues s c h [⟨fD, .v a⟩, ⟨fA, .v b⟩, ⟨fM, .t t⟩] →
    let e := s.lanesFor c h
    let p := s.advance c 0
    let qs := Ref.acting c qm e
    Ref.calm c qm e → qs ≠ [] →
    (∀ q ∈ qs,
      let fa := Ref.code c q af 0
      let fb := Ref.code c q bf 1
      let sc := Ref.scale c q
      Ref.classOf fa ≠ 0 ∧ Ref.classOf fa = Ref.classOf fb ∧ sc ≤ 1 ∧ (fa = 8 ∨ fb = 8 → sc = 1) ∧
        a + Ref.regs fa sc ≤ 384 ∧ a + Ref.regs fa sc ≤ 8 * c.blk.k.regs ∧ b + Ref.regs fb sc ≤ 384 ∧
        b + Ref.regs fb sc ≤ 8 * c.blk.k.regs ∧ (z = false → Ref.valid s c t q)) →
    (∀ i, i < 36 → Reg.v (a + i) ∉ c.gang.busy ∧ Reg.v (b + i) ∉ c.gang.busy) →
    Ref.Queues s c (.mma h z qm af bf t a b) t (qs.map fun q =>
      let fa := Ref.code c q af 0
      let fb := Ref.code c q bf 1
      let sc := Ref.scale c q
      let x := Ref.operand p c a q (Ref.regs fa sc)
      let y := Ref.operand p c b q (Ref.regs fb sc)
      (q, .mma z (x.take 1024) (y.take 1024) ((x.drop 1024).take 64) ((y.drop 1024).take 64) (x.drop 1088) (y.drop 1088) fa fb (sc == 1)))) ∧
  ∀ (s : State) (x : Pass) (g : Gang), s.passes.find? (fun y => y.id == x.id) = some x →
    s.passes.find? (fun y => y.core == x.core && y.sched == x.sched) = some x → s.gang? x.gang = some g →
    x.quarter < 4 → x.tile < 8 →
    ∃ t g', exec (.matrixResultWrite x.id) s = .next t ∧ t.rest = { s.rest with passes := s.passes.filter fun y => y.id != x.id } ∧
      t.gang? x.gang = some g' ∧ (∀ n, n ≠ x.gang → t.gang? n = s.gang? n) ∧
      g'.data = { g.data with tiles := g'.tiles, tvalid := g'.tvalid, tdirty := g'.tdirty, fflag := g'.fflag } ∧
      (∀ j q i, q < 4 → i < 256 → ¬ (j = x.tile ∧ q = x.quarter) → Ref.entry g' j q i = Ref.entry g j q i) ∧
      (∀ n, n < 32 → g'.tvalid.getLsbD n = (g.tvalid.getLsbD n || n == 4 * x.tile + x.quarter)) ∧
      (∀ n, n < 32 → g'.tdirty.getLsbD n = if n = 4 * x.tile + x.quarter then x.op != .zero else g.tdirty.getLsbD n) ∧
      (match x.op with
        | .mma _ a b asc bsc _ _ af bf sc => Ref.classOf af ≠ 0 → Ref.classOf bf = Ref.classOf af →
          let nan := fun (xs : List Byte) => ∃ r j, r < 16 ∧ j < Ref.classOf af / 32 ∧ nth 0#8 xs (4 * r + j) = 0xFF#8
          (∀ n, n < 64 → g'.fflag.getLsbD n = true ↔ g.fflag.getLsbD n = true ∨
            n = 0 ∧ (af = 8 ∧ 0x88#8 ∈ a ∨ bf = 8 ∧ 0x88#8 ∈ b) ∨ n = 1 ∧ sc = true ∧ (nan asc ∨ nan bsc))
        | _ => g'.fflag = g.fflag) ∧
      (∀ i, i < 256 → match x.op with
        | .zero => Ref.entry g' x.tile x.quarter i = 0#32
        | .load es => Ref.entry g' x.tile x.quarter i = es.get 0#32 i
        | .mma z a b asc bsc aox box af bf sc =>
          Ref.classOf af ≠ 0 → Ref.classOf bf = Ref.classOf af →
          let k := Ref.classOf af
          ∃ r : Nat → W32,
            (∀ n, n < 2 → Ref.IsF32 .rne (Ref.Ext.sum .rne ((List.range (k / 2)).map fun y =>
              let m := k / 2 * n + y
              Ref.Ext.prod (Ref.wholeElem af a (i / 16) m && Ref.wholeElem bf b (i % 16) m)
                (Ref.dec af sc a asc aox (i / 16) m) (Ref.dec bf sc b bsc box (i % 16) m))) (r n)) ∧
            Ref.entry g' x.tile x.quarter i =
              fAdd .rne (fAdd .rne (if z then 0#32 else Ref.entry g x.tile x.quarter i) (r 0)) (r 1))

/-- R262, R263, R272, R216, R218: `vreg` reads the descriptor's eight words as an open for reading would. A descriptor at an
address that is no multiple of 64 traps with 0x2D kind 0, one with a bad word with 0x2D and the number of the first such word. A
full table, or eight views whose masters meet the new one's, gives the handle 0. Else the view takes the lowest free slot (assumption 79) and the allotment's next serial, which counts the
registrations that succeed (assumption 57), its first generation is due in every group, a rebuild of every group is queued, and the scalar takes the handle. -/
def Sys2Proof.Claims.ViewRegistration : Prop :=
  ∀ (s u : State) (c : Ctx) (h : Hdr) (sd sa : Nat) (bs : List Byte) (gu : Gang), Issues s c h [⟨fD, .s sd⟩, ⟨fA, .s sa⟩] → s.lanesFor c h ≠ 0#32 →
    let p := s.issuing c h
    let va := (p.readS c.gang sa).toNat
    let w := fun i => ofBytes ((bs.drop (8 * i)).take 8)
    let views := (u.allot c.al).views
    let n := (u.allot c.al).vregs + 1
    (va % 64 ≠ 0 → exec (.vreg h sd sa) s = .next (s.trapped c h { cause := 0x2D, kind := 0, info1 := va })) ∧
    (va % 64 = 0 → p.readAsOpen c va 64 = .ok (bs, u) →
      (∀ k, (u.badWord c.core c.al w).1 = some k →
        exec (.vreg h sd sa) s = .next (s.trapped c h { cause := 0x2D, kind := k, info1 := va })) ∧
      (∀ q, u.badWord c.core c.al w = (none, q) → q.gang? c.uid = some gu →
        (∀ k, k < 64 → ∃ x ∈ views, x.slot = k) ∨ 8 ≤ (views.filter fun x => (viewOfWords w).mastersMeet x).length →
        ∃ t g', exec (.vreg h sd sa) s = .next t ∧ t.rest = q.rest ∧ OnlyGang q t c g' ∧ SlicesAre c g' (s.passed c) ∧
          TrapsKept c.gang g' ∧ WroteD gu g' false true (s.lanesFor c h) (.s sd) fun _ => 0) ∧
      (∀ q k, u.badWord c.core c.al w = (none, q) → q.gang? c.uid = some gu → k < 64 → (∀ x ∈ views, x.slot ≠ k) →
        (∀ j, j < k → ∃ x ∈ views, x.slot = j) → (views.filter fun x => (viewOfWords w).mastersMeet x).length < 8 →
        c.al < q.allots.length → (∀ r ∈ q.hreqs, ¬ (r.al = c.al ∧ r.slot = k ∧ r.serial = n)) →
        ∃ t g' v new, exec (.vreg h sd sa) s = .next t ∧ OnlyGang q t c g' ∧ SlicesAre c g' (s.passed c) ∧ TrapsKept c.gang g' ∧
          (WroteD gu g' false true (s.lanesFor c h) (.s sd) fun _ => BitVec.ofNat 64 (k + 2 ^ 6 * c.al + 2 ^ 10 * n)) ∧
          (t.allot c.al).views = views ++ [v] ∧ (t.allot c.al).vregs = n ∧ v.slot = k ∧ v.serial = n ∧ v.gen = 1 ∧ v.tag = [] ∧
          (v.mbase = w 0 ∧ v.rows = w 1 % 2 ^ 32 ∧ v.cols = w 1 / 2 ^ 32 % 2 ^ 32 ∧ v.dbase = w 4 ∧ v.cbase = w 5) ∧
          (∀ g, g < v.groups → v.dueOf g = 1) ∧ t.hreqs = q.hreqs ++ new ∧
          new.map (fun r => (r.harrow, r.group)) = (List.range v.groups).map (fun g => ((g + k) % 4, g)) ∧
          (∀ r ∈ new, r.al = c.al ∧ r.slot = k ∧ r.serial = n ∧ r.gen = 1) ∧
          ∀ m, m ≠ c.al → (t.allot m).quiet = (q.allot m).quiet))

/-- R273, R276, R277, R96: `vdrop` removes the view that the handle names, with its queued rebuilds; `vtag` writes the TAG of the
group each lane names, or the generation with the count of dropped reports; `vsync` ends at once where every group named has
come to its due generation or is poisoned, or with limit 0, and else parks with the generations due. A handle that names no view,
or a group beyond the view, traps with 0x2C. -/
def Sys2Proof.Claims.ViewWords : Prop :=
  ∀ (s : State) (c : Ctx) (h : Hdr) (d : Dst) (sa pd : Nat) (b k : Src),
    let e := s.lanesFor c h
    let p := s.issuing c h
    let hd := p.readS c.gang sa
    let trap := fun (i : Instr) => exec i s = .next (s.trapped c h { cause := 0x2C, info1 := hd.toNat })
    let us := fun (us : List Use) => Issues s c h us
    let vtags := us (d.uses true ++ (⟨fA, .s sa⟩ : Use) :: b.uses fB false)
    let vsyncs := us ((⟨fD, .p pd⟩ : Use) :: (⟨fA, .s sa⟩ : Use) :: b.uses fB false ++ k.uses fC false)
    e ≠ 0#32 →
    (s.viewOfHandle c.al hd = none →
      (us [⟨fA, .s sa⟩] → trap (.vdrop h sa)) ∧ (vtags → trap (.vtagTag h d sa b) ∧ trap (.vtagGen h d sa b)) ∧
      (vsyncs → trap (.vsync h pd sa b k))) ∧
    ∀ v, s.viewOfHandle c.al hd = some v →
      (us [⟨fA, .s sa⟩] → (∀ g ∈ s.gangs, g.lateLoads = []) → ∃ t g', exec (.vdrop h sa) s = .next t ∧ t.gang? c.uid = some g' ∧ SlicesAre c g' (s.passed c) ∧
        g'.data = { c.gang.data with refs := g'.refs } ∧ t.mem = s.mem ∧
        t.hreqs = s.hreqs.filter (fun r => !(r.al == c.al && r.slot == v.slot && r.serial == v.serial)) ∧
        (t.allot c.al).views = (s.allot c.al).views.filter (fun x => !(x.slot == v.slot && x.serial == v.serial)) ∧
        ∀ n, n ≠ c.al → (t.allot n).quiet = (s.allot n).quiet) ∧
      (∀ os u, vtags → popAll c [b] p = .ok (os, u) →
        let grp := fun l => (u.opHead c os l).toNat
        let ls := match d with | .v _ => lanesOf e | _ => [lowLane e]
        let gives := fun (i : Instr) (f : Nat → W64) => ∀ q, u.delivers c e d (f (lowLane e)) = .ok q →
          ∃ t g', exec i s = .next t ∧ Completed s q t c g' ∧ (q.gang? c.uid).map (·.busy) = some g'.busy ∧ WroteD c.gang g' false true e d f
        ((∀ l ∈ ls, grp l < v.groups) → gives (.vtagTag h d sa b) (fun l => BitVec.ofNat 64 (v.tag.get 0 (grp l))) ∧
          gives (.vtagGen h d sa b) fun _ => BitVec.ofNat 64 (v.gen % 2 ^ 48 + v.drops * 2 ^ 48)) ∧
        ((∃ l ∈ ls, v.groups ≤ grp l) → trap (.vtagTag h d sa b) ∧ trap (.vtagGen h d sa b))) ∧
      ∀ ob ok u, vsyncs → popAll c [b, k] p = .ok ([ob, ok], u) →
        let g := (u.opVal c false ob (lowLane e)).toNat
        let limit := (u.opVal c false ok (lowLane e)).toNat
        let gs := if g = 0xFFFFFFFF then List.range v.groups else [g]
        let settled := ∀ x ∈ gs, v.dueOf x ≤ v.tagOf x % 2 ^ 63 ∨ v.tagOf x / 2 ^ 63 % 2 = 1
        let reached := ∀ x ∈ gs, v.dueOf x ≤ v.tagOf x % 2 ^ 63 ∧ v.tagOf x / 2 ^ 63 % 2 = 0
        let ends := fun (f : Bool) => ∃ t g', exec (.vsync h pd sa b k) s = .next t ∧ OnlyGang s t c g' ∧ SlicesAre c g' (s.passed c) ∧
          TrapsKept c.gang g' ∧ g'.data = { c.gang.data with p := g'.p, floor := g'.floor, lateStores := g'.lateStores } ∧
          t.rest = { u.rest with cores := t.rest.cores } ∧ WroteP c.gang g' pd e fun _ => f
        (g ≠ 0xFFFFFFFF → v.groups ≤ g → trap (.vsync h pd sa b k)) ∧
        (g = 0xFFFFFFFF ∨ g < v.groups → u.outstanding c.uid (slicesIn e) true = false →
          (reached → ends true) ∧
          (¬ reached → settled ∨ limit = 0 → ends false) ∧
          (¬ settled → limit ≠ 0 → ∃ t g', exec (.vsync h pd sa b k) s = .next t ∧ Moved u t c g' (s.passing c) ∧ g'.data = c.gang.data ∧
            Parked c g' (.vsync c.al v.slot v.serial (gs.map fun x => (x, v.dueOf x)) pd e
              (if limit = 0xFFFFFFFF then none else some ((s.allot c.al).vclk.toNat + limit)))))

/-- R277: the end of a `vsync`'s limit: the group goes on, its word retires (R370), and pD tells whether every group named has come;
before the limit, and while the core has frozen or the allotment does not run (R346, R363), nothing happens. -/
def Sys2Proof.Claims.ViewLimits : Prop :=
  ∀ (s : State) (k : GroupKey) (c : Ctx) (al slot serial pd : Nat) (ts : List (Nat × Nat)) (e : LaneMask) (d : Nat),
    s.ctx k = some c → c.sole → c.grp.wait = .vsync al slot serial ts pd e (some d) →
    ((s.allot c.al).vclk.toNat < d ∨ s.still c = true → exec (.vsyncTimeout k) s = .next s) ∧
    (∀ v, d ≤ (s.allot c.al).vclk.toNat → s.still c = false → s.view? al slot serial = some v →
      s.outstanding c.uid (slicesIn e) true = false →
      ∃ t g' f, exec (.vsyncTimeout k) s = .next t ∧ OnlyGang s t c g' ∧ SlicesAre c g' c.waited ∧
        (c.grp.sw = false → Parked c g' .none) ∧ t.mem = s.mem ∧ (WroteP c.gang g' pd (e &&& c.gang.live) fun _ => f) ∧
        (f = true ↔ ∀ x ∈ ts, x.2 ≤ v.tagOf x.1 % 2 ^ 63 ∧ v.tagOf x.1 / 2 ^ 63 % 2 = 0))

/-- R89, R90: a recall of a gang's registers: a register with a reference that it picks is recalled in every slice whose reference
is not closed; addresses and forms are kept, and every other reference is as before. -/
def Sys2Proof.Claims.RecalledRegisters : Prop :=
  ∀ (g : Gang) (pick : Nat → LRef → Bool) (why ln k : Nat), ln < 16 → k < 8 →
    let g' := (g.recallLines pick why).1
    g'.data = { g.data with refs := g'.refs } ∧ g'.slices = g.slices ∧ g'.groups = g.groups ∧
    let meant := (∃ j, j < 8 ∧ (g.ref ln j).st ≠ .closed ∧ pick ln (g.ref ln j) = true) ∧ (g.ref ln k).st ≠ .closed
    (meant → g'.ref ln k = { g.ref ln k with st := .recalled, entry := none, why := why }) ∧ (¬ meant → g'.ref ln k = g.ref ln k)

/-- R218, R267, R269, R270: a harrow performs the oldest of the rebuilds that have entered its queue of 8,192, of the allotment
whose turn it is (the rotation's order is assumption 79): a rebuild that can be made leaves the
group's TAG at its generation; one that cannot leaves it poisoned, bit 63 with the generation, and reports the reason to the
status queue that the view's block has bound, where there is room. A rebuild of a dropped view does nothing. -/
def Sys2Proof.Claims.Rebuilds : Prop :=
  ∀ (s : State) (die harrow al : Nat),
    let i := Instr.harrowRebuild die harrow al
    let queue := (s.hreqs.filter fun x => x.die == die && x.harrow == harrow).take 8192
    let last := s.plat.harrowLast.get 0 (4 * die + harrow)
    let has := fun m => ∃ x ∈ queue, x.al = m
    let turn := al < 16 ∧ has al ∧ ∀ j, j < (al + 16 - last % 16) % 16 → ¬ has ((last + j) % 16)
    (s.plat.draining = true ∨ ¬ turn → exec i s = .next s) ∧
    ∀ r, s.plat.draining = false → turn → queue.find? (fun x => x.al == al) = some r →
      let s1 := { s with hreqs := s.hreqs.erase r
                         plat := { s.plat with harrowLast := s.plat.harrowLast.set 0 (4 * die + harrow) (al + 1) } }
      (s.view? al r.slot r.serial = none → exec i s = .next s1) ∧
      ∀ v, s.view? al r.slot r.serial = some v →
        let s2 := s1.recallViews al v.serial (some r.group) false
        (∀ u, s2.rebuild v al r.group r.gen = .ok u → (∀ ln, u.damaged ln = false) →
          ∃ (t : State) (v' : View), exec i s = .next t.sweep ∧ t.hreqs = s1.hreqs ∧ t.mem = u.mem ∧
          t.view? al r.slot r.serial = some v' ∧ v'.tagOf r.group = r.gen ∧ ∀ g, g ≠ r.group → v'.tagOf g = v.tagOf g) ∧
        (∀ reason, s2.rebuild v al r.group r.gen = .error reason →
          ∃ (t : State) (v' : View), exec i s = .next t.sweep ∧ t.hreqs = s1.hreqs ∧
          t.view? al r.slot r.serial = some v' ∧ v'.tagOf r.group = r.gen % 2 ^ 63 + 2 ^ 63 ∧
          (∀ g, g ≠ r.group → v'.tagOf g = v.tagOf g) ∧
          ∀ b, s.block? v.blk = some b → (∃ g ∈ s.gangs, g.blk = v.blk ∧ ∃ q ∈ g.qb, q.2 = .harrow) → b.hq.length < 16 →
            (t.block? v.blk).map (·.hq) = some (b.hq ++ [BitVec.ofNat 64 (reason % 2 ^ 8 + v.slot % 2 ^ 6 * 2 ^ 8 +
              r.group % 2 ^ 32 * 2 ^ 16 + r.gen % 2 ^ 16 * 2 ^ 48)]))

/-- R268, R235, R236, R269: a block of a view with a floating target that is not Tilth-4: the scale byte is 127 plus the smallest
exponent, in -127 to 127, at which the block's largest magnitude is not above the format's largest, and 0 for BF16 and for a block
of zeros; each element is the master's, over that power of two, rounded once to nearest even and saturated. A block with a value
that is not finite is none. A view of TFMT 15 copies the block's elements, with the scale byte 0x7F. -/
def Sys2Proof.Claims.RebuiltBlocks : Prop :=
  (∀ (v : View) (bits : List Nat), v.tfmt = 15 → bits.length = 32 → v.block bits =
    some ⟨toBytes (32 * v.msize) (((List.range 32).map fun i => nth 0 bits i * 2 ^ (8 * v.msize * i)).sum), 0x7F, 0⟩) ∧
  ∀ (v : View) (bits : List Nat) (f mf : Fmt), v.tfmt < 6 → narrowFmt v.tfmt = some f → v.tfmt ≠ 0 →
    mf = (if v.mfmt = 0 then fp32 else if v.mfmt = 1 then fp16 else bf16) → bits.length = 32 → (∀ b ∈ bits, b < 2 ^ (1 + mf.ew + mf.mw)) →
    let abs := fun b => (if Ref.val mf b < 0 then -Ref.val mf b else Ref.val mf b : Rat)
    let big := Ref.val f (Ref.largest f)
    ((∃ b ∈ bits, Ref.special mf b = true) → v.block bits = none) ∧
    ((∀ b ∈ bits, Ref.special mf b = false) → ∃ out E, ∃ code : Nat → Nat, v.block bits = some out ∧ out.oexp = 0 ∧
      out.scale = (E + 127).toNat ∧ -127 ≤ E ∧ E ≤ 127 ∧
      (v.tfmt = 1 ∨ (∀ b ∈ bits, Ref.val mf b = 0) → E = 0) ∧
      (v.tfmt ≠ 1 → (∃ b ∈ bits, Ref.val mf b ≠ 0) →
        (E ≠ 127 → ∀ b ∈ bits, abs b ≤ big * Ref.pow2 E) ∧ (E ≠ -127 → ∃ b ∈ bits, big * Ref.pow2 (E - 1) < abs b)) ∧
      (∀ i, i < 32 → let b := nth 0 bits i
        Ref.Narrowed f .rne true (.fin (Ref.sgn mf b) (Ref.val mf b * Ref.pow2 (-E))) (code i)) ∧
      out.data = toBytes (4 * elemBits v.tfmt) (((List.range 32).map fun i => code i * 2 ^ (elemBits v.tfmt * i)).sum))

/-- R218, R229: a block of a Tilth-4 view: its largest magnitude, the lowest of equals, at index c, may be an outlier. The scale byte is 127
plus the smallest exponent, in -127 to 127, at which seven units hold every other magnitude (or, where the others are zero, that of c), and
127 for a block of zeros; every element is rounded to a code of -7 to 7. Where element c is above seven units it becomes the marker, its
partner's nibble takes sign and mantissa of its E4M3 value, and the outlier byte the exponent field. A value that is not finite makes no
block. -/
def Sys2Proof.Claims.TilthBlocks : Prop :=
  ∀ (v : View) (bits : List Nat) (mf : Fmt), v.tfmt = 8 → mf = (if v.mfmt = 0 then fp32 else if v.mfmt = 1 then fp16 else bf16) →
    bits.length = 32 → (∀ b ∈ bits, b < 2 ^ (1 + mf.ew + mf.mw)) →
    let x := fun i => Ref.val mf (nth 0 bits i)
    let abs := fun i => (if x i < 0 then -x i else x i : Rat)
    ((∃ b ∈ bits, Ref.special mf b = true) → v.block bits = none) ∧
    ((∀ b ∈ bits, Ref.special mf b = false) → ∃ out c E, v.block bits = some out ∧ c < 32 ∧ (∀ i, i < 32 → abs i ≤ abs c) ∧
      (∀ i, i < c → abs i < abs c) ∧ out.scale = (E + 127).toNat ∧ -127 ≤ E ∧ E ≤ 127 ∧
      let sizes := fun i => i < 32 ∧ (i ≠ c ∨ ∀ j, j < 32 → j ≠ c → x j = 0)
      let code := fun i => (BitVec.ofInt 4 (Ref.toRange .rne (-7) 7 (.fin (decide (x i < 0)) (x i * Ref.pow2 (-E))))).toNat
      let packed := fun (q : Nat → Nat) => toBytes 16 (((List.range 32).map fun i => q i * 2 ^ (4 * i)).sum)
      ((∀ i, i < 32 → x i = 0) → E = 0) ∧
      ((∃ i, i < 32 ∧ x i ≠ 0) → (E ≠ 127 → ∀ i, sizes i → abs i ≤ 7 * Ref.pow2 E) ∧
        (E ≠ -127 → ∃ i, sizes i ∧ 7 * Ref.pow2 (E - 1) < abs i)) ∧
      (abs c ≤ 7 * Ref.pow2 E → out.oexp = 0 ∧ out.data = packed code) ∧
      (7 * Ref.pow2 E < abs c → ∃ f, Ref.Narrowed e4m3 .rne true (.fin (decide (x c < 0)) (x c * Ref.pow2 (-E))) f ∧ out.oexp = f / 8 % 16 ∧
        out.data = packed fun i => if i = c then 8 else if i = c ^^^ 1 then f / 128 * 8 + f % 8 else code i))

/-- R314: `qbind` of a queue register first gives back what it was bound to: it waits for the drill commands of the binding, and a
command pushed in part ends with code 0x0D in its token register. It is then unbound, bound to the block's harrow queue, or to a
drill of the quota with fewer than 16 bindings: of the gang's own logical die first, then of the next ones, wrapping; on one die
the one with the fewest bindings, the lowest of these. Where there is no such drill it stays unbound. -/
def Sys2Proof.Claims.QueueBindings : Prop :=
  ∀ (s : State) (c : Ctx) (h : Hdr) (q : Nat), Issues s c h [⟨fD, .q q⟩] →
    let e := s.lanesFor c h
    let p := s.issuing c h
    let all := [Instr.qbindDrill h q, .qbindHarrow h q, .qbindNone h q]
    let rebound := fun (g' : Gang) (x : QBind) => g'.qbind q = x ∧ ∀ j, j ≠ q → g'.qbind j = c.gang.qbind j
    (e = 0#32 → ∀ i ∈ all, ∃ t g', exec i s = .next t ∧ Completed s p t c g' ∧ g'.data = c.gang.data) ∧
    (∀ id b, e ≠ 0#32 → c.gang.qbind q = .drill id → s.dbind? id = some b →
      (b.run.isSome = true ∨ b.cmds ≠ [] → ∀ i ∈ all, ∃ t g', exec i s = .next t ∧ Moved s t c g' c.gang.slice ∧ g'.data = c.gang.data) ∧
      (b.run = none → b.cmds = [] → ∃ t g', exec (.qbindNone h q) s = .next t ∧
        Completed s { p with dbinds := s.dbinds.filter fun x => x.id != id } t c g' ∧
        g'.data = { c.gang.data with qb := g'.qb, s := g'.s, busy := g'.busy } ∧ rebound g' .none ∧
        (b.part = [] → g'.s = c.gang.s ∧ g'.busy = c.gang.busy) ∧
        ∀ w ws, b.part = w :: ws → let tok := w.toNat / 2 ^ 12 % 64
          WroteS c.gang g' tok 0x0D00000000000000#64 ∧ ∀ r, r ∈ g'.busy ↔ r ∈ c.gang.busy ∧ r ≠ .s tok)) ∧
    (e ≠ 0#32 → (∀ id, c.gang.qbind q ≠ .drill id) →
      let made := fun (i : Instr) (x : QBind) => ∃ t g', exec i s = .next t ∧ Completed s p t c g' ∧
        g'.data = { c.gang.data with qb := g'.qb } ∧ rebound g' x
      let d0 := s.logicalDie c.al c.core
      let far := fun (k : Nat) => (k / 16 + 4 - d0 % 4) % 4
      let bound := fun (k : Nat) => (s.dbinds.filter fun b => b.al == c.al && b.drill == k &&
        (b.run.isSome || !b.cmds.isEmpty || s.gangs.any fun g => g.uid == b.gang && !g.isOver)).length
      let may := fun (k : Nat) => k < 64 ∧ (s.allot c.al).quota.get 0 8 / 2 ^ k % 2 = 1 ∧ bound k < 16
      made (.qbindNone h q) .none ∧ made (.qbindHarrow h q) .harrow ∧
      ((∀ k, ¬ may k) → made (.qbindDrill h q) .none) ∧
      ∀ k, may k → (∀ j, may j → far k ≤ far j ∧ (far j = far k → bound k < bound j ∨ (bound k = bound j ∧ k ≤ j))) →
        ∃ t g' b, exec (.qbindDrill h q) s = .next t ∧
          Completed s { p with dbinds := s.dbinds ++ [b], nextUid := s.nextUid + 1 } t c g' ∧
          g'.data = { c.gang.data with qb := g'.qb } ∧ rebound g' (.drill b.id) ∧ b.id = s.nextUid ∧ b.drill = k ∧ b.gang = c.uid ∧
          b.al = c.al ∧ b.blk = c.blk.uid ∧ b.core = c.core ∧ b.part = [] ∧ b.cmds = [] ∧ b.run = none ∧ b.ret = [])

/-- R280, R281, R315, R319, R321, R322: a push to a drill's buffer of 32 words, which is waited for while full: the first word of a
command makes its token register pending, once earlier accesses have performed, and starts after the commands that joins of its queue name; the last one, whose place the first word gives,
completes the command. A pop takes the oldest word of the return side and waits while there is none; `qpop.stat` reads the
counts. A push to what is no drill and a pop from what is not bound trap with 0x32, a command whose token register is not
declared with 0x05 (its FIELD: assumption 79). -/
def Sys2Proof.Claims.QueueWords : Prop :=
  ∀ (s : State) (c : Ctx) (h : Hdr) (d : Dst) (q : Nat) (a : Src),
    let e := s.lanesFor c h
    let p := s.issuing c h
    let x := p.opVal c true ⟨a, none⟩ (lowLane e)
    let trap := fun (i : Instr) (x : TrapInfo) => exec i s = .next (s.trapped c h x)
    let waits := fun (i : Instr) => ∃ t g', exec i s = .next t ∧ Moved s t c g' c.gang.slice ∧ g'.data = c.gang.data
    let gives := fun (i : Instr) (p : State) (w : W64) => ∀ u, p.delivers c e d w = .ok u → ∃ t g', exec i s = .next t ∧
      Completed s u t c g' ∧ (u.gang? c.uid).map (·.busy) = some g'.busy ∧ WroteD c.gang g' false true e d fun _ => w
    e ≠ 0#32 →
    (Issues s c h ((⟨fD, .q q⟩ : Use) :: a.uses fA true) →
      (c.gang.qbind q = .none ∨ c.gang.qbind q = .harrow → trap (.qpush h q a) { cause := 0x32, reg := q }) ∧
      ∀ id b, c.gang.qbind q = .drill id → s.dbind? id = some b →
        let held := (b.cmds.map fun k => k.words.length).sum + b.part.length
        let tok := x.toNat / 2 ^ 12 % 64
        let pushed := fun (p : State) (busy : List Reg) (b' : DBind) => ∃ t g', exec (.qpush h q a) s = .next t ∧
          Completed s { p with dbinds := t.dbinds } t c g' ∧ g'.data = { c.gang.data with busy := busy, lateStores := g'.lateStores } ∧ t.dbind? id = some b' ∧
          ∀ j, j ≠ id → t.dbind? j = s.dbind? j
        (32 ≤ held → waits (.qpush h q a)) ∧
        (held < 32 → b.part = [] →
          (¬ tok < 4 * c.blk.k.scal → trap (.qpush h q a) { cause := 0x05, fld := 4 }) ∧
          (tok < 4 * c.blk.k.scal → Reg.s tok ∈ c.gang.busy ∨ s.outstanding c.uid (slicesIn e) true = true → waits (.qpush h q a)) ∧
          (tok < 4 * c.blk.k.scal → Reg.s tok ∉ c.gang.busy → s.outstanding c.uid (slicesIn e) true = false →
            pushed { p.performLate c.uid (LateStore.of (slicesIn e)) with nextUid := s.nextUid + 1 } (.s tok :: c.gang.busy)
              { b with part := [x], partSeq := s.nextUid + 1, partAfter := c.gang.joins.get [] q })) ∧
        (∀ w ws, held < 32 → b.part = w :: ws → pushed p c.gang.busy
          (if 5 + 2 * (w.toNat / 2 ^ 8 % 4) ≤ b.part.length + 1 then
            { b with part := [], cmds := b.cmds ++ [⟨b.partSeq, b.part ++ [x], b.partAfter⟩], partAfter := [] }
          else { b with part := b.part ++ [x] }))) ∧
    (Issues s c h (d.uses true ++ [⟨fA, .q q⟩]) →
      (c.gang.qbind q = .none → trap (.qpop h d q) { cause := 0x32, reg := q } ∧ trap (.qpopStat h d q) { cause := 0x32, reg := q }) ∧
      (∀ id b, c.gang.qbind q = .drill id → s.dbind? id = some b →
        (b.ret = [] → waits (.qpop h d q)) ∧
        (∀ w ws, b.ret = w :: ws → gives (.qpop h d q) (p.modDBind id fun b => { b with ret := ws }) w) ∧
        gives (.qpopStat h d q) p (BitVec.ofNat 64 (1 + 2 ^ 8 * (min 255 (b.cmds.length + if b.run.isSome then 1 else 0)) +
          2 ^ 16 * (b.ret.length % 32) + 2 ^ 24 * (b.part.length % 16) + 2 ^ 32 * (b.drop % 2 ^ 16) + 2 ^ 48 * (b.drill % 64)))) ∧
      (∀ b, c.gang.qbind q = .harrow → s.block? c.blk.uid = some b →
        (b.hq = [] → waits (.qpop h d q)) ∧
        (∀ w ws, b.hq = w :: ws → gives (.qpop h d q) (p.modBlock b.uid fun b => { b with hq := ws }) w) ∧
        gives (.qpopStat h d q) p (BitVec.ofNat 64 (2 + 2 ^ 16 * (b.hq.length % 32) + 2 ^ 32 * (b.hqDrop % 2 ^ 16)))))

/-- R320: `qfence` over the queues of a mask: what is pushed later to any of them, whatever it is then bound to, starts after every command that any of them
holds now, and so does a command of which a part is pushed; nothing else changes. `qfence.wait` does the same and then waits
for those commands and for its slices' earlier accesses, and acquires. An unbound queue of the mask traps with 0x32. -/
def Sys2Proof.Claims.QueueJoins : Prop :=
  ∀ (s : State) (c : Ctx) (h : Hdr) (mask : BitVec 4),
    let e := s.lanesFor c h
    let p := s.issuing c h
    let qs := (List.range 4).filter fun q => mask.getLsbD q
    let pending := fun (b : DBind) (n : Nat) => (∃ r, b.run = some r ∧ r.cmd.seq = n) ∨ ∃ k ∈ b.cmds, k.seq = n
    let before := fun n => ∃ q ∈ qs, ∃ id b, c.gang.qbind q = .drill id ∧ s.dbind? id = some b ∧ pending b n
    let joined := fun (t : State) (g' : Gang) => g'.data = { c.gang.data with joins := g'.joins, floor := g'.floor, lateStores := g'.lateStores } ∧
      (∀ q, (q ∉ qs ∨ ∀ id, c.gang.qbind q ≠ .drill id) → g'.joins.get [] q = c.gang.joins.get [] q) ∧
      (∀ id, (∀ q ∈ qs, c.gang.qbind q ≠ .drill id) → t.dbind? id = s.dbind? id) ∧
      ∀ q ∈ qs, ∀ id b, c.gang.qbind q = .drill id → s.dbind? id = some b → ∃ b', t.dbind? id = some b' ∧
        b' = { b with partAfter := b'.partAfter } ∧
        (∀ n, n ∈ g'.joins.get [] q ↔ before n ∨ (n ∈ c.gang.joins.get [] q ∧ ∃ x ∈ s.dbinds, pending x n)) ∧
        ∀ n, n ∈ b'.partAfter ↔ n ∈ b.partAfter ∨ (b.part ≠ [] ∧ before n)
    Issues s c h (qs.map fun q => ⟨fM, .q q⟩) → e ≠ 0#32 →
    (∀ first q rest, qs = first ++ q :: rest → (∀ j ∈ first, c.gang.qbind j ≠ .none) → c.gang.qbind q = .none →
      ∀ i ∈ [Instr.qfence h mask, .qfenceWait h mask], exec i s = .next (s.trapped c h { cause := 0x32, reg := q })) ∧
    ((∀ q ∈ qs, c.gang.qbind q = .harrow ∨ ∃ id b, c.gang.qbind q = .drill id ∧ s.dbind? id = some b ∧ b.q = q) →
      (∃ t g', exec (.qfence h mask) s = .next t ∧ Completed s { p with dbinds := t.dbinds } t c g' ∧ joined t g' ∧
        g'.floor = c.gang.floor ∧ g'.lateStores = c.gang.lateStores) ∧
      ((∀ n, ¬ before n) → s.outstanding c.uid (slicesIn e) true = false →
        ∃ t g', exec (.qfenceWait h mask) s = .next t ∧ t.rest = { p.rest with dbinds := t.dbinds, cores := t.rest.cores } ∧
          OnlyGang s t c g' ∧ SlicesAre c g' (s.passed c) ∧ TrapsKept c.gang g' ∧ g'.floor = s.turn ∧ joined t g') ∧
      ((∃ n, before n) ∨ s.outstanding c.uid (slicesIn e) true = true →
        ∃ t g' cmds, exec (.qfenceWait h mask) s = .next t ∧ Moved { p with dbinds := t.dbinds } t c g' (s.passing c) ∧ joined t g' ∧
          g'.floor = c.gang.floor ∧ g'.lateStores = c.gang.lateStores ∧ (∀ n, n ∈ cmds ↔ before n) ∧ Parked c g' (.qfence cmds e)))

namespace Sys2Proof.Machine.Ref

/-! A drill command's words (R280, R316). -/

def cmdWord (k : Cmd) (i : Nat) : Nat := (nth 0#64 k.words i).toNat
def cmdDims (k : Cmd) : Nat := cmdWord k 0 / 2 ^ 8 % 4 + 1
def cmdSize (k : Cmd) : Nat := 2 ^ (cmdWord k 0 / 2 ^ 10 % 4)
def cmdTok (k : Cmd) : Nat := cmdWord k 0 / 2 ^ 12 % 64
def cmdKind (k : Cmd) (dst : Bool) : Nat := cmdWord k 0 / (if dst then 2 ^ 20 else 2 ^ 18) % 4
def cmdCount (k : Cmd) (j : Nat) : Nat := if j < cmdDims k then cmdWord k (3 + 2 * j) % 2 ^ 32 else 1
def cmdStride (k : Cmd) (dst : Bool) (j : Nat) : Int :=
  if j < cmdDims k then (BitVec.ofNat 32 (cmdWord k (4 + 2 * j) / (if dst then 2 ^ 32 else 1))).toInt else 0

/-- How many elements a command has. -/
def cmdTotal (k : Cmd) : Nat := cmdCount k 0 * cmdCount k 1 * cmdCount k 2 * cmdCount k 3

/-- The place of element `i` on a side whose base is `base`: dimension 0 runs fastest (R317). -/
def cmdPos (k : Cmd) (dst : Bool) (base i : Nat) : Int :=
  let n0 := cmdCount k 0
  let n1 := cmdCount k 1
  let n2 := cmdCount k 2
  (base : Int) + (i % n0 : Nat) * cmdStride k dst 0 + (i / n0 % n1 : Nat) * cmdStride k dst 1 +
    (i / (n0 * n1) % n2 : Nat) * cmdStride k dst 2 + (i / (n0 * n1 * n2) : Nat) * cmdStride k dst 3

end Sys2Proof.Machine.Ref

namespace Sys2Proof.Machine.Ref

/-- The position that a side of a command begins at: row offsets and field rows have 32 bits (R316). -/
def cmdBase (k : Cmd) (dst : Bool) : Nat :=
  let w := cmdWord k (if dst then 2 else 1)
  if cmdKind k dst = 1 ∨ cmdKind k dst = 2 then w % 2 ^ 32 else w

/-- An element at a position of memory, or of a peer module: the drill's die translates it for the access (R316, R318, R69); an access of
KIND 0 meets no peer page, one of KIND 3 a peer page whose link is up. -/
def memSide (s : State) (b : DBind) (kind : Nat) (at' : Int) (need : Need) (pa : Nat) (u : State) : Prop :=
  (kind = 0 ∨ kind = 3) ∧ 0 ≤ at' ∧ at' < 2 ^ 56 ∧
  s.translate (256 + (s.place b.al 0 (b.drill / 16)).getD (b.drill / 16)) b.al at'.toNat need = .ok (pa, u) ∧
  (isPeer pa = true ↔ kind = 3) ∧ (kind = 3 → u.peerUp pa = true) ∧
  (if need = .write then u.isViewPage pa = false else u.damaged (pa / 128 * 128) = false)

/-- An element of `n` bytes at a position of rows: of the binding's block, or of the block of its cluster that a core of the field has
(R316, R72); none of its rows is spilled. -/
def rowSide (s : State) (b : DBind) (kind core : Nat) (at' : Int) (n : Nat) (x : Block) (o : Nat) : Prop :=
  (kind = 1 ∨ kind = 2) ∧ 0 ≤ at' ∧ at' < 2 ^ 32 ∧ s.block? x.uid = some x ∧ x.away = [] ∧ o + n ≤ 1024 * x.k.scratch ∧
  ∃ y, s.block? b.blk = some y ∧ (if kind = 1 then x = y ∧ o = at'.toNat else s.remoteTarget y core at'.toNat = some (x, o))

/-- What an element takes: the fill's bits, or what its source holds; `u` is the state once the source has been translated. -/
def takes (s : State) (b : DBind) (r : DRun) (fill : Bool) (at' : Int) (u : State) (byte : Nat → Byte) : Prop :=
  let k := r.cmd
  if fill then u = s ∧ ∀ i, byte i = BitVec.ofNat 8 (cmdWord k 1 / 2 ^ (8 * i))
  else (∃ pa, memSide s b (cmdKind k false) at' .read pa u ∧ ∀ i, byte i = u.mem.read (pa + i)) ∨
    ∃ x o, u = s ∧ rowSide s b (cmdKind k false) (r.src.getD b.core) at' (cmdSize k) x o ∧ ∀ i, byte i = x.rows.get 0#8 (o + i)

end Sys2Proof.Machine.Ref

/-- R281, R316 to R319, R321, R323: a drill's steps on a binding. The oldest command starts once the commands that a join puts before
it have ended, with the cores that its sides name. Each step then moves one element while the allotment's bytes of the period are not
spent and the binding has its drill's turn of 128 bytes (assumption 80): a fill or a copy, whose sides are memory, rows of the block or of
its cluster, or a peer module, at the place its counters give; nothing else changes. After the last one the token
register takes the count of bytes, and so does the completion word with the register's number, once the markings of its stores have
entered the harrows' queues (R267); a command with reserved bits set ends at once with code 0x01. -/
def Obligations.DrillSteps : Prop :=
  ∀ (s : State) (id : Nat) (b : DBind) (fill : Bool), s.dbind? id = some b →
    let i := if fill then Instr.drillFill b.al id else .drillCopy b.al id
    let mine := fun (k : Cmd) => (Ref.cmdWord k 0 % 256 = 2 ↔ fill = true)
    let room := (s.allot b.al).drillBytes < (s.allot b.al).quota.get 0 7
    let turn := ∀ x ∈ s.dbinds, x.al = b.al → x.drill = b.drill → x.id ≠ b.id → (∃ y, x.run = some y ∧ y.ending = none) →
      x.served = 0 ∧ (b.served ≠ 0 ∨ b.last < x.last ∨ (b.last = x.last ∧ b.id < x.id))
    let others := fun (t : State) => ∀ j, j ≠ id → t.dbind? j = s.dbind? j
    (∀ k rest, b.run = none → b.cmds = k :: rest → mine k →
      (∀ x ∈ s.dbinds, (∀ r, x.run = some r → r.cmd.seq ∉ k.after) ∧ ∀ y ∈ x.cmds, y.seq ∉ k.after) →
      ∃ t, exec i s = .next t ∧ t.rest = { s.rest with dbinds := t.dbinds } ∧ t.gangs = s.gangs ∧ others t ∧
        let core := fun (w : Nat) => s.fieldCore b.al b.core (Ref.cmdWord k w / 2 ^ 32 % 4)
        t.dbind? id = some { b with cmds := rest, run := some ⟨k, 0, 0, [], none, core 1, core 2⟩ }) ∧
    ∀ r, b.run = some r → mine r.cmd → s.plat.draining = false →
      let k := r.cmd
      let n := Ref.cmdSize k
      let ended := fun (b' : DBind) (bytes code : Nat) => ∃ t, exec i s = .next t ∧ t.mem = s.mem ∧
        (∀ x ∈ s.blocks, x.ended = false → x ∈ t.blocks) ∧ (∀ x ∈ t.blocks, x ∈ s.blocks) ∧ others t ∧
        t.dbind? id = some (if b.ret.length < 16 then
            { b' with run := none, ret := b.ret ++ [BitVec.ofNat 64 (bytes + Ref.cmdTok k * 2 ^ 48 + code * 2 ^ 56)] }
          else { b' with run := none, drop := min 0xFFFF (b.drop + 1) }) ∧
        ∀ g, s.gang? b.gang = some g → ∃ g', t.gang? b.gang = some g' ∧ g'.data = { g.data with s := g'.s, busy := g'.busy } ∧
          g'.slices = g.slices ∧ g'.groups = g.groups ∧ WroteS g g' (Ref.cmdTok k) (BitVec.ofNat 64 (bytes + code * 2 ^ 56)) ∧
          ∀ x, x ∈ g'.busy ↔ x ∈ g.busy ∧ x ≠ .s (Ref.cmdTok k)
      let good := r.idx = 0 → k.check r.src r.dst = 0
      let shifted := if b.served + n < 128 then { b with served := b.served + n } else { b with served := 0, last := s.turn }
      let spent := { b with served := 0, last := s.turn }
      let clear := s.entered (publisher id 0)
      let moved := fun (t : State) (lines : List Nat) => t.gangs = s.gangs ∧ others t ∧
        t.dbind? id = some { shifted with run := some { r with idx := r.idx + 1, n := r.n + n, lines := lines } } ∧
        (b.al < s.allots.length → (t.allot b.al).drillBytes = (s.allot b.al).drillBytes + n)
      (∀ code, r.ending = some code → clear = false → exec i s = .next s) ∧
      (∀ code, clear = true → r.ending = some code → ended b r.n code) ∧
      (clear = true → r.ending = none → r.idx = 0 → r.lines = [] → Ref.cmdWord k 0 / 2 ^ 22 ≠ 0 → ended spent r.n 1) ∧
      (clear = true → r.ending = none → good → r.lines = [] → Ref.cmdTotal k ≤ r.idx → ended spent r.n 0) ∧
      (r.ending = none → good → r.idx < Ref.cmdTotal k → ¬ room ∨ ¬ turn → exec i s = .next s) ∧
      (r.ending = none → good → r.idx < Ref.cmdTotal k → room → turn →
        let dst := Ref.cmdPos k true (Ref.cmdBase k true) r.idx
        let src := Ref.cmdPos k false (Ref.cmdBase k false) r.idx
        ∀ u byte, Ref.takes s b r fill src u byte →
        (∀ x o, Ref.rowSide u b (Ref.cmdKind k true) (r.dst.getD b.core) dst n x o →
          ∃ t x', exec i s = .next t ∧ moved t r.lines ∧
            t.rest = { u.rest with blocks := t.blocks, dbinds := t.dbinds, allots := t.rest.allots } ∧
            t.block? x.uid = some x' ∧ x' = { x with rows := x'.rows, raws := x'.raws } ∧ (∀ m, m ≠ x.uid → t.block? m = s.block? m) ∧
            ∀ m, x'.rows.get 0#8 m = if o ≤ m ∧ m < o + n then byte (m - o) else x.rows.get 0#8 m) ∧
        ∀ pa v, Ref.memSide u b (Ref.cmdKind k true) dst .write pa v →
          ∃ t lines, exec i s = .next t ∧ moved t lines ∧ (∀ x, x ∈ lines ↔ x ∈ r.lines ∨ x = pa / 128 * 128) ∧
            (let z := { v.rest with mem := t.mem, vers := t.vers, owners := t.owners, writes := t.writes, met := t.met }
             t.rest = { z with dbinds := t.dbinds, allots := t.rest.allots }) ∧
            (∀ a, t.mem.read a = if pa ≤ a ∧ a < pa + n then byte (a - pa) else v.mem.read a) ∧
            t.version (pa / 128 * 128) = v.version (pa / 128 * 128) + 1)

/-- R291 to R293, R139, R126: `launch`, once earlier accesses of its slices have performed, publishes at device scope and reads the
record and the header as opens would. While its allotment's queue holds 4,096 launches it waits; else the launch that the words
describe is entered with the allotment's next identifier, which the scalar takes. A record at an address that is no multiple of
64, or one with a grid or a thread count of zero, no launch mode or a class above the quota's, traps with 0x35 and the number
of the check, and nothing is entered. A launch that traps leaves nothing, though it has published (assumption 68). -/
def Sys2Proof.Claims.LaunchWords : Prop :=
  ∀ (s q : State) (c : Ctx) (h : Hdr) (sd sa : Nat) (gu : Gang), Issues s c h [⟨fD, .s sd⟩, ⟨fA, .s sa⟩] → s.lanesFor c h ≠ 0#32 →
    let e := s.lanesFor c h
    let p := s.issuing c h
    let rec' := (p.readS c.gang sa).toNat
    let queued := fun (u : State) => ((u.allot c.al).launches.filter fun l => !l.complete && !l.hl).length
    let busy := s.outstanding c.uid (slicesIn e) true
    let trap := fun (k : Nat) => exec (.launch h sd sa) s = .next (s.trapped c h { cause := 0x35, kind := k, info1 := rec' })
    (busy = true → ∃ t g', exec (.launch h sd sa) s = .next t ∧ Moved s t c g' c.gang.slice ∧ g'.data = c.gang.data) ∧
    (busy = false → (p.performLate c.uid (LateStore.of (slicesIn e))).publish c .device (slicesIn e) = .ok q →
      (rec' % 64 ≠ 0 → trap 0) ∧
      ∀ bs hb u0 u1, rec' % 64 = 0 → q.readAsOpen c rec' 64 = .ok (bs, u0) →
        let w := fun i => ofBytes ((bs.drop (8 * i)).take 8)
        let k := fun i => ofBytes ((hb.drop (8 * i)).take 8)
        (w 0 % 128 ≠ 0 ∨ 2 ^ 56 ≤ w 0 → trap 0) ∧
        (w 0 % 128 = 0 → w 0 < 2 ^ 56 → u0.readAsOpen c (w 0) 64 = .ok (hb, u1) → u1.rangeOk c.core c.al (w 0) 64 .exec = true →
          (w 1 % 2 ^ 32 = 0 ∨ w 1 / 2 ^ 32 % 2 ^ 10 = 0 ∨ 512 < w 1 / 2 ^ 32 % 2 ^ 10 ∨ w 1 / 2 ^ 45 % 4 = 3 ∨
            (s.allot c.al).quota.get 0 11 < w 1 / 2 ^ 47 % 4 → trap 1) ∧
          ∀ l u, q.readLaunch (gangReader c) c.core c.al (q.topClass c) rec' false = .ok (l, u) →
            let lid := (u.allot c.al).lids + 1
            (l.grid = w 1 % 2 ^ 32 ∧ l.threads = w 1 / 2 ^ 32 % 2 ^ 10 ∧ l.csize = w 1 / 2 ^ 42 % 8 + 1 ∧ l.mode = w 1 / 2 ^ 45 % 4 ∧
              l.prio = w 1 / 2 ^ 47 % 4 ∧ l.seed.toNat = w 3 % 2 ^ 64 ∧ l.spill.toNat = w 4 % 2 ^ 64 ∧ l.crec = w 5 ∧
              l.node = w 6 % 64 ∧ l.graph = w 6 / 2 ^ 16 % 2 ^ 16 ∧ l.stage = w 6 / 2 ^ 32 % 2 ^ 16 ∧ l.vi = w 6 / 2 ^ 48 % 64 ∧
              l.deps.toNat = w 7 % 2 ^ 64 ∧ l.k.kaddr = w 0 ∧ l.k.entry = k 0 % 2 ^ 32 ∧ l.k.trap = k 3 % 2 ^ 32 ∧
              l.k.regs = k 1 % 64 ∧ l.k.scal = k 1 / 2 ^ 6 % 32 ∧ l.k.lines = k 1 / 2 ^ 11 % 32 ∧ l.k.tiles = k 1 / 2 ^ 16 % 16 ∧
              l.k.queues = k 1 / 2 ^ 20 % 8 ∧ l.k.scratch = k 1 / 2 ^ 23 % 2 ^ 9) ∧
            (4096 ≤ queued u → ∃ t g', exec (.launch h sd sa) s = .next t ∧ t.gang? c.uid = some g' ∧ SlicesAre c g' c.gang.slice ∧
              (t.allot c.al).launches = (s.allot c.al).launches) ∧
            (queued u < 4096 → u.gang? c.uid = some gu → ∃ t g', exec (.launch h sd sa) s = .next t ∧ OnlyGang u t c g' ∧
              SlicesAre c g' (s.passed c) ∧ TrapsKept c.gang g' ∧
              g'.data = { gu.data with s := g'.s } ∧ WroteS gu g' sd (BitVec.ofNat 64 (lid % 2 ^ 32)) ∧
              (c.al < u.allots.length → (t.allot c.al).lids = lid ∧
                (t.allot c.al).launches.length = (u.allot c.al).launches.length + 1 ∧
                ∃ x ∈ (t.allot c.al).launches, x.lid = lid ∧ x.complete = false ∧ x.dealt = 0 ∧ x.done = 0 ∧ x.k = l.k ∧
                  x.grid = l.grid ∧ x.threads = l.threads ∧ x.args = l.args ∧ x.deps = l.deps))))

/-- R297, R301, R302: `cread` of an identifier gives the blocks done, CLOSED, COMPLETE and the cause of a launch, or bit 34 alone
where it names none; a COMPLETE status waits for its slices' earlier accesses (assumption 68) and acquires. `cancel` of what is named no more or
complete does nothing; of a launch that is not, it marks it with cause 0x34 at the launch level and parks until it is complete. -/
def Sys2Proof.Claims.StatusWords : Prop :=
  ∀ (s : State) (c : Ctx) (h : Hdr) (d : Dst) (sa : Nat), s.lanesFor c h ≠ 0#32 →
    let e := s.lanesFor c h
    let p := s.issuing c h
    let a := s.allot c.al
    let ident := p.readS c.gang sa
    let named := a.launches.reverse.find? fun x => !x.hl && x.lid % 2 ^ 32 == ident.toNat && (!x.complete || a.completions < x.completeNo + 4096)
    let word := match named with
      | none => 0x400000000#64
      | some l => BitVec.ofNat 64 (l.done % 2 ^ 32 + 2 ^ 32 + (if l.complete then 2 ^ 33 else 0) + l.cause % 64 * 2 ^ 35)
    let done := ∃ l, named = some l ∧ l.complete = true
    let busy := s.outstanding c.uid (slicesIn e) true
    (Issues s c h (d.uses true ++ [⟨fA, .s sa⟩]) →
      (done → busy = true → ∃ t g', exec (.cread h .launch d sa) s = .next t ∧ Moved s t c g' c.gang.slice ∧ g'.data = c.gang.data) ∧
      (∀ u, ¬ done → p.delivers c e d word = .ok u → ∃ t g', exec (.cread h .launch d sa) s = .next t ∧ Completed s u t c g' ∧
        (u.gang? c.uid).map (·.busy) = some g'.busy ∧ WroteD c.gang g' false true e d fun _ => word) ∧
      ∀ u, done → busy = false → (p.performLate c.uid (LateStore.of (slicesIn e))).delivers c e d word = .ok u →
        ∃ t g', exec (.cread h .launch d sa) s = .next t ∧ t.rest = { u.rest with cores := t.rest.cores } ∧
          OnlyGang s t c g' ∧ SlicesAre c g' (s.passed c) ∧ TrapsKept c.gang g' ∧ g'.floor = s.turn ∧
          WroteD c.gang { g' with floor := c.gang.floor, lateStores := c.gang.lateStores } false true e d fun _ => word) ∧
    (Issues s c h [⟨fA, .s sa⟩] →
      (named = none ∨ done → ∃ t g', exec (.cancel h .launch sa) s = .next t ∧ Completed s p t c g' ∧ g'.data = c.gang.data) ∧
      ∀ l, named = some l → l.complete = false → c.gang.isOver = false → c.gang.live ≠ 0#32 →
        (∀ k ∈ c.grp.slices, c.gang.live &&& sliceMask k ≠ 0#32) →
        (∀ b ∈ s.blocks, ¬ (b.al = c.al ∧ b.lid = l.lid)) →
        ∃ t g', exec (.cancel h .launch sa) s = .next t ∧ t.gang? c.uid = some g' ∧ g'.data = c.gang.data ∧
          SlicesAre c g' (s.passing c) ∧ Parked c g' (.cancel .launch ident) ∧
          ∃ x ∈ (t.allot c.al).launches, x = { l with cause := 0x34, clevel := 1, cancelled := true, arrivals := [] })

/-- R310, R139, R283: `amsend` publishes and puts its handler's number and the words of its lowest acting slice into the sower's queue
of the core that a logical number names, unless that holds 64 messages of its allotment: pD tells, and the publish stands (assumption
68). An unmapped core traps with
0x09, a handler that the kernel has not with 0x37. `resamp` publishes, sends each live lane's weight, +0 for a lane that is not
enabled, and parks; in a kernel that is no population it traps with 0x36. -/
def Sys2Proof.Claims.MessagesAndWeights : Prop :=
  ∀ (s p : State) (c : Ctx) (h : Hdr) (pd v : Nat) (a b : Src) (os : List Opnd),
    let e := s.lanesFor c h
    (Issues s c h ((⟨fD, .p pd⟩ : Use) :: a.uses fA false ++ b.uses fB false ++ (List.range 4).map fun j => ⟨fC, .v (v + j)⟩) →
      ∀ oa ob, e ≠ 0#32 → s.operands c h [a, b] = .ok ([oa, ob], p) →
      let core := (p.opVal c false oa (lowLane e)).toNat
      let idx := (p.opVal c false ob (lowLane e)).toNat
      let trap := fun (x : TrapInfo) => exec (.amsend h pd a b v) s = .next (s.trapped c h x)
      (s.place c.al 2 core = none → trap { cause := 0x09, fld := fA, info1 := core }) ∧
      ∀ phys, s.place c.al 2 core = some phys →
        (c.blk.k.hcount ≤ idx → trap { cause := 0x37, lane := lowLane e, info1 := idx }) ∧
        ∀ q, idx < c.blk.k.hcount → p.outstanding c.uid (slicesIn e) true = false →
          (p.performLate c.uid (LateStore.of (slicesIn e))).publish c .device (slicesIn e) = .ok q →
          let full := 64 ≤ ((q.core phys).sower.filter fun m => m.al == c.al).length
          let k := (slicesIn e).headD 0
          ∃ t g', exec (.amsend h pd a b v) s = .next t ∧ t.rest = { q.rest with cores := t.rest.cores } ∧ OnlyGang s t c g' ∧
            SlicesAre c g' (s.passed c) ∧ TrapsKept c.gang g' ∧ g'.data = { c.gang.data with p := g'.p, stored := g'.stored, lateStores := g'.lateStores } ∧
            (full → WroteP c.gang g' pd e (fun _ => false) ∧ (t.core phys).sower = (q.core phys).sower) ∧
            (¬ full → WroteP c.gang g' pd e (fun _ => true) ∧ (phys < q.cores.length →
              ∃ m, (t.core phys).sower = (q.core phys).sower ++ [m] ∧ m.al = c.al ∧ m.lid = c.blk.lid ∧ m.handler = idx ∧
                ∀ j l, j < 4 → l < 4 → m.payload.get 0#32 (32 * j + l) =
                  if e.getLsbD (4 * k + l) then q.readV c.gang (v + j) (4 * k + l) else 0#32))) ∧
    (Issues s c h ((⟨fD, .p pd⟩ : Use) :: a.uses fA false) →
      (c.blk.k.pop = false ∨ c.blk.handler = true → exec (.resamp h pd a) s = .next (s.trapped c h { cause := 0x36 })) ∧
      ∀ q, c.blk.k.pop = true → c.blk.handler = false → s.operands c h [a] = .ok (os, p) →
        p.outstanding c.uid c.grp.slices true = false →
        (p.performLate c.uid (LateStore.of c.grp.slices)).publish c .device c.grp.slices = .ok q →
        ∃ t g', exec (.resamp h pd a) s = .next t ∧ t.rest = { q.rest with allots := t.rest.allots } ∧ OnlyGang s t c g' ∧
          SlicesAre c g' (s.passing c) ∧ TrapsKept c.gang g' ∧
          g'.data = { c.gang.data with stored := g'.stored, lateStores := g'.lateStores } ∧
          Parked c g' (.resamp pd) ∧
          ∀ l, q.launch? c.al c.blk.lid = some l → ∃ xs, t.launch? c.al c.blk.lid = some { l with arrivals := l.arrivals ++ xs } ∧
            xs.map (·.lane) = lanesOf c.liveLanes ∧ ∀ x ∈ xs, x.gang = c.uid ∧
              x.weight = if e.getLsbD x.lane then
                  (q.opHead c os (if h.uni then lowLane (e &&& sliceMask (x.lane / 4)) else x.lane)).setWidth 32
                else 0#32)

/-- R296, R304 to R307: what dispatchers do. The package dispatcher deals to the launch that entered first, among those
that run, are not cancelled, have their dependences complete and find a die with room: its next 64 blocks, or as many whole clusters, go to a die as
one batch, and the rotation moves on. A die that takes from another takes half of its batches, those of the highest blocks. A
group that has been eligible for 1,024 cycles is marked to go first. -/
def Sys2Proof.Claims.DealingWork : Prop :=
  (∀ s : State,
    (s.waiting.Pairwise fun x y => x.2.entered ≤ y.2.entered) ∧
    (∀ al l, (al, l) ∈ s.waiting ↔ al < 16 ∧ (s.allot al).st = .running ∧ l ∈ (s.allot al).launches ∧ l.hl = false ∧
      l.complete = false ∧ l.cancelled = false ∧ l.dealt < l.grid ∧
      ∀ n, n < 64 → l.deps.getLsbD n = true → ∃ x ∈ (s.allot al).launches, x.hl = false ∧ x.vi = l.vi ∧ x.job = l.job ∧
        x.stage = l.stage ∧ x.graph = l.graph ∧ x.node = n ∧ x.complete = true) ∧
    (s.waiting = [] → exec .batchDeal s = .next s) ∧
    ∀ al l before rest d, s.waiting = before ++ (al, l) :: rest → (∀ x ∈ before, s.dealTo x.1 x.2 = none) → s.dealTo al l = some d →
      let hi := min l.grid (l.dealt + 64 / l.csize * l.csize)
      ∃ t, exec .batchDeal s = .next t ∧ t.gangs = s.gangs ∧
        t.rest = { s.rest with
          batches := s.batches ++ [⟨al, l.lid, d, l.dealt, hi⟩]
          plat := { s.plat with dealDie := (d + 1) % 4 }
          allots := t.rest.allots
        } ∧
        ∀ x ∈ (t.allot al).launches, x.lid = l.lid → x.dealt = hi) ∧
  (∀ (s : State) (die al lid v : Nat) (l : Launch), s.launch? al lid = some l →
    let of := fun (d : Nat) => s.batches.filter fun b => b.al == al && b.lid == lid && b.die == d
    die < 4 → v < 4 → (∀ b ∈ s.batches, s.dieOf b.al b.die ≠ s.dieOf al die) → l.cancelled = false → s.waiting = [] →
    s.dieRoom al l die ≠ 0 → (∀ d, d < 4 → d ≠ v → (of d).length < (of v).length) →
    ∃ f : Batch → Bool, exec (.steal die al lid) s =
        .next { s with batches := s.batches.map fun b => if f b then { b with die := die } else b } ∧
      (∀ b ∈ s.batches, f b = true → b ∈ of v) ∧ (∀ x ∈ of v, ∀ y ∈ of v, f x = true → f y = false → y.lo ≤ x.lo) ∧
      (s.batches.Nodup → (s.batches.filter f).length = (of v).length / 2)) ∧
  ∀ (s : State) (k : GroupKey) (c : Ctx), s.ctx k = some c →
    (∀ t, s.eligible c = true → c.grp.readySince = some t → t + 1024 ≤ s.clock → ∃ u g' y, exec (.promotion k) s = .next u ∧
      u.rest = s.rest ∧ OnlyGang s u c g' ∧ g'.data = c.gang.data ∧ g'.slices = c.gang.slices ∧ y ∈ g'.groups ∧ y.low = c.grp.low ∧
      y.promoted = true) ∧
    (s.eligible c = false ∨ (c.grp.promoted = false ∧ ∀ t, c.grp.readySince = some t → s.clock < t + 1024) → exec (.promotion k) s = .next s)

/-- R17, R28, R34, R305, R311: what a placed block is. The next block of the lowest batch of its launch, no older launch's fitting,
and a sower's oldest message that fits, take their places: a block with its number, or a handler block with none; its gangs, one
for each 32 threads, with the live lanes of the threads, the counters at the entry, or at the handler, the arguments in their
scalars and the words of the message in the registers, and everything else zero. -/
def Obligations.PlacedBlocks : Prop :=
  ∀ (s : State) (al lid core : Nat) (l : Launch), s.launch? al lid = some l → (s.allot al).st = .running →
    (∀ b ∈ s.blocks, b.core = core → b.al = al) →
    (∀ g ∈ s.gangs, g.core = core → ∀ b ∈ s.blocks, b.uid = g.blk → b.al = al) → (∀ x ∈ (s.core core).held, x.al = al) →
    let clean := fun (g : Gang) (n : Nat) (k : Kernel) (entry slot : Nat) => g.core = core ∧ g.slot = slot ∧ g.active = g.live ∧
      g.p = [] ∧ g.refs = [] ∧ g.tiles = [] ∧ g.qb = [] ∧ g.busy = [] ∧ g.shadows = [] ∧ g.lateStores = [] ∧ g.lateLoads = [] ∧ g.floor = s.turn ∧ g.gfault = 0#64 ∧ g.fflag = 0#64 ∧
      (∀ lane, lane < 32 → g.live.getLsbD lane = decide (lane < n)) ∧
      (∀ j, g.s.get 0#64 j = if j < 16 ∧ j < 4 * k.scal then nth 0#64 l.args j else 0#64) ∧
      ∀ j, j < 8 → g.live &&& sliceMask j ≠ 0#32 → (g.slice j).pc = entry ∧ (g.slice j).stack = [] ∧ (g.slice j).fmt = 0#32
    (∀ (die bid : Nat) (b : Batch) (p : Spot), s.nextBatch al lid die = some b → l.cancelled = false → s.olderFits al l die = false →
      s.spots al l die b.lo = some [p] → p.core = core → p.bid = bid → l.csize = 1 → l.k.inhv = false →
      (∀ m ∈ (s.core core).sower, ¬ (m.al = al ∧ m.lid = lid)) →
      ∃ t x gs, exec (.blockPlace die al lid) s = .next t ∧ t.blocks = s.blocks ++ [x] ∧ t.gangs = s.gangs ++ gs ∧ t.mem = s.mem ∧
        x.al = al ∧ x.lid = lid ∧ x.core = core ∧ x.bid = bid ∧ x.k = l.k ∧ x.rows = [] ∧ x.handler = false ∧ x.ended = false ∧
        x.threads = l.threads ∧ gs.length = (l.threads + 31) / 32 ∧
        (∀ y, y ∈ t.batches ↔ (y ∈ s.batches ∧ y ≠ b) ∨ (b.lo + 1 < b.hi ∧ y = { b with lo := b.lo + 1 })) ∧
        (∀ i g, gs[i]? = some g → g.gid = i ∧ g.blk = x.uid ∧ g.v = [] ∧
          clean g (l.threads - 32 * i) l.k (l.k.kaddr + l.k.entry) (nth 0 p.slots i)) ∧
        (t.launch? al lid).map (·.placed) = some (l.placed + 1)) ∧
    (∀ m, (s.core core).sower.filter (fun m => m.al == al) = [m] → m.lid = lid → 0 < s.blockRoom al core l.k 1 [] →
      ∃ t x g, exec (.handlerSpawn core al) s = .next t ∧ t.blocks = s.blocks ++ [x] ∧ t.gangs = s.gangs ++ [g] ∧ t.mem = s.mem ∧
        x.al = al ∧ x.lid = lid ∧ x.core = core ∧ x.handler = true ∧ x.k = l.k ∧ x.rows = [] ∧ x.threads = 4 ∧
        g.gid = 0 ∧ g.blk = x.uid ∧ g.v = m.payload ∧
        clean g 4 l.k (l.k.kaddr + nth 0 l.k.handlers m.handler) ((s.slotsFor al core l.k []).headD 0) ∧
        (core < s.cores.length → (t.core core).sower = (s.core core).sower.erase m))

/-- R296, R299, R300: a launch of which nothing is left, neither a block, a message, an atomic request nor a drill command, completes, unless its allotment is STOPPED (R347):
it counts as the next completion of its allotment. Its completion record, where it has one, holds the cause, the level of a
cancel, its identifier, the counts of blocks and the virtual cycles, and the words of each block's gangs. -/
def Sys2Proof.Claims.LaunchesComplete : Prop :=
  ∀ (s : State) (al lid : Nat) (l : Launch), s.launch? al lid = some l → l.hl = false → l.complete = false →
    let left := (∃ b ∈ s.blocks, b.al = al ∧ b.lid = l.lid ∧ b.ended = false) ∨
      (∃ k ∈ s.cores, ∃ m ∈ k.sower, m.al = al ∧ m.lid = l.lid) ∨ (∃ r ∈ s.reqs, r.al = al ∧ r.lid = l.lid) ∨
      (∃ b ∈ s.dbinds, b.al = al ∧ b.lid = l.lid ∧ (b.run.isSome = true ∨ b.cmds ≠ [])) ∨ (l.cancelled = false ∧ l.done < l.grid)
    (left ∨ (s.allot al).st = .stopped → exec (.launchComplete al lid) s = .next s) ∧
    (¬ left → (s.allot al).st ≠ .stopped → l.mode = 0 →
      let n := (s.allot al).completions + 1
      let bytes := fun (ws : List Nat) => (List.range 16).flatMap fun i => toBytes 8 (nth 0 ws i)
      let cycles := match l.startClk with | some t => (s.allot al).vclk.toNat - t | none => 0
      let u := if l.crec = 0 then s else (List.range l.grid).foldl
        (fun s b => s.moduleWrite al (l.crec + 128 * (1 + b)) (bytes ((l.recs.get [] b).map fun w => w.toNat)))
        (s.moduleWrite al l.crec (bytes [l.cause % 64 + (if l.cause = 0x34 then l.clevel % 8 else 0) * 2 ^ 8 + l.lid % 2 ^ 32 * 2 ^ 32,
          l.exited, l.faulted, cycles]))
      ∃ t, exec (.launchComplete al lid) s = .next t ∧ t.mem = u.mem ∧ t.gangs = s.gangs ∧ t.blocks = s.blocks ∧
        (t.allot al).completions = n ∧ ∀ x ∈ (t.allot al).launches, x.lid = lid → x.complete = true ∧ x.completeNo = n)

namespace Sys2Proof.Machine.Ref

/-- A weight as R284 sanitises it. -/
def weight (w : W32) : Rat :=
  if nan32 w = true ∨ w.msb = true then 0 else if w = 0x7F800000#32 then val fp32 0x7F7FFFFF else val fp32 w.toNat

/-- The dibble function of R285. -/
def dibble (k c : W64) : W64 :=
  let x := [(1, 13), (2, 15), (3, 26), (4, 6), (5, 17), (6, 29)].foldl
    (fun (x : W32 × W32) (y : Nat × Nat) =>
      let x0 := x.1 + x.2 + BitVec.ofNat 32 y.1 * 0x9E3779B9#32
      (x0, x.2.rotateLeft y.2 ^^^ x0))
    (c.extractLsb' 0 32 ^^^ k.extractLsb' 0 32, c.extractLsb' 32 32 ^^^ k.extractLsb' 32 32)
  (x.2 + k.extractLsb' 0 32) ++ (x.1 + k.extractLsb' 32 32)

/-- F of R286 for N members, an offset and a total. -/
def below (n u total c : Nat) : Nat := ((List.range n).filter fun k => decide ((k * 2 ^ 64 + u) * total < n * c * 2 ^ 64)).length

end Sys2Proof.Machine.Ref

/-- R282 to R289: the resample of a population of one gang in one block, all of whose live lanes have arrived. With no weight above
zero no register changes, ZERO is set and pD cleared. Else the count goes up, each member has as many offspring as the points
of systematic resampling that fall to it, a member with none takes the registers of the population's range and the predicates of
the clone's parent matched to it, with zeros in its other registers; lineages name the count, the parent and the slot; the line
registers are closed and pD is set. -/
def Obligations.Resampling : Prop :=
  ∀ (s : State) (al pd : Nat) (l : Launch) (g : Gang) (b : Block) (x : Group) (wt : Nat → W32) (W : Nat → Nat),
    s.gangs = [g] → s.blocks = [b] → g.blk = b.uid → b.al = al → b.lid = l.lid → b.handler = false → b.ended = false → b.bid = 0 →
    g.gid = 0 → g.groups = [x] → x.wait = .resamp pd → x.sw = false → g.isOver = false → g.spilled = false → g.live ≠ 0#32 →
    (∀ k, k < 32 → g.live.getLsbD k = true → k / 4 ∈ x.slices) → s.launch? al l.lid = some l → (s.allot al).st = .running →
    l.grid ≤ l.placed → l.cancelled = false → l.complete = false →
    let ls := lanesOf g.live
    (∀ k ∈ ls, l.arrivals.find? (fun a => a.gang == g.uid && a.lane == k) = some ⟨g.uid, k, wt k⟩) →
    let sane := ∃ k ∈ ls, Ref.nan32 (wt k) = true ∨ ((wt k).msb = true ∧ wt k ≠ 0x80000000#32)
    let clamped := ∃ k ∈ ls, wt k = 0x7F800000#32
    let retired := fun (k : Nat) => (g.slice k).retc + BitVec.ofNat 64 (if x.owes then x.slices.count k else 0)
    let ends := fun (t : State) (g' : Gang) (count z : Nat) => t.gang? g.uid = some g' ∧ g'.live = g.live ∧
      (∀ k, k < g.slices.length → g'.slice k = { g.slice k with retc := retired k }) ∧
      (∀ y ∈ g'.groups, y.wait = .none) ∧ ∃ l', t.launch? al l.lid = some l' ∧ l' = { l with pstat := l'.pstat, arrivals := [] } ∧
        l'.pstat.toNat % 2 ^ 48 = count ∧ (l'.pstat.getLsbD 48 = true ↔ sane) ∧ (l'.pstat.getLsbD 49 = true ↔ clamped) ∧
        l'.pstat.toNat / 2 ^ 50 = z
    let old := l.pstat.toNat % 2 ^ 48
    ((∀ k ∈ ls, Ref.weight (wt k) = 0) → ∃ t g', exec (.resampleComplete al l.lid) s = .next t ∧ t.mem = s.mem ∧ ends t g' old 1 ∧
      g'.data = { g.data with p := g'.p, floor := g'.floor } ∧ WroteP g g' pd g.live fun _ => false) ∧
    ∀ E : Int, (∃ k ∈ ls, Ref.pow2 E ≤ Ref.weight (wt k)) → (∀ k ∈ ls, Ref.weight (wt k) < Ref.pow2 (E + 1)) →
      (∀ k ∈ ls, (W k : Rat) ≤ Ref.weight (wt k) * Ref.pow2 (86 - E) ∧ Ref.weight (wt k) * Ref.pow2 (86 - E) < (W k : Rat) + 1) →
      let n := ls.length
      let total := (ls.map W).sum
      let count := (old + 1) % 2 ^ 48
      let f := Ref.below n (Ref.dibble l.seed (BitVec.ofNat 64 count)).toNat total
      let o := fun k => f ((ls.filter (· ≤ k)).map W).sum - f ((ls.filter (· < k)).map W).sum
      let pairs := (ls.flatMap fun k => List.replicate (o k - 1) k).zip (ls.filter fun k => o k == 0)
      (ls.map o).sum = n ∧
      ∃ t g', exec (.resampleComplete al l.lid) s = .next t ∧ t.mem = s.mem ∧ ends t g' count 0 ∧
        g'.data = { g.data with v := g'.v, p := g'.p, lineage := g'.lineage, refs := [], floor := g'.floor } ∧
        (∀ k ∈ ls, o k ≠ 0 → (∀ m, g'.vAt m k = g.vAt m k) ∧
          g'.lineage.get 0#64 k = BitVec.ofNat 64 (k + k * 2 ^ 24 + count % 2 ^ 16 * 2 ^ 48) ∧
          ∀ m, m ≠ pd → (g'.p.get 0#32 m).getLsbD k = (g.p.get 0#32 m).getLsbD k) ∧
        (∀ q k, (q, k) ∈ pairs →
          (∀ m, m < 8 * l.k.regs → g'.vAt m k = if l.k.popa ≤ m ∧ m ≤ l.k.popb then g.vAt m q else 0#32) ∧
          g'.lineage.get 0#64 k = BitVec.ofNat 64 (k + q * 2 ^ 24 + count % 2 ^ 16 * 2 ^ 48) ∧
          ∀ m, m < 7 → m ≠ pd → (g'.p.get 0#32 m).getLsbD k = (g.p.get 0#32 m).getLsbD q) ∧
        (∀ k, k < 32 → k ∉ ls → (∀ m, g'.vAt m k = g.vAt m k) ∧ g'.lineage.get 0#64 k = g.lineage.get 0#64 k) ∧
        (pd ≠ 7 → ∀ k ∈ ls, (g'.p.get 0#32 pd).getLsbD k = true)

/-- R141, R144, R44, R40, R246, R289, R349, R370: `sread` gives the register a number names, RETC by the slice of each lane. A number
of the ranges that are the headland's, or the operator's headland's alone, traps with 0x08 elsewhere, whatever the guard enables; a register that is only
written with 0x3B kind 2; a number that no chapter assigns with 0x3B kind 1 (FIELD 6 of 0x08, and KIND 2 of a read: assumption 37). -/
def Sys2Proof.Claims.SystemRegisterReads : Prop :=
  ∀ (s : State) (c : Ctx) (h : Hdr) (d : Dst) (n : BitVec 9), s.cur.bind s.ctx = some c →
    let e := s.lanesFor c h
    let p := s.issuing c h
    let i := Instr.sread h d n
    let trap := fun (x : TrapInfo) => exec i s = .next (s.trapped c h x)
    let shut := (0x080 ≤ n.toNat ∧ n.toNat < 0x100 ∧ c.blk.headland = false) ∨ (0x100 ≤ n.toNat ∧ ¬ (c.blk.headland = true ∧ c.blk.al = 0))
    let a := s.allot c.al
    let x := c.gang
    let code := fun (st : AState) => match st with | .free => 0 | .ready => 1 | .running => 2 | .fallow => 3 | .stopped => 4
    let bits := fun (w : BitVec 32) => w.toNat % 2 ^ (4 * c.blk.k.tiles)
    (shut → exec i s = .next (s.trapNow c s.word { cause := 0x08, fld := 6 } 0)) ∧
    (Issues s c h (d.uses true) → e ≠ 0#32 →
      (¬ shut → n ∈ [0x083#9, 0x086, 0x087, 0x08C, 0x08F, 0x184, 0x1B0, 0x1B2] → trap { cause := 0x3B, kind := 2, info1 := n.toNat }) ∧
      (¬ shut → n ∈ [0x005#9, 0x00F, 0x017, 0x07F, 0x090, 0x0FF, 0x112, 0x11F, 0x182, 0x185, 0x190, 0x19F, 0x1B3, 0x1BF] →
        trap { cause := 0x3B, kind := 1, info1 := n.toNat }) ∧
      ∀ f : Nat → W64, ¬ shut → ((n, f) ∈ [
          (0x000#9, fun _ => c.grp.tcause), (0x001, fun _ => c.grp.tpc), (0x002, fun _ => c.grp.tword), (0x003, fun _ => c.grp.tinfo0),
          (0x004, fun _ => c.grp.tinfo1),
          (0x010, fun _ => BitVec.ofNat 64 ((if c.blk.chain then 1 else 0) + (if c.blk.k.pop && !c.blk.handler then 2 else 0) +
            2 ^ 6 * ((c.blk.ngang - 1) % 16) + 2 ^ 12 * (c.blk.cpos % 8) + 2 ^ 16 * ((c.blk.csize - 1) % 8))),
          (0x011, fun _ => x.gfault), (0x012, fun _ => c.blk.clmap), (0x013, fun _ => x.fflag),
          (0x014, fun _ => BitVec.ofNat 64 (bits x.tvalid + 2 ^ 32 * bits x.tdirty)),
          (0x016, fun l => (x.slice (l / 4)).retc),
          (0x080, fun _ => a.trbase), (0x081, fun _ => a.trhead), (0x082, fun _ => a.trtail),
          (0x084, fun _ => BitVec.ofNat 64 (c.al + 16 * code a.st)), (0x089, fun _ => a.sampctl), (0x08A, fun _ => a.stopwho),
          (0x08B, fun _ => a.stopcnt), (0x08D, fun _ => if 4095 < a.cntsel.toNat then 0 else a.bank.get 0#64 a.cntsel.toNat),
          (0x08E, fun _ => a.pt1),
          (0x111, fun _ => s.regs.opwin), (0x180, fun _ => s.regs.trmask), (0x181, fun _ => s.regs.trtrig),
          (0x183, fun _ => s.regs.trctl), (0x1B1, fun _ => s.regs.pcap)] ∨
        (n = 0x088#9 ∧ f = fun _ => BitVec.ofNat 64 (a.memg % 2 ^ 13 + 2 ^ 16 * (a.quota.get 0 9 % 2 ^ 13) +
          if a.shortOn then 2 ^ 31 else 0)) ∨
        (n = 0x110#9 ∧ f = fun _ => BitVec.ofNat 64 (s.regs.cm % 2 ^ 13 + 2 ^ 16 * (s.regs.cl % 2 ^ 13) +
          (if s.shortfall then 2 ^ 31 else 0) + 2 ^ 32 * (s.regs.retirements % 2 ^ 32))) ∨
        (∃ w : W64, n = 0x085#9 ∧ (f = fun _ => w) ∧ ∀ v, v < 64 →
          (w.getLsbD v = true ↔ (s.regs.viown.get 0#64 v).toNat / 16 % 2 = 1 ∧ (s.regs.viown.get 0#64 v).toNat % 16 = c.al)) ∨
        (∃ l, n = 0x015#9 ∧ s.launch? c.al c.blk.lid = some l ∧ f = fun _ => l.pstat) ∨
        (∃ k, k < 16 ∧ (n, f) ∈ [
          (0x100#9 + BitVec.ofNat 9 k, fun (_ : Nat) => BitVec.ofNat 64 (code (s.allot k).st + (if (s.allot k).hldead then 2 ^ 3 else 0) +
            (if (s.allot k).shortOn then 2 ^ 4 else 0) + 2 ^ 16 * ((s.allot k).serial % 2 ^ 48))),
          (0x120#9 + BitVec.ofNat 9 k, fun _ => (s.allot k).hlrec), (0x130#9 + BitVec.ofNat 9 k, fun _ => (s.allot k).save),
          (0x1A0#9 + BitVec.ofNat 9 k, fun _ => (s.allot k).pt2)]) ∨
        (∃ k, k < 8 ∧ n = 0x188#9 + BitVec.ofNat 9 k ∧ f = fun _ => s.regs.devcell.get 0#64 k) ∨
        ∃ k, k < 64 ∧ (n, f) ∈ [(0x140#9 + BitVec.ofNat 9 k, fun (_ : Nat) => s.regs.viown.get 0#64 k),
          (0x1C0#9 + BitVec.ofNat 9 k, fun _ => s.regs.viwin.get 0#64 k)]) →
        ∀ u, p.delivers c e d (f (lowLane e)) = .ok u → ∃ t g', exec i s = .next t ∧ Completed s u t c g' ∧
          (u.gang? c.uid).map (·.busy) = some g'.busy ∧ WroteD c.gang g' false true e d f)

/-- R144, R141, R134, R136, R349, R361: `swrite` of the lowest enabled lane's 64 bits: what each register keeps of them, and that
nothing else changes. The closed ranges trap with 0x08, a number that no chapter assigns with 0x3B kind 1, TPC outside the
handler with kind 3, a ring size out of range or a register that takes no write with kind 2. FIELD 6 of 0x08 and the KIND of a bad ring size
are assumption 37; that a write of VSTAT to an interface not owned, of VIOWN under a RUNNING owner, and of PCAP outside 1,200 to 2,300 (R397)
changes nothing are assumptions 35 and 60. -/
def Sys2Proof.Claims.SystemRegisterWrites : Prop :=
  ∀ (s : State) (c : Ctx) (h : Hdr) (a : Src) (n : BitVec 9), s.cur.bind s.ctx = some c →
    let e := s.lanesFor c h
    let p := s.issuing c h
    let i := Instr.swrite h n a
    let x := p.opVal c true ⟨a, none⟩ (lowLane e)
    let trap := fun (x : TrapInfo) => exec i s = .next (s.trapped c h x)
    let shut := (0x080 ≤ n.toNat ∧ n.toNat < 0x100 ∧ c.blk.headland = false) ∨ (0x100 ≤ n.toNat ∧ ¬ (c.blk.headland = true ∧ c.blk.al = 0))
    let size := x.toNat % 16
    let owned := fun (v : Nat) => (s.regs.viown.get 0#64 v).toNat / 16 % 2 = 1 ∧ (s.regs.viown.get 0#64 v).toNat % 16 = c.al
    let regs := fun (r : OpRegs) => ∃ t g', exec i s = .next t ∧ Completed s { p with regs := r } t c g' ∧ g'.data = c.gang.data
    let allot := fun (k : Nat) (b : Allot) => ∃ t g', exec i s = .next t ∧ Completed s { p with allots := t.allots } t c g' ∧
      g'.data = c.gang.data ∧ (k < s.allots.length → (t.allot k).quiet = b.quiet) ∧ ∀ j, j ≠ k → (t.allot j).quiet = (s.allot j).quiet
    (shut → exec i s = .next (s.trapNow c s.word { cause := 0x08, fld := 6 } 0)) ∧
    (Issues s c h (a.uses fA true) → e ≠ 0#32 →
      (¬ shut → n ∈ [0x005#9, 0x00F, 0x017, 0x07F, 0x090, 0x0FF, 0x112, 0x11F, 0x182, 0x185, 0x190, 0x19F, 0x1B3, 0x1BF] →
        trap { cause := 0x3B, kind := 1, info1 := n.toNat }) ∧
      (¬ shut → n ∈ [0x000#9, 0x002, 0x003, 0x004, 0x010, 0x011, 0x012, 0x014, 0x015, 0x016, 0x082, 0x084, 0x085, 0x088, 0x08D, 0x110] →
        trap { cause := 0x3B, kind := 2, info1 := n.toNat }) ∧
      (n = 0x001#9 → c.grp.inHandler = false → trap { cause := 0x3B, kind := 3, info1 := 1 }) ∧
      (n = 0x001#9 → c.grp.inHandler = true → ∃ t g', exec i s = .next t ∧ t.rest = p.rest ∧ OnlyGang p t c g' ∧ g'.data = c.gang.data ∧
        SlicesAre c g' (s.passed c) ∧ ((∀ y ∈ c.gang.groups, (∃ k ∈ y.slices, k ∈ c.grp.slices) → y = c.grp) →
          ∀ y ∈ g'.groups, (∃ k ∈ y.slices, k ∈ c.grp.slices) → y.tpc = x)) ∧
      (n = 0x013#9 → ∃ t g', exec i s = .next t ∧ Completed s p t c g' ∧ g'.data = { c.gang.data with fflag := x &&& 7#64 }) ∧
      (n = 0x080#9 → ¬ shut → size < 6 ∨ 12 < size → trap { cause := 0x3B, kind := 2, info1 := 0x080 }) ∧
      (∀ f : Allot → Allot, ¬ shut → (n, f) ∈ [
          (0x080#9, fun (b : Allot) => { b with trbase := x &&& 0x00FFFFFFFFFFF00F#64 }), (0x081, fun b => { b with trhead := x }),
          (0x089, fun b => { b with sampctl := if 8 ≤ x.toNat % 32 ∧ x.toNat % 32 ≤ 20 then x &&& 0x11F#64 else b.sampctl }),
          (0x08A, fun b => { b with stopwho := x &&& 0x8000007FFFFFFFFF#64 }), (0x08B, fun b => { b with stopcnt := x }),
          (0x08C, fun b => { b with cntsel := x }),
          (0x083, fun b =>
            if ∃ g ∈ s.gangs, g.isOver = false ∧ (∃ k, s.block? g.blk = some k ∧ k.al = c.al) ∧
                ∃ y ∈ g.groups, y.wait = .held (x.toNat % 2 ^ 48) then
              { b with tres := b.tres ++ [(x.toNat % 2 ^ 48, x.toNat / 2 ^ 48 % 4)] }
            else b)] → (n = 0x080#9 → 6 ≤ size ∧ size ≤ 12) → allot c.al (f (s.allot c.al))) ∧
      (∀ k, ¬ shut → k < 16 → (n = 0x120#9 + BitVec.ofNat 9 k → allot k { s.allot k with hlrec := x }) ∧
        (n = 0x130#9 + BitVec.ofNat 9 k → allot k { s.allot k with save := x &&& 0x00FFFFFFFFFFFFFF#64 })) ∧
      (∀ r, ¬ shut → (n, r) ∈ [(0x111#9, { s.regs with opwin := x &&& 0x00FFFFFFFFFFFFFF#64 }),
          (0x181, { s.regs with trtrig := x &&& 0xFFFFFFF#64 }), (0x183, { s.regs with trctl := x &&& 0xF#64 }),
          (0x1B1, { s.regs with pcap := if 1200 ≤ x.toNat ∧ x.toNat ≤ 2300 then x else s.regs.pcap })] → regs r) ∧
      (n = 0x087#9 → ¬ shut → let v := x.toNat % 64
        (owned v → regs { s.regs with viapp := s.regs.viapp.set 0 v (x.toNat / 2 ^ 16 % 2 ^ 16) }) ∧ (¬ owned v → regs s.regs)) ∧
      (∀ k, ¬ shut → k < 8 → n = 0x188#9 + BitVec.ofNat 9 k → ∃ t g', exec i s = .next t ∧ g'.data = c.gang.data ∧
        Completed s { p with regs := { s.regs with devcell := s.regs.devcell.set 0#64 k (x &&& 0x0001FFFFFFFF1FFF#64) }, cores := t.cores }
          t c g' ∧ ∀ y, (t.core y).quiet = { (s.core y).quiet with cells := (t.core y).cells }) ∧
      ∀ k, ¬ shut → k < 64 →
        (n = 0x1C0#9 + BitVec.ofNat 9 k →
          regs { s.regs with viwin := s.regs.viwin.set 0#64 k (x &&& 0x00FFFFFFFFE0003F#64) }) ∧
        (n = 0x140#9 + BitVec.ofNat 9 k →
          let old := (s.regs.viown.get 0#64 k).toNat
          let held := old / 16 % 2 = 1 ∧ (s.allot (old % 16)).st = .running
          (held → regs s.regs) ∧ (¬ held → regs { s.regs with viown := s.regs.viown.set 0#64 k (x &&& 0x00FFFFFFFFFFFF1F#64) })))

/-- R360, R362, R363, R349, R396: the writes of TRMASK, whose wired bits read 1, of FREEZE and WARM, which act on the value 1 alone,
and of VIRQ, which raises a vector of an interface that the allotment owns. A 1 to FREEZE freezes the writer's core, whose groups
are marked with 0x3F, with itself as the originator; a 1 to WARM resets the module. FIELD 6 of 0x08 is assumption 37. -/
def Sys2Proof.Claims.ActingWrites : Prop :=
  ∀ (s : State) (c : Ctx) (h : Hdr) (a : Src), Issues s c h (a.uses fA true) → s.lanesFor c h ≠ 0#32 → c.blk.headland = true →
    let p := s.issuing c h
    let x := p.opVal c true ⟨a, none⟩ (lowLane (s.lanesFor c h))
    let nothing := fun (i : Instr) => ∃ t g', exec i s = .next t ∧ Completed s p t c g' ∧ g'.data = c.gang.data
    (let vi := x.toNat % 64
      let vec := x.toNat / 64 % 16
      let owned := (s.regs.viown.get 0#64 vi).toNat / 16 % 2 = 1 ∧ (s.regs.viown.get 0#64 vi).toNat % 16 = c.al
      ∃ t g', exec (.virqWrite h a) s = .next t ∧ Completed s { p with regs := { s.regs with vipend := t.regs.vipend } } t c g' ∧
        g'.data = c.gang.data ∧ ∀ v k, t.regs.vipend.get 0 v / 2 ^ k % 2 =
          if owned ∧ vec ≠ 0 ∧ v = vi ∧ k = vec then 1 else s.regs.vipend.get 0 v / 2 ^ k % 2) ∧
    (c.blk.al ≠ 0 → ∀ i ∈ [Instr.trmaskWrite h a, .freezeWrite h a, .warmWrite h a],
      exec i s = .next (s.trapNow c s.word { cause := 0x08, fld := 6 } 0)) ∧
    (c.blk.al = 0 →
      (∃ t g', exec (.trmaskWrite h a) s = .next t ∧ g'.data = c.gang.data ∧
        Completed s { p with regs := { s.regs with trmask := x ||| 0xC000000700000000#64 } } t c g') ∧
      (x ≠ 1#64 → nothing (.freezeWrite h a) ∧ nothing (.warmWrite h a)) ∧
      (x = 1#64 → (s.core c.core).frozen = none → c.core < s.cores.length →
        ∃ t f, exec (.freezeWrite h a) s = .next t ∧ (t.core c.core).frozen = some f ∧ f.origin = s.logicalCore 0 c.core ∧ f.hops = 0 ∧
          f.stamp = s.clock % 2 ^ 32 ∧ t.isalon.origins = s.isalon.origins ++ [s.logicalCore 0 c.core] ∧
          t.isalon.freezeAt = some (s.isalon.freezeAt.getD s.clock) ∧ t.mem = s.mem ∧
          ∀ g ∈ t.gangs, g.core = c.core → ∀ y ∈ g.groups, y.tcause.toNat % 2 ^ 16 = 0x303F) ∧
      (x = 1#64 → ∃ t, exec (.warmWrite h a) s = .next t ∧ t.rest = p.warmReset.rest ∧ t.gangs = []))

/-- R13, R14, R90, R390, R391: a write to SHOOT1 with a bad size or a reserved bit traps with 0x3B kind 2. Else it publishes, and then
no cached translation of the allotment over the range is left, and every line register with a reference into it is recalled with
reason 1, its dirty bytes written back; SHOOT2 does the same by intermediate addresses for the allotment it names, and a write to PT1 or PT2 does so for all
addresses and stores the root. A base is aligned down to its size, and SHOOT1 acts for its own allotment whatever its bits 7:4 (assumption
59); a reference lies in a SHOOT2 range by the intermediate address that it was bound with (assumption 79); FIELD 6 of 0x08 is assumption
37. -/
def Sys2Proof.Claims.Shootdowns : Prop :=
  ∀ (s q : State) (c : Ctx) (h : Hdr) (a : Src) (al : BitVec 4), Issues s c h (a.uses fA true) → s.lanesFor c h ≠ 0#32 →
    c.blk.headland = true → c.gang.isOver = false → c.gang ∈ s.gangs →
    let e := s.lanesFor c h
    let p := s.issuing c h
    let x := (p.opVal c true ⟨a, none⟩ (lowLane e)).toNat
    let bad := x / 2 ^ 8 % 16 ≠ 0 ∨ 2 ^ 56 ≤ x ∨ (x / 8 % 2 = 0 ∧ 5 < x % 8)
    let size := fun k => if k = 0 then 2 ^ 12 else if k = 1 then 2 ^ 16 else if k = 2 then 2 ^ 21 else if k = 3 then 2 ^ 25 else
      if k = 4 then 2 ^ 30 else 2 ^ 34
    let everything := x / 8 % 2 = 1
    let len := if everything then 2 ^ 56 else size (x % 8)
    let lo := if everything then 0 else x / 2 ^ 12 % 2 ^ 44 * 4096 / len * len
    let apart := fun (v n lo len : Nat) => v + n ≤ lo ∨ lo + len ≤ v
    let did := fun (i : Instr) (tlb : Tlb → Prop) (t : State) => ∃ g', exec i s = .next t ∧ t.gang? c.uid = some g' ∧
      SlicesAre c g' (s.passed c) ∧ g'.data = { c.gang.data with stored := g'.stored, refs := g'.refs, lateStores := g'.lateStores } ∧
      (∀ y, y ∈ t.tlb ↔ y ∈ q.tlb ∧ tlb y)
    let recalled := fun (t : State) (key : LRef → Nat) (lo len : Nat) => ∀ g', t.gang? c.uid = some g' → ∀ ln j k, ln < 16 → j < 8 → k < 8 →
      (c.gang.ref ln j).st ≠ .closed → lo ≤ key (c.gang.ref ln j) / 128 * 128 → key (c.gang.ref ln j) / 128 * 128 < lo + len →
      (c.gang.ref ln k).st ≠ .closed → (g'.ref ln k).st = .recalled ∧ (g'.ref ln k).why = 1 ∧
        ∀ id en, (c.gang.ref ln k).entry = some id → t.entry? c.core id = some en → en.mask = 0
    let va := fun (r : LRef) => r.addr.getD 0
    let ipa := fun (r : LRef) => r.ipa
    s.outstanding c.uid (slicesIn e) true = false → (∀ g ∈ s.gangs, g.lateLoads = []) →
    (p.performLate c.uid (LateStore.of (slicesIn e))).publish c .device (slicesIn e) = .ok q →
    (bad → exec (.shoot1Write h a) s = .next (s.trapped c h { cause := 0x3B, kind := 2, info1 := 0x08F })) ∧
    (¬ bad → ∃ t, did (.shoot1Write h a) (fun y => y.al ≠ c.al ∨ apart y.vbase y.vsize lo len) t ∧ recalled t va lo len) ∧
    (∃ t, did (.pt1Write h a) (fun y => y.al ≠ c.al ∨ apart y.vbase y.vsize 0 (2 ^ 56)) t ∧ recalled t va 0 (2 ^ 56) ∧
      (c.al < s.allots.length → (t.allot c.al).pt1 = BitVec.ofNat 64 x &&& 0x000FFFFFFFFFF000#64)) ∧
    (c.blk.al ≠ 0 → ∀ i ∈ [Instr.shoot2Write h a, .pt2Write h al a],
      exec i s = .next (s.trapNow c s.word { cause := 0x08, fld := 6 } 0)) ∧
    (c.blk.al = 0 →
      (bad → exec (.shoot2Write h a) s = .next (s.trapped c h { cause := 0x3B, kind := 2, info1 := 0x1B0 })) ∧
      (¬ bad → ∃ t, did (.shoot2Write h a) (fun y => y.al ≠ x / 16 % 16 ∨ apart y.ibase y.size lo len) t ∧
        (x / 16 % 16 = 0 → recalled t ipa lo len)) ∧
      ∃ t, did (.pt2Write h al a) (fun y => y.al ≠ al.toNat ∨ apart y.ibase y.size 0 (2 ^ 56)) t ∧
        (al = 0#4 → recalled t ipa 0 (2 ^ 56)) ∧
        (al.toNat < s.allots.length → (t.allot al.toNat).pt2 = BitVec.ofNat 64 x &&& 0x000FFFFFFFFFF000#64))

/-- R357, R372, R371, R65, R66: `mark` leaves a record of class 40 with its tag and its lowest enabled lane's value, and nothing else.
A group whose slice has retired the count, or more (assumption 67), at which its replay is to stop takes 0x39 before its next word. A word whose major is
not assigned traps with 0x01; one of restricted halves with an opcode not assigned with 0x07 and the first such half. -/
def Obligations.MarksAndStops : Prop :=
  (∀ (s : State) (c : Ctx) (h : Hdr) (a : Src) (tag : BitVec 8), Issues s c h (a.uses fA true) →
    let e := s.lanesFor c h
    let p := s.issuing c h
    ∃ t g', exec (.mark h tag a) s = .next t ∧ Completed s p t c g' ∧ g'.data = c.gang.data ∧
      (e ≠ 0#32 → h.sw = false → c.core < s.cores.length → s.regs.trmask.getLsbD 40 = true → s.regs.trtrig.getLsbD 15 = false →
        (s.core c.core).frozen = none → (s.core c.core).post = none → (s.core c.core).trigPend = false → (s.core c.core).lost = 0 → (s.core c.core).recCycle ≠ s.clock →
        ((t.core c.core).trail.head?).map (fun r => (r.w0, r.w1)) = some (BitVec.ofNat 64 (s.clock % 2 ^ 32 + c.al % 16 * 2 ^ 32 + 40 * 2 ^ 36 +
            c.gang.slot / 16 % 4 * 2 ^ 42 + c.gang.slot % 16 * 2 ^ 44 + c.grp.low % 8 * 2 ^ 48 + tag.toNat * 2 ^ 51),
          p.opVal c true ⟨a, none⟩ (lowLane e)))) ∧
  (∀ (s : State) (k : GroupKey) (c : Ctx) (l : Launch) (who cnt : W64), s.ctx k = some c → s.launch? c.al c.blk.lid = some l →
    l.stop = some (who, cnt) → c.blk.handler = false → c.blk.bid = who.toNat % 2 ^ 32 → c.gang.gid = who.toNat / 2 ^ 32 % 16 →
    who.toNat / 2 ^ 36 % 8 ∈ c.grp.slices →
    ((c.gang.slice (who.toNat / 2 ^ 36 % 8)).retc.toNat < cnt.toNat → exec (.preciseStop k) s = .next s) ∧
    (cnt.toNat ≤ (c.gang.slice (who.toNat / 2 ^ 36 % 8)).retc.toNat → c.grp.wait = .none → s.draining c = false →
      (s.allot c.al).st = .running → (s.core c.core).frozen = none →
      exec (.preciseStop k) s = .next ((s.modLaunch c.al c.blk.lid fun l => { l with stop := none }).takeTrap c (s.wordAt c c.pc)
        { cause := 0x39, info1 := cnt.toNat }))) ∧
  ∀ (s : State) (c : Ctx) (w : W64), s.cur.bind s.ctx = some c →
    (w.getLsbD 62 = false → exec (.unassignedOpcode w) s = .next (s.trapNow c w { cause := 0x01, fld := 1 } 0)) ∧
    (w.getLsbD 62 = true →
      let known := (w.toNat / 2 ^ 24 % 128) ∈ [0x00, 0x01, 0x02, 0x03, 0x04, 0x05, 0x06, 0x07, 0x08, 0x09, 0x0A, 0x0B, 0x0C, 0x0D,
        0x0E, 0x10, 0x11, 0x12, 0x13, 0x14, 0x20, 0x22, 0x23, 0x29, 0x2A, 0x2B, 0x2C, 0x2D, 0x2E]
      exec (.unassignedOpcode w) s = .next (s.trapNow c w { cause := 0x07, half := if known then 1 else 0, fld := 1 } 0))

namespace Sys2Proof.Machine

/-- What a privileged allotment word leaves where it succeeds (R355): nothing but `u` and its predicate, true or false in
every enabled lane. -/
def Told (i : Instr) (h : Hdr) (pd : Nat) (s : State) (c : Ctx) (ok : Bool) (u : State → State) : Prop :=
  ∃ t g', exec i s = .next t ∧ Completed s (u t) t c g' ∧ g'.data = { c.gang.data with p := g'.p } ∧
    WroteP c.gang g' pd (s.lanesFor c h) fun _ => ok

end Sys2Proof.Machine

/-- R70, R355: `placeld` writes one entry of an allotment's place table: afterwards that place names the entry's unit, or none
where V is 0, and every other place is as before. It fails, and only clears pD, for an index outside its part, a reserved bit
set, a unit that does not exist or is harvested, and while the allotment is RUNNING; of an entry with V clear, PHYS is not looked at
(assumption 64). -/
def Sys2Proof.Claims.PlaceTables : Prop :=
  ∀ (s : State) (c : Ctx) (h : Hdr) (pd sa sb : Nat), Issues s c h [⟨fD, .p pd⟩, ⟨fA, .s sa⟩, ⟨fB, .s sb⟩] → s.lanesFor c h ≠ 0#32 →
    let p := s.issuing c h
    let x := (p.opVal c true ⟨.s sa, none⟩ 0).toNat
    let e := p.opVal c true ⟨.s sb, none⟩ 0
    let al := x % 16
    let part := x / 2 ^ 8 % 4
    let idx := x / 2 ^ 16 % 256
    let limit := if part = 0 then 4 else if part = 1 then 48 else if part = 2 then 192 else 0
    let unit := e.toNat / 2 ^ 8 % 256
    let lost := fun (f : Nat) => f ∈ s.regs.fieldsLost
    let ok := (s.allot al).st ≠ .running ∧ idx < limit ∧ e &&& 0xFFFFFFFFFFFF00FE#64 = 0#64 ∧
      (e.getLsbD 0 = true → unit < limit ∧ (part = 1 → ¬ lost unit) ∧ (part = 2 → unit ∉ s.plat.harvested ∧ ¬ lost (unit / 4)))
    (¬ ok → Told (.placeld h pd sa sb) h pd s c false fun _ => p) ∧
    (ok → Told (.placeld h pd sa sb) h pd s c true fun t => { p with allots := t.allots }) ∧
    (ok → ∀ t, exec (.placeld h pd sa sb) s = .next t →
      (∀ k, (t.allot k).quiet = { (s.allot k).quiet with place := (t.allot k).place }) ∧
      ∀ al' part' idx', part' < 3 → t.place al' part' idx' =
        if al' = al ∧ part' = part ∧ idx' = idx ∧ al < s.allots.length then (if e.getLsbD 0 then some unit else none)
        else s.place al' part' idx')

/-- R335, R336, R337: `quota` writes an item whose value lies within its limits: a range and the class bits of an allotment that is
neither RUNNING nor FALLOW at once, budgets and the class at the next period; a FREE allotment is created by it, READY with every
other item zero. Any other value or item fails and changes nothing. RELEASE of a READY or STOPPED allotment whose launches have
completed frees it, with its meters kept as the final report. -/
def Sys2Proof.Claims.Quotas : Prop :=
  ∀ (s : State) (c : Ctx) (h : Hdr) (pd sa sb : Nat) (i : Instr), i ∈ [Instr.quota h pd sa sb, .quotaRelease h pd sa sb] →
    Issues s c h [⟨fD, .p pd⟩, ⟨fA, .s sa⟩, ⟨fB, .s sb⟩] → s.lanesFor c h ≠ 0#32 →
    let p := s.issuing c h
    let x := (p.opVal c true ⟨.s sa, none⟩ 0).toNat
    let v := (p.opVal c true ⟨.s sb, none⟩ 0).toNat
    let al := x % 16
    let n := x / 2 ^ 8 % 16
    let a := s.allot al
    let base := v % 2 ^ 16
    let count := v / 2 ^ 16 % 2 ^ 16
    let written := fun k => if (s.allot k).quotaNext.get 0 n = 0 then (s.allot k).quota.get 0 n else (s.allot k).quotaNext.get 0 n - 1
    let alone := ∀ k, k < 16 → k ≠ al → BitVec.ofNat 64 (written k) &&& BitVec.ofNat 64 v = 0#64
    let sum := ((List.range 16).map fun k => if k = al ∨ (s.allot k).st = .free then 0 else written k).sum
    let range := fun top => v < 2 ^ 32 ∧ base + count ≤ top
    let fits := (n = 0 → range 16) ∧ (n = 1 → range 128) ∧ (n = 2 → range 2048 ∧ base % 8 = 0 ∧ count % 8 = 0) ∧ (n = 3 → range 384) ∧
      (n = 4 → range 64) ∧ (n = 5 → v < 2 ^ 24 ∧ alone) ∧ (n = 6 → 1024 ≤ v ∧ v ≤ 65536) ∧ (n = 7 → v ≤ 2 ^ 40) ∧ (n = 8 → alone) ∧
      (n = 9 ∨ n = 10 → 64 ≤ v ∧ v ≤ 4096 ∧ sum + v ≤ 4096) ∧ (n = 11 → v ≤ 3) ∧ n < 12
    let ok := x = al + 256 * n ∧ fits ∧ (n ≤ 5 ∨ n = 8 → a.st ≠ .running ∧ a.st ≠ .fallow)
    let release := x = al + 256 * 15 ∧ v = 0 ∧ (a.st = .ready ∨ a.st = .stopped)
    (¬ ok → ¬ release → Told i h pd s c false fun _ => p) ∧
    (ok → Told i h pd s c true fun t => { p with allots := t.allots }) ∧
    (ok → ∀ t, exec i s = .next t →
      (∀ k, k ≠ al → (t.allot k).quiet = (s.allot k).quiet) ∧
      (al < s.allots.length →
        let b := t.allot al
        let fresh := a.st = .free
        let later := n = 6 ∨ n = 7 ∨ n = 11
        b.st = (if fresh then .ready else a.st) ∧ (fresh → b.serial = (a.serial + 1) % 2 ^ 48 ∧ b.meters = [] ∧ b.launches = []) ∧
        (∀ k, b.quota.get 0 k = if k = n ∧ ¬ later then v else if fresh then 0 else a.quota.get 0 k) ∧
        ∀ k, b.quotaNext.get 0 k = if k = n ∧ later then v + 1 else if fresh then 0 else a.quotaNext.get 0 k)) ∧
    (release → (∀ l ∈ a.launches, l.complete = true) →
      Told i h pd s c true (fun t => { p with
        allots := t.allots
        dbinds := s.dbinds.filter fun b => b.al != al
        hreqs := s.hreqs.filter fun r => r.al != al
        tlb := s.tlb.filter fun y => y.al != al }) ∧
      ∀ t, exec i s = .next t → (∀ k, k ≠ al → (t.allot k).quiet = (s.allot k).quiet) ∧
        (al < s.allots.length → (t.allot al).st = .free ∧ (t.allot al).quota = [] ∧ (t.allot al).launches = [] ∧
          (t.allot al).final = some ((List.range 32).map fun k => (p.allot al).meters.get 0#64 k)))

/-- R338, R344, R346, R347, R350, R355: the four `fallow` words. Each fails and only clears pD for allotment 0, or in a state it does not
act on; `halt` waits for the allotment's matrix passes, saves its dirty tiles (R249) and makes it FALLOW; `resume` makes a FALLOW or
STOPPED one RUNNING unless a RUNNING one overlaps its ranges; `stop` waits for the records that the module owes it, and makes it STOPPED with a new dirty-page report, written in the operator's window
at physical addresses (assumption 39); `start` makes
a READY one RUNNING, its headland block placed on logical core 0. -/
def Obligations.FallowWords : Prop :=
  ∀ (s : State) (c : Ctx) (h : Hdr) (pd sa : Nat), Issues s c h [⟨fD, .p pd⟩, ⟨fA, .s sa⟩] → s.lanesFor c h ≠ 0#32 →
    let p := s.issuing c h
    let al := (p.opVal c true ⟨.s sa, none⟩ 0).toNat % 16
    let a := s.allot al
    let mine := fun (g : Gang) => g.isOver = false ∧ ∃ b, s.block? g.blk = some b ∧ b.al = al
    let empty := (∀ g ∈ s.gangs, ∀ b, s.block? g.blk = some b → b.al ≠ al) ∧ (∀ b ∈ s.blocks, b.al ≠ al) ∧
      (∀ k ∈ s.cores, ∀ x ∈ k.held, x.al ≠ al) ∧ (∀ r ∈ s.reqs, r.al ≠ al) ∧ ∀ b ∈ s.dbinds, b.al = al → b.run = none ∧ b.cmds = []
    let meet := fun (x y : Allot) => ∃ i, i < 5 ∧ 0 < x.count i ∧ 0 < y.count i ∧ x.base i < y.base i + y.count i ∧
      y.base i < x.base i + x.count i
    let blocked := ∃ k, k < 16 ∧ k ≠ al ∧ (s.allot k).st = .running ∧ meet a (s.allot k)
    let busy := ∃ x ∈ s.passes, ∃ g ∈ s.gangs, mine g ∧ g.uid = x.gang
    let moved := fun (i : Instr) (st : AState) => ∀ t, exec i s = .next t →
      (al < s.allots.length → (t.allot al).st = st) ∧ ∀ k, k ≠ al → (t.allot k).quiet = (s.allot k).quiet
    (al = 0 ∨ a.st ≠ .running → Told (.fallowHalt h pd sa) h pd s c false fun _ => p) ∧
    (al ≠ 0 → a.st = .running → busy → ∃ t g', exec (.fallowHalt h pd sa) s = .next t ∧ Moved s t c g' c.gang.slice ∧
      g'.data = c.gang.data) ∧
    (al ≠ 0 → a.st = .running → ¬ busy → (∀ g ∈ s.gangs, mine g → g.uid ≠ c.uid) → moved (.fallowHalt h pd sa) .fallow ∧
      ∃ t g', exec (.fallowHalt h pd sa) s = .next t ∧ t.gang? c.uid = some g' ∧
        t.rest = { p.rest with allots := t.rest.allots, mem := t.mem, vers := t.vers, owners := t.owners, writes := t.writes } ∧
        SlicesAre c g' (s.passed c) ∧ WroteP c.gang g' pd (s.lanesFor c h) (fun _ => true) ∧
        ∀ g ∈ s.gangs, s.gang? g.uid = some g → mine g → t.gang? g.uid = some { g with tdirty := g.tdirty &&& ~~~g.tvalid }) ∧
    (al = 0 ∨ (a.st ≠ .fallow ∧ a.st ≠ .stopped) ∨ blocked → Told (.fallowResume h pd sa) h pd s c false fun _ => p) ∧
    (al ≠ 0 → a.st = .fallow ∨ a.st = .stopped → ¬ blocked →
      (∃ t, exec (.fallowResume h pd sa) s = .next t ∧ (al < s.allots.length → (t.allot al).st = .running) ∧
        ∀ g ∈ t.gangs, (∃ y ∈ s.gangs, mine y ∧ y.uid = g.uid ∧ y.blk = g.blk) → g.spilled = false ∧ g.away = []) ∧
      (empty → moved (.fallowResume h pd sa) .running ∧
        Told (.fallowResume h pd sa) h pd s c true fun t => { p with allots := t.allots })) ∧
    (al = 0 ∨ (a.st ≠ .running ∧ a.st ≠ .fallow) → Told (.fallowStop h pd sa) h pd s c false fun _ => p) ∧
    (al ≠ 0 → a.st = .running ∨ a.st = .fallow → s.recordsDue al = true → ∃ t g', exec (.fallowStop h pd sa) s = .next t ∧
      Moved s t c g' c.gang.slice ∧ g'.data = c.gang.data) ∧
    (al ≠ 0 → a.st = .running ∨ a.st = .fallow → empty → s.recordsDue al = false → (∀ k ∈ s.cores, ∀ e ∈ k.entries, e.al = al → e.mask = 0) →
      a.dirty = [] → moved (.fallowStop h pd sa) .stopped ∧
      let win := s.regs.opwin.toNat
      let place := win / 2 ^ 12 % 2 ^ 44 * 4096 + 65536 * al
      let fits := 65536 * (al + 1) ≤ (win % 2 ^ 12 + 1) * 4096
      ∃ t g', exec (.fallowStop h pd sa) s = .next t ∧ OnlyGang p t c g' ∧ SlicesAre c g' (s.passed c) ∧
        WroteP c.gang g' pd (s.lanesFor c h) (fun _ => true) ∧ (al < s.allots.length → (t.allot al).repSeq = a.repSeq + 1) ∧
        (¬ fits → t.mem = s.mem) ∧
        (fits → t.mem.readN place 16 = toBytes 8 ((a.repSeq + 1) % 2 ^ 32 + al * 2 ^ 32) ++ toBytes 8 0 ∧
          ∀ k, k < place ∨ place + 16 ≤ k → t.mem.read k = s.mem.read k)) ∧
    (al = 0 ∨ a.st ≠ .ready ∨ a.count 0 = 0 ∨ a.count 1 = 0 ∨ a.count 2 = 0 ∨ a.item 5 = 0 ∨ a.item 9 = 0 ∨ a.item 10 = 0 ∨ blocked ∨
      a.save.toNat % 2 ^ 20 * 2 ^ 20 <
        s.enabled.length * (4096 * a.count 1 + 1024 * a.count 3 + 4096 * a.count 4 + 2048 * a.count 0) →
      Told (.fallowStart h pd sa) h pd s c false fun _ => p) ∧
    ∀ (core : Nat) (l : Launch) (q : State), al ≠ 0 → p.startOk al = true → s.place al 2 0 = some core → core ∈ s.enabled →
      p.readLaunch (homeReader al) 256 al (a.item 11) a.hlrec.toNat true = .ok (l, q) →
      (l.threads + 31) / 32 ≤ (q.slotsFor al core l.k []).length →
      ∃ t, exec (.fallowStart h pd sa) s = .next t ∧ (al < s.allots.length → (t.allot al).st = .running) ∧
        ∃ b ∈ t.blocks, b.al = al ∧ b.headland = true ∧ b.core = core ∧ b.ngang = (l.threads + 31) / 32 ∧ b.k = l.k

namespace Sys2Proof.Machine.Ref

/-- What a half computes from D and S, its operands (R65). -/
def HalfIs (o : ROp) (hm : Nat) (d b w : W32) : Prop :=
  let imm := (BitVec.ofNat 7 hm).signExtend 32
  match o with
  | .nop => w = d
  | .mov => w = b
  | .add => w = d + b
  | .sub => w = d - b
  | .mul => w = d * b
  | .minI => w = if d.sle b then d else b
  | .maxI => w = if d.sle b then b else d
  | .minN => w = if d.ule b then d else b
  | .maxN => w = if d.ule b then b else d
  | .and => w = d &&& b
  | .or => w = d ||| b
  | .xor => w = d ^^^ b
  | .shl => w = d <<< (b.toNat % 32)
  | .shr => w = d >>> (b.toNat % 32)
  | .sar => w = d.sshiftRight (b.toNat % 32)
  | .fadd => IsF32 .rne (Ext.add .rne (ext32 d) (ext32 b)) w
  | .fsub => IsF32 .rne (Ext.add .rne (ext32 d) (ext32 b).neg) w
  | .fmul => IsF32 .rne ((ext32 d).mul (ext32 b)) w
  | .fmin => w = fmin d b
  | .fmax => w = fmax d b
  | .movi => w = imm
  | .addI => w = d + imm
  | .subI => w = d - imm
  | .andI => w = d &&& imm
  | .orI => w = d ||| imm
  | .xorI => w = d ^^^ imm
  | .shlI => w = d <<< hm
  | .shrI => w = d >>> hm
  | .sarI => w = d.sshiftRight hm

/-- The vector registers that a half names (R63). -/
def halfRegs (o : ROp) (x : HArgs) : List Nat :=
  if o = .nop then []
  else if o ∈ [ROp.movi, .addI, .subI, .andI, .orI, .xorI, .shlI, .shrI, .sarI] then [x.hd] else [x.hd, x.hs]

end Sys2Proof.Machine.Ref

/-- R61 to R65: a paired word. Both halves compute from the registers as they were before either wrote, each in the lanes its own
guard enables, and write their HD; nothing else changes. Where half 1 names a register in a bank of which half 0 names one, the
word traps with 0x06 at half 1; where a half names a register that is not declared, with 0x05 at that half. -/
def Obligations.PairedWords : Prop :=
  ∀ (s : State) (c : Ctx) (sw : Bool) (x : HArgs) (y : Half) (i : Instr) (o : ROp), s.cur.bind s.ctx = some c →
    (i, o) ∈ [(Instr.pairNop sw x y, ROp.nop), (.pairMov sw x y, .mov), (.pairAdd sw x y, .add), (.pairSub sw x y, .sub),
      (.pairMul sw x y, .mul), (.pairMinI32 sw x y, .minI), (.pairMaxI32 sw x y, .maxI), (.pairMinN32 sw x y, .minN),
      (.pairMaxN32 sw x y, .maxN), (.pairAnd sw x y, .and), (.pairOr sw x y, .or), (.pairXor sw x y, .xor),
      (.pairShl sw x y, .shl), (.pairShr sw x y, .shr), (.pairSar sw x y, .sar), (.pairFadd sw x y, .fadd),
      (.pairFsub sw x y, .fsub), (.pairFmul sw x y, .fmul), (.pairFmin sw x y, .fmin), (.pairFmax sw x y, .fmax),
      (.pairMovi sw x y, .movi), (.pairAddImm sw x y, .addI), (.pairSubImm sw x y, .subI), (.pairAndImm sw x y, .andI),
      (.pairOrImm sw x y, .orI), (.pairXorImm sw x y, .xorI), (.pairShlImm sw x y, .shlI), (.pairShrImm sw x y, .shrI),
      (.pairSarImm sw x y, .sarI)] →
    let r0 := Ref.halfRegs o x
    let r1 := Ref.halfRegs y.op y.x
    let has := fun (n : Nat) => n < 8 * c.blk.k.regs
    let meets := fun (n : Nat) => ∃ m ∈ r0, m % 4 = n % 4
    let ready := (∀ n, n ∈ r0 ∨ n ∈ r1 → Reg.v n ∉ c.gang.busy) ∧ ∀ n, n = x.hg ∨ n = y.x.hg → Reg.p n ∉ c.gang.busy
    let trap := fun (x : TrapInfo) => exec i s = .next (s.trapNow c s.word x 0)
    Reg.p 7 ∉ c.gang.busy →
    (∀ n half fld, (half = 0 ∧ ((r0.head? = some n ∧ fld = 4) ∨ (r0[1]? = some n ∧ (∀ m, r0.head? = some m → has m) ∧ fld = 6))) ∨
        (half = 1 ∧ (∀ m ∈ r0, has m) ∧ ((r1.head? = some n ∧ fld = 4) ∨ (r1[1]? = some n ∧ (∀ m, r1.head? = some m → has m) ∧ fld = 6))) →
      ¬ has n → trap { cause := 0x05, half := half, fld := fld }) ∧
    ((∀ m, m ∈ r0 ∨ m ∈ r1 → has m) → (∀ n, r1.head? = some n → meets n → trap { cause := 0x06, half := 1, fld := 4 }) ∧
      ∀ n, r1[1]? = some n → (∀ m, r1.head? = some m → ¬ meets m) → meets n → trap { cause := 0x06, half := 1, fld := 6 }) ∧
    ((∀ m, m ∈ r0 ∨ m ∈ r1 → has m) → (∀ n ∈ r1, ¬ meets n) → ready →
      let p := s.advance c 0
      let at' := fun (n l : Nat) => p.readV c.gang n l
      let e0 := p.enabledLanes c x.hg false
      let e1 := p.enabledLanes c y.x.hg false
      ∃ t g', exec i s = .next t ∧ Completed s p t c g' ∧ g'.data = { c.gang.data with v := g'.v } ∧ ∀ l, l < 32 →
        (o ≠ .nop → e0.getLsbD l = true → Ref.HalfIs o x.hm (at' x.hd l) (at' x.hs l) (g'.vAt x.hd l)) ∧
        (y.op ≠ .nop → e1.getLsbD l = true → Ref.HalfIs y.op y.x.hm (at' y.x.hd l) (at' y.x.hs l) (g'.vAt y.x.hd l)) ∧
        ∀ m, ¬ (o ≠ .nop ∧ m = x.hd ∧ e0.getLsbD l = true) → ¬ (y.op ≠ .nop ∧ m = y.x.hd ∧ e1.getLsbD l = true) →
          g'.vAt m l = c.gang.vAt m l)

namespace Sys2Proof.Machine.Ref

/-- Bytes that reach a run of intermediate addresses from outside (R393): where stage two maps the run for reading and writing to a
place that is no peer's, they stand there, the leaf's A and D bits are set, and no other byte of memory changes; elsewhere
nothing does. -/
def HostPut (i : Instr) (s : State) (al a : Nat) (bs : List Byte) : Prop :=
  (∀ pa leaf, s.stageTwo al (a / 128 * 128) = .ok (pa, leaf) → isPeer pa = false → (∀ l, leaf = some l → l.r = true ∧ l.w = true) →
    ∃ t, exec i s = .next t ∧ t.gangs = s.gangs ∧ t.mem.readN (pa + a % 128) bs.length = bs ∧
      ∀ k, k < pa + a % 128 ∨ pa + a % 128 + bs.length ≤ k →
        t.mem.read k = if ∃ l, leaf = some l ∧ k = l.ent then s.mem.read k ||| 0xC0#8 else s.mem.read k) ∧
  ((∀ pa leaf, s.stageTwo al (a / 128 * 128) = .ok (pa, leaf) → isPeer pa = true ∨ ∃ l, leaf = some l ∧ (l.r = false ∨ l.w = false)) →
    exec i s = .next s)

/-- Vector 0 of the interfaces that `p` names is pending in `t` besides what was pending in `s`. -/
def Raised (s t : State) (p : Nat → Prop) : Prop :=
  ∀ v k, t.regs.vipend.get 0 v / 2 ^ k % 2 = 1 ↔
    s.regs.vipend.get 0 v / 2 ^ k % 2 = 1 ∨ (k = 0 ∧ v < 64 ∧ (s.regs.viown.get 0#64 v).getLsbD 4 = true ∧
      p ((s.regs.viown.get 0#64 v).toNat % 16))

end Sys2Proof.Machine.Ref

/-- R351, R393, R154, R385, R266: what writes memory from outside. A write to DOOR is stored at WATCH of its interface; a write within
the window of a virtual function goes to the window's place in its owner's intermediate addresses, one outside the window or to an
interface without an owner is dropped; a peer's write that lies in a tier from its first to its last byte is accepted at its home and
marks no view. What stage two maps for no write, or to a peer, is dropped (assumption 45); WATCH goes through it too (assumption 46). -/
def Sys2Proof.Claims.HostWrites : Prop :=
  (∀ (s : State) (v : Nat) (x : W64),
    let o := s.regs.viown.get 0#64 v
    (o.getLsbD 4 = false → exec (.door v x) s = .next s) ∧
    (o.getLsbD 4 = true → Ref.HostPut (.door v x) s (o.toNat % 16) (o.toNat / 2 ^ 8 % 2 ^ 48 * 256) (toBytes 8 x.toNat))) ∧
  (∀ (s : State) (v off : Nat) (bs : List Byte),
    let o := s.regs.viown.get 0#64 v
    let w := (s.regs.viwin.get 0#64 v).toNat
    let k := w % 64
    let a := w / 2 ^ 21 % 2 ^ 35 * 2 ^ 21 / 2 ^ k * 2 ^ k + off
    (o.getLsbD 4 = false ∨ k < 21 ∨ 44 < k ∨ 2 ^ k < off + bs.length → exec (.hostMemoryWrite v off bs) s = .next s) ∧
    (o.getLsbD 4 = true → 21 ≤ k → k ≤ 44 → off + bs.length ≤ 2 ^ k → bs ≠ [] → a % 128 + bs.length ≤ 128 →
      Ref.HostPut (.hostMemoryWrite v off bs) s (o.toNat % 16) a bs)) ∧
  ∀ (s : State) (a : Nat) (bs : List Byte),
    let there := fun (k : Nat) => k < 2 ^ 41 ∨ (2 ^ 44 ≤ k ∧ k < 2 ^ 45)
    (¬ (there a ∧ there (a + bs.length - 1)) → exec (.peerWrite a bs) s = .next s) ∧
    (there a → there (a + bs.length - 1) → bs ≠ [] → ∃ t, exec (.peerWrite a bs) s = .next t ∧ t.allots = s.allots ∧ t.gangs = s.gangs ∧
      t.mem.readN a bs.length = bs ∧ ∀ k, k < a ∨ a + bs.length ≤ k → t.mem.read k = s.mem.read k)

/-- R342, R343, R380: a retired channel, boundary direction or field lowers what is left; guarantees whose sum no longer fits are scaled to
it in every allotment that is not FREE; vector 0 of allotment 0 and of every allotment whose guarantee fell is due, and no vector is
raised before the next window (assumption 70). Losing a direction or a field holds injection until the routes have switched, once what
was in flight has drained or its 65,536 cycles leave no later multiple of 512: what has waited to end then ends (assumption 18). -/
def Sys2Proof.Claims.Retirements : Prop :=
  ∀ (s : State) (what : Retired),
    let left := fun (t : State) => (t.regs.cm, t.regs.cl)
    let sum := fun (i : Nat) => (s.allots.map fun a => if a.st = .free then 0 else a.quota.get 0 i).sum
    let scaled := fun (i cap g : Nat) => if cap < sum i then g * cap / sum i else g
    (∃ t, exec (.retirement what) s = .next t ∧ t.gangs = s.gangs ∧
      t.rest = { s.rest with regs := t.regs, plat := t.plat, allots := t.rest.allots } ∧ t.regs.retirements = s.regs.retirements + 1 ∧
      (what = .channel → s.regs.chLost < 256 → left t = (4096 - 16 * (s.regs.chLost + 1), s.regs.cl)) ∧
      (what = .direction → s.regs.dirLost < 8 → left t = (s.regs.cm, 4096 - 512 * (s.regs.dirLost + 1))) ∧
      (∀ f, what = .fld f → left t = left s ∧ ∀ c, c ∈ t.enabled ↔ c ∈ s.enabled ∧ c / 4 ≠ f) ∧
      t.plat = (if what = .channel ∨ s.plat.draining = true then s.plat
        else { s.plat with draining := true, drainTurn := s.turn, drainUid := s.nextUid, drainClock := s.clock }) ∧
      t.regs.vipend = s.regs.vipend ∧
      (∀ k, 0 < k → (s.allot k).st = .free → t.allot k = s.allot k) ∧
      (∀ k, (s.allot k).st ≠ .free →
        let m := scaled 9 t.regs.cm ((s.allot k).quota.get 0 9)
        let l := scaled 10 t.regs.cl ((s.allot k).quota.get 0 10)
        t.allot k = { s.allot k with
          memg := m, linkg := l
          shortOn := decide (m < (s.allot k).quota.get 0 9 ∨ l < (s.allot k).quota.get 0 10)
          shortDue := (s.allot k).shortDue || decide (k = 0 ∨ m < (s.allot k).memg ∨ l < (s.allot k).linkg) })) ∧
    let ended := s.onTheWay = false ∨ s.plat.drainClock + 65536 < s.clock + 512
    (s.plat.draining = true → ¬ ended → exec .routeSwitch s = .next s) ∧
    (s.plat.draining = false ∨ ended → ∃ t, exec .routeSwitch s = .next t ∧ t.plat = { s.plat with draining := false } ∧
      ((∀ x ∈ s.gangs, x.isOver = true) → (∀ b ∈ s.blocks, b.ended = true) → t = { s with plat := t.plat }))

/-- R394, R392, R384, R385, R397: what else reaches the module from the host, its ports and its surroundings. BOOT starts allotment 0 with
the record it names, if it is READY; a function-level reset clears an interface's words and pending vectors and tells the operator;
a CXL port that is down counts all its lines as poisoned; a replay that fails sixteen times takes a peer port down, and one that succeeds
starts the count anew; power above PCAP holds the matrix
words at issue until it is below; a warm inlet tells the operator. Firmware numbers the units by the BOOT write (assumption 9); a replay that
succeeds ends the count (assumption 83); the event carries the average in watts (assumption 52), which at PCAP keeps a hold (assumption
60). -/
def Sys2Proof.Claims.PortsAndPower : Prop :=
  ∀ (s : State) (x : W64) (v n : Nat),
    ((s.allot 0).st ≠ .ready → exec (.boot x) s = .next s) ∧
    ((s.allot 0).st = .ready → 0 < s.allots.length →
      let q := s.modAllot 0 fun a => { a.numbered s.plat.harvested with hlrec := x }
      (q.start 0 = none → exec (.boot x) s = .next q) ∧
      ∀ t, q.start 0 = some t → exec (.boot x) s = .next t ∧ (t.allot 0).st = .running ∧
        ∃ b ∈ t.blocks, b.al = 0 ∧ b.headland = true ∧ q.place 0 2 0 = some b.core) ∧
    (v = 0 ∨ 64 ≤ v → exec (.functionLevelReset v) s = .next s) ∧
    (0 < v → v < 64 → ∃ t, exec (.functionLevelReset v) s = .next t ∧
      t = { s with regs := { s.regs with viapp := t.regs.viapp, vipend := t.regs.vipend } } ∧ t.regs.viapp.get 0 v = 0 ∧
      (∀ k, k ≠ v → t.regs.viapp.get 0 k = s.regs.viapp.get 0 k) ∧
      ∀ k j, t.regs.vipend.get 0 k / 2 ^ j % 2 = 1 ↔ (k ≠ v ∧ s.regs.vipend.get 0 k / 2 ^ j % 2 = 1) ∨
        (j = 0 ∧ k < 64 ∧ (s.regs.viown.get 0#64 k).toNat % 32 = 16)) ∧
    (∃ t, exec (.cxlLinkDown n) s = .next t ∧ t = { s with plat := t.plat } ∧
      ∀ line, t.damaged line = true ↔ s.damaged line = true ∨ (2 ^ 44 ≤ line ∧ line < 2 ^ 45 ∧ line / 2 ^ 40 % 16 = n)) ∧
    (∀ good, ∃ t, exec (.peerFlitReplay ⟨n, good⟩) s = .next t ∧ t = { s with plat := t.plat } ∧
      t.plat.peerFails.get 0 n = (if good then 0 else s.plat.peerFails.get 0 n + 1) ∧
      (∀ k, k ≠ n → t.plat.peerFails.get 0 k = s.plat.peerFails.get 0 k) ∧
      ∀ k, k ∈ t.plat.peerDown ↔ k ∈ s.plat.peerDown ∨ (good = false ∧ k = n ∧ 15 ≤ s.plat.peerFails.get 0 n)) ∧
    (∃ t, exec (.powerLimit n) s = .next t ∧ t = { s with plat := t.plat } ∧ (t.plat.mxHold = true ↔ s.regs.pcap.toNat < n ∨
      (s.plat.mxHold = true ∧ n = s.regs.pcap.toNat))) ∧
    ∃ t, exec .coolantWarning s = .next t ∧ t = { s with regs := { s.regs with vipend := t.regs.vipend } } ∧
      Ref.Raised s t fun k => k = 0

/-- R138, R139, R140, R134: the gleaner. An entry that is sound or has a single error changes nothing. An uncorrectable error in a granule, a
row, a tile slot, a held range, a line entry in use or a dirty line of the L2 ends the launch that owns it with 0x3D: it is cancelled,
none of its gangs goes on, and a record for the operator names the array and the launch; a clean entry that no reference holds is
dropped, a clean line of the L2 is refetched, a line of memory is marked; an error in what no launch owns freezes the core with 0x3E.
A record's fields of a group that there is not are 0 (assumption 79). (Where the damage lies in the array is a free value: assumption 41.) -/
def Sys2Proof.Claims.GleanerVisits : Prop :=
  ∀ (s : State) (loc : ArrayLoc),
    let visit := fun (t : State) => exec (.gleanerVisit loc .uncorrectable) s = .next t
    let rec' := fun (cause kind : Nat) (x who : W64) (rank : Nat) => (⟨[BitVec.ofNat 64 (0x2000 + cause), 0#64, 0#64, BitVec.ofNat 64 (kind * 2 ^ 16), x, who, 0#64],
      s.clock, rank⟩ : TrapRec)
    let ended := fun (al lid kind : Nat) => ∃ t, visit t ∧
      (∃ x, rec' 0x3D kind x (BitVec.ofNat 64 (lid % 2 ^ 32 * 2 ^ 14 + al % 16 * 2 ^ 46)) 0 ∈ (t.allot 0).pendTraps ∨ s.allots = []) ∧
      (al ≠ 0 → (∀ x ∈ s.blocks, ∀ y ∈ s.blocks, x.uid = y.uid → x = y) → ∀ r ∈ (s.allot 0).pendTraps, r ∈ (t.allot 0).pendTraps) ∧
      (∀ l, s.launch? al lid = some l → l.complete = false →
        ∃ l', t.launch? al lid = some l' ∧ l'.cause = 0x3D ∧ l'.cancelled = true) ∧
      ((∀ x ∈ s.gangs, ∀ y ∈ s.gangs, x.uid = y.uid → x = y) → (∀ x ∈ s.blocks, ∀ y ∈ s.blocks, x.uid = y.uid → x = y) →
        ∀ g ∈ t.gangs, ∀ b ∈ t.blocks, b.uid = g.blk → b.al = al → b.lid = lid → g.isOver = true)
    let fatal := fun (core : Nat) => core < s.cores.length → (s.core core).frozen = none → ∃ t f x, visit t ∧
      (0 < s.allots.length → (t.allot 0).pendTraps =
        (s.allot 0).pendTraps ++ [rec' 0x3E 8 x (BitVec.ofNat 64 (s.logicalCore 0 core % 2 ^ 8)) (32 * (s.logicalCore 0 core % 2 ^ 8))]) ∧
      (t.core core).frozen = some f ∧ f.cause = 0x3E ∧ f.origin = s.logicalCore 0 core ∧ (core, 0x3E) ∈ t.isalon.summary ∧
      t.isalon.origins = s.isalon.origins ++ [f.origin]
    let owned := fun (core tag kind : Nat) => (tag = 0 → fatal core) ∧ ∀ al lid, al < 16 → tag = 1 + al + 16 * lid → ended al lid kind
    let unit := fun (core u : Nat) => (s.core core).tags.get 0 u
    (∀ err, err ≠ .uncorrectable → exec (.gleanerVisit loc err) s = .next s) ∧
    (∀ core n, (loc = .reg core n → n < 512 → owned core (unit core n) 1) ∧ (loc = .row core n → n < 512 → owned core (unit core (512 + n)) 3) ∧
      (loc = .tile core n → n < 1024 → owned core (unit core (1024 + n)) 4)) ∧
    (∀ core n x, loc = .held core n → (s.core core).held[n]? = some x → x.al < 16 → ended x.al x.lid 1) ∧
    (∀ core eid e, loc = .entry core eid → s.entry? core eid = some e →
      (s.holders core eid = 0 ∧ e.mask = 0#128 → ∃ t, visit t ∧ t = { s with cores := t.cores } ∧
        (core < s.cores.length → ∀ y, y ∈ (t.core core).entries ↔ y ∈ (s.core core).entries ∧ y.id ≠ eid)) ∧
      (¬ (s.holders core eid = 0 ∧ e.mask = 0#128) → e.al < 16 → ended e.al e.lid 2)) ∧
    (∀ line, (loc = .l2 line true → owned (48 * homeDie line) (s.owners.get 0 (line / 128 * 128)) 5) ∧ (loc = .l2 line false → visit s) ∧
      (loc = .memory line → ∃ t, visit t ∧ t = { s with poison := t.poison } ∧
        ∀ k, k ∈ t.poison ↔ k ∈ s.poison ∨ k = line / 128 * 128)) ∧
    ∀ core, loc = .ownerless core → fatal core

namespace Sys2Proof.Machine.Ref

/-- A capsule or a view with its digest and the 96 bytes of its signature (R365). -/
def sealedWith (b : List Byte) : List Byte := b ++ sha384 b ++ (List.range 96).map fun i => nth 0#8 (Config.signature b) i

/-- A capsule enters Isalon's storage (R366): the next serial, the retention region of tier one from its first byte (R395), the lowest free
flash slot, and the count of those that found none. -/
def Stored (s t : State) (c : Capsule) : Prop :=
  let i := s.isalon
  let j := t.isalon
  let used := fun (k : Nat) => ∃ x ∈ i.flash, x.1 = k
  let bytes := sealedWith (c.body [])
  (s.mem.wf = true → ∀ a, t.mem.read a = if 0x1FFFE000000 ≤ a ∧ a < 0x1FFFE000000 + bytes.length then nth 0#8 bytes (a - 0x1FFFE000000)
    else s.mem.read a) ∧
  c.serial = i.serial + 1 ∧ c.dropped = i.dropped ∧ j.serial = i.serial + 1 ∧ j.retention = some c ∧
  (¬ used 1 → j.flash = i.flash ++ [(1, c)] ∧ j.dropped = 0) ∧
  (used 1 → ¬ used 2 → j.flash = i.flash ++ [(2, c)] ∧ j.dropped = 0) ∧
  (used 1 → used 2 → j.flash = i.flash ∧ j.dropped = i.dropped + 1)

/-- The requester acts for the owner of its virtual function, allotment 0 no more than another (R354, R368). -/
def ActsFor (s : State) (who : Requester) (al : Nat) : Prop :=
  al < 16 ∧ ∃ v, who = .vi v ∧ 0 < v ∧ v < 64 ∧ (s.regs.viown.get 0#64 v).toNat % 32 = 16 + al

end Sys2Proof.Machine.Ref

/-- R361, R362, R365: a trigger that a core has met fires: EN is cleared, and the core writes a TRIGGER record with the source, unless it
has written one before a later record; further records follow as POST says, the sealing at once where POST is 0 (first on the agenda:
assumption 50; a TRIGGER record is written whatever the cycle has written: assumption 22). The sealing stores a capsule of kind 1 with
the core's ring alone and the cycle count at the trigger, and the core's recorder stays stopped. -/
def Sys2Proof.Claims.Triggers : Prop :=
  ∀ (s : State) (k : Core),
    ((∀ x ∈ s.cores, x.trigPend = false) → exec .triggerFire s = .next s) ∧
    (s.cores.find? (fun x => x.trigPend) = some k → s.core k.id = k → k.id < s.cores.length →
      let post := s.regs.trtrig.toNat / 2 ^ 16 % 2 ^ 12
      ∃ t, exec .triggerFire s = .next t ∧ t.gangs = s.gangs ∧ t.rest = { s.rest with regs := t.regs } ∧
        t.regs = { s.regs with trtrig := s.regs.trtrig &&& 0xFFF7FFF#64 } ∧ (t.core k.id).trigPend = false ∧
        (k.post ≠ none → t.core k.id = { k with trigPend := false } ∧ t.agenda = s.agenda) ∧
        (k.post = none → (t.core k.id).post = some post ∧ (t.core k.id).sealNow = true ∧
          t.agenda = (if post = 0 then [.now (.event .triggerSeal)] else []) ++ s.agenda ∧
          (t.core k.id).trail.head? = some ⟨BitVec.ofNat 64 (k.trigAt % 2 ^ 32 + 33 * 2 ^ 36), BitVec.ofNat 64 k.trigSrc⟩)) ∧
    (s.cores.find? (fun x => x.sealNow && x.post == some 0) = none → exec .triggerSeal s = .next s) ∧
    (s.cores.find? (fun x => x.sealNow && x.post == some 0) = some k → s.core k.id = k → k.id < s.cores.length →
      ∃ t c, exec .triggerSeal s = .next t ∧ Ref.Stored s t c ∧ c.kind = 1 ∧ c.count = k.trigAt ∧ c.ncores = 1 ∧
        c.origin = s.logicalCore 0 k.id ∧ c.rings = [k.trail.reverse] ∧ t.core k.id = { k with sealNow := false } ∧
        t = { s with cores := t.cores, isalon := t.isalon, mem := t.mem, vers := t.vers, owners := t.owners, writes := t.writes })

/-- R363, R397: the freeze. The first message that an enabled core receives of an originator that has broadcast freezes it: its groups stop,
marked with 0x3F and the originator, a FREEZE record, written whatever the cycle has written (assumption 22), is its last; a further message does nothing. A thermal freeze starts at some
core with 0x3E, unless a freeze has begun (which core is a free value: assumption 43). -/
def Sys2Proof.Claims.Freezes : Prop :=
  (∀ (s : State) (core origin hops : Nat),
    (origin ∉ s.isalon.origins ∨ core ∉ s.enabled ∨ (s.core core).frozen ≠ none → exec (.freezeMessage core origin hops) s = .next s) ∧
    (origin ∈ s.isalon.origins → core ∈ s.enabled → core < s.cores.length → (s.core core).frozen = none →
      ∃ t f, exec (.freezeMessage core origin hops) s = .next t ∧ (t.core core).frozen = some f ∧ f.origin = origin ∧
        f.hops = hops % 2 ^ 8 ∧ f.stamp = s.clock % 2 ^ 32 ∧ t.mem = s.mem ∧ t.isalon = s.isalon ∧
        (∀ g ∈ t.gangs, g.core = core → ∀ y ∈ g.groups, y.tcause.toNat % 2 ^ 16 = 0x303F ∧ y.tinfo1 = BitVec.ofNat 64 origin) ∧
        (∀ g ∈ s.gangs, g.core ≠ core → g ∈ t.gangs) ∧ (∀ k c, t.ctx k = some c → c.core = core → t.mayIssue c = false) ∧
        ((s.core core).post ≠ some 0 → (s.core core).trigPend = false → (t.core core).trail.head? =
          some ⟨BitVec.ofNat 64 (s.clock % 2 ^ 32 + 32 * 2 ^ 36 + f.cause % 2 ^ 13 * 2 ^ 51),
            BitVec.ofNat 64 (origin % 2 ^ 8 + hops % 2 ^ 8 * 2 ^ 8 + s.clock / 2 ^ 32 % 2 ^ 32 * 2 ^ 32)⟩))) ∧
  ∀ s : State, s.enabled ≠ [] → (∀ k ∈ s.enabled, k < s.cores.length ∧ (s.core k).frozen = none) →
    (s.isalon.freezeAt ≠ none → ∃ t, exec .thermalFreeze s = .next t ∧ t.plat.thermal = true ∧ t = { s with plat := t.plat }) ∧
    (s.isalon.freezeAt = none → ∃ t core f, exec .thermalFreeze s = .next t ∧ t.plat.thermal = true ∧ core ∈ s.enabled ∧
      (t.core core).frozen = some f ∧ f.cause = 0x3E ∧ f.origin = s.logicalCore 0 core ∧ t.isalon.freezeAt = some s.clock ∧
      t.isalon.fcause = 0x3E ∧ (core, 0x3E) ∈ t.isalon.summary ∧ t.isalon.origins = s.isalon.origins ++ [f.origin] ∧ t.mem = s.mem)

/-- R363 to R366, R397: Isalon gathers once, when every core has acknowledged or 4,096 cycles after the first broadcast: a capsule of kind 0
(of kind 2 where the operator's write to FREEZE has begun the freeze: assumption 36)
with the lowest originator, every enabled core's ring in ascending logical order (a core without a logical number goes by its own:
assumption 42) and its entry in the fault summary. Once every core has
frozen, and after the gathering, nothing but a reset and the retrieval of capsules is accepted from outside, and no gang's word issues
(Isalon's own steps and the steps of the cycle count go on); after a thermal freeze the dies have no power, and nothing runs
until a cold reset. -/
def Sys2Proof.Claims.CapsuleGathering : Prop :=
  (∀ s : State,
    let may := ∃ at', s.isalon.freezeAt = some at' ∧ s.isalon.gathered = false ∧
      ((∀ p ∈ s.enabled, ∃ f, (s.core p).frozen = some f ∧ f.acked = true) ∨ at' + 4096 ≤ s.clock)
    (¬ may → exec .capsuleGather s = .next s) ∧
    (may → ∃ t c, exec .capsuleGather s = .next t ∧ Ref.Stored s t c ∧ c.kind = (if s.isalon.asked then 2 else 0) ∧
      s.isalon.freezeAt = some c.count ∧ c.cause = s.isalon.fcause ∧ c.ncores = s.enabled.length ∧
      (s.isalon.origins ≠ [] → c.origin ∈ s.isalon.origins ∧ ∀ o ∈ s.isalon.origins, c.origin ≤ o) ∧
      (∀ cs : List (Nat × Nat), cs.Perm (s.enabled.map fun p => (s.logicalCore 0 p, p)) → (cs.Pairwise fun x y => x.1 < y.1) →
        c.rings = cs.map (fun x => (s.core x.2).trail.reverse) ∧
        ∀ l p, (l, p) ∈ cs → l < 192 → (c.summary[l]?).map (·.1) = some (match (s.core p).frozen with
        | none => 64#64
        | some f => BitVec.ofNat 64 ((if ∃ x ∈ s.isalon.summary, x.1 = p then 0x3E else 0x3F) + (if l ∈ s.isalon.origins then 2 ^ 7 else 0) +
            f.hops % 2 ^ 8 * 2 ^ 8 + f.stamp % 2 ^ 32 * 2 ^ 32))) ∧
      t.isalon.gathered = true ∧ t.plat.poweredDown = s.plat.thermal ∧ t = { s with isalon := t.isalon, plat := t.plat, mem := t.mem, vers := t.vers, owners := t.owners, writes := t.writes })) ∧
  (∀ s : State, (s.isalon.gathered = true ∨ s.isalon.freezeAt ≠ none ∧ ∀ k ∈ s.enabled, (s.core k).frozen ≠ none) →
    (∀ c, s.mayIssue c = false) ∧
    ∀ i, s.accepts i = true → i = .coldReset ∨ i = .warmReset ∨ (∃ who, i = .list who) ∨ (∃ who n, i = .ack who n) ∨
      (∃ who a b n, i = .read who a b n) ∨
      i ∈ [.capsuleGather, .triggerSeal, .epoch, .periodBoundary, .feedbackWindow, .threshWindow, .pcSample]) ∧
  ∀ (s t : State), s.plat.poweredDown = true → step s = .next t → t.plat.poweredDown = false ∧ t.gangs = []

/-- R354, R366 to R369: retrieval. The operator lists, reads and acknowledges every capsule whole; a tenant reads a view: its own entries
of the launches, its own row of the allotment table, of each ring the records it may see and, for the others, REDACT records; a
requester without an interface (a virtual function of allotment 0 is a tenant too), an unknown serial or more than 4,096 bytes is an error (assumption 44, as the layout of a LIST), and an acknowledgement by a tenant too. Signatures are assumption
17, REDACT records' stamps assumption 42. -/
def Sys2Proof.Claims.Retrieval : Prop :=
  ∀ (s : State) (who : Requester) (serial off len : Nat),
    let i := s.isalon
    let nobody := who ≠ .operator ∧ ∀ al, ¬ Ref.ActsFor s who al
    let answers := fun (x : Instr) (r : Option (List Byte)) => exec x s = .next { s with isalon := { i with answer := r } }
    let read := Instr.read who serial off len
    let kept := i.retention.toList ++ i.flash.map fun x => x.2
    (nobody → answers (.list who) none ∧ answers read none ∧ answers (.ack who serial) none) ∧
    (¬ nobody → answers (.list who) (some ((((i.retention.toList.map fun c => (c, 0)) ++ i.flash.map fun (x : Nat × Capsule) => (x.2, x.1)).take 4).flatMap
      fun (x : Capsule × Nat) => toBytes 8 x.1.serial ++ toBytes 8 x.1.kind ++ toBytes 8 (4108 * 1024 + 65536 * x.1.ncores + 144) ++ toBytes 8 x.2))) ∧
    ((∀ c ∈ kept, c.serial ≠ serial) → answers read none ∧ answers (.ack who serial) none) ∧
    (4096 < len → answers read none) ∧ (who ≠ .operator → answers (.ack who serial) none) ∧
    ∀ c, kept.find? (fun c => c.serial == serial) = some c →
      (who = .operator →
        (len ≤ 4096 → answers read (some (((Ref.sealedWith (c.body [])).drop off).take len))) ∧
        exec (.ack who serial) s = .next { s with isalon := { i with
          retention := i.retention.filter fun x => x.serial != serial
          flash := i.flash.filter fun x => x.2.serial != serial
          answer := some [] } }) ∧
      ∀ al, Ref.ActsFor s who al → len ≤ 4096 → ∃ v : Capsule, answers read (some (((Ref.sealedWith (v.body (sha384 (c.body [])))).drop off).take len)) ∧
        v = { c with entries := c.entries.filter (fun e => (nth 0#64 e 1).toNat == al), table := v.table, rings := v.rings } ∧
        v.table.length = c.table.length ∧ (∀ k, k < c.table.length → nth [] v.table k = if k = al then nth [] c.table k else []) ∧
        v.rings.length = c.rings.length ∧ ∀ k, k < c.rings.length →
          let cls := fun (r : TRec) => r.w0.toNat / 2 ^ 36 % 2 ^ 6
          (nth [] v.rings k).filter (fun r => cls r != 62) = (nth [] c.rings k).filter fun r =>
            cls r != 62 && (r.w0.toNat / 2 ^ 32 % 16 == al || cls r == 32 || cls r == 33 || cls r == 63)

/-- R353, R354: a meter report: the allotment's serial, the report's number, its 32 meters, and the hash of these after the last hash; the
response is signed over the report and the requester's nonce, and the next report is chained to this one. A tenant may name its
own allotment alone. The word that names allotment and serial is assumption 38, the signature assumption 17. -/
def Sys2Proof.Claims.MeterReports : Prop :=
  ∀ (s : State) (who : Requester) (index nonce : Nat),
    let al := index - 0x40
    let ok := 0x40 ≤ index ∧ index < 0x50 ∧ (who = .operator ∨ Ref.ActsFor s who al)
    let a := s.allot al
    let i := Instr.getMeasurements who index nonce
    (¬ ok → exec i s = .next { s with isalon := { s.isalon with answer := none } }) ∧
    (ok →
      let last := if a.chain = [] then sha384 (toBytes 8 (al + a.serial * 2 ^ 16)) else a.chain
      let head := toBytes 8 (al + a.serial * 2 ^ 16) ++ toBytes 8 (a.repN + 1) ++
        (List.range 32).flatMap fun k => toBytes 8 (a.meters.get 0#64 k).toNat
      let rep := head ++ sha384 (last ++ head) ++ List.replicate 32 0#8
      ∃ t, exec i s = .next t ∧ t.isalon = { s.isalon with answer := some (rep ++ (List.range 96).map fun k => nth 0#8 (Config.signature (rep ++ toBytes 32 nonce)) k) } ∧
        t = { s with isalon := t.isalon, allots := t.allots } ∧ (∀ k, k ≠ al → t.allot k = s.allot k) ∧
        (al < s.allots.length → t.allot al = { a with repN := a.repN + 1, chain := sha384 (last ++ head) }))

/-- R8, R97, R98: the results of a group that are due are in its registers for good: an early read can no longer miss them; and a park at
a switch bit ends once none of the group's results is outstanding. -/
def Sys2Proof.Claims.FixedLatencyResults : Prop :=
  ∀ (s : State) (k : GroupKey),
    (s.ctx k = none → exec (.fixedLatencyResultWrite k) s = .next s) ∧
    ∀ c, s.ctx k = some c →
      let own := fun (x : Shadow) => x.slices.any fun j => c.grp.slices.contains j
      let woken := c.grp.wait = .switchBit ∧ ∀ x ∈ c.gang.shadows, own x = true → x.due ≤ s.clock
      ∃ t g', exec (.fixedLatencyResultWrite k) s = .next t ∧ t.rest = s.rest ∧ OnlyGang s t c g' ∧ g'.data = c.gang.data ∧
        (∀ x' ∈ g'.shadows, ∃ x ∈ c.gang.shadows, x' = { x with lanes := x'.lanes } ∧ x'.lanes &&& ~~~x.lanes = 0#32 ∧
          (x'.due ≤ s.clock → (∀ n, x'.reg = .s n → own x' = false) ∧
            ((∀ n, x'.reg ≠ .s n) → ∀ l, l / 4 ∈ c.grp.slices → x'.lanes.getLsbD l = false))) ∧
        ((∀ x ∈ c.gang.shadows, s.clock < x.due ∧ x.lanes ≠ 0#32) → g'.shadows = c.gang.shadows) ∧
        (g'.slices = c.gang.slices ∨ woken ∧ ∃ x ∈ c.gang.groups, x.owes = true) ∧
        (woken → g'.groups = c.gang.groups.map fun (x : Group) =>
          if x.slices = c.grp.slices then { x with wait := .none, sw := false, owes := false, readySince := some s.clock } else x) ∧
        (¬ woken → g'.groups = c.gang.groups)

/-- R307, R337, R339, R341, R342, R343, R352, R353, R359: what the cycle count brings. At a multiple of 65,536 issue counts and drill bytes start
again, what was written of budgets and the class is in force, and groups that a spent budget has held become eligible anew; at a
multiple of 512 guarantees take force, meter 25 counts the module's capacity, and vector 0 is raised for every allotment that a
retirement has made due (assumption 70); at a carry into bit 32 every enabled core writes an EPOCH record; each once in its cycle. VCLK counts the cycles in
which its allotment is RUNNING, meter 13 those in which it is FALLOW. -/
def Sys2Proof.Claims.Periods : Prop :=
  ∀ (s : State),
    let due := fun (n every : Nat) => s.clock % every = 0 ∧ s.ticks.get 0 n ≠ s.clock + 1
    let unready := fun (g : Gang) => { g with groups := g.groups.map fun (x : Group) => { x with readySince := none } }
    let noted := fun (t : State) (n : Nat) => t.ticks.get 0 n = s.clock + 1 ∧ ∀ m, m ≠ n → t.ticks.get 0 m = s.ticks.get 0 m
    (¬ due 0 65536 → exec .periodBoundary s = .next s) ∧
    (due 0 65536 → ∃ t, exec .periodBoundary s = .next t ∧ t.gangs.map unready = s.gangs.map unready ∧ noted t 0 ∧
      (∀ (n : Nat) (g : Gang) (b : Block), s.gangs[n]? = some g → s.block? g.blk = some b → ∃ g' : Gang, t.gangs[n]? = some g' ∧
        if b.headland = false ∧ (s.allot b.al).quota.get 0 6 ≤ (s.core g.core).issued.get 0 (16 * (g.slot / 16) + b.al) then
          ∀ x ∈ g'.groups, x.readySince = some s.clock
        else g' = g) ∧
      t.rest = { s.rest with allots := t.rest.allots, ticks := t.ticks } ∧ (∀ k, k < s.cores.length → (t.core k).issued = []) ∧
      ∀ k, k < s.allots.length → (t.allot k).quiet = { (s.allot k).quiet with quota := (t.allot k).quota, quotaNext := [], drillBytes := 0 } ∧
        (((s.allot k).quotaNext.map (·.1)).Nodup → (∀ x ∈ (s.allot k).quotaNext, x.2 ≠ 0) → ∀ i, (t.allot k).quota.get 0 i =
          if (s.allot k).quotaNext.get 0 i = 0 then (s.allot k).quota.get 0 i else (s.allot k).quotaNext.get 0 i - 1)) ∧
    (¬ due 1 512 → exec .feedbackWindow s = .next s) ∧
    (due 1 512 →
      let sum := fun (i : Nat) => (s.allots.map fun a => if a.st = .free then 0 else a.quota.get 0 i).sum
      let scaled := fun (i cap g : Nat) => if cap < sum i then g * cap / sum i else g
      ∃ t, exec .feedbackWindow s = .next t ∧ noted t 1 ∧
        t = { s with allots := t.allots, ticks := t.ticks, regs := { s.regs with vipend := t.regs.vipend } } ∧
        (Ref.Raised s t fun k => (s.allot k).shortDue = true) ∧
        (∀ k, (s.allot k).st = .free → t.allot k = { s.allot k with shortDue := false }) ∧
        ∀ k, (s.allot k).st ≠ .free →
          let m := scaled 9 s.regs.cm ((s.allot k).quota.get 0 9)
          let l := scaled 10 s.regs.cl ((s.allot k).quota.get 0 10)
          let short := decide (m < (s.allot k).quota.get 0 9 ∨ l < (s.allot k).quota.get 0 10)
          (t.allot k).quiet = { (s.allot k).quiet with memg := m, linkg := l, shortOn := short, memgIn := m, linkgIn := l, shortDue := false } ∧
            ∀ i, (t.allot k).meters.get 0#64 i = (s.allot k).meters.get 0#64 i + if i = 25 then BitVec.ofNat 64 (s.regs.cm * 512) else 0#64) ∧
    (¬ due 2 (2 ^ 32) ∨ s.clock = 0 → exec .epoch s = .next s) ∧
    (due 2 (2 ^ 32) → s.clock ≠ 0 → ∃ t, exec .epoch s = .next t ∧ noted t 2 ∧ t.gangs = s.gangs ∧
      t.rest = { s.rest with ticks := t.ticks } ∧
      ∀ k ∈ s.enabled, k < s.cores.length → (s.core k).frozen = none → (s.core k).post ≠ some 0 → (s.core k).trigPend = false →
        (t.core k).trail.head? = some ⟨BitVec.ofNat 64 (34 * 2 ^ 36), BitVec.ofNat 64 (s.clock / 2 ^ 32)⟩) ∧
    ∀ n, let t := s.pass n
      t.clock = s.clock + n ∧ t.mem = s.mem ∧ t.gangs = s.gangs ∧ ∀ k, k < s.allots.length →
        (t.allot k).vclk = (s.allot k).vclk + (if (s.allot k).st = .running then BitVec.ofNat 64 n else 0#64) ∧
        (t.allot k).meters.get 0#64 13 = (s.allot k).meters.get 0#64 13 + if (s.allot k).st = .fallow then BitVec.ofNat 64 n else 0#64

/-- R373, R374, R375: the end of a THRESH window. Each cell of that function starts its count again, and where the count has reached the
threshold, counts one output event in the counter its configuration names. -/
def Sys2Proof.Claims.ThreshWindows : Prop :=
  ∀ (s : State),
    let due := s.clock % 512 = 0 ∧ s.ticks.get 0 4 ≠ s.clock + 1 ∧ s.clock ≠ 0
    let w := fun (k : Nat) => (s.regs.devcell.get 0#64 k).toNat
    let thresh := fun (k : Nat) => w k / 2 ^ 10 % 8 = 3
    let cell := fun (t : State) (n k : Nat) => nth ({} : Cell) (t.core n).cells k
    (¬ due → exec .threshWindow s = .next s) ∧
    (due → ∃ t, exec .threshWindow s = .next t ∧ t.gangs = s.gangs ∧
      t.rest = { s.rest with allots := t.rest.allots, cores := t.rest.cores, ticks := t.ticks } ∧
      (∀ n ∈ s.enabled, n < s.cores.length → ∀ k, k < 8 → (cell t n k).run = (cell s n k).run ∧ (cell t n k).lastA = (cell s n k).lastA ∧
        (cell t n k).count = if thresh k then 0 else (cell s n k).count) ∧
      ∀ al j, al < s.allots.length → (t.allot al).bank.get 0#64 j = (s.allot al).bank.get 0#64 j +
        BitVec.ofNat 64 ((s.enabled.map fun n => ((List.range 8).filter fun k => decide (thresh k ∧ w k / 2 ^ 16 % 2 ^ 16 ≤ (cell s n k).count ∧
          w k / 2 ^ 32 % 2 ^ 4 = al ∧ w k / 2 ^ 37 % 2 ^ 12 = j)).length).sum))

/-- R376: a PC sample, at the end of its cycle, of a scheduler with one resident group: a record of class 48 that names the gang's slot, the
group's lowest slice and a reason, with the counter's offset in the kernel and the words retired. The reason is 0 where the scheduler
has issued a word of the group in the cycle, else the lowest of what holds it: what the group is parked for, what its word has
been found to wait for in this cycle, a spent budget, a publish that a change of the routes holds, a `cede`. Nothing that a program sees
changes. (Where none of these holds, the reason is one of those of timing, a free value: assumption 40; the row samples every scheduler at
once: assumption 51.) -/
def Sys2Proof.Claims.PcSamples : Prop :=
  ∀ (s : State),
    let due := s.clock % 256 = 0 ∧ s.ticks.get 0 3 ≠ s.clock + 1 ∧ s.regs.trmask.getLsbD 48 = true
    (¬ due → exec .pcSample s = .next s) ∧
    (due → ∃ t, exec .pcSample s = .next t ∧ t.gangs = s.gangs ∧ t.rest = { s.rest with ticks := t.ticks } ∧
      ∀ (g : Gang) (x : Group) (b : Block), s.gangs = [g] → g.groups = [x] → s.block? g.blk = some b → g.isOver = false →
        g.spilled = false → g.slot < 64 → b.al < 16 → (s.allot b.al).st = .running → (s.allot b.al).sampctl.getLsbD 8 = true →
        s.clock % 2 ^ ((s.allot b.al).sampctl.toNat % 32) = 0 → g.core < s.cores.length → (s.core g.core).frozen = none →
        (s.core g.core).post = none → (s.core g.core).trigPend = false → (s.core g.core).lost = 0 → (s.core g.core).recCycle ≠ s.clock → ∃ r : Nat,
          (t.core g.core).trail.head? = some ⟨BitVec.ofNat 64 (s.clock % 2 ^ 32 + b.al * 2 ^ 32 + 48 * 2 ^ 36 + g.slot / 16 * 2 ^ 42 +
              g.slot % 16 * 2 ^ 44 + x.low % 8 * 2 ^ 48 + (if r = 0 then 32 else r) % 2 ^ 13 * 2 ^ 51),
            BitVec.ofNat 64 (((((g.slice x.low).pc : Int) - b.k.kaddr) % 2 ^ 32).toNat + (g.slice x.low).retc.toNat % 2 ^ 32 * 2 ^ 32)⟩ ∧
          let core := s.core g.core
          let tag := 8 * g.uid + x.low + 1
          let issued := core.lastIssue.get 0 (g.slot / 16) = s.clock + 1 ∧ core.lastWho.get 0 (g.slot / 16) = tag
          let spent := b.headland = false ∧ (s.allot b.al).quota.get 0 6 ≤ core.issued.get 0 (16 * (g.slot / 16) + b.al)
          let parked := fun (k : Nat) => (x.wait = .switchBit ∧ k = 7) ∨ ((∃ a, x.wait = .limit a) ∧ k = 12) ∨
            ((∃ w e ts sc adv m, x.wait = .barWait w e ts sc adv m) ∧ k = 14) ∨
            ((∃ w e ts sc adv pd d, x.wait = .barTry w e ts sc adv pd d) ∧ k = 14) ∨
            ((∃ pd ln e vs d, x.wait = .tryw pd ln e vs d) ∧ k = 15) ∨ (x.wait = .regang ∧ k = 16) ∨
            ((∃ pd, x.wait = .resamp pd) ∧ k = 17) ∨ ((∃ n, x.wait = .held n) ∧ k = 18) ∨ ((∃ lv n, x.wait = .cancel lv n) ∧ k = 19) ∨
            ((∃ cmds e, x.wait = .qfence cmds e) ∧ k = 26) ∨ ((∃ al slot serial ts pd e d, x.wait = .vsync al slot serial ts pd e d) ∧ k = 31)
          let holds := fun (k : Nat) => parked k ∨ (x.stalledAt = s.clock + 1 ∧ k = x.stallWhy) ∨
            (x.probedAt = s.clock + 1 ∧ k = x.probeWhy) ∨ (spent ∧ k = 20) ∨ (x.pubHeld = true ∧ s.plat.draining = true ∧ k = 21) ∨
            (x.wait = .none ∧ core.ceded.get 0 (g.slot / 16) = tag ∧ k = 25)
          (issued → r = 0) ∧
          (¬ issued → (∀ k, holds k → r ≤ k) ∧ (holds r ∨ (∀ k, ¬ holds k) ∧ r ∈ [8, 9, 10, 13, 21, 24, 29, 30, 31])))

/-- R394 to R397, R360, R349: right after reset, allotment 0 is READY with the quotas and the save area that the spec lists and every tenant
is FREE; nothing is placed, no launch and no capsule is there; PCAP is 2,300, TRMASK reads its reset value with the wired bits, no unit
is retired and no link down. (Registers without a value of the spec's are zero: assumption 3.) -/
def Sys2Proof.Claims.ResetValues : Prop :=
  let s := State.reset
  (s.allot 0).st = .ready ∧ (∀ al, 0 < al → (s.allot al).st = .free ∧ (s.allot al).quota = [] ∧ (s.allot al).launches = []) ∧
  (∀ x ∈ [(0, 0x00010000), (1, 0x00080000), (2, 0x00400000), (3, 0x00100000), (4, 0x00020000), (5, 1), (6, 65536), (7, 2 ^ 40),
    (8, 0x0001000100010001), (9, 128), (10, 128), (11, 3)], (s.allot 0).item x.1 = x.2) ∧ (s.allot 0).save = 0x000001FFFC000020#64 ∧
  (s.allot 0).pt2 = 0#64 ∧ s.blocks = [] ∧ s.gangs = [] ∧ s.tlb = [] ∧ (s.allot 0).launches = [] ∧ s.clock = 0 ∧
  s.cores.length = 192 ∧ (∀ n, (s.core n).entries = [] ∧ (s.core n).trail = [] ∧ (s.core n).frozen = none) ∧
  s.regs.pcap = 2300#64 ∧ s.regs.trmask = 0xC0000107031F01FE#64 ∧ s.regs.cm = 4096 ∧ s.regs.cl = 4096 ∧ s.regs.fieldsLost = [] ∧
  s.isalon.retention = none ∧ s.isalon.flash = [] ∧ s.plat.cxlDown = [] ∧ s.plat.peerDown = [] ∧ s.plat.poweredDown = false

/-- R366, R394 to R396: the two resets. Both leave nothing placed and allotment 0 as after power-on. A cold reset keeps flash, the capsule
count and the final reports, with those of the allotments that were live; a warm one keeps besides memory outside tier one and in
the retention region, the retained capsule, all that Isalon keeps but the freeze of the cores, the cycle count, the meters, retired
units and the state of the links (that units stay retired and links down is assumption 63). -/
def Obligations.Resets : Prop :=
  ∀ (s : State),
    let live := fun (k : Nat) => k < s.allots.length ∧ (s.allot k).st ≠ .free
    let words := fun (k : Nat) => (List.range 32).map fun i => (s.allot k).meters.get 0#64 i
    (∃ t, exec .coldReset s = .next t ∧
      t = { State.reset with turn := s.turn, free := s.free, agenda := s.agenda, nextUid := s.nextUid, isalon := t.isalon,
                             plat := { State.reset.plat with harvested := s.plat.harvested, hdm := s.plat.hdm } } ∧
      t.isalon = { State.reset.isalon with flash := s.isalon.flash, serial := s.isalon.serial, dropped := s.isalon.dropped,
                                           finals := t.isalon.finals } ∧
      ∀ k, (live k → t.isalon.finals.get [] k = words k) ∧
        (¬ live k → t.isalon.finals.get [] k =
          if k < s.allots.length then ((s.allot k).final).getD (s.isalon.finals.get [] k) else s.isalon.finals.get [] k)) ∧
    ∃ t, exec .warmReset s = .next t ∧ t.gangs = [] ∧ t.blocks = [] ∧ t.tlb = [] ∧ t.reqs = [] ∧ t.passes = [] ∧ t.saccs = [] ∧
      t.dbinds = [] ∧ t.cores = State.reset.cores ∧ t.clock = s.clock ∧
      (∀ a, t.mem.read a = if a < 0x1FFFE000000 then 0#8 else s.mem.read a) ∧
      t.isalon = { s.isalon with freezeAt := none, origins := [], summary := [], gathered := false } ∧ t.regs.trmask = State.reset.regs.trmask ∧ t.regs.pcap = 2300#64 ∧
      t.regs.cm = s.regs.cm ∧ t.regs.cl = s.regs.cl ∧ t.regs.fieldsLost = s.regs.fieldsLost ∧ t.regs.retirements = s.regs.retirements ∧
      t.met = [] ∧ t.plat.hdm = s.plat.hdm ∧ t.plat.draining = false ∧
      t.plat.cxlDown = s.plat.cxlDown ∧ t.plat.peerDown = s.plat.peerDown ∧ t.plat.poweredDown = false ∧ t.plat.mxHold = false ∧
      t.allots.length = s.allots.length ∧ ∀ k, k < s.allots.length →
        (t.allot k).st = (if k = 0 then .ready else .free) ∧ (t.allot k).quota = (if k = 0 then State.reset.allot 0 else Allot.blank).quota ∧
        (t.allot k).place = [] ∧ (t.allot k).launches = [] ∧ (t.allot k).serial = (s.allot k).serial ∧
        (t.allot k).meters = (s.allot k).meters ∧ (t.allot k).chain = (s.allot k).chain ∧ (t.allot k).repN = (s.allot k).repN ∧
        (t.allot k).final = if (s.allot k).st = .free then (s.allot k).final else some (words k)

/-- R45 to R56, R61: words written out by their fields decode to the instructions they stand for: one of each form, and a pair. -/
def Obligations.WordsDecode : Prop :=
  let g7 : Hdr := { sw := false, uni := false, g := 7, neg := false }
  let word := fun (s p u n g op sub : Nat) (rest : Nat) =>
    BitVec.ofNat 64 (s * 2 ^ 63 + p * 2 ^ 62 + u * 2 ^ 61 + n * 2 ^ 60 + g * 2 ^ 57 + op * 2 ^ 48 + sub * 2 ^ 45 + rest)
  let reg := fun (d a b c m : Nat) => d * 2 ^ 36 + a * 2 ^ 27 + b * 2 ^ 18 + c * 2 ^ 9 + m
  -- v3 = v1 + v2 as .n32; v5 = v4 + 7 as .i32, s2 = s1 as .b64, uniform, under !p1 with the switch bit
  decode (word 0 0 0 0 7 0x000 1 (reg 3 1 2 452 0)) = .ok (.add g7 .n32 false (.v 3) (.v 1) (.v 2)) ∧
  decode (word 0 0 0 0 7 0x020 0 (5 * 2 ^ 36 + 4 * 2 ^ 27 + 7)) = .ok (.addImm g7 .i32 (.v 5) (.v 4) 7) ∧
  decode (word 1 0 1 1 1 0x018 6 (reg 386 385 452 452 0)) =
    .ok (.mov { sw := true, uni := true, g := 1, neg := true } .b64 (.s 2) (.s 1)) ∧
  -- v8 = the 32-bit word at v9 + 12 of ln2; a branch three words on; an exit
  decode (word 0 0 0 0 7 0x0C3 2 (8 * 2 ^ 36 + 452 * 2 ^ 27 + 2 * 2 ^ 23 + 9 * 2 ^ 14 + 12 * 2 ^ 7)) = .ok (.ld g7 .b32 8 2 (.v 9) 12) ∧
  decode (word 0 0 0 0 7 0x0B0 0 3) = .ok (.br g7 3) ∧
  decode (word 0 0 0 0 7 0x0B8 0 (reg 452 452 452 452 0)) = .ok (.exit g7) ∧
  -- a pair: v1 = v1 + v2 and v6 = v6 & v7, both under p7
  decode (word 0 1 0 0 0 0 0 (2 * 2 ^ 24 + 1 * 2 ^ 17 + 2 * 2 ^ 10 + 7 * 2 ^ 7 + 2 ^ 31 * (9 * 2 ^ 24 + 7 * 2 ^ 17 + 4 * 2 ^ 10 + 7 * 2 ^ 7))) =
    .ok (.pairAdd false ⟨1, 2, 7, 0⟩ ⟨.and, ⟨7, 4, 7, 0⟩⟩)

/-- R45 to R66: decoding and encoding agree: every well-formed instruction has a word, and that word decodes to it, with every operand at
every value that the encoding admits. -/
def Obligations.EncodingsRoundTrip : Prop :=
  ∀ i : Instr, WellFormed i = true → ∃ w, encode i = some w ∧ decode w = .ok i

/-- Memory is one list of cells with strictly rising addresses, none of which holds what an unlisted address reads as; every step of
the machine keeps it so. -/
def Obligations.StepsKeepMemoryCanonical : Prop :=
  ∀ (s t : State), s.memOk → step s = .next t → t.memOk

/-- The machine starts with its memory in that form. -/
def Sys2Proof.Claims.ResetMemoryCanonical : Prop := State.reset.memOk

/-- No word and no event stops the machine: a step answers a next state unless the dies are without power after a thermal freeze (R397). A
launch whose write has met a damaged line ends with 0x3D in the step that follows (R140, R384). -/
def Obligations.StepsAnswer : Prop :=
  (∀ (i : Instr) (s : State), ∃ t, exec i s = .next t) ∧
  (∀ s : State, s.plat.poweredDown = false → ∃ t, step s = .next t) ∧
  ∀ (s : State) (x : Met) (l : Launch), s.plat.poweredDown = false → s.met = [x] → s.launch? x.al x.lid = some l → l.complete = false →
    l.cancelled = false → ∃ t l', step s = .next t ∧ t.launch? x.al x.lid = some l' ∧ l'.cause = 0x3D ∧ l'.cancelled = true

/-- Integer logic, shifts, moves and bit fields in every lane. -/
def Obligations.LogicShiftsAndBitFields : Prop :=
  Sys2Proof.Claims.LogicShiftsAndMoves ∧
  Sys2Proof.Claims.BitFields

/-- Integer comparisons into predicates, and conversions of integers. -/
def Obligations.IntegerComparisonsAndConversions : Prop :=
  Sys2Proof.Claims.IntegerComparisons ∧
  Sys2Proof.Claims.IntegerConversions

/-- FP32 extremes, comparisons, conversions and dot products. -/
def Obligations.FloatOrderConversionsAndDots : Prop :=
  Sys2Proof.Claims.FloatOrder ∧
  Sys2Proof.Claims.FloatConversions ∧
  Sys2Proof.Claims.DotProducts

/-- FP32 reciprocals and roots are rounded once; special values of the functions. -/
def Obligations.RootsAndTranscendentals : Prop :=
  Sys2Proof.Claims.ReciprocalsAndRoots ∧
  Sys2Proof.Claims.TranscendentalSpecialValues

/-- Predicate logic, words that read across lanes, and votes. -/
def Obligations.PredicateAndCrossLaneWords : Prop :=
  Sys2Proof.Claims.PredicateWords ∧
  Sys2Proof.Claims.CrossLaneWords ∧
  Sys2Proof.Claims.Votes

/-- What operands read, which lanes a guard enables, and what an early read gives. -/
def Obligations.OperandsAndGuards : Prop :=
  Sys2Proof.Claims.OperandValues ∧
  Sys2Proof.Claims.GuardedLanes ∧
  Sys2Proof.Claims.EarlyReads

/-- Queue registers as sources and destinations. -/
def Obligations.QueueOperands : Prop :=
  Sys2Proof.Claims.QueueSources ∧
  Sys2Proof.Claims.QueueDestinations

/-- Branches, and what becomes of lanes that part. -/
def Obligations.BranchWords : Prop :=
  Sys2Proof.Claims.Branches ∧
  Sys2Proof.Claims.DivergentBranches

/-- Calls and returns push and pop a stack entry for each slice. -/
def Obligations.CallsAndReturns : Prop :=
  Sys2Proof.Claims.Calls ∧
  Sys2Proof.Claims.Returns

/-- Indirect jumps and calls, and the traps of their targets. -/
def Obligations.IndirectMovesAndChecks : Prop :=
  Sys2Proof.Claims.IndirectMoves ∧
  Sys2Proof.Claims.IndirectChecks

/-- Words without an effect on registers or memory complete; what a scheduler picks, and cede. -/
def Obligations.NoEffectWords : Prop :=
  Sys2Proof.Claims.NoEffectWords ∧
  Sys2Proof.Claims.SchedulerPicks

/-- Lanes that exit, gangs that end, and groups that rejoin. -/
def Obligations.ExitsAndRegangs : Prop :=
  Sys2Proof.Claims.Exits ∧
  Sys2Proof.Claims.EndedGangs ∧
  Sys2Proof.Claims.Regangs ∧
  Sys2Proof.Claims.RegangMerges

/-- Fetch and decode traps, undeclared registers, and registers that are pending. -/
def Obligations.ChecksBeforeAWordRuns : Prop :=
  Sys2Proof.Claims.FetchAndDecodeTraps ∧
  Sys2Proof.Claims.UndeclaredRegisters ∧
  Sys2Proof.Claims.PendingRegistersWait

/-- Words that trap by themselves, and the return from a handler. -/
def Obligations.TrapWordsAndReturns : Prop :=
  Sys2Proof.Claims.TrapWords ∧
  Sys2Proof.Claims.HandlerReturns

/-- Trap records enter the ring, and the headland answers held groups. -/
def Obligations.TrapRecordsAndAnswers : Prop :=
  Sys2Proof.Claims.TrapRecords ∧
  Sys2Proof.Claims.HoldAnswers

/-- Address checks of opens and the traps of line accesses. -/
def Obligations.LineTraps : Prop :=
  Sys2Proof.Claims.AddressChecks ∧
  Sys2Proof.Claims.LineAccessTraps

/-- Loads and stores through line registers, with their frame. -/
def Obligations.LineLoadsAndStores : Prop :=
  Sys2Proof.Claims.LineLoads ∧
  Sys2Proof.Claims.LineStores

/-- Lines that arrive and leave, and scratchpad accesses that perform. -/
def Obligations.AccessesArrive : Prop :=
  Sys2Proof.Claims.LineStoreSteps ∧
  Sys2Proof.Claims.ScratchPerforms ∧
  Sys2Proof.Claims.MatrixFetches

/-- Scratchpad accesses are sent, swizzled offsets, lanes that are switched off. -/
def Obligations.ScratchAccesses : Prop :=
  Sys2Proof.Claims.ScratchAccesses ∧
  Sys2Proof.Claims.SwizzledOffsets ∧
  Sys2Proof.Claims.LanesSwitchedOff

/-- Barrier words: initialisation, arrivals, deductions of ended lanes. -/
def Obligations.BarrierWords : Prop :=
  Sys2Proof.Claims.BarrierWords ∧
  Sys2Proof.Claims.EndedLanesAreDeducted

/-- Waits at barriers and lines: parking, waking and time limits. -/
def Obligations.WaitingWords : Prop :=
  Sys2Proof.Claims.WaitingWords ∧
  Sys2Proof.Claims.LimitsExpire ∧
  Sys2Proof.Claims.ParkedGroups

/-- Atomic words send requests, and their traps. -/
def Obligations.AtomicWords : Prop :=
  Sys2Proof.Claims.AtomicWords ∧
  Sys2Proof.Claims.AtomicTraps

/-- Atomic requests perform at the home, and replay gates them. -/
def Obligations.AtomicsPerform : Prop :=
  Sys2Proof.Claims.AtomicsPerform ∧
  Sys2Proof.Claims.GatedRequests

/-- Quarters of matrix words, tile words, and the format register. -/
def Obligations.MatrixQuartersAndTiles : Prop :=
  Sys2Proof.Claims.MatrixQuarters ∧
  Sys2Proof.Claims.TileWords ∧
  Sys2Proof.Claims.FormatWords

/-- Matrix operand loads from the scratchpad and from views. -/
def Obligations.MatrixLoads : Prop :=
  Sys2Proof.Claims.MatrixLoads ∧
  Sys2Proof.Claims.ViewLoads

/-- Registering, dropping, opening, tagging and awaiting views. -/
def Obligations.ViewWords : Prop :=
  Sys2Proof.Claims.ViewRegistration ∧
  Sys2Proof.Claims.ViewWords ∧
  Sys2Proof.Claims.ViewLimits

/-- Recalls of line registers, and rebuilds of view groups. -/
def Obligations.RecallsAndRebuilds : Prop :=
  Sys2Proof.Claims.RecalledRegisters ∧
  Sys2Proof.Claims.Rebuilds ∧
  Sys2Proof.Claims.RebuiltBlocks ∧
  Sys2Proof.Claims.TilthBlocks

/-- Binding queue registers, pushing, popping, joining and fencing. -/
def Obligations.QueueWords : Prop :=
  Sys2Proof.Claims.QueueBindings ∧
  Sys2Proof.Claims.QueueWords ∧
  Sys2Proof.Claims.QueueJoins

/-- launch, cread, cancel, amsend and resamp. -/
def Obligations.WorkWords : Prop :=
  Sys2Proof.Claims.LaunchWords ∧
  Sys2Proof.Claims.StatusWords ∧
  Sys2Proof.Claims.MessagesAndWeights

/-- Blocks are dealt and stolen; launches complete with their records. -/
def Obligations.DealingAndCompletion : Prop :=
  Sys2Proof.Claims.DealingWork ∧
  Sys2Proof.Claims.LaunchesComplete

/-- Reads and writes of the system registers. -/
def Obligations.SystemRegisters : Prop :=
  Sys2Proof.Claims.SystemRegisterReads ∧
  Sys2Proof.Claims.SystemRegisterWrites

/-- Register writes that act: TRMASK, FREEZE, WARM, VIRQ, shootdowns and roots. -/
def Obligations.ActingWritesAndShootdowns : Prop :=
  Sys2Proof.Claims.ActingWrites ∧
  Sys2Proof.Claims.Shootdowns

/-- placeld and quota. -/
def Obligations.PlacesAndQuotas : Prop :=
  Sys2Proof.Claims.PlaceTables ∧
  Sys2Proof.Claims.Quotas

/-- What the host, the ports, power and coolant do to the module. -/
def Obligations.HostAndPorts : Prop :=
  Sys2Proof.Claims.HostWrites ∧
  Sys2Proof.Claims.PortsAndPower

/-- Retired units scale guarantees; uncorrectable errors end what they damage. -/
def Obligations.RetirementsAndErrors : Prop :=
  Sys2Proof.Claims.Retirements ∧
  Sys2Proof.Claims.GleanerVisits

/-- Triggers seal a ring; a freeze stops every core; Isalon gathers the capsule. -/
def Obligations.TriggersAndFreezes : Prop :=
  Sys2Proof.Claims.Triggers ∧
  Sys2Proof.Claims.Freezes ∧
  Sys2Proof.Claims.CapsuleGathering

/-- Capsules are read whole by the operator and in views by tenants; meter reports. -/
def Obligations.RetrievalAndReports : Prop :=
  Sys2Proof.Claims.Retrieval ∧
  Sys2Proof.Claims.MeterReports

/-- What the cycle count brings: results, periods, windows, epochs, samples. -/
def Obligations.PeriodicSteps : Prop :=
  Sys2Proof.Claims.FixedLatencyResults ∧
  Sys2Proof.Claims.Periods ∧
  Sys2Proof.Claims.ThreshWindows ∧
  Sys2Proof.Claims.PcSamples

/-- The machine right after reset. -/
def Obligations.ResetValues : Prop :=
  Sys2Proof.Claims.ResetValues ∧
  Sys2Proof.Claims.ResetMemoryCanonical
end

