-- ==== Sys2Proof/Laws/Lists.lean ====
section
/-! SUPPORT. Laws of list updates and lane masks. -/

namespace Sys2Proof.Machine

variable {α : Type}

@[simp] theorem nth_modNth (d : α) (f : α → α) (xs : List α) (n m : Nat) :
    nth d (modNth f xs n) m = if n = m ∧ m < xs.length then f (nth d xs m) else nth d xs m := by
  induction xs generalizing n m with
  | nil => simp [modNth, nth]
  | cons x xs ih =>
    cases n with
    | zero => cases m <;> simp [modNth, nth]
    | succ n => cases m <;> simp [modNth, nth, ih]

/-- An index beyond a list gives the default. -/
theorem nth_of_length_le (d : α) (xs : List α) (n : Nat) (h : xs.length ≤ n) : nth d xs n = d := by
  induction xs generalizing n with
  | nil => rfl
  | cons x xs ih =>
    cases n with
    | zero => simp at h
    | succ n => simpa [nth] using ih n (by simpa using h)

@[simp] theorem length_modNth (f : α → α) (xs : List α) (n : Nat) : (modNth f xs n).length = xs.length := by
  induction xs generalizing n with
  | nil => rfl
  | cons x xs ih => cases n <;> simp [modNth, ih]

@[simp] theorem length_modWhere (p : α → Bool) (f : α → α) (xs : List α) : (modWhere p f xs).length = xs.length := by
  simp [modWhere]

/-- The first element with a key, after the elements with some key have been changed and keep their keys. -/
theorem find_modWhere (key : α → Nat) (u v : Nat) (f : α → α) (hf : ∀ x, key (f x) = key x) (xs : List α) :
    (modWhere (fun x => key x == u) f xs).find? (fun x => key x == v) =
      if v = u then (xs.find? fun x => key x == v).map f else xs.find? fun x => key x == v := by
  induction xs with
  | nil => simp [modWhere]
  | cons x xs ih =>
    simp only [modWhere, List.map_cons, List.find?_cons] at ih ⊢
    by_cases hu : key x = u
    · simp only [hu, beq_self_eq_true, ↓reduceIte, hf]
      by_cases hv : v = u
      · subst hv; simp
      · have : (u == v) = false := by simp; omega
        simp only [this, hv, ↓reduceIte] at ih ⊢; exact ih
    · have : (key x == u) = false := by simp [hu]
      simp only [this, Bool.false_eq_true, ↓reduceIte]
      by_cases hv : key x = v
      · subst hv; simp [hu]
      · have : (key x == v) = false := by simp [hv]
        simp only [this]; exact ih

theorem mem_lanesOf {m : LaneMask} {l : Nat} : l ∈ lanesOf m ↔ m.getLsbD l = true := by
  simp only [lanesOf, List.mem_filter, List.mem_range, and_iff_right_iff_imp]
  intro h
  exact BitVec.lt_of_getLsbD h

theorem lanesOf_lt {m : LaneMask} {l : Nat} (h : l ∈ lanesOf m) : l < 32 := by
  simp only [lanesOf, List.mem_filter, List.mem_range] at h; exact h.1

theorem nodup_lanesOf (m : LaneMask) : (lanesOf m).Nodup := (List.nodup_range).filter _

theorem lanesOf_zero : lanesOf 0#32 = [] := by decide

theorem getLsbD_maskFold (ls : List Nat) (m : LaneMask) (l : Nat) :
    (ls.foldl (fun m l => m ||| (1#32 <<< l)) m).getLsbD l = (m.getLsbD l || (decide (l < 32) && ls.contains l)) := by
  induction ls generalizing m with
  | nil => simp
  | cons x xs ih =>
    simp only [List.foldl_cons, ih, BitVec.getLsbD_or, BitVec.getLsbD_shiftLeft, List.contains_cons]
    by_cases hl : l < 32
    · by_cases hx : l = x
      · subst hx; simp [hl]
      · have h1 : (l == x) = false := by simp [hx]
        have h2 : (1#32).getLsbD (l - x) = decide (l - x = 0) := by simp [BitVec.getLsbD_one]
        simp only [hl, h1, h2, Bool.false_or, decide_true, Bool.true_and]
        by_cases hlt : l < x
        · simp [hlt]
        · have : l - x ≠ 0 := by omega
          simp [this]
    · simp [hl]

@[simp] theorem getLsbD_maskOf (ls : List Nat) (l : Nat) :
    (maskOf ls).getLsbD l = (decide (l < 32) && ls.contains l) := by
  simp [maskOf, getLsbD_maskFold]

/-- A mask is that of its lanes. -/
@[simp] theorem maskOf_lanesOf (m : LaneMask) : maskOf (lanesOf m) = m := by
  ext l h
  simp only [← BitVec.getLsbD_eq_getElem, getLsbD_maskOf, h, decide_true, Bool.true_and]
  rw [Bool.eq_iff_iff, List.contains_iff_mem, mem_lanesOf]

end Sys2Proof.Machine
end

