-- ==== Sys2Proof/Laws/Store.lean ====
section
/-! SUPPORT. Laws of keyed collections and of memory: a read after a write, and the canonical form that every write keeps. -/

namespace Sys2Proof.Machine

variable {α : Type}

theorem Store.get_put (d : α) (st : Store α) (n m : Nat) (y : α) :
    Store.get d (st.put n y) m = if n = m then y else Store.get d st m := by
  induction st with
  | nil => simp [Store.put, Store.get]
  | cons kx rest ih =>
    obtain ⟨k, x⟩ := kx
    simp only [Store.put]
    split
    · simp [Store.get]
    · split
      · next h => simp only [beq_iff_eq] at h; subst h; simp only [Store.get, beq_iff_eq]; split <;> rfl
      · next h =>
        simp only [beq_iff_eq] at h
        simp only [Store.get, ih, beq_iff_eq]
        split <;> split <;> simp_all

theorem Store.wfFrom_le [DecidableEq α] (d : α) {lo lo' : Nat} {st : Store α} (h : Store.wfFrom d lo st = true)
    (hl : lo' ≤ lo) : Store.wfFrom d lo' st = true := by
  cases st with
  | nil => rfl
  | cons kx rest =>
    obtain ⟨k, x⟩ := kx
    simp only [Store.wfFrom, Bool.and_eq_true, decide_eq_true_eq] at h ⊢
    exact ⟨⟨by omega, h.1.2⟩, h.2⟩

theorem Store.get_del (d : α) (st : Store α) (n m : Nat) :
    Store.get d (st.del n) m = if n = m then d else Store.get d st m := by
  induction st with
  | nil => simp [Store.del, Store.get]
  | cons kx rest ih =>
    obtain ⟨k, x⟩ := kx
    simp only [Store.del, beq_iff_eq]
    split
    · next hk => subst hk; simp only [ih, Store.get, beq_iff_eq]; split <;> rfl
    · next hk =>
      simp only [Store.get, beq_iff_eq, ih]
      split <;> split <;> simp_all

theorem Store.wfFrom_put [DecidableEq α] (d : α) {lo : Nat} {st : Store α} (h : Store.wfFrom d lo st = true) {n : Nat}
    (hn : lo ≤ n) {y : α} (hy : y ≠ d) : Store.wfFrom d lo (st.put n y) = true := by
  induction st generalizing lo with
  | nil => simp [Store.put, Store.wfFrom, hn, hy]
  | cons kx rest ih =>
    obtain ⟨k, x⟩ := kx
    simp only [Store.wfFrom, Bool.and_eq_true, decide_eq_true_eq] at h
    simp only [Store.put]
    split
    · simp only [Store.wfFrom, Bool.and_eq_true, decide_eq_true_eq]
      exact ⟨⟨hn, hy⟩, ⟨by omega, h.1.2⟩, h.2⟩
    · split
      · next hk =>
        simp only [beq_iff_eq] at hk; subst hk
        simp only [Store.wfFrom, Bool.and_eq_true, decide_eq_true_eq]
        exact ⟨⟨hn, hy⟩, h.2⟩
      · next h1 h2 =>
        simp only [beq_iff_eq] at h2
        simp only [Store.wfFrom, Bool.and_eq_true, decide_eq_true_eq]
        exact ⟨h.1, ih h.2 (by omega)⟩

theorem Store.wfFrom_del [DecidableEq α] (d : α) {lo : Nat} {st : Store α} (h : Store.wfFrom d lo st = true) (n : Nat) :
    Store.wfFrom d lo (st.del n) = true := by
  induction st generalizing lo with
  | nil => rfl
  | cons kx rest ih =>
    obtain ⟨k, x⟩ := kx
    simp only [Store.wfFrom, Bool.and_eq_true, decide_eq_true_eq] at h
    simp only [Store.del]
    split
    · exact Store.wfFrom_le d (ih h.2) (by omega)
    · simp only [Store.wfFrom, Bool.and_eq_true, decide_eq_true_eq]
      exact ⟨h.1, ih h.2⟩

/-- A write keeps the canonical form. -/
theorem Store.wf_set [DecidableEq α] (d : α) {st : Store α} (h : Store.wf d st = true) (n : Nat) (y : α) :
    Store.wf d (st.set d n y) = true := by
  unfold Store.set
  split
  · exact Store.wfFrom_del d h n
  · next hy => exact Store.wfFrom_put d h (Nat.zero_le n) hy

/-- A read after a write. -/
@[simp] theorem Store.get_set [DecidableEq α] (d : α) (st : Store α) (n m : Nat) (y : α) :
    Store.get d (st.set d n y) m = if n = m then y else Store.get d st m := by
  unfold Store.set
  split
  · next hy => rw [Store.get_del, hy]
  · exact Store.get_put d st n m y

theorem Store.wfFrom_filter [DecidableEq α] (d : α) {lo : Nat} {st : Store α} (h : Store.wfFrom d lo st = true)
    (p : Nat × α → Bool) : Store.wfFrom d lo (st.filter p) = true := by
  induction st generalizing lo with
  | nil => rfl
  | cons kx rest ih =>
    obtain ⟨k, x⟩ := kx
    simp only [Store.wfFrom, Bool.and_eq_true, decide_eq_true_eq] at h
    simp only [List.filter]
    split
    · simp only [Store.wfFrom, Bool.and_eq_true, decide_eq_true_eq]
      exact ⟨h.1, ih h.2⟩
    · exact Store.wfFrom_le d (ih h.2) (by omega)

theorem Store.wf_setMany [DecidableEq α] (d : α) (xs : List (Nat × α)) {st : Store α} (h : Store.wf d st = true) :
    Store.wf d (st.setMany d xs) = true := by
  induction xs generalizing st with
  | nil => exact h
  | cons x rest ih => exact ih (Store.wf_set d h x.1 x.2)

/-- A key that a list of writes does not name reads as before. -/
theorem Store.get_setMany_of_notMem [DecidableEq α] (d : α) (xs : List (Nat × α)) (st : Store α) (m : Nat)
    (hm : ∀ x ∈ xs, x.1 ≠ m) : Store.get d (st.setMany d xs) m = Store.get d st m := by
  induction xs generalizing st with
  | nil => rfl
  | cons x rest ih =>
    simp only [Store.setMany]
    rw [ih _ fun y hy => hm y (List.mem_cons_of_mem _ hy), Store.get_set, if_neg (hm x (List.mem_cons_self ..))]

/-- A key that a list of writes names once reads as written. -/
theorem Store.get_setMany_of_mem [DecidableEq α] (d : α) (xs : List (Nat × α)) (st : Store α)
    (hn : (xs.map Prod.fst).Nodup) {m : Nat} {y : α} (hm : (m, y) ∈ xs) : Store.get d (st.setMany d xs) m = y := by
  induction xs generalizing st with
  | nil => cases hm
  | cons x rest ih =>
    simp only [List.map_cons, List.nodup_cons] at hn
    simp only [Store.setMany]
    rcases List.mem_cons.mp hm with rfl | hm
    · rw [Store.get_setMany_of_notMem d rest, Store.get_set, if_pos rfl]
      intro z hz he
      exact hn.1 (List.mem_map.mpr ⟨z, hz, he⟩)
    · exact ih _ hn.2 hm

/-- Keys f a of a list of distinct a, with f injective on it: each reads what was written there. -/
theorem Store.get_setMany_map [DecidableEq α] (d : α) (f : Nat → Nat) (g : Nat → α) (ls : List Nat) (st : Store α)
    (hn : ls.Nodup) (hf : ∀ a b, f a = f b → a = b) (m : Nat) :
    Store.get d (st.setMany d (ls.map fun l => (f l, g l))) (f m) = if m ∈ ls then g m else Store.get d st (f m) := by
  split
  · next h =>
    refine Store.get_setMany_of_mem d _ _ ?_ (List.mem_map.mpr ⟨m, h, rfl⟩)
    rw [List.map_map]
    exact List.pairwise_map.mpr (List.Pairwise.imp (fun hab => fun he => hab (hf _ _ he)) hn)
  · next h =>
    refine Store.get_setMany_of_notMem d _ _ _ fun x hx => ?_
    obtain ⟨l, hl, rfl⟩ := List.mem_map.mp hx
    exact fun he => h (hf l m he ▸ hl)

/-! Memory. -/

theorem Memory.wf_write {m : Memory} (h : m.wf = true) (a : Nat) (b : Byte) : (m.write a b).wf = true :=
  Store.wf_set _ h a b

theorem Memory.wf_writeN (bs : List Byte) {m : Memory} (h : m.wf = true) (a : Nat) : (m.writeN a bs).wf = true := by
  induction bs generalizing m a with
  | nil => exact h
  | cons b rest ih => exact ih (Memory.wf_write h a b) (a + 1)

theorem Memory.wf_filter {m : Memory} (h : m.wf = true) (p : Host.Cell → Bool) : Memory.wf (m.filter p) = true :=
  Store.wfFrom_filter _ h p

/-- A byte read after a byte written. -/
@[simp] theorem Memory.read_write (m : Memory) (a x : Nat) (b : Byte) :
    (m.write a b).read x = if a = x then b else m.read x := Store.get_set _ m a x b

theorem Memory.wf_foldWrite (line : Nat) (bs : List (Nat × Byte)) {m : Memory} (h : m.wf = true) :
    Memory.wf (bs.foldl (fun m x => m.write (line + x.1) x.2) m) = true := by
  induction bs generalizing m with
  | nil => exact h
  | cons x rest ih => exact ih (Memory.wf_write h _ _)

/-- Bytes of a line that a list of writes does not name read as before. -/
theorem Memory.read_foldWrite_of_notMem (line : Nat) (bs : List (Nat × Byte)) (m : Memory) (a : Nat)
    (ha : ∀ x ∈ bs, line + x.1 ≠ a) : Memory.read (bs.foldl (fun m x => m.write (line + x.1) x.2) m) a = m.read a := by
  induction bs generalizing m with
  | nil => rfl
  | cons x rest ih =>
    simp only [List.foldl_cons]
    rw [ih _ fun y hy => ha y (List.mem_cons_of_mem _ hy), Memory.read_write,
      if_neg (ha x (List.mem_cons_self ..))]

/-- A byte of a line that a list of writes names once reads as written. -/
theorem Memory.read_foldWrite_of_mem (line : Nat) (bs : List (Nat × Byte)) (m : Memory)
    (hn : (bs.map Prod.fst).Nodup) {i : Nat} {b : Byte} (hm : (i, b) ∈ bs) :
    Memory.read (bs.foldl (fun m x => m.write (line + x.1) x.2) m) (line + i) = b := by
  induction bs generalizing m with
  | nil => cases hm
  | cons x rest ih =>
    simp only [List.map_cons, List.nodup_cons] at hn
    simp only [List.foldl_cons]
    rcases List.mem_cons.mp hm with rfl | hm
    · rw [Memory.read_foldWrite_of_notMem line rest, Memory.read_write, if_pos rfl]
      intro z hz he
      exact hn.1 (List.mem_map.mpr ⟨z, hz, by dsimp only at he ⊢; omega⟩)
    · exact ih _ hn.2 hm

end Sys2Proof.Machine
end

