-- ==== Sys2Proof/Laws/State.lean ====
section
/-! SUPPORT. One lemma a field for every update of the state; lookups after an update; what the trail, the signals and the
meters leave alone. -/

namespace Sys2Proof.Machine

/-! `modAllot` changes `allots` alone. -/

@[simp] theorem State.modAllot_mem (s : State) (a : Nat) (f : Allot → Allot) : (s.modAllot a f).mem = s.mem := rfl
@[simp] theorem State.modAllot_vers (s : State) (a : Nat) (f : Allot → Allot) : (s.modAllot a f).vers = s.vers := rfl
@[simp] theorem State.modAllot_owners (s : State) (a : Nat) (f : Allot → Allot) : (s.modAllot a f).owners = s.owners := rfl
@[simp] theorem State.modAllot_poison (s : State) (a : Nat) (f : Allot → Allot) : (s.modAllot a f).poison = s.poison := rfl
@[simp] theorem State.modAllot_clock (s : State) (a : Nat) (f : Allot → Allot) : (s.modAllot a f).clock = s.clock := rfl
@[simp] theorem State.modAllot_turn (s : State) (a : Nat) (f : Allot → Allot) : (s.modAllot a f).turn = s.turn := rfl
@[simp] theorem State.modAllot_free (s : State) (a : Nat) (f : Allot → Allot) : (s.modAllot a f).free = s.free := rfl
@[simp] theorem State.modAllot_lax (s : State) (a : Nat) (f : Allot → Allot) : (s.modAllot a f).lax = s.lax := rfl
@[simp] theorem State.modAllot_agenda (s : State) (a : Nat) (f : Allot → Allot) : (s.modAllot a f).agenda = s.agenda := rfl
@[simp] theorem State.modAllot_cur (s : State) (a : Nat) (f : Allot → Allot) : (s.modAllot a f).cur = s.cur := rfl
@[simp] theorem State.modAllot_word (s : State) (a : Nat) (f : Allot → Allot) : (s.modAllot a f).word = s.word := rfl
@[simp] theorem State.modAllot_nextUid (s : State) (a : Nat) (f : Allot → Allot) : (s.modAllot a f).nextUid = s.nextUid := rfl
@[simp] theorem State.modAllot_cores (s : State) (a : Nat) (f : Allot → Allot) : (s.modAllot a f).cores = s.cores := rfl
@[simp] theorem State.modAllot_blocks (s : State) (a : Nat) (f : Allot → Allot) : (s.modAllot a f).blocks = s.blocks := rfl
@[simp] theorem State.modAllot_gangs (s : State) (a : Nat) (f : Allot → Allot) : (s.modAllot a f).gangs = s.gangs := rfl
@[simp] theorem State.modAllot_tlb (s : State) (a : Nat) (f : Allot → Allot) : (s.modAllot a f).tlb = s.tlb := rfl
@[simp] theorem State.modAllot_reqs (s : State) (a : Nat) (f : Allot → Allot) : (s.modAllot a f).reqs = s.reqs := rfl
@[simp] theorem State.modAllot_results (s : State) (a : Nat) (f : Allot → Allot) : (s.modAllot a f).results = s.results := rfl
@[simp] theorem State.modAllot_passes (s : State) (a : Nat) (f : Allot → Allot) : (s.modAllot a f).passes = s.passes := rfl
@[simp] theorem State.modAllot_saccs (s : State) (a : Nat) (f : Allot → Allot) : (s.modAllot a f).saccs = s.saccs := rfl
@[simp] theorem State.modAllot_hreqs (s : State) (a : Nat) (f : Allot → Allot) : (s.modAllot a f).hreqs = s.hreqs := rfl
@[simp] theorem State.modAllot_dbinds (s : State) (a : Nat) (f : Allot → Allot) : (s.modAllot a f).dbinds = s.dbinds := rfl
@[simp] theorem State.modAllot_batches (s : State) (a : Nat) (f : Allot → Allot) : (s.modAllot a f).batches = s.batches := rfl
@[simp] theorem State.modAllot_writes (s : State) (a : Nat) (f : Allot → Allot) : (s.modAllot a f).writes = s.writes := rfl
@[simp] theorem State.modAllot_met (s : State) (a : Nat) (f : Allot → Allot) : (s.modAllot a f).met = s.met := rfl
@[simp] theorem State.modAllot_ticks (s : State) (a : Nat) (f : Allot → Allot) : (s.modAllot a f).ticks = s.ticks := rfl
@[simp] theorem State.modAllot_regs (s : State) (a : Nat) (f : Allot → Allot) : (s.modAllot a f).regs = s.regs := rfl
@[simp] theorem State.modAllot_isalon (s : State) (a : Nat) (f : Allot → Allot) : (s.modAllot a f).isalon = s.isalon := rfl
@[simp] theorem State.modAllot_plat (s : State) (a : Nat) (f : Allot → Allot) : (s.modAllot a f).plat = s.plat := rfl

/-! `modCore` changes `cores` alone. -/

@[simp] theorem State.modCore_mem (s : State) (c : Nat) (f : Core → Core) : (s.modCore c f).mem = s.mem := rfl
@[simp] theorem State.modCore_vers (s : State) (c : Nat) (f : Core → Core) : (s.modCore c f).vers = s.vers := rfl
@[simp] theorem State.modCore_owners (s : State) (c : Nat) (f : Core → Core) : (s.modCore c f).owners = s.owners := rfl
@[simp] theorem State.modCore_poison (s : State) (c : Nat) (f : Core → Core) : (s.modCore c f).poison = s.poison := rfl
@[simp] theorem State.modCore_clock (s : State) (c : Nat) (f : Core → Core) : (s.modCore c f).clock = s.clock := rfl
@[simp] theorem State.modCore_turn (s : State) (c : Nat) (f : Core → Core) : (s.modCore c f).turn = s.turn := rfl
@[simp] theorem State.modCore_free (s : State) (c : Nat) (f : Core → Core) : (s.modCore c f).free = s.free := rfl
@[simp] theorem State.modCore_lax (s : State) (c : Nat) (f : Core → Core) : (s.modCore c f).lax = s.lax := rfl
@[simp] theorem State.modCore_agenda (s : State) (c : Nat) (f : Core → Core) : (s.modCore c f).agenda = s.agenda := rfl
@[simp] theorem State.modCore_cur (s : State) (c : Nat) (f : Core → Core) : (s.modCore c f).cur = s.cur := rfl
@[simp] theorem State.modCore_word (s : State) (c : Nat) (f : Core → Core) : (s.modCore c f).word = s.word := rfl
@[simp] theorem State.modCore_nextUid (s : State) (c : Nat) (f : Core → Core) : (s.modCore c f).nextUid = s.nextUid := rfl
@[simp] theorem State.modCore_blocks (s : State) (c : Nat) (f : Core → Core) : (s.modCore c f).blocks = s.blocks := rfl
@[simp] theorem State.modCore_gangs (s : State) (c : Nat) (f : Core → Core) : (s.modCore c f).gangs = s.gangs := rfl
@[simp] theorem State.modCore_allots (s : State) (c : Nat) (f : Core → Core) : (s.modCore c f).allots = s.allots := rfl
@[simp] theorem State.modCore_tlb (s : State) (c : Nat) (f : Core → Core) : (s.modCore c f).tlb = s.tlb := rfl
@[simp] theorem State.modCore_reqs (s : State) (c : Nat) (f : Core → Core) : (s.modCore c f).reqs = s.reqs := rfl
@[simp] theorem State.modCore_results (s : State) (c : Nat) (f : Core → Core) : (s.modCore c f).results = s.results := rfl
@[simp] theorem State.modCore_passes (s : State) (c : Nat) (f : Core → Core) : (s.modCore c f).passes = s.passes := rfl
@[simp] theorem State.modCore_saccs (s : State) (c : Nat) (f : Core → Core) : (s.modCore c f).saccs = s.saccs := rfl
@[simp] theorem State.modCore_hreqs (s : State) (c : Nat) (f : Core → Core) : (s.modCore c f).hreqs = s.hreqs := rfl
@[simp] theorem State.modCore_dbinds (s : State) (c : Nat) (f : Core → Core) : (s.modCore c f).dbinds = s.dbinds := rfl
@[simp] theorem State.modCore_batches (s : State) (c : Nat) (f : Core → Core) : (s.modCore c f).batches = s.batches := rfl
@[simp] theorem State.modCore_writes (s : State) (c : Nat) (f : Core → Core) : (s.modCore c f).writes = s.writes := rfl
@[simp] theorem State.modCore_met (s : State) (c : Nat) (f : Core → Core) : (s.modCore c f).met = s.met := rfl
@[simp] theorem State.modCore_ticks (s : State) (c : Nat) (f : Core → Core) : (s.modCore c f).ticks = s.ticks := rfl
@[simp] theorem State.modCore_regs (s : State) (c : Nat) (f : Core → Core) : (s.modCore c f).regs = s.regs := rfl
@[simp] theorem State.modCore_isalon (s : State) (c : Nat) (f : Core → Core) : (s.modCore c f).isalon = s.isalon := rfl
@[simp] theorem State.modCore_plat (s : State) (c : Nat) (f : Core → Core) : (s.modCore c f).plat = s.plat := rfl

/-! `modGang` changes `gangs` alone. -/

@[simp] theorem State.modGang_mem (s : State) (u : Nat) (f : Gang → Gang) : (s.modGang u f).mem = s.mem := rfl
@[simp] theorem State.modGang_vers (s : State) (u : Nat) (f : Gang → Gang) : (s.modGang u f).vers = s.vers := rfl
@[simp] theorem State.modGang_owners (s : State) (u : Nat) (f : Gang → Gang) : (s.modGang u f).owners = s.owners := rfl
@[simp] theorem State.modGang_poison (s : State) (u : Nat) (f : Gang → Gang) : (s.modGang u f).poison = s.poison := rfl
@[simp] theorem State.modGang_clock (s : State) (u : Nat) (f : Gang → Gang) : (s.modGang u f).clock = s.clock := rfl
@[simp] theorem State.modGang_turn (s : State) (u : Nat) (f : Gang → Gang) : (s.modGang u f).turn = s.turn := rfl
@[simp] theorem State.modGang_free (s : State) (u : Nat) (f : Gang → Gang) : (s.modGang u f).free = s.free := rfl
@[simp] theorem State.modGang_lax (s : State) (u : Nat) (f : Gang → Gang) : (s.modGang u f).lax = s.lax := rfl
@[simp] theorem State.modGang_agenda (s : State) (u : Nat) (f : Gang → Gang) : (s.modGang u f).agenda = s.agenda := rfl
@[simp] theorem State.modGang_cur (s : State) (u : Nat) (f : Gang → Gang) : (s.modGang u f).cur = s.cur := rfl
@[simp] theorem State.modGang_word (s : State) (u : Nat) (f : Gang → Gang) : (s.modGang u f).word = s.word := rfl
@[simp] theorem State.modGang_nextUid (s : State) (u : Nat) (f : Gang → Gang) : (s.modGang u f).nextUid = s.nextUid := rfl
@[simp] theorem State.modGang_cores (s : State) (u : Nat) (f : Gang → Gang) : (s.modGang u f).cores = s.cores := rfl
@[simp] theorem State.modGang_blocks (s : State) (u : Nat) (f : Gang → Gang) : (s.modGang u f).blocks = s.blocks := rfl
@[simp] theorem State.modGang_allots (s : State) (u : Nat) (f : Gang → Gang) : (s.modGang u f).allots = s.allots := rfl
@[simp] theorem State.modGang_tlb (s : State) (u : Nat) (f : Gang → Gang) : (s.modGang u f).tlb = s.tlb := rfl
@[simp] theorem State.modGang_reqs (s : State) (u : Nat) (f : Gang → Gang) : (s.modGang u f).reqs = s.reqs := rfl
@[simp] theorem State.modGang_results (s : State) (u : Nat) (f : Gang → Gang) : (s.modGang u f).results = s.results := rfl
@[simp] theorem State.modGang_passes (s : State) (u : Nat) (f : Gang → Gang) : (s.modGang u f).passes = s.passes := rfl
@[simp] theorem State.modGang_saccs (s : State) (u : Nat) (f : Gang → Gang) : (s.modGang u f).saccs = s.saccs := rfl
@[simp] theorem State.modGang_hreqs (s : State) (u : Nat) (f : Gang → Gang) : (s.modGang u f).hreqs = s.hreqs := rfl
@[simp] theorem State.modGang_dbinds (s : State) (u : Nat) (f : Gang → Gang) : (s.modGang u f).dbinds = s.dbinds := rfl
@[simp] theorem State.modGang_batches (s : State) (u : Nat) (f : Gang → Gang) : (s.modGang u f).batches = s.batches := rfl
@[simp] theorem State.modGang_writes (s : State) (u : Nat) (f : Gang → Gang) : (s.modGang u f).writes = s.writes := rfl
@[simp] theorem State.modGang_met (s : State) (u : Nat) (f : Gang → Gang) : (s.modGang u f).met = s.met := rfl
@[simp] theorem State.modGang_ticks (s : State) (u : Nat) (f : Gang → Gang) : (s.modGang u f).ticks = s.ticks := rfl
@[simp] theorem State.modGang_regs (s : State) (u : Nat) (f : Gang → Gang) : (s.modGang u f).regs = s.regs := rfl
@[simp] theorem State.modGang_isalon (s : State) (u : Nat) (f : Gang → Gang) : (s.modGang u f).isalon = s.isalon := rfl
@[simp] theorem State.modGang_plat (s : State) (u : Nat) (f : Gang → Gang) : (s.modGang u f).plat = s.plat := rfl

/-! `modBlock` changes `blocks` alone. -/

@[simp] theorem State.modBlock_mem (s : State) (u : Nat) (f : Block → Block) : (s.modBlock u f).mem = s.mem := rfl
@[simp] theorem State.modBlock_vers (s : State) (u : Nat) (f : Block → Block) : (s.modBlock u f).vers = s.vers := rfl
@[simp] theorem State.modBlock_owners (s : State) (u : Nat) (f : Block → Block) : (s.modBlock u f).owners = s.owners := rfl
@[simp] theorem State.modBlock_poison (s : State) (u : Nat) (f : Block → Block) : (s.modBlock u f).poison = s.poison := rfl
@[simp] theorem State.modBlock_clock (s : State) (u : Nat) (f : Block → Block) : (s.modBlock u f).clock = s.clock := rfl
@[simp] theorem State.modBlock_turn (s : State) (u : Nat) (f : Block → Block) : (s.modBlock u f).turn = s.turn := rfl
@[simp] theorem State.modBlock_free (s : State) (u : Nat) (f : Block → Block) : (s.modBlock u f).free = s.free := rfl
@[simp] theorem State.modBlock_lax (s : State) (u : Nat) (f : Block → Block) : (s.modBlock u f).lax = s.lax := rfl
@[simp] theorem State.modBlock_agenda (s : State) (u : Nat) (f : Block → Block) : (s.modBlock u f).agenda = s.agenda := rfl
@[simp] theorem State.modBlock_cur (s : State) (u : Nat) (f : Block → Block) : (s.modBlock u f).cur = s.cur := rfl
@[simp] theorem State.modBlock_word (s : State) (u : Nat) (f : Block → Block) : (s.modBlock u f).word = s.word := rfl
@[simp] theorem State.modBlock_nextUid (s : State) (u : Nat) (f : Block → Block) : (s.modBlock u f).nextUid = s.nextUid := rfl
@[simp] theorem State.modBlock_cores (s : State) (u : Nat) (f : Block → Block) : (s.modBlock u f).cores = s.cores := rfl
@[simp] theorem State.modBlock_gangs (s : State) (u : Nat) (f : Block → Block) : (s.modBlock u f).gangs = s.gangs := rfl
@[simp] theorem State.modBlock_allots (s : State) (u : Nat) (f : Block → Block) : (s.modBlock u f).allots = s.allots := rfl
@[simp] theorem State.modBlock_tlb (s : State) (u : Nat) (f : Block → Block) : (s.modBlock u f).tlb = s.tlb := rfl
@[simp] theorem State.modBlock_reqs (s : State) (u : Nat) (f : Block → Block) : (s.modBlock u f).reqs = s.reqs := rfl
@[simp] theorem State.modBlock_results (s : State) (u : Nat) (f : Block → Block) : (s.modBlock u f).results = s.results := rfl
@[simp] theorem State.modBlock_passes (s : State) (u : Nat) (f : Block → Block) : (s.modBlock u f).passes = s.passes := rfl
@[simp] theorem State.modBlock_saccs (s : State) (u : Nat) (f : Block → Block) : (s.modBlock u f).saccs = s.saccs := rfl
@[simp] theorem State.modBlock_hreqs (s : State) (u : Nat) (f : Block → Block) : (s.modBlock u f).hreqs = s.hreqs := rfl
@[simp] theorem State.modBlock_dbinds (s : State) (u : Nat) (f : Block → Block) : (s.modBlock u f).dbinds = s.dbinds := rfl
@[simp] theorem State.modBlock_batches (s : State) (u : Nat) (f : Block → Block) : (s.modBlock u f).batches = s.batches := rfl
@[simp] theorem State.modBlock_writes (s : State) (u : Nat) (f : Block → Block) : (s.modBlock u f).writes = s.writes := rfl
@[simp] theorem State.modBlock_met (s : State) (u : Nat) (f : Block → Block) : (s.modBlock u f).met = s.met := rfl
@[simp] theorem State.modBlock_ticks (s : State) (u : Nat) (f : Block → Block) : (s.modBlock u f).ticks = s.ticks := rfl
@[simp] theorem State.modBlock_regs (s : State) (u : Nat) (f : Block → Block) : (s.modBlock u f).regs = s.regs := rfl
@[simp] theorem State.modBlock_isalon (s : State) (u : Nat) (f : Block → Block) : (s.modBlock u f).isalon = s.isalon := rfl
@[simp] theorem State.modBlock_plat (s : State) (u : Nat) (f : Block → Block) : (s.modBlock u f).plat = s.plat := rfl

/-! `modLaunch` changes `allots` alone. -/

@[simp] theorem State.modLaunch_mem (s : State) (a l : Nat) (f : Launch → Launch) : (s.modLaunch a l f).mem = s.mem := rfl
@[simp] theorem State.modLaunch_vers (s : State) (a l : Nat) (f : Launch → Launch) : (s.modLaunch a l f).vers = s.vers := rfl
@[simp] theorem State.modLaunch_owners (s : State) (a l : Nat) (f : Launch → Launch) : (s.modLaunch a l f).owners = s.owners := rfl
@[simp] theorem State.modLaunch_poison (s : State) (a l : Nat) (f : Launch → Launch) : (s.modLaunch a l f).poison = s.poison := rfl
@[simp] theorem State.modLaunch_clock (s : State) (a l : Nat) (f : Launch → Launch) : (s.modLaunch a l f).clock = s.clock := rfl
@[simp] theorem State.modLaunch_turn (s : State) (a l : Nat) (f : Launch → Launch) : (s.modLaunch a l f).turn = s.turn := rfl
@[simp] theorem State.modLaunch_free (s : State) (a l : Nat) (f : Launch → Launch) : (s.modLaunch a l f).free = s.free := rfl
@[simp] theorem State.modLaunch_lax (s : State) (a l : Nat) (f : Launch → Launch) : (s.modLaunch a l f).lax = s.lax := rfl
@[simp] theorem State.modLaunch_agenda (s : State) (a l : Nat) (f : Launch → Launch) : (s.modLaunch a l f).agenda = s.agenda := rfl
@[simp] theorem State.modLaunch_cur (s : State) (a l : Nat) (f : Launch → Launch) : (s.modLaunch a l f).cur = s.cur := rfl
@[simp] theorem State.modLaunch_word (s : State) (a l : Nat) (f : Launch → Launch) : (s.modLaunch a l f).word = s.word := rfl
@[simp] theorem State.modLaunch_nextUid (s : State) (a l : Nat) (f : Launch → Launch) : (s.modLaunch a l f).nextUid = s.nextUid := rfl
@[simp] theorem State.modLaunch_cores (s : State) (a l : Nat) (f : Launch → Launch) : (s.modLaunch a l f).cores = s.cores := rfl
@[simp] theorem State.modLaunch_blocks (s : State) (a l : Nat) (f : Launch → Launch) : (s.modLaunch a l f).blocks = s.blocks := rfl
@[simp] theorem State.modLaunch_gangs (s : State) (a l : Nat) (f : Launch → Launch) : (s.modLaunch a l f).gangs = s.gangs := rfl
@[simp] theorem State.modLaunch_tlb (s : State) (a l : Nat) (f : Launch → Launch) : (s.modLaunch a l f).tlb = s.tlb := rfl
@[simp] theorem State.modLaunch_reqs (s : State) (a l : Nat) (f : Launch → Launch) : (s.modLaunch a l f).reqs = s.reqs := rfl
@[simp] theorem State.modLaunch_results (s : State) (a l : Nat) (f : Launch → Launch) : (s.modLaunch a l f).results = s.results := rfl
@[simp] theorem State.modLaunch_passes (s : State) (a l : Nat) (f : Launch → Launch) : (s.modLaunch a l f).passes = s.passes := rfl
@[simp] theorem State.modLaunch_saccs (s : State) (a l : Nat) (f : Launch → Launch) : (s.modLaunch a l f).saccs = s.saccs := rfl
@[simp] theorem State.modLaunch_hreqs (s : State) (a l : Nat) (f : Launch → Launch) : (s.modLaunch a l f).hreqs = s.hreqs := rfl
@[simp] theorem State.modLaunch_dbinds (s : State) (a l : Nat) (f : Launch → Launch) : (s.modLaunch a l f).dbinds = s.dbinds := rfl
@[simp] theorem State.modLaunch_batches (s : State) (a l : Nat) (f : Launch → Launch) : (s.modLaunch a l f).batches = s.batches := rfl
@[simp] theorem State.modLaunch_writes (s : State) (a l : Nat) (f : Launch → Launch) : (s.modLaunch a l f).writes = s.writes := rfl
@[simp] theorem State.modLaunch_met (s : State) (a l : Nat) (f : Launch → Launch) : (s.modLaunch a l f).met = s.met := rfl
@[simp] theorem State.modLaunch_ticks (s : State) (a l : Nat) (f : Launch → Launch) : (s.modLaunch a l f).ticks = s.ticks := rfl
@[simp] theorem State.modLaunch_regs (s : State) (a l : Nat) (f : Launch → Launch) : (s.modLaunch a l f).regs = s.regs := rfl
@[simp] theorem State.modLaunch_isalon (s : State) (a l : Nat) (f : Launch → Launch) : (s.modLaunch a l f).isalon = s.isalon := rfl
@[simp] theorem State.modLaunch_plat (s : State) (a l : Nat) (f : Launch → Launch) : (s.modLaunch a l f).plat = s.plat := rfl

/-! `modGroup` changes `gangs` alone. -/

@[simp] theorem State.modGroup_mem (s : State) (c : Ctx) (f : Group → Group) : (s.modGroup c f).mem = s.mem := rfl
@[simp] theorem State.modGroup_vers (s : State) (c : Ctx) (f : Group → Group) : (s.modGroup c f).vers = s.vers := rfl
@[simp] theorem State.modGroup_owners (s : State) (c : Ctx) (f : Group → Group) : (s.modGroup c f).owners = s.owners := rfl
@[simp] theorem State.modGroup_poison (s : State) (c : Ctx) (f : Group → Group) : (s.modGroup c f).poison = s.poison := rfl
@[simp] theorem State.modGroup_clock (s : State) (c : Ctx) (f : Group → Group) : (s.modGroup c f).clock = s.clock := rfl
@[simp] theorem State.modGroup_turn (s : State) (c : Ctx) (f : Group → Group) : (s.modGroup c f).turn = s.turn := rfl
@[simp] theorem State.modGroup_free (s : State) (c : Ctx) (f : Group → Group) : (s.modGroup c f).free = s.free := rfl
@[simp] theorem State.modGroup_lax (s : State) (c : Ctx) (f : Group → Group) : (s.modGroup c f).lax = s.lax := rfl
@[simp] theorem State.modGroup_agenda (s : State) (c : Ctx) (f : Group → Group) : (s.modGroup c f).agenda = s.agenda := rfl
@[simp] theorem State.modGroup_cur (s : State) (c : Ctx) (f : Group → Group) : (s.modGroup c f).cur = s.cur := rfl
@[simp] theorem State.modGroup_word (s : State) (c : Ctx) (f : Group → Group) : (s.modGroup c f).word = s.word := rfl
@[simp] theorem State.modGroup_nextUid (s : State) (c : Ctx) (f : Group → Group) : (s.modGroup c f).nextUid = s.nextUid := rfl
@[simp] theorem State.modGroup_cores (s : State) (c : Ctx) (f : Group → Group) : (s.modGroup c f).cores = s.cores := rfl
@[simp] theorem State.modGroup_blocks (s : State) (c : Ctx) (f : Group → Group) : (s.modGroup c f).blocks = s.blocks := rfl
@[simp] theorem State.modGroup_allots (s : State) (c : Ctx) (f : Group → Group) : (s.modGroup c f).allots = s.allots := rfl
@[simp] theorem State.modGroup_tlb (s : State) (c : Ctx) (f : Group → Group) : (s.modGroup c f).tlb = s.tlb := rfl
@[simp] theorem State.modGroup_reqs (s : State) (c : Ctx) (f : Group → Group) : (s.modGroup c f).reqs = s.reqs := rfl
@[simp] theorem State.modGroup_results (s : State) (c : Ctx) (f : Group → Group) : (s.modGroup c f).results = s.results := rfl
@[simp] theorem State.modGroup_passes (s : State) (c : Ctx) (f : Group → Group) : (s.modGroup c f).passes = s.passes := rfl
@[simp] theorem State.modGroup_saccs (s : State) (c : Ctx) (f : Group → Group) : (s.modGroup c f).saccs = s.saccs := rfl
@[simp] theorem State.modGroup_hreqs (s : State) (c : Ctx) (f : Group → Group) : (s.modGroup c f).hreqs = s.hreqs := rfl
@[simp] theorem State.modGroup_dbinds (s : State) (c : Ctx) (f : Group → Group) : (s.modGroup c f).dbinds = s.dbinds := rfl
@[simp] theorem State.modGroup_batches (s : State) (c : Ctx) (f : Group → Group) : (s.modGroup c f).batches = s.batches := rfl
@[simp] theorem State.modGroup_writes (s : State) (c : Ctx) (f : Group → Group) : (s.modGroup c f).writes = s.writes := rfl
@[simp] theorem State.modGroup_met (s : State) (c : Ctx) (f : Group → Group) : (s.modGroup c f).met = s.met := rfl
@[simp] theorem State.modGroup_ticks (s : State) (c : Ctx) (f : Group → Group) : (s.modGroup c f).ticks = s.ticks := rfl
@[simp] theorem State.modGroup_regs (s : State) (c : Ctx) (f : Group → Group) : (s.modGroup c f).regs = s.regs := rfl
@[simp] theorem State.modGroup_isalon (s : State) (c : Ctx) (f : Group → Group) : (s.modGroup c f).isalon = s.isalon := rfl
@[simp] theorem State.modGroup_plat (s : State) (c : Ctx) (f : Group → Group) : (s.modGroup c f).plat = s.plat := rfl

/-! `modDBind` changes `dbinds` alone. -/

@[simp] theorem State.modDBind_mem (s : State) (i : Nat) (f : DBind → DBind) : (s.modDBind i f).mem = s.mem := rfl
@[simp] theorem State.modDBind_vers (s : State) (i : Nat) (f : DBind → DBind) : (s.modDBind i f).vers = s.vers := rfl
@[simp] theorem State.modDBind_owners (s : State) (i : Nat) (f : DBind → DBind) : (s.modDBind i f).owners = s.owners := rfl
@[simp] theorem State.modDBind_poison (s : State) (i : Nat) (f : DBind → DBind) : (s.modDBind i f).poison = s.poison := rfl
@[simp] theorem State.modDBind_clock (s : State) (i : Nat) (f : DBind → DBind) : (s.modDBind i f).clock = s.clock := rfl
@[simp] theorem State.modDBind_turn (s : State) (i : Nat) (f : DBind → DBind) : (s.modDBind i f).turn = s.turn := rfl
@[simp] theorem State.modDBind_free (s : State) (i : Nat) (f : DBind → DBind) : (s.modDBind i f).free = s.free := rfl
@[simp] theorem State.modDBind_lax (s : State) (i : Nat) (f : DBind → DBind) : (s.modDBind i f).lax = s.lax := rfl
@[simp] theorem State.modDBind_agenda (s : State) (i : Nat) (f : DBind → DBind) : (s.modDBind i f).agenda = s.agenda := rfl
@[simp] theorem State.modDBind_cur (s : State) (i : Nat) (f : DBind → DBind) : (s.modDBind i f).cur = s.cur := rfl
@[simp] theorem State.modDBind_word (s : State) (i : Nat) (f : DBind → DBind) : (s.modDBind i f).word = s.word := rfl
@[simp] theorem State.modDBind_nextUid (s : State) (i : Nat) (f : DBind → DBind) : (s.modDBind i f).nextUid = s.nextUid := rfl
@[simp] theorem State.modDBind_cores (s : State) (i : Nat) (f : DBind → DBind) : (s.modDBind i f).cores = s.cores := rfl
@[simp] theorem State.modDBind_blocks (s : State) (i : Nat) (f : DBind → DBind) : (s.modDBind i f).blocks = s.blocks := rfl
@[simp] theorem State.modDBind_gangs (s : State) (i : Nat) (f : DBind → DBind) : (s.modDBind i f).gangs = s.gangs := rfl
@[simp] theorem State.modDBind_allots (s : State) (i : Nat) (f : DBind → DBind) : (s.modDBind i f).allots = s.allots := rfl
@[simp] theorem State.modDBind_tlb (s : State) (i : Nat) (f : DBind → DBind) : (s.modDBind i f).tlb = s.tlb := rfl
@[simp] theorem State.modDBind_reqs (s : State) (i : Nat) (f : DBind → DBind) : (s.modDBind i f).reqs = s.reqs := rfl
@[simp] theorem State.modDBind_results (s : State) (i : Nat) (f : DBind → DBind) : (s.modDBind i f).results = s.results := rfl
@[simp] theorem State.modDBind_passes (s : State) (i : Nat) (f : DBind → DBind) : (s.modDBind i f).passes = s.passes := rfl
@[simp] theorem State.modDBind_saccs (s : State) (i : Nat) (f : DBind → DBind) : (s.modDBind i f).saccs = s.saccs := rfl
@[simp] theorem State.modDBind_hreqs (s : State) (i : Nat) (f : DBind → DBind) : (s.modDBind i f).hreqs = s.hreqs := rfl
@[simp] theorem State.modDBind_batches (s : State) (i : Nat) (f : DBind → DBind) : (s.modDBind i f).batches = s.batches := rfl
@[simp] theorem State.modDBind_writes (s : State) (i : Nat) (f : DBind → DBind) : (s.modDBind i f).writes = s.writes := rfl
@[simp] theorem State.modDBind_met (s : State) (i : Nat) (f : DBind → DBind) : (s.modDBind i f).met = s.met := rfl
@[simp] theorem State.modDBind_ticks (s : State) (i : Nat) (f : DBind → DBind) : (s.modDBind i f).ticks = s.ticks := rfl
@[simp] theorem State.modDBind_regs (s : State) (i : Nat) (f : DBind → DBind) : (s.modDBind i f).regs = s.regs := rfl
@[simp] theorem State.modDBind_isalon (s : State) (i : Nat) (f : DBind → DBind) : (s.modDBind i f).isalon = s.isalon := rfl
@[simp] theorem State.modDBind_plat (s : State) (i : Nat) (f : DBind → DBind) : (s.modDBind i f).plat = s.plat := rfl

/-! `modEntry` changes `cores` alone. -/

@[simp] theorem State.modEntry_mem (s : State) (c i : Nat) (f : Entry → Entry) : (s.modEntry c i f).mem = s.mem := rfl
@[simp] theorem State.modEntry_vers (s : State) (c i : Nat) (f : Entry → Entry) : (s.modEntry c i f).vers = s.vers := rfl
@[simp] theorem State.modEntry_owners (s : State) (c i : Nat) (f : Entry → Entry) : (s.modEntry c i f).owners = s.owners := rfl
@[simp] theorem State.modEntry_poison (s : State) (c i : Nat) (f : Entry → Entry) : (s.modEntry c i f).poison = s.poison := rfl
@[simp] theorem State.modEntry_clock (s : State) (c i : Nat) (f : Entry → Entry) : (s.modEntry c i f).clock = s.clock := rfl
@[simp] theorem State.modEntry_turn (s : State) (c i : Nat) (f : Entry → Entry) : (s.modEntry c i f).turn = s.turn := rfl
@[simp] theorem State.modEntry_free (s : State) (c i : Nat) (f : Entry → Entry) : (s.modEntry c i f).free = s.free := rfl
@[simp] theorem State.modEntry_lax (s : State) (c i : Nat) (f : Entry → Entry) : (s.modEntry c i f).lax = s.lax := rfl
@[simp] theorem State.modEntry_agenda (s : State) (c i : Nat) (f : Entry → Entry) : (s.modEntry c i f).agenda = s.agenda := rfl
@[simp] theorem State.modEntry_cur (s : State) (c i : Nat) (f : Entry → Entry) : (s.modEntry c i f).cur = s.cur := rfl
@[simp] theorem State.modEntry_word (s : State) (c i : Nat) (f : Entry → Entry) : (s.modEntry c i f).word = s.word := rfl
@[simp] theorem State.modEntry_nextUid (s : State) (c i : Nat) (f : Entry → Entry) : (s.modEntry c i f).nextUid = s.nextUid := rfl
@[simp] theorem State.modEntry_blocks (s : State) (c i : Nat) (f : Entry → Entry) : (s.modEntry c i f).blocks = s.blocks := rfl
@[simp] theorem State.modEntry_gangs (s : State) (c i : Nat) (f : Entry → Entry) : (s.modEntry c i f).gangs = s.gangs := rfl
@[simp] theorem State.modEntry_allots (s : State) (c i : Nat) (f : Entry → Entry) : (s.modEntry c i f).allots = s.allots := rfl
@[simp] theorem State.modEntry_tlb (s : State) (c i : Nat) (f : Entry → Entry) : (s.modEntry c i f).tlb = s.tlb := rfl
@[simp] theorem State.modEntry_reqs (s : State) (c i : Nat) (f : Entry → Entry) : (s.modEntry c i f).reqs = s.reqs := rfl
@[simp] theorem State.modEntry_results (s : State) (c i : Nat) (f : Entry → Entry) : (s.modEntry c i f).results = s.results := rfl
@[simp] theorem State.modEntry_passes (s : State) (c i : Nat) (f : Entry → Entry) : (s.modEntry c i f).passes = s.passes := rfl
@[simp] theorem State.modEntry_saccs (s : State) (c i : Nat) (f : Entry → Entry) : (s.modEntry c i f).saccs = s.saccs := rfl
@[simp] theorem State.modEntry_hreqs (s : State) (c i : Nat) (f : Entry → Entry) : (s.modEntry c i f).hreqs = s.hreqs := rfl
@[simp] theorem State.modEntry_dbinds (s : State) (c i : Nat) (f : Entry → Entry) : (s.modEntry c i f).dbinds = s.dbinds := rfl
@[simp] theorem State.modEntry_batches (s : State) (c i : Nat) (f : Entry → Entry) : (s.modEntry c i f).batches = s.batches := rfl
@[simp] theorem State.modEntry_writes (s : State) (c i : Nat) (f : Entry → Entry) : (s.modEntry c i f).writes = s.writes := rfl
@[simp] theorem State.modEntry_met (s : State) (c i : Nat) (f : Entry → Entry) : (s.modEntry c i f).met = s.met := rfl
@[simp] theorem State.modEntry_ticks (s : State) (c i : Nat) (f : Entry → Entry) : (s.modEntry c i f).ticks = s.ticks := rfl
@[simp] theorem State.modEntry_regs (s : State) (c i : Nat) (f : Entry → Entry) : (s.modEntry c i f).regs = s.regs := rfl
@[simp] theorem State.modEntry_isalon (s : State) (c i : Nat) (f : Entry → Entry) : (s.modEntry c i f).isalon = s.isalon := rfl
@[simp] theorem State.modEntry_plat (s : State) (c i : Nat) (f : Entry → Entry) : (s.modEntry c i f).plat = s.plat := rfl

/-! `raiseVector` changes `regs` alone. -/

@[simp] theorem State.raiseVector_mem (s : State) (vi v : Nat) : (s.raiseVector vi v).mem = s.mem := rfl
@[simp] theorem State.raiseVector_vers (s : State) (vi v : Nat) : (s.raiseVector vi v).vers = s.vers := rfl
@[simp] theorem State.raiseVector_owners (s : State) (vi v : Nat) : (s.raiseVector vi v).owners = s.owners := rfl
@[simp] theorem State.raiseVector_poison (s : State) (vi v : Nat) : (s.raiseVector vi v).poison = s.poison := rfl
@[simp] theorem State.raiseVector_clock (s : State) (vi v : Nat) : (s.raiseVector vi v).clock = s.clock := rfl
@[simp] theorem State.raiseVector_turn (s : State) (vi v : Nat) : (s.raiseVector vi v).turn = s.turn := rfl
@[simp] theorem State.raiseVector_free (s : State) (vi v : Nat) : (s.raiseVector vi v).free = s.free := rfl
@[simp] theorem State.raiseVector_lax (s : State) (vi v : Nat) : (s.raiseVector vi v).lax = s.lax := rfl
@[simp] theorem State.raiseVector_agenda (s : State) (vi v : Nat) : (s.raiseVector vi v).agenda = s.agenda := rfl
@[simp] theorem State.raiseVector_cur (s : State) (vi v : Nat) : (s.raiseVector vi v).cur = s.cur := rfl
@[simp] theorem State.raiseVector_word (s : State) (vi v : Nat) : (s.raiseVector vi v).word = s.word := rfl
@[simp] theorem State.raiseVector_nextUid (s : State) (vi v : Nat) : (s.raiseVector vi v).nextUid = s.nextUid := rfl
@[simp] theorem State.raiseVector_cores (s : State) (vi v : Nat) : (s.raiseVector vi v).cores = s.cores := rfl
@[simp] theorem State.raiseVector_blocks (s : State) (vi v : Nat) : (s.raiseVector vi v).blocks = s.blocks := rfl
@[simp] theorem State.raiseVector_gangs (s : State) (vi v : Nat) : (s.raiseVector vi v).gangs = s.gangs := rfl
@[simp] theorem State.raiseVector_allots (s : State) (vi v : Nat) : (s.raiseVector vi v).allots = s.allots := rfl
@[simp] theorem State.raiseVector_tlb (s : State) (vi v : Nat) : (s.raiseVector vi v).tlb = s.tlb := rfl
@[simp] theorem State.raiseVector_reqs (s : State) (vi v : Nat) : (s.raiseVector vi v).reqs = s.reqs := rfl
@[simp] theorem State.raiseVector_results (s : State) (vi v : Nat) : (s.raiseVector vi v).results = s.results := rfl
@[simp] theorem State.raiseVector_passes (s : State) (vi v : Nat) : (s.raiseVector vi v).passes = s.passes := rfl
@[simp] theorem State.raiseVector_saccs (s : State) (vi v : Nat) : (s.raiseVector vi v).saccs = s.saccs := rfl
@[simp] theorem State.raiseVector_hreqs (s : State) (vi v : Nat) : (s.raiseVector vi v).hreqs = s.hreqs := rfl
@[simp] theorem State.raiseVector_dbinds (s : State) (vi v : Nat) : (s.raiseVector vi v).dbinds = s.dbinds := rfl
@[simp] theorem State.raiseVector_batches (s : State) (vi v : Nat) : (s.raiseVector vi v).batches = s.batches := rfl
@[simp] theorem State.raiseVector_writes (s : State) (vi v : Nat) : (s.raiseVector vi v).writes = s.writes := rfl
@[simp] theorem State.raiseVector_met (s : State) (vi v : Nat) : (s.raiseVector vi v).met = s.met := rfl
@[simp] theorem State.raiseVector_ticks (s : State) (vi v : Nat) : (s.raiseVector vi v).ticks = s.ticks := rfl
@[simp] theorem State.raiseVector_isalon (s : State) (vi v : Nat) : (s.raiseVector vi v).isalon = s.isalon := rfl
@[simp] theorem State.raiseVector_plat (s : State) (vi v : Nat) : (s.raiseVector vi v).plat = s.plat := rfl

/-! `moveSlices` changes `gangs` alone. -/

@[simp] theorem State.moveSlices_mem (s : State) (c : Ctx) (e : LaneMask) (f : Nat → Nat) : (s.moveSlices c e f).mem = s.mem := rfl
@[simp] theorem State.moveSlices_vers (s : State) (c : Ctx) (e : LaneMask) (f : Nat → Nat) : (s.moveSlices c e f).vers = s.vers := rfl
@[simp] theorem State.moveSlices_owners (s : State) (c : Ctx) (e : LaneMask) (f : Nat → Nat) : (s.moveSlices c e f).owners = s.owners := rfl
@[simp] theorem State.moveSlices_poison (s : State) (c : Ctx) (e : LaneMask) (f : Nat → Nat) : (s.moveSlices c e f).poison = s.poison := rfl
@[simp] theorem State.moveSlices_clock (s : State) (c : Ctx) (e : LaneMask) (f : Nat → Nat) : (s.moveSlices c e f).clock = s.clock := rfl
@[simp] theorem State.moveSlices_turn (s : State) (c : Ctx) (e : LaneMask) (f : Nat → Nat) : (s.moveSlices c e f).turn = s.turn := rfl
@[simp] theorem State.moveSlices_free (s : State) (c : Ctx) (e : LaneMask) (f : Nat → Nat) : (s.moveSlices c e f).free = s.free := rfl
@[simp] theorem State.moveSlices_lax (s : State) (c : Ctx) (e : LaneMask) (f : Nat → Nat) : (s.moveSlices c e f).lax = s.lax := rfl
@[simp] theorem State.moveSlices_agenda (s : State) (c : Ctx) (e : LaneMask) (f : Nat → Nat) : (s.moveSlices c e f).agenda = s.agenda := rfl
@[simp] theorem State.moveSlices_cur (s : State) (c : Ctx) (e : LaneMask) (f : Nat → Nat) : (s.moveSlices c e f).cur = s.cur := rfl
@[simp] theorem State.moveSlices_word (s : State) (c : Ctx) (e : LaneMask) (f : Nat → Nat) : (s.moveSlices c e f).word = s.word := rfl
@[simp] theorem State.moveSlices_nextUid (s : State) (c : Ctx) (e : LaneMask) (f : Nat → Nat) : (s.moveSlices c e f).nextUid = s.nextUid := rfl
@[simp] theorem State.moveSlices_cores (s : State) (c : Ctx) (e : LaneMask) (f : Nat → Nat) : (s.moveSlices c e f).cores = s.cores := rfl
@[simp] theorem State.moveSlices_blocks (s : State) (c : Ctx) (e : LaneMask) (f : Nat → Nat) : (s.moveSlices c e f).blocks = s.blocks := rfl
@[simp] theorem State.moveSlices_allots (s : State) (c : Ctx) (e : LaneMask) (f : Nat → Nat) : (s.moveSlices c e f).allots = s.allots := rfl
@[simp] theorem State.moveSlices_tlb (s : State) (c : Ctx) (e : LaneMask) (f : Nat → Nat) : (s.moveSlices c e f).tlb = s.tlb := rfl
@[simp] theorem State.moveSlices_reqs (s : State) (c : Ctx) (e : LaneMask) (f : Nat → Nat) : (s.moveSlices c e f).reqs = s.reqs := rfl
@[simp] theorem State.moveSlices_results (s : State) (c : Ctx) (e : LaneMask) (f : Nat → Nat) : (s.moveSlices c e f).results = s.results := rfl
@[simp] theorem State.moveSlices_passes (s : State) (c : Ctx) (e : LaneMask) (f : Nat → Nat) : (s.moveSlices c e f).passes = s.passes := rfl
@[simp] theorem State.moveSlices_saccs (s : State) (c : Ctx) (e : LaneMask) (f : Nat → Nat) : (s.moveSlices c e f).saccs = s.saccs := rfl
@[simp] theorem State.moveSlices_hreqs (s : State) (c : Ctx) (e : LaneMask) (f : Nat → Nat) : (s.moveSlices c e f).hreqs = s.hreqs := rfl
@[simp] theorem State.moveSlices_dbinds (s : State) (c : Ctx) (e : LaneMask) (f : Nat → Nat) : (s.moveSlices c e f).dbinds = s.dbinds := rfl
@[simp] theorem State.moveSlices_batches (s : State) (c : Ctx) (e : LaneMask) (f : Nat → Nat) : (s.moveSlices c e f).batches = s.batches := rfl
@[simp] theorem State.moveSlices_writes (s : State) (c : Ctx) (e : LaneMask) (f : Nat → Nat) : (s.moveSlices c e f).writes = s.writes := rfl
@[simp] theorem State.moveSlices_met (s : State) (c : Ctx) (e : LaneMask) (f : Nat → Nat) : (s.moveSlices c e f).met = s.met := rfl
@[simp] theorem State.moveSlices_ticks (s : State) (c : Ctx) (e : LaneMask) (f : Nat → Nat) : (s.moveSlices c e f).ticks = s.ticks := rfl
@[simp] theorem State.moveSlices_regs (s : State) (c : Ctx) (e : LaneMask) (f : Nat → Nat) : (s.moveSlices c e f).regs = s.regs := rfl
@[simp] theorem State.moveSlices_isalon (s : State) (c : Ctx) (e : LaneMask) (f : Nat → Nat) : (s.moveSlices c e f).isalon = s.isalon := rfl
@[simp] theorem State.moveSlices_plat (s : State) (c : Ctx) (e : LaneMask) (f : Nat → Nat) : (s.moveSlices c e f).plat = s.plat := rfl

/-! Lookups. -/

theorem State.gang?_modGang (s : State) (u v : Nat) (f : Gang → Gang) (hf : ∀ g, (f g).uid = g.uid) :
    (s.modGang u f).gang? v = if v = u then (s.gang? v).map f else s.gang? v :=
  find_modWhere (fun g : Gang => g.uid) u v f hf s.gangs

theorem State.gang?_uid {s : State} {u : Nat} {g : Gang} (h : s.gang? u = some g) : g.uid = u := by
  have := List.find?_some h; simpa using this

theorem State.block?_modBlock (s : State) (u v : Nat) (f : Block → Block) (hf : ∀ b, (f b).uid = b.uid) :
    (s.modBlock u f).block? v = if v = u then (s.block? v).map f else s.block? v :=
  find_modWhere (fun b : Block => b.uid) u v f hf s.blocks

theorem State.block?_uid {s : State} {u : Nat} {b : Block} (h : s.block? u = some b) : b.uid = u := by
  have := List.find?_some h; simpa using this

theorem State.allot_modAllot (s : State) (a b : Nat) (f : Allot → Allot) :
    (s.modAllot a f).allot b = if a = b ∧ b < s.allots.length then f (s.allot b) else s.allot b := by
  simp [State.allot, State.modAllot]

theorem State.core_modCore (s : State) (a b : Nat) (f : Core → Core) :
    (s.modCore a f).core b = if a = b ∧ b < s.cores.length then f (s.core b) else s.core b := by
  simp [State.core, State.modCore]

theorem Gang.slice_modSlice (g : Gang) (k j : Nat) (f : SliceSt → SliceSt) :
    (g.modSlice k f).slice j = if k = j ∧ j < g.slices.length then f (g.slice j) else g.slice j := by
  simp [Gang.slice, Gang.modSlice]

@[simp] theorem Gang.slices_modSlices_length (ks : List Nat) (f : SliceSt → SliceSt) (g : Gang) :
    (g.modSlices ks f).slices.length = g.slices.length := by
  induction ks generalizing g with
  | nil => rfl
  | cons k ks ih => simp only [Gang.modSlices, List.foldl_cons] at ih ⊢; rw [ih]; simp [Gang.modSlice]

/-- A slice after an update of the slices of a list: the update as often as the list names it. -/
theorem Gang.slice_modSlices (ks : List Nat) (f : SliceSt → SliceSt) (g : Gang) (j : Nat) (hj : j < g.slices.length) :
    (g.modSlices ks f).slice j = Nat.repeat f (ks.count j) (g.slice j) := by
  have comm : ∀ (n : Nat) (x : SliceSt), Nat.repeat f n (f x) = f (Nat.repeat f n x) := by
    intro n x
    induction n with
    | zero => rfl
    | succ n ih => simp only [Nat.repeat, ih]
  induction ks generalizing g with
  | nil => rfl
  | cons k ks ih =>
    have := ih (g.modSlice k f) (by simpa [Gang.modSlice] using hj)
    simp only [Gang.modSlices, List.foldl_cons] at this ⊢
    rw [this, Gang.slice_modSlice, List.count_cons]
    by_cases h : k = j
    · subst h
      simp only [hj, and_self, ↓reduceIte, beq_self_eq_true, comm]
      rfl
    · simp [h]

/-- Different updates of the slices of a list without repeats. -/
theorem Gang.slice_foldl (ks : List Nat) (F : Gang → Nat → Gang) (f : Nat → SliceSt → SliceSt)
    (hF : ∀ g k, (F g k).slices = (g.modSlice k (f k)).slices) (hn : ks.Nodup) (g : Gang) :
    (ks.foldl F g).slices.length = g.slices.length ∧
      ∀ j, j < g.slices.length → (ks.foldl F g).slice j = if j ∈ ks then f j (g.slice j) else g.slice j := by
  have hs : ∀ g k j, (F g k).slice j = (g.modSlice k (f k)).slice j := fun g k j => by
    simp only [Gang.slice, hF]
  have hl : ∀ g k, (F g k).slices.length = g.slices.length := fun g k => by rw [hF]; simp [Gang.modSlice]
  induction ks generalizing g with
  | nil => exact ⟨rfl, fun j _ => by simp⟩
  | cons k ks ih =>
    obtain ⟨h1, h2⟩ := ih (List.nodup_cons.mp hn).2 (F g k)
    refine ⟨by rw [List.foldl_cons, h1, hl], fun j hj => ?_⟩
    rw [List.foldl_cons, h2 j (by rw [hl]; exact hj), hs, Gang.slice_modSlice]
    by_cases hk : k = j
    · subst hk
      have := (List.nodup_cons.mp hn).1
      simp [this, hj]
    · simp [hk, Ne.symm hk]

/-! What the trail, the signals and the meters leave alone. -/

@[simp] theorem Allot.quiet_meters (a : Allot) (m : Store W64) : Allot.quiet { a with meters := m } = a.quiet := rfl

theorem map_quiet_modNth (f : Core → Core) (hf : ∀ c, (f c).quiet = c.quiet) (xs : List Core) (n : Nat) :
    (modNth f xs n).map Core.quiet = xs.map Core.quiet := by
  induction xs generalizing n with
  | nil => rfl
  | cons x xs ih => cases n <;> simp [modNth, hf, ih]

theorem map_quiet_modNth_allot (f : Allot → Allot) (hf : ∀ a, (f a).quiet = a.quiet) (xs : List Allot) (n : Nat) :
    (modNth f xs n).map Allot.quiet = xs.map Allot.quiet := by
  induction xs generalizing n with
  | nil => rfl
  | cons x xs ih => cases n <;> simp [modNth, hf, ih]

theorem State.rest_modCore (s : State) (n : Nat) (f : Core → Core) (hf : ∀ c, (f c).quiet = c.quiet) :
    (s.modCore n f).rest = s.rest := by
  simp [State.rest, State.modCore, map_quiet_modNth f hf]

theorem State.rest_modAllot (s : State) (n : Nat) (f : Allot → Allot) (hf : ∀ a, (f a).quiet = a.quiet) :
    (s.modAllot n f).rest = s.rest := by
  simp [State.rest, State.modAllot, map_quiet_modNth_allot f hf]

@[simp] theorem State.rest_modGang (s : State) (u : Nat) (f : Gang → Gang) : (s.modGang u f).rest = s.rest := rfl

@[simp] theorem State.rest_moveSlices (s : State) (c : Ctx) (e : LaneMask) (f : Nat → Nat) :
    (s.moveSlices c e f).rest = s.rest := rfl

@[simp] theorem State.rest_meter (s : State) (al i n : Nat) : (s.meter al i n).rest = s.rest := by
  unfold State.meter
  split
  · rfl
  · exact s.rest_modAllot _ _ fun _ => rfl

@[simp] theorem State.gangs_meter (s : State) (al i n : Nat) : (s.meter al i n).gangs = s.gangs := by
  unfold State.meter; split <;> rfl

@[simp] theorem State.rest_signal (s : State) (core code al : Nat) : (s.signal core code al).rest = s.rest := by
  unfold State.signal
  split
  · rfl
  · exact s.rest_modCore _ _ fun _ => rfl

@[simp] theorem State.gangs_signal (s : State) (core code al : Nat) : (s.signal core code al).gangs = s.gangs := by
  unfold State.signal; split <;> rfl

theorem map_quiet_modNth_const (d x : Core) (xs : List Core) (n : Nat) (h : x.quiet = (nth d xs n).quiet) :
    (modNth (fun _ => x) xs n).map Core.quiet = xs.map Core.quiet := by
  induction xs generalizing n with
  | nil => rfl
  | cons y ys ih =>
    cases n with
    | zero => simpa [modNth, nth] using h
    | succ n => simp [modNth, ih n (by simpa [nth] using h)]

@[simp] theorem Core.quiet_push (c : Core) (r : TRec) : (c.push r).quiet = c.quiet := rfl

@[simp] theorem Core.quiet_put (c : Core) (r : TRec) : (c.put r).quiet = c.quiet := rfl

@[simp] theorem Core.quiet_tellLost (c : Core) (clock : Nat) : (c.tellLost clock).quiet = c.quiet := rfl

@[simp] theorem Core.quiet_logRecord (c : Core) (clock cls al : Nat) (r : TRec) : (c.logRecord clock cls al r).1.quiet = c.quiet := by
  unfold Core.logRecord
  extract_lets d
  have hd : d.quiet = c.quiet := by simp only [d]; split <;> rfl
  clear_value d
  split
  · exact hd
  · split
    · split <;> exact hd
    · exact hd

@[simp] theorem Core.quiet_arm (c : Core) (t clock : Nat) : (c.arm t clock).quiet = c.quiet := rfl

@[simp] theorem Core.quiet_trigger (c : Core) (post clock : Nat) : (c.trigger post clock).quiet = c.quiet := by
  unfold Core.trigger
  split
  · exact Core.quiet_logRecord ..
  · rfl

/-- What a trail record does: it changes what `Core.quiet` leaves out of one core, and may put steps of the trigger first. -/
theorem State.record_shape (s : State) (core cls al slot slice aux : Nat) (pay : W64) :
    ∃ cs ag, s.record core cls al slot slice aux pay = { s with cores := cs, agenda := ag } ∧
      cs.map Core.quiet = s.cores.map Core.quiet := by
  unfold State.record
  extract_lets was t c l fires next
  split
  · exact ⟨s.cores, s.agenda, rfl, rfl⟩
  · refine ⟨_, _, rfl, map_quiet_modNth_const (Core.blank core) _ s.cores core ?_⟩
    have hc : c.quiet = was.quiet := Core.quiet_trigger ..
    have h : l.1.quiet = was.quiet := by
      simp only [l]
      split
      · exact hc
      · exact (Core.quiet_logRecord ..).trans hc
    split
    · exact (Core.quiet_arm ..).trans h
    · exact h

@[simp] theorem State.rest_record (s : State) (core cls al slot slice aux : Nat) (pay : W64) :
    (s.record core cls al slot slice aux pay).rest = s.rest := by
  obtain ⟨cs, ag, h, hq⟩ := s.record_shape core cls al slot slice aux pay
  simp [h, State.rest, hq]

@[simp] theorem State.gangs_record (s : State) (core cls al slot slice aux : Nat) (pay : W64) :
    (s.record core cls al slot slice aux pay).gangs = s.gangs := by
  obtain ⟨cs, ag, h, -⟩ := s.record_shape core cls al slot slice aux pay
  simp [h]

/-! Fields that a frame `t.rest = s.rest` gives. -/

theorem State.rest_fields {s t : State} (h : t.rest = s.rest) :
    t.mem = s.mem ∧ t.vers = s.vers ∧ t.clock = s.clock ∧ t.blocks = s.blocks ∧ t.regs = s.regs ∧ t.reqs = s.reqs ∧
      t.saccs = s.saccs ∧ t.passes = s.passes ∧ t.dbinds = s.dbinds ∧ t.plat = s.plat ∧ t.cur = s.cur := by
  have e := fun {α : Type} (f : State → α) => congrArg f h
  exact ⟨e (·.mem), e (·.vers), e (·.clock), e (·.blocks), e (·.regs), e (·.reqs), e (·.saccs), e (·.passes), e (·.dbinds),
    e (·.plat), e (·.cur)⟩

end Sys2Proof.Machine
end

