-- ==== Sys2Proof/Laws/Word.lean ====
section
/-! SUPPORT. What the issue of a word does, once for all words: its context, its checks, the counters that move, and what the
end of a word leaves alone. -/

namespace Sys2Proof.Machine

/-! The context of a word. -/

theorem State.ctx_spec {s : State} {k : GroupKey} {c : Ctx} (h : s.ctx k = some c) :
    c.key = k ∧ s.gang? c.uid = some c.gang ∧ c.gang.group? k.slice = some c.grp ∧ s.block? c.gang.blk = some c.blk ∧
      c.pc = (c.gang.slice c.grp.low).pc := by
  simp only [State.ctx, bind, Option.bind_eq_some_iff, pure, Option.some.injEq] at h
  obtain ⟨u, -, g, hg, grp, hgrp, b, hb, rfl⟩ := h
  exact ⟨rfl, by simpa [Ctx.uid, State.gang?_uid hg] using hg, hgrp, hb, rfl⟩

theorem Issues.gang {s : State} {c : Ctx} {h : Hdr} {us : List Use} (w : Issues s c h us) : s.gang? c.uid = some c.gang := by
  have := w.here
  simp only [Option.bind_eq_some_iff] at this
  obtain ⟨k, -, hk⟩ := this
  exact (State.ctx_spec hk).2.1

theorem declared_ok {c : Ctx} {us : List Use} (h : ∀ u ∈ us, c.blk.k.declares u.reg = true) : declared c us = .ok () := by
  induction us with
  | nil => rfl
  | cons u us ih =>
    simp only [declared, h u (List.mem_cons_self ..), ↓reduceIte]
    exact ih fun v hv => h v (List.mem_cons_of_mem _ hv)

theorem scoreboard_ok {c : Ctx} {us : List Use} (h : ∀ u ∈ us, c.gang.busy.contains u.reg = false) :
    scoreboard c us = .ok () := by
  have : (us.any fun u => c.gang.busy.contains u.reg) = false := by
    rw [List.any_eq_false]; exact fun u hu => by simpa using h u hu
  simp only [scoreboard, waitIf, this, Bool.false_eq_true, ↓reduceIte]

/-- The lane-operations that a word counts (R353). -/
def WordKind.ops (kind : WordKind) (s : State) (c : Ctx) (h : Hdr) : Nat :=
  if kind == .matrix then 0 else (lanesOf (s.lanesFor c h)).length

/-- A word that issues comes to its own effect, or to a halt. -/
theorem runWordWith_eq {base : State → Ctx → LaneMask → Halt → State} {kind : WordKind} {h : Hdr} {us : List Use}
    {body : State → Ctx → LaneMask → M State} {s : State} {c : Ctx} (w : Issues s c h us) :
    runWordWith base kind h us body s =
      match body (s.advance c (kind.ops s c h)) c (s.lanesFor c h) with
      | .ok t => .next ((t.modGang c.uid fun g => g.noteWord kind us c.grp.slices (slicesIn (s.lanesFor c h)) s.turn).finish c h.sw)
      | .error .wait => .next ((base s c (s.lanesFor c h) .wait).stall c (wordReason s.word us))
      | .error (.trap x) => .next ((base s c (s.lanesFor c h) (.trap x)).trapNow c
          (base s c (s.lanesFor c h) (.trap x)).word x (kind.ops s c h))
      | .error (.damage k l) => .next (base s c (s.lanesFor c h) (.damage k l)) := by
  simp only [runWordWith, w.here, declared_ok w.declared, scoreboard_ok w.settled, bind, Except.bind, State.lanesFor, WordKind.ops]
  split <;> rename_i hb <;> rw [hb]
  rename_i x
  cases x <;> rfl

/-- A word whose body succeeds completes. -/
theorem runWord_ok {kind : WordKind} {h : Hdr} {us : List Use} {body : State → Ctx → LaneMask → M State} {s t : State} {c : Ctx}
    (hk : kind ≠ .matrix) (w : Issues s c h us) (hb : body (s.issuing c h) c (s.lanesFor c h) = .ok t) :
    runWord kind h us body s =
      .next ((t.modGang c.uid fun g => g.noteWord kind us c.grp.slices (slicesIn (s.lanesFor c h)) s.turn).finish c h.sw) := by
  have hn : kind.ops s c h = (lanesOf (s.lanesFor c h)).length := if_neg (by simpa using hk)
  have hb' := hb
  rw [State.issuing, ← hn] at hb'
  simp only [runWord, runWordWith_eq w, hb']

/-- A word whose body traps takes the trap once earlier words of the group have completed (R126); it does nothing else. -/
theorem runWord_trap {kind : WordKind} {h : Hdr} {us : List Use} {body : State → Ctx → LaneMask → M State} {s : State} {c : Ctx}
    {x : TrapInfo} (hk : kind ≠ .matrix) (w : Issues s c h us)
    (hb : body (s.issuing c h) c (s.lanesFor c h) = .error (.trap x)) : runWord kind h us body s = .next (s.trapped c h x) := by
  have hn : kind.ops s c h = (lanesOf (s.lanesFor c h)).length := if_neg (by simpa using hk)
  rw [State.issuing, ← hn] at hb
  simp only [runWord, runWordWith_eq w, hb]
  rw [hn, State.trapped]

/-- A word whose body waits does nothing but mark its group as not ready. -/
theorem runWord_wait {kind : WordKind} {h : Hdr} {us : List Use} {body : State → Ctx → LaneMask → M State} {s : State} {c : Ctx}
    (hk : kind ≠ .matrix) (w : Issues s c h us) (hb : body (s.issuing c h) c (s.lanesFor c h) = .error .wait) :
    runWord kind h us body s = .next (s.stall c (wordReason s.word us)) := by
  have hn : kind.ops s c h = (lanesOf (s.lanesFor c h)).length := if_neg (by simpa using hk)
  rw [State.issuing, ← hn] at hb
  simp only [runWord, runWordWith_eq w, hb]

/-! The counters that move at issue. -/

/-- What issue does to the gang: its group's words are counted and its counters name the next word. -/
def Gang.past (g : Gang) (c : Ctx) (word : W64) : Gang :=
  (g.retire c.grp.slices).modSlices c.grp.slices fun sl =>
    { sl with pc := (c.pc + 8) % 2 ^ 64, prev := c.pc, prevWord := word }

theorem Gang.modSlices_frame (ks : List Nat) (f : SliceSt → SliceSt) (g : Gang) :
    (g.modSlices ks f).data = g.data ∧ (g.modSlices ks f).groups = g.groups ∧ (g.modSlices ks f).uid = g.uid ∧
      (g.modSlices ks f).shadows = g.shadows := by
  induction ks generalizing g with
  | nil => exact ⟨rfl, rfl, rfl, rfl⟩
  | cons k ks ih => exact ih (g.modSlice k f)

theorem Gang.past_data (g : Gang) (c : Ctx) (w : W64) : (g.past c w).data = g.data := by
  have h1 := (Gang.modSlices_frame c.grp.slices (fun sl => { sl with retc := sl.retc + 1 }) g).1
  have h2 := (Gang.modSlices_frame c.grp.slices (fun sl => { sl with pc := (c.pc + 8) % 2 ^ 64, prev := c.pc, prevWord := w })
    (g.retire c.grp.slices)).1
  exact h2.trans h1

/-- The counts of an issuing word touch no gang. -/
theorem State.issueCounts_frame (s : State) (c : Ctx) (n : Nat) :
    (s.issueCounts c n).rest = s.rest ∧ (s.issueCounts c n).gangs = s.gangs := by
  unfold State.issueCounts
  extract_lets sched s2 k s3 spent s4
  have a2 : s2.rest = s.rest ∧ s2.gangs = s.gangs := by constructor <;> simp [s2]
  have a3 : s3.rest = s.rest ∧ s3.gangs = s.gangs := by
    refine ⟨?_, a2.2⟩
    rw [← a2.1]
    exact s2.rest_modCore _ _ fun _ => rfl
  have a4 : s4.rest = s.rest ∧ s4.gangs = s.gangs := by
    simp only [s4]; split
    · exact ⟨by rw [State.rest_signal]; exact a3.1, by rw [State.gangs_signal]; exact a3.2⟩
    · exact a3
  constructor
  · rw [← a4.1, ← State.rest_signal s4 c.core 0 c.al]; rfl
  · show (s4.signal c.core 0 c.al).gangs = s.gangs
    rw [State.gangs_signal]; exact a4.2

theorem State.advance_frame (s : State) (c : Ctx) (n : Nat) :
    (s.advance c n).rest = s.rest ∧ (s.advance c n).gangs = (s.modGang c.uid fun g => g.past c s.word).gangs := by
  obtain ⟨h1, h2⟩ := s.issueCounts_frame c n
  refine ⟨h1, ?_⟩
  have : (s.issueCounts c n).word = s.word := by have := congrArg State.word h1; exact this
  show modWhere _ _ (s.issueCounts c n).gangs = _
  rw [h2]
  rfl

theorem State.gang?_congr {s t : State} (h : t.gangs = s.gangs) (u : Nat) : t.gang? u = s.gang? u := by
  simp [State.gang?, h]

theorem Gang.past_uid (g : Gang) (c : Ctx) (w : W64) : (g.past c w).uid = g.uid :=
  (congrArg (fun x : Gang => x.uid) (g.past_data c w) : (g.past c w).data.uid = g.data.uid)

/-- The gang of a word once it has issued. -/
theorem State.gang?_advance {s : State} {c : Ctx} (hg : s.gang? c.uid = some c.gang) (n u : Nat) :
    (s.advance c n).gang? u = if u = c.uid then some (c.gang.past c s.word) else s.gang? u := by
  rw [State.gang?_congr (s.advance_frame c n).2, State.gang?_modGang _ _ _ _ fun g => g.past_uid c s.word]
  split
  · next h => subst h; simp [hg]
  · rfl

theorem repeat_retire (n : Nat) (x : SliceSt) :
    Nat.repeat (fun sl : SliceSt => { sl with retc := sl.retc + 1 }) n x = { x with retc := x.retc + BitVec.ofNat 64 n } := by
  induction n with
  | zero => simp [Nat.repeat]
  | succ n ih =>
    simp only [Nat.repeat, ih]
    congr 1
    rw [BitVec.add_assoc]
    congr 1
    apply BitVec.eq_of_toNat_eq
    simp

/-- The slices of a gang after issue. -/
theorem Gang.past_slices (s : State) (c : Ctx) : SlicesAre c (c.gang.past c s.word) (s.passed c) := by
  refine ⟨?_, fun k hk => ?_⟩
  · show ((c.gang.retire c.grp.slices).modSlices c.grp.slices _).slices.length = _
    simp [Gang.retire]
  · show ((c.gang.retire c.grp.slices).modSlices c.grp.slices _).slice k = _
    rw [Gang.slice_modSlices _ _ _ _ (by simpa [Gang.retire] using hk), Gang.retire, Gang.slice_modSlices _ _ _ _ hk, repeat_retire]
    unfold State.passed
    by_cases h : k ∈ c.grp.slices
    · simp only [h, ↓reduceIte]
      have hpos : 0 < c.grp.slices.count k := List.count_pos_iff.mpr h
      generalize c.grp.slices.count k = n at hpos ⊢
      have set : ∀ m (x : SliceSt), Nat.repeat (fun sl : SliceSt => { sl with pc := (c.pc + 8) % 2 ^ 64, prev := c.pc, prevWord := s.word }) (m + 1) x =
          { x with pc := (c.pc + 8) % 2 ^ 64, prev := c.pc, prevWord := s.word } := by
        intro m x
        induction m with
        | zero => rfl
        | succ m ih => rw [Nat.repeat, ih]
      obtain ⟨m, rfl⟩ := Nat.exists_eq_succ_of_ne_zero (Nat.ne_of_gt hpos)
      exact set m _
    · simp [h, List.count_eq_zero.mpr h, Nat.repeat]

/-! The end of a word. -/

/-- Two gangs that differ in nothing but the promotion and the waiting of their groups, how slices are grouped, groups of
slices that have ended, and what orders their accesses. -/
def SameButGroups (g g' : Gang) : Prop := { g' with groups := g.groups, seen := g.seen } = g ∧ TrapsKept g g'

theorem SameButGroups.refl (g : Gang) : SameButGroups g g := ⟨rfl, fun y hy => ⟨y, hy, fun _ h => h, rfl⟩⟩

theorem SameButGroups.trans {a b c : Gang} (h1 : SameButGroups a b) (h2 : SameButGroups b c) : SameButGroups a c := by
  refine ⟨?_, fun y hy => ?_⟩
  · have e1 := h1.1
    have e2 := h2.1
    rw [← e2] at e1
    exact e1
  · obtain ⟨x, hx, hs, ht⟩ := h2.2 y hy
    obtain ⟨z, hz, hs', ht'⟩ := h1.2 x hx
    exact ⟨z, hz, fun k hk => hs' k (hs k hk), ht.trans ht'⟩

theorem SameButGroups.data {g g' : Gang} (h : SameButGroups g g') : g'.data = g.data := by
  have := congrArg Gang.data h.1
  exact this

theorem SameButGroups.slices {g g' : Gang} (h : SameButGroups g g') : g'.slices = g.slices := by
  have := congrArg (fun x : Gang => x.slices) h.1
  exact this

/-- Groups mapped by something that keeps slices and trap registers. -/
theorem SameButGroups.map (g : Gang) (f : Group → Group) (hf : ∀ x, (f x).slices = x.slices ∧ (f x).traps = x.traps) :
    SameButGroups g { g with groups := g.groups.map f } := by
  refine ⟨rfl, fun y hy => ?_⟩
  obtain ⟨x, hx, rfl⟩ := List.mem_map.mp hy
  exact ⟨x, hx, fun k hk => (hf x).1 ▸ hk, (hf x).2⟩

theorem Gang.noteWord_same (g : Gang) (kind : WordKind) (us : List Use) (group enabled : List Nat) (turn : Nat) :
    SameButGroups g (g.noteWord kind us group enabled turn) := by
  unfold Gang.noteWord
  cases kind <;> dsimp only <;> (try split) <;> exact .refl g

theorem Gang.prune_same (g : Gang) : SameButGroups g g.prune := by
  refine ⟨rfl, fun y hy => ?_⟩
  simp only [Gang.prune, List.mem_filter, List.mem_map] at hy
  obtain ⟨⟨x, hx, rfl⟩, -⟩ := hy
  exact ⟨x, hx, fun k hk => (List.mem_filter.mp hk).1, rfl⟩

theorem Gang.split_same (g : Gang) (low : Nat) : SameButGroups g (g.split low) := by
  unfold Gang.split
  split
  · exact .refl g
  · next grp hgrp =>
    have hmem : grp ∈ g.groups := List.mem_of_find?_eq_some hgrp
    refine ⟨rfl, fun y hy => ?_⟩
    simp only [List.mem_append, List.mem_filter] at hy
    rcases hy with ⟨hy, -⟩ | hy
    · exact ⟨y, hy, fun _ h => h, rfl⟩
    · refine ⟨grp, hmem, ?_⟩
      unfold splitGroup at hy
      extract_lets pcs at hy
      split at hy
      · simp only [List.mem_singleton] at hy; subst hy; exact ⟨fun _ h => h, rfl⟩
      · obtain ⟨p, -, rfl⟩ := List.mem_map.mp hy
        exact ⟨fun k hk => (List.mem_filter.mp hk).1, rfl⟩

theorem Gang.parkSwitch_same (g : Gang) (ks : List Nat) (clock : Nat) : SameButGroups g (g.parkSwitch ks clock) := by
  refine SameButGroups.map g _ fun x => ?_
  split
  · split <;> exact ⟨rfl, rfl⟩
  · exact ⟨rfl, rfl⟩

/-- What the end of a word changes: how the slices of its gang are grouped, whether groups are parked; nothing in `State.rest`. -/
theorem State.finish_frame (s : State) (c : Ctx) (sw : Bool) :
    (s.finish c sw).rest = s.rest ∧
      ∃ F : Gang → Gang, (∀ g, SameButGroups g (F g)) ∧ (s.finish c sw).gangs = (s.modGang c.uid F).gangs := by
  unfold State.finish
  extract_lets s1 s'
  have h1 : s1.rest = s.rest := rfl
  have mid : ∃ F : Gang → Gang, (∀ g, SameButGroups g (F g)) ∧ s1.gangs = (s.modGang c.uid F).gangs := by
    refine ⟨_, fun g => ?_, rfl⟩
    refine ((g.prune_same).trans (g.prune.split_same c.grp.low)).trans (SameButGroups.map _ _ fun x => ?_)
    split <;> exact ⟨rfl, rfl⟩
  have late : ∃ F : Gang → Gang, (∀ g, SameButGroups g (F g)) ∧ s'.gangs = (s.modGang c.uid F).gangs := by
    obtain ⟨F, hF, e⟩ := mid
    have hu : ∀ g, (F g).uid = g.uid := fun g => by have := congrArg (fun x : Gang => x.uid) (hF g).1; exact this
    refine ⟨fun g => (F g).parkSwitch c.grp.slices s1.clock, fun g => (hF g).trans (Gang.parkSwitch_same _ _ _), ?_⟩
    show (s1.gangs.map fun g => if g.uid == c.uid then g.parkSwitch c.grp.slices s1.clock else g) = _
    rw [e]
    show ((s.gangs.map fun g => if g.uid == c.uid then F g else g).map fun g =>
      if g.uid == c.uid then g.parkSwitch c.grp.slices s1.clock else g) =
      s.gangs.map fun g => if g.uid == c.uid then (F g).parkSwitch c.grp.slices s1.clock else g
    rw [List.map_map]
    refine List.map_congr_left fun g _ => ?_
    show (if (if g.uid == c.uid then F g else g).uid == c.uid then _ else _) = _
    cases h : g.uid == c.uid
    · simp [h]
    · simp [h, hu]
  split
  · split
    · exact ⟨by rw [State.rest_signal, State.rest_record]; rfl,
        by obtain ⟨F, hF, e⟩ := late; exact ⟨F, hF, by rw [State.gangs_signal, State.gangs_record]; exact e⟩⟩
    · exact ⟨rfl, late⟩
  · exact ⟨h1, mid⟩

/-- The gangs after the end of a word. -/
theorem State.gang?_finish {s : State} {c : Ctx} {g : Gang} (hg : s.gang? c.uid = some g) (sw : Bool) :
    ∃ g', SameButGroups g g' ∧ OnlyGang s (s.finish c sw) c g' := by
  obtain ⟨-, F, hF, e⟩ := s.finish_frame c sw
  have hu : ∀ g, (F g).uid = g.uid := fun g => by have := congrArg (fun x : Gang => x.uid) (hF g).1; exact this
  refine ⟨F g, hF g, ?_, fun u hne => ?_⟩
  · rw [State.gang?_congr e, State.gang?_modGang _ _ _ _ hu, if_pos rfl, hg]; rfl
  · rw [State.gang?_congr e, State.gang?_modGang _ _ _ _ hu, if_neg hne]

/-- The gangs once a word has been noted and has ended. -/
theorem State.gang?_ended {v : State} {c : Ctx} {g : Gang} (hg : v.gang? c.uid = some g) (kind : WordKind) (us : List Use)
    (group enabled : List Nat) (turn : Nat) (sw : Bool) :
    ∃ g', SameButGroups g g' ∧ OnlyGang v ((v.modGang c.uid fun g => g.noteWord kind us group enabled turn).finish c sw) c g' := by
  have hu : ∀ g : Gang, (g.noteWord kind us group enabled turn).uid = g.uid := fun g => by
    have := congrArg (fun x : Gang => x.uid) (g.noteWord_same kind us group enabled turn).1; exact this
  have h2 : (v.modGang c.uid fun g => g.noteWord kind us group enabled turn).gang? c.uid =
      some (g.noteWord kind us group enabled turn) := by
    rw [State.gang?_modGang _ _ _ _ hu, if_pos rfl, hg]; rfl
  obtain ⟨g', hs, ho⟩ := State.gang?_finish h2 sw
  refine ⟨g', (g.noteWord_same kind us group enabled turn).trans hs, ho.1, fun u hne => ?_⟩
  rw [ho.2 u hne, State.gang?_modGang _ _ _ _ hu, if_neg hne]

/-- The whole of an issuing word whose body succeeds: its effect, then the end of the word. -/
theorem word_runs {kind : WordKind} {h : Hdr} {us : List Use} {body : State → Ctx → LaneMask → M State} {s v : State} {c : Ctx}
    {F : Gang → Gang} (hk : kind ≠ .matrix) (w : Issues s c h us) (hb : body (s.issuing c h) c (s.lanesFor c h) = .ok v)
    (hv : v.gangs = ((s.issuing c h).modGang c.uid F).gangs) (hF : ∀ g, (F g).uid = g.uid) :
    ∃ t g', runWord kind h us body s = .next t ∧ t.rest = v.rest ∧ OnlyGang s t c g' ∧
      SameButGroups (F (c.gang.past c s.word)) g' := by
  have h1 : (s.issuing c h).gang? c.uid = some (c.gang.past c s.word) := by
    rw [State.issuing, State.gang?_advance w.gang, if_pos rfl]
  have h2 : v.gang? c.uid = some (F (c.gang.past c s.word)) := by
    rw [State.gang?_congr hv, State.gang?_modGang _ _ _ _ hF, if_pos rfl, h1]; rfl
  obtain ⟨g', hs, ho⟩ := State.gang?_ended h2 kind us c.grp.slices (slicesIn (s.lanesFor c h)) s.turn h.sw
  refine ⟨_, g', runWord_ok hk w hb, (State.finish_frame _ c h.sw).1, ⟨ho.1, fun u hu => ?_⟩, hs⟩
  rw [ho.2 u hu, State.gang?_congr hv, State.gang?_modGang _ _ _ _ hF, if_neg hu, State.issuing,
    State.gang?_advance w.gang, if_neg hu]

@[simp] theorem State.issuing_rest (s : State) (c : Ctx) (h : Hdr) : (s.issuing c h).rest = s.rest := (s.advance_frame c _).1

end Sys2Proof.Machine
end

