-- ==== Sys2Proof/Laws/Lane.lean ====
section
/-! SUPPORT. What words that work lane by lane do: operands, destinations, and one law for the whole word. -/

namespace Sys2Proof.Machine

/-! Monad steps. -/

theorem bind_ok {α β : Type} {x : M α} {f : α → M β} {r : β} (h : (x >>= f) = .ok r) : ∃ a, x = .ok a ∧ f a = .ok r := by
  cases x with
  | error e => cases h
  | ok a => exact ⟨a, rfl, h⟩

@[simp] theorem trapIf_ok {b : Bool} {t : TrapInfo} {x : Unit} : trapIf b t = .ok x ↔ b = false := by
  cases b <;> simp [trapIf]

@[simp] theorem waitIf_ok {b : Bool} {x : Unit} : waitIf b = .ok x ↔ b = false := by cases b <;> simp [waitIf]

@[simp] theorem ok_bind {α β : Type} (a : α) (f : α → M β) : ((Except.ok a : M α) >>= f) = f a := rfl

/-! Queue operands. -/

/-- Popping a queue register changes the queue alone (R28, R315). -/
theorem popQ_gangs {s t : State} {c : Ctx} {q : Nat} {w : W64} (h : s.popQ c q = .ok (w, t)) : t.gangs = s.gangs := by
  unfold State.popQ at h
  split at h
  · split at h
    · cases h; rfl
    · cases h
  · split at h
    · cases h; rfl
    · cases h
  · cases h

theorem popAll_gangs {c : Ctx} {srcs : List Src} {s p : State} {os : List Opnd} (h : popAll c srcs s = .ok (os, p)) :
    p.gangs = s.gangs := by
  induction srcs generalizing s os with
  | nil => simp only [popAll, Except.ok.injEq, Prod.mk.injEq] at h; rw [h.2]
  | cons x xs ih =>
    cases x <;> simp only [popAll] at h
    case q n =>
      obtain ⟨⟨w, s1⟩, h1, h⟩ := bind_ok h
      obtain ⟨⟨os', s2⟩, h2, h⟩ := bind_ok h
      simp only [pure, Except.pure, Except.ok.injEq, Prod.mk.injEq] at h
      obtain ⟨-, rfl⟩ := h
      rw [ih h2, popQ_gangs h1]
    all_goals
      obtain ⟨⟨os', s2⟩, h2, h⟩ := bind_ok h
      simp only [pure, Except.pure, Except.ok.injEq, Prod.mk.injEq] at h
      obtain ⟨-, rfl⟩ := h
      exact ih h2

theorem operands_gangs {s p : State} {c : Ctx} {h : Hdr} {srcs : List Src} {os : List Opnd}
    (hp : s.operands c h srcs = .ok (os, p)) : p.gangs = (s.issuing c h).gangs := by
  unfold State.operands at hp
  split at hp
  · cases hp; rfl
  · exact popAll_gangs hp

/-- Late stores that perform leave the gang's list of them, and touch nothing else of any gang. -/
theorem performLate_gangs (s : State) (u : Nat) (p : LateStore → Bool) :
    ∃ L : List LateStore → List LateStore,
      (s.performLate u p).gangs = (s.modGang u fun g => { g with lateStores := L g.lateStores }).gangs := by
  have keep : (s.modGang u fun g => { g with lateStores := id g.lateStores }).gangs = s.gangs := by
    simp [State.modGang, modWhere]
  have store : ∀ (xs : List (Nat × List (Nat × Byte))) (core lid : Nat) (t : State),
      (xs.foldl (fun s l => s.modEntry core l.1 fun e =>
        { e with data := setLineBytes e.data l.2, mask := e.mask ||| offsetMask (l.2.map (·.1)), owed := addOnce e.owed u
                 lid := lid }) t).gangs = t.gangs := by
    intro xs core lid
    induction xs with
    | nil => exact fun _ => rfl
    | cons x xs ih => exact fun t => (ih _).trans rfl
  have all : ∀ (xs : List LateStore) (core : Nat) (t : State), (xs.foldl (fun s x => s.performStore core u x) t).gangs = t.gangs := by
    intro xs core
    induction xs with
    | nil => exact fun _ => rfl
    | cons x xs ih => exact fun t => (ih _).trans (store x.lanes core x.lid t)
  unfold State.performLate
  split
  · exact ⟨id, keep.symm⟩
  · split
    · exact ⟨id, keep.symm⟩
    · rename_i rest _ _
      refine ⟨fun _ => rest, ?_⟩
      show modWhere _ _ (List.foldl _ s _).gangs = _
      rw [all]
      rfl

/-- Accesses of slices that have settled: the late stores have performed. -/
theorem settled_gangs {s t : State} {c : Ctx} {ks : List Nat} {atoms : Bool} (h : s.settled c ks atoms = .ok t) :
    ∃ L : List LateStore → List LateStore, t.gangs = (s.modGang c.uid fun g => { g with lateStores := L g.lateStores }).gangs := by
  unfold State.settled at h
  obtain ⟨-, -, h⟩ := bind_ok h
  simp only [pure, Except.pure, Except.ok.injEq] at h
  rw [← h]
  exact performLate_gangs ..

/-- Pushing on a queue register makes at most the token of a command's header pending in the gang, once its late stores have
performed (R281, R315, R319). -/
theorem pushQ_gangs {s t : State} {c : Ctx} {ks : List Nat} {q : Nat} {w : W64} (h : s.pushQ c ks q w = .ok t) :
    ∃ (B : List Reg → List Reg) (L : List LateStore → List LateStore) (S : List Seen → List Seen),
      t.gangs = (s.modGang c.uid fun g => { g with busy := B g.busy, lateStores := L g.lateStores, seen := S g.seen }).gangs := by
  have keep : ∀ s : State, (s.modGang c.uid fun g =>
      { g with busy := id g.busy, lateStores := id g.lateStores, seen := id g.seen }).gangs = s.gangs :=
    fun s => by simp [State.modGang, modWhere]
  unfold State.pushQ at h
  split at h
  · split at h
    · cases h
    · obtain ⟨-, -, h⟩ := bind_ok h
      simp only at h
      split at h
      · obtain ⟨-, -, h⟩ := bind_ok h
        obtain ⟨-, -, h⟩ := bind_ok h
        obtain ⟨v, hv, h⟩ := bind_ok h
        obtain ⟨L, hL⟩ := settled_gangs hv
        simp only [pure, Except.pure, Except.ok.injEq] at h
        refine ⟨fun b => .s (cmdToken w) :: b, L,
          fun xs => ks.foldl (fun xs k => modNth (fun x => { x with last := Nat.max x.last x.heard, ord := Nat.max x.last x.heard }) xs k) xs, ?_⟩
        rw [← h]
        show modWhere _ _ v.gangs = _
        rw [hL]
        simp only [State.gangs_signal, State.modGang, modWhere, List.map_map]
        refine List.map_congr_left fun g _ => ?_
        simp only [Function.comp_apply]
        by_cases hg : (g.uid == c.uid) = true <;> simp [hg, Gang.orderPoint, Gang.modSeen]
      · split at h <;>
          (simp only [pure, Except.pure, Except.ok.injEq] at h; refine ⟨id, id, id, ?_⟩; rw [← h, keep]; simp [State.modDBind])
  · cases h

/-! Registers written. -/

theorem Gang.putV_data (g : Gang) (clock lat n : Nat) (ks : List Nat) (vals : List (Nat × W32)) :
    (g.putV clock lat n ks vals).data = { g.data with v := (g.putV clock lat n ks vals).v } := rfl

theorem Gang.putS_data (g : Gang) (clock lat n : Nat) (ks : List Nat) (x : W64) :
    (g.putS clock lat n ks x).data = { g.data with s := (g.putS clock lat n ks x).s } := rfl

theorem Gang.putP_data (g : Gang) (clock lat n : Nat) (ks : List Nat) (vals : List (Nat × Bool)) :
    (g.putP clock lat n ks vals).data = { g.data with p := (g.putP clock lat n ks vals).p } := by
  unfold Gang.putP; split <;> rfl

/-- Writing a vector register in the lanes of a mask. -/
theorem Gang.putV_wrote (g : Gang) (clock lat n : Nat) (ks : List Nat) (e : LaneMask) (f : Nat → W32) :
    WroteV g (g.putV clock lat n ks ((lanesOf e).map fun l => (l, f l))) n e f := by
  intro m l hl
  simp only [Gang.vAt, Gang.putV, List.map_map]
  by_cases hm : m = n
  · subst hm
    have := Store.get_setMany_map (0#32) (fun l => 32 * m + l) f (lanesOf e) g.v (nodup_lanesOf e)
      (fun a b hab => by omega) l
    simp only [mem_lanesOf] at this
    simpa [Function.comp_def] using this
  · rw [if_neg (fun h => hm h.1)]
    refine Store.get_setMany_of_notMem _ _ _ _ fun x hx => ?_
    obtain ⟨k, hk, rfl⟩ := List.mem_map.mp hx
    have := lanesOf_lt hk
    simp only [Function.comp_apply]
    omega

theorem Gang.putS_wrote (g : Gang) (clock lat n : Nat) (ks : List Nat) (x : W64) : WroteS g (g.putS clock lat n ks x) n x := by
  intro m
  simp only [Gang.putS, Store.get_set, eq_comm]

theorem any_lanes {e : LaneMask} (he : e ≠ 0#32) (α : Type) (f : Nat → α) : ((lanesOf e).map f).isEmpty = false := by
  rw [List.isEmpty_eq_false_iff]
  intro h
  apply he
  rw [← maskOf_lanesOf e, List.map_eq_nil_iff.mp h]
  rfl

/-- Writing a predicate in the lanes of a mask. -/
theorem Gang.putP_wrote (g : Gang) (clock lat n : Nat) (ks : List Nat) (e : LaneMask) (f : Nat → Bool) :
    WroteP g (g.putP clock lat n ks ((lanesOf e).map fun l => (l, f l))) n e f := by
  intro m l hl
  unfold Gang.putP
  split
  · next h =>
    rw [if_neg]
    rintro ⟨-, h7, hle⟩
    simp only [Bool.or_eq_true, beq_iff_eq, h7, false_or] at h
    have : e ≠ 0#32 := by rintro rfl; simp at hle
    rw [any_lanes this] at h
    cases h
  · next h =>
    simp only [Bool.or_eq_true, beq_iff_eq, not_or] at h
    simp only [Store.get_set]
    by_cases hm : n = m
    · subst hm
      simp only [↓reduceIte, BitVec.getLsbD_or, BitVec.getLsbD_and, BitVec.getLsbD_not, hl, decide_true, Bool.true_and,
        getLsbD_maskOf, List.map_map, true_and, ne_eq, h.1, not_false_eq_true]
      have h1 : ((lanesOf e).map (Prod.fst ∘ fun l => (l, f l))).contains l = e.getLsbD l := by
        rw [Bool.eq_iff_iff, List.contains_iff_mem]
        simp [Function.comp_def, mem_lanesOf]
      have h2 : ((((lanesOf e).map fun l => (l, f l)).filter (·.2)).map (·.1)).contains l = (e.getLsbD l && f l) := by
        rw [Bool.eq_iff_iff, List.contains_iff_mem]
        simp only [List.mem_map, List.mem_filter, mem_lanesOf, Prod.exists, Bool.and_eq_true]
        constructor
        · rintro ⟨_, _, ⟨⟨x, hx, hxe⟩, hb⟩, rfl⟩
          cases hxe
          exact ⟨hx, hb⟩
        · exact fun hh => ⟨l, f l, ⟨⟨l, hh.1, rfl⟩, hh.2⟩, rfl⟩
      rw [h1, h2]
      cases e.getLsbD l <;> simp
    · rw [if_neg hm, if_neg (fun hh => hm hh.1.symm)]

/-- A destination that is no queue takes its result in the gang of the word alone. -/
theorem writeDst_plain {p : State} {c : Ctx} {uni wide : Bool} {lat : Nat} {e : LaneMask} {d : Dst} {f : Nat → W64}
    (hd : ∀ n, d ≠ .q n) (he : e ≠ 0#32) :
    ∃ F : Gang → Gang, p.writeDst c uni wide lat e d f = .ok (p.modGang c.uid F) ∧ (∀ g, g.live = c.gang.live → WroteD g (F g) uni wide e d f) ∧
      ∀ g, (F g).slices = g.slices ∧ (F g).groups = g.groups ∧ (F g).busy = g.busy ∧ (F g).uid = g.uid := by
  have he' : (e == 0#32) = false := by simpa using he
  cases d with
  | q n => exact absurd rfl (hd n)
  | zero =>
    refine ⟨id, ?_, fun g _ => rfl, fun g => ⟨rfl, rfl, rfl, rfl⟩⟩
    simp [State.writeDst, he', State.modGang, modWhere]
  | s n =>
    refine ⟨fun g => g.putS p.clock lat n c.grp.slices (f (lowLane e)), ?_, fun g _ => ?_, fun g => ⟨rfl, rfl, rfl, rfl⟩⟩
    · simp [State.writeDst, he']
    · refine ⟨Gang.putS_data .., ?_⟩
      rw [if_neg he]
      exact g.putS_wrote p.clock lat n c.grp.slices _
  | v n =>
    simp only [State.writeDst, he', Bool.false_eq_true, ↓reduceIte, List.map_map, Function.comp_def]
    refine ⟨_, rfl, fun g hl => ?_, fun g => ?_⟩
    · have hm : g.reach uni e = c.gang.reach uni e := by simp only [Gang.reach, hl]
      generalize c.gang.reach uni e = m at hm
      cases wide with
      | false =>
        simp only [Bool.false_eq_true, ↓reduceIte, WroteD, hm]
        have hw := g.putV_wrote p.clock lat n c.grp.slices m fun l => (if uni then f (lowLane e) else f l).setWidth 32
        split <;> refine ⟨rfl, ?_⟩ <;> (intro r l hl; have := hw r l hl; cases uni <;> exact this)
      | true =>
        simp only [↓reduceIte, WroteD, hm]
        have h1 := g.putV_wrote p.clock lat n c.grp.slices m fun l => (if uni then f (lowLane e) else f l).setWidth 32
        have h2 := (g.putV p.clock lat n c.grp.slices ((lanesOf m).map fun l =>
          (l, (if uni then f (lowLane e) else f l).setWidth 32))).putV_wrote p.clock lat (n + 1) c.grp.slices m
          fun l => ((if uni then f (lowLane e) else f l).ushiftRight 32).setWidth 32
        split <;> refine ⟨rfl, ?_⟩ <;> (
          intro r l hl
          refine (h2 r l hl).trans ?_
          rw [h1 r l hl]
          by_cases hb : m.getLsbD l = true
          · by_cases hn : r = n
            · subst hn
              rw [if_neg (by omega), if_pos ⟨rfl, hb⟩, if_pos ⟨rfl, hb⟩]
              cases uni <;> rfl
            · rw [if_neg (fun hh : r = n ∧ _ => hn hh.1), if_neg (fun hh : r = n ∧ _ => hn hh.1)]
              cases uni <;> rfl
          · simp only [hb, Bool.false_eq_true, and_false, ↓reduceIte])
    · cases wide <;> simp only [Bool.false_eq_true, ↓reduceIte] <;> split <;> exact ⟨rfl, rfl, rfl, rfl⟩

/-! Whole words. -/

theorem Gang.past_groups (g : Gang) (c : Ctx) (w : W64) : TrapsKept g (g.past c w) := by
  intro y hy
  rw [Gang.past, (Gang.modSlices_frame _ _ _).2.1, Gang.retire, (Gang.modSlices_frame _ _ _).2.1] at hy
  exact ⟨y, hy, fun k hk => hk, rfl⟩

theorem quiet_ne : WordKind.quiet ≠ .matrix := by decide
theorem cross_ne : WordKind.cross ≠ .matrix := by decide
theorem plain_ne : WordKind.plain ≠ .matrix := by decide
theorem order_ne : WordKind.order ≠ .matrix := by decide

/-- A word whose body changes its gang by `F`, and perhaps more of the machine, completes with just that. -/
theorem word_completes {kind : WordKind} {h : Hdr} {us : List Use} {body : State → Ctx → LaneMask → M State} {s v : State} {c : Ctx}
    {F : Gang → Gang} (hk : kind ≠ .matrix) (w : Issues s c h us) (hb : body (s.issuing c h) c (s.lanesFor c h) = .ok v)
    (hv : v.gangs = ((s.issuing c h).modGang c.uid F).gangs)
    (hF : ∀ g, (F g).slices = g.slices ∧ (F g).groups = g.groups ∧ (F g).uid = g.uid) :
    ∃ t g', runWord kind h us body s = .next t ∧ Completed s v t c g' ∧ SameButGroups (F (c.gang.past c s.word)) g' := by
  have h1 : (s.issuing c h).gang? c.uid = some (c.gang.past c s.word) := by
    rw [State.issuing, State.gang?_advance w.gang, if_pos rfl]
  have h2 : v.gang? c.uid = some (F (c.gang.past c s.word)) := by
    rw [State.gang?_congr hv, State.gang?_modGang _ _ _ _ fun g => (hF g).2.2, if_pos rfl, h1]; rfl
  obtain ⟨g', hs, ho⟩ := State.gang?_ended h2 kind us c.grp.slices (slicesIn (s.lanesFor c h)) s.turn h.sw
  refine ⟨_, g', runWord_ok hk w hb, ⟨(State.finish_frame _ c h.sw).1, ho, ⟨?_, fun k hk => ?_⟩, fun y hy => ?_⟩, hs⟩
  · rw [hs.slices, (hF _).1]; exact (Gang.past_slices s c).1
  · have := (Gang.past_slices s c).2 k hk
    simpa only [Gang.slice, hs.slices, (hF _).1] using this
  · obtain ⟨x, hx, hk, ht⟩ := hs.2 y hy
    rw [(hF _).2.1] at hx
    obtain ⟨z, hz, hk', ht'⟩ := Gang.past_groups _ _ _ x hx
    exact ⟨z, hz, fun k h => hk' k (hk k h), ht.trans ht'⟩

/-- Lanes of a gang without outstanding results leave every register as it is. -/
theorem State.dropResults_none (s : State) (g : Gang) (gone : LaneMask) (h : g.shadows = []) : s.dropResults g gone = g := by
  cases g
  subst h
  rfl

theorem gangs_id (s : State) (u : Nat) : (s.modGang u id).gangs = s.gangs := by simp [State.modGang, modWhere]

theorem Gang.data_fields {g g' : Gang} (h : g'.data = g.data) :
    g'.v = g.v ∧ g'.s = g.s ∧ g'.p = g.p ∧ g'.busy = g.busy ∧ g'.uid = g.uid ∧ g'.live = g.live ∧ g'.active = g.active := by
  refine ⟨?_, ?_, ?_, ?_, ?_, ?_, ?_⟩
  · have := congrArg Gang.v h; exact this
  · have := congrArg Gang.s h; exact this
  · have := congrArg Gang.p h; exact this
  · have := congrArg Gang.busy h; exact this
  · have := congrArg Gang.uid h; exact this
  · have := congrArg Gang.live h; exact this
  · have := congrArg Gang.active h; exact this

theorem Gang.data_late {g g' : Gang} (h : g'.data = g.data) : g'.lateStores = g.lateStores := by
  have := congrArg Gang.lateStores h; exact this

theorem Gang.reach_data {g g' : Gang} (h : g'.data = g.data) (uni : Bool) (e : LaneMask) : g'.reach uni e = g.reach uni e := by
  simp only [Gang.reach, (Gang.data_fields h).2.2.2.2.2.1]

@[simp] theorem Gang.reach_none (g : Gang) (uni : Bool) : g.reach uni 0#32 = 0#32 := by
  cases uni <;> simp [Gang.reach]

@[simp] theorem Gang.reach_lanes (g : Gang) (e : LaneMask) : g.reach false e = e := by simp [Gang.reach]

theorem WroteD.none (g g' : Gang) (uni wide : Bool) (d : Dst) (f : Nat → W64) (hg : g'.data = g.data) :
    WroteD g g' uni wide 0#32 d f := by
  obtain ⟨hv, hs, -, hb, -⟩ := Gang.data_fields hg
  cases d with
  | v n =>
    refine ⟨by rw [hg, hv]; rfl, ?_⟩
    split <;> (intro m l _; simp [Gang.vAt, hv])
  | s n => exact ⟨by rw [hg, hs]; rfl, by simp [hs]⟩
  | q n => exact by rw [WroteD, hg, hb, Gang.data_late hg]; rfl
  | zero => exact hg

/-- What is written is the same seen from gangs with equal registers. -/
theorem WroteD.congr {g1 g2 g g' : Gang} {uni wide : Bool} {e : LaneMask} {d : Dst} {f : Nat → W64}
    (h : WroteD g1 g2 uni wide e d f) (h1 : g1.data = g.data) (h2 : g'.data = g2.data) : WroteD g g' uni wide e d f := by
  obtain ⟨v1, s1, -⟩ := Gang.data_fields h1
  obtain ⟨v2, s2, -, b2, -⟩ := Gang.data_fields h2
  cases d with
  | v n =>
    refine ⟨by rw [h2, h.1, h1, v2], ?_⟩
    have := h.2
    rw [Gang.reach_data h1] at this
    split <;> rename_i hw <;> simp only [hw, Bool.false_eq_true, ↓reduceIte] at this <;>
      (intro m l hl; simpa [Gang.vAt, v1, v2] using this m l hl)
  | s n =>
    refine ⟨by rw [h2, h.1, h1, s2], ?_⟩
    have := h.2
    split <;> rename_i hw <;> simp only [hw, ↓reduceIte] at this
    · rw [s2, this, s1]
    · intro m; rw [s2, this m, s1]
  | q n => rw [WroteD, h2, show g2.data = _ from h, h1, b2, Gang.data_late h2]
  | zero => rw [WroteD, h2, show g2.data = _ from h, h1]

theorem lead_low (h : Hdr) (e : LaneMask) : lead h e (lowLane e) = lowLane e := by unfold lead; split <;> rfl

theorem lead_lead (h : Hdr) (e : LaneMask) (l : Nat) : lead h e (lead h e l) = lead h e l := by
  unfold lead; split <;> rfl

theorem WroteD.ext {g g' : Gang} {uni wide : Bool} {e : LaneMask} {d : Dst} {f f' : Nat → W64}
    (w : WroteD g g' uni wide e d f) (h1 : ∀ l, f (if uni then lowLane e else l) = f' (if uni then lowLane e else l))
    (h2 : f (lowLane e) = f' (lowLane e)) : WroteD g g' uni wide e d f' := by
  cases d with
  | v n =>
    refine ⟨w.1, ?_⟩
    have := w.2
    simp only [h1] at this
    exact this
  | s n => exact ⟨w.1, by have := w.2; rwa [h2] at this⟩
  | q n => exact w
  | zero => exact w

theorem lanes_none {s : State} {c : Ctx} {h : Hdr} {p : State} {srcs : List Src} {os : List Opnd} (he : s.lanesFor c h = 0#32)
    (hp : s.operands c h srcs = .ok (os, p)) : p = s.issuing c h := by
  simp only [State.operands, he, ↓reduceIte] at hp; cases hp; rfl

theorem lanes_some {s : State} {c : Ctx} {h : Hdr} {p : State} {srcs : List Src} {os : List Opnd} (he : s.lanesFor c h ≠ 0#32)
    (hp : s.operands c h srcs = .ok (os, p)) : popAll c srcs (s.issuing c h) = .ok (os, p) := by
  simpa only [State.operands, he, ↓reduceIte] using hp

/-- The law of a word that pops its sources once any lane is enabled and then writes `f` to one destination. -/
theorem dstWord_completes {kind : WordKind} {h : Hdr} {us : List Use} {body : State → Ctx → LaneMask → M State} {s p u : State}
    {c : Ctx} {srcs : List Src} {os : List Opnd} {uni wide : Bool} {lat : Nat} {d : Dst} {f : Nat → W64} (hk : kind ≠ .matrix)
    (w : Issues s c h us) (hp : s.operands c h srcs = .ok (os, p))
    (hu : p.delivers c (s.lanesFor c h) d (f (lowLane (s.lanesFor c h))) = .ok u)
    (h0 : s.lanesFor c h = 0#32 → body (s.issuing c h) c (s.lanesFor c h) = .ok (s.issuing c h))
    (h1 : s.lanesFor c h ≠ 0#32 → popAll c srcs (s.issuing c h) = .ok (os, p) →
      body (s.issuing c h) c (s.lanesFor c h) = p.writeDst c uni wide lat (s.lanesFor c h) d f) :
    ∃ t g', runWord kind h us body s = .next t ∧ Completed s u t c g' ∧ (u.gang? c.uid).map (·.busy) = some g'.busy ∧
      WroteD c.gang g' uni wide (s.lanesFor c h) d f := by
  by_cases he : s.lanesFor c h = 0#32
  · have hu' : p = u := by
      unfold State.delivers at hu
      split at hu
      · simp only [he, ↓reduceIte] at hu; cases hu; rfl
      · cases hu; rfl
    subst hu'
    have hpe := lanes_none he hp
    subst hpe
    obtain ⟨t, g', ht, hc, hs⟩ := word_completes (F := id) hk w (h0 he) (gangs_id _ _).symm fun g => ⟨rfl, rfl, rfl⟩
    have hd : g'.data = c.gang.data := hs.data.trans (Gang.past_data ..)
    refine ⟨t, g', ht, hc, ?_, ?_⟩
    · rw [State.issuing, State.gang?_advance w.gang, if_pos rfl, Option.map_some, (Gang.data_fields hd).2.2.2.1,
        (Gang.data_fields (Gang.past_data c.gang c s.word)).2.2.2.1]
    · rw [he]; exact WroteD.none _ _ _ _ _ _ hd
  · have hop := lanes_some he hp
    have hpg := popAll_gangs hop
    have hg1 : (s.issuing c h).gang? c.uid = some (c.gang.past c s.word) := by
      rw [State.issuing, State.gang?_advance w.gang, if_pos rfl]
    have hb := h1 he hop
    by_cases hq : ∃ n, d = .q n
    · obtain ⟨n, rfl⟩ := hq
      have hu' : p.pushQ c (slicesIn (s.lanesFor c h)) n (f (lowLane (s.lanesFor c h))) = .ok u := by
        simpa only [State.delivers, he, ↓reduceIte] using hu
      obtain ⟨B, L, S, hB⟩ := pushQ_gangs hu'
      have hb' : body (s.issuing c h) c (s.lanesFor c h) = .ok u := by
        rw [hb]
        have : (s.lanesFor c h == 0#32) = false := by simpa using he
        simp only [State.writeDst, this, Bool.false_eq_true, ↓reduceIte, hu']
      obtain ⟨t, g', ht, hc, hs⟩ := word_completes (F := fun g =>
        { g with busy := B g.busy, lateStores := L g.lateStores, seen := S g.seen }) hk w hb'
        (by rw [hB]; simp [State.modGang, hpg]) fun g => ⟨rfl, rfl, rfl⟩
      refine ⟨t, g', ht, hc, ?_, ?_⟩
      · rw [State.gang?_congr hB,
          State.gang?_modGang p c.uid c.uid (fun g => { g with busy := B g.busy, lateStores := L g.lateStores, seen := S g.seen })
            fun _ => rfl, if_pos rfl,
          State.gang?_congr hpg, hg1]
        exact congrArg some (Gang.data_fields hs.data).2.2.2.1.symm
      · have e1 := hs.data
        have e2 : ({ c.gang.past c s.word with
              busy := B (c.gang.past c s.word).busy, lateStores := L (c.gang.past c s.word).lateStores
              seen := S (c.gang.past c s.word).seen } : Gang).data =
            { c.gang.data with busy := B (c.gang.past c s.word).busy, lateStores := L (c.gang.past c s.word).lateStores } := by
          rw [← Gang.past_data c.gang c s.word]; rfl
        rw [WroteD, e1, (Gang.data_fields e1).2.2.2.1, Gang.data_late e1, e2]
    · have hd : ∀ n, d ≠ .q n := fun n hn => hq ⟨n, hn⟩
      have hu' : p = u := by
        cases d with
        | q n => exact absurd rfl (hd n)
        | _ => cases hu; rfl
      subst hu'
      obtain ⟨F, hF, hW, hk'⟩ := writeDst_plain (p := p) (c := c) (uni := uni) (wide := wide) (lat := lat) (f := f) hd he
      obtain ⟨t, g', ht, hc, hs⟩ := word_completes (F := F) hk w (hb.trans hF) (by simp [State.modGang, hpg])
        fun g => ⟨(hk' g).1, (hk' g).2.1, (hk' g).2.2.2⟩
      have hp1 : p.gang? c.uid = some (c.gang.past c s.word) := (State.gang?_congr hpg _).trans hg1
      refine ⟨t, g', ht, ⟨hc.rest, ⟨hc.gang.1, fun v hv => ?_⟩, hc.slices, hc.traps⟩, ?_, ?_⟩
      · rw [hc.gang.2 v hv, State.gang?_modGang _ _ _ _ fun g => (hk' g).2.2.2, if_neg hv]
      · rw [hp1, Option.map_some, (Gang.data_fields hs.data).2.2.2.1, (hk' _).2.2.1]
      · exact (hW _ (Gang.data_fields (Gang.past_data c.gang c s.word)).2.2.2.2.2.1).congr (Gang.past_data ..) hs.data

/-- The law of a word that works lane by lane. -/
theorem laneWord_result {i : Instr} {h : Hdr} {lat : Nat} {srcs : List (Src × Bool)} {extra : List Use} {d : Dst} {wide : Bool}
    {f : State → Ctx → Nat → List W64 → W64} (hi : ∀ s, exec i s = laneWord h lat srcs extra d wide f s) :
    LaneResult i h srcs extra d wide f := by
  intro s c os p u w hp hu
  obtain ⟨t, g', ht, hc, hb, hw⟩ := dstWord_completes (body := laneBody h lat srcs d wide f) (uni := h.uni) (wide := wide) (lat := lat)
    (f := fun l => f p c (lead h (s.lanesFor c h) l) (p.vals c srcs os (lead h (s.lanesFor c h) l))) quiet_ne w hp
    (by simpa only [lead_low] using hu) (fun he => by simp only [laneBody, he, BEq.rfl, ↓reduceIte]; rfl) fun he hop => by
      have : (s.lanesFor c h == 0#32) = false := by simpa using he
      simp only [laneBody, this, Bool.false_eq_true, ↓reduceIte, hop]; rfl
  refine ⟨t, g', (hi s).trans ht, hc, hb, hw.ext (fun l => ?_) ?_⟩
  · simp only [show (if h.uni = true then lowLane (s.lanesFor c h) else l) = lead h (s.lanesFor c h) l from rfl, lead_lead]
  · simp only [lead_low]

theorem writePred_some {p : State} {c : Ctx} {uni : Bool} {lat pd : Nat} {e : LaneMask} {f : Nat → Bool} (he : e ≠ 0#32) :
    p.writePred c uni lat e pd f = p.modGang c.uid fun g =>
      g.putP p.clock lat pd c.grp.slices ((lanesOf e).map fun l => (l, if uni then f (lowLane e) else f l)) := by
  have : (e == 0#32) = false := by simpa using he
  simp only [State.writePred, this, Bool.false_eq_true, ↓reduceIte]

theorem Gang.putP_keeps (g : Gang) (clock lat n : Nat) (ks : List Nat) (vals : List (Nat × Bool)) :
    (g.putP clock lat n ks vals).slices = g.slices ∧ (g.putP clock lat n ks vals).groups = g.groups ∧
      (g.putP clock lat n ks vals).uid = g.uid := by
  unfold Gang.putP; split <;> exact ⟨rfl, rfl, rfl⟩

theorem WroteP.none (g g' : Gang) (n : Nat) (f : Nat → Bool) (hp : g'.p = g.p) : WroteP g g' n 0#32 f := by
  intro m l _; simp [hp]

/-- The law of a word that works lane by lane and writes a predicate. -/
theorem lanePred_result {i : Instr} {h : Hdr} {lat : Nat} {srcs : List (Src × Bool)} {extra : List Use} {pd : Nat}
    {f : State → Ctx → Nat → List W64 → Bool} (hi : ∀ s, exec i s = lanePred h lat srcs extra pd f s) :
    PredResult i h srcs extra pd f := by
  intro s c os p w hp
  have hpast := Gang.past_data c.gang c s.word
  by_cases he : s.lanesFor c h = 0#32
  · have hpe := lanes_none he hp
    subst hpe
    have hb : predBody h lat srcs pd f (s.issuing c h) c (s.lanesFor c h) = .ok (s.issuing c h) := by
      simp only [predBody, he, BEq.rfl, ↓reduceIte]; rfl
    obtain ⟨t, g', ht, hc, hs⟩ := word_completes (F := id) quiet_ne w hb (gangs_id _ _).symm fun g => ⟨rfl, rfl, rfl⟩
    have hd : g'.data = c.gang.data := hs.data.trans hpast
    have e := (Gang.data_fields hd).2.2.1
    exact ⟨t, g', (hi s).trans ht, hc, by rw [hd, e]; rfl, by rw [he]; exact WroteP.none _ _ _ _ e⟩
  · have hop := lanes_some he hp
    have hpg := popAll_gangs hop
    have hb : predBody h lat srcs pd f (s.issuing c h) c (s.lanesFor c h) =
        .ok (p.writePred c h.uni lat (s.lanesFor c h) pd fun l =>
          f p c (lead h (s.lanesFor c h) l) (p.vals c srcs os (lead h (s.lanesFor c h) l))) := by
      have : (s.lanesFor c h == 0#32) = false := by simpa using he
      simp only [predBody, this, Bool.false_eq_true, ↓reduceIte, hop]; rfl
    rw [writePred_some he] at hb
    have hk := fun g : Gang => Gang.putP_keeps g p.clock lat pd c.grp.slices ((lanesOf (s.lanesFor c h)).map fun l =>
      (l, if h.uni then f p c (lead h (s.lanesFor c h) (lowLane (s.lanesFor c h)))
        (p.vals c srcs os (lead h (s.lanesFor c h) (lowLane (s.lanesFor c h)))) else
        f p c (lead h (s.lanesFor c h) l) (p.vals c srcs os (lead h (s.lanesFor c h) l))))
    obtain ⟨t, g', ht, hc, hs⟩ := word_completes quiet_ne w hb (by simp [State.modGang, hpg]) hk
    refine ⟨t, g', (hi s).trans ht, ⟨hc.rest, ⟨hc.gang.1, fun v hv => ?_⟩, hc.slices, hc.traps⟩, ?_, ?_⟩
    · rw [hc.gang.2 v hv, State.gang?_modGang _ _ _ _ fun g => (hk g).2.2, if_neg hv]
    · have e1 := hs.data
      have e2 := (Gang.data_fields e1).2.2.1
      rw [Gang.putP_data] at e1
      rw [e1, hpast]
      exact congrArg (fun x => ({ c.gang.data with p := x } : Gang)) e2.symm
    · intro m l hl
      have e2 := (Gang.data_fields hs.data).2.2.1
      rw [e2, (c.gang.past c s.word).putP_wrote p.clock lat pd c.grp.slices (s.lanesFor c h) _ m l hl,
        (Gang.data_fields hpast).2.2.1]
      simp only [lead_low]
      congr 1
      unfold lead
      cases h.uni <;> rfl

/-- A word whose body pops its operands and then changes its gang alone. -/
theorem plain_completes {kind : WordKind} {h : Hdr} {us : List Use} {body : State → Ctx → LaneMask → M State} {s p : State} {c : Ctx}
    {F : Gang → Gang} (hk : kind ≠ .matrix) (w : Issues s c h us)
    (hb : body (s.issuing c h) c (s.lanesFor c h) = .ok (p.modGang c.uid F))
    (hp : p.gangs = (s.issuing c h).gangs)
    (hF : ∀ g, (F g).slices = g.slices ∧ (F g).groups = g.groups ∧ (F g).uid = g.uid) :
    ∃ t g', runWord kind h us body s = .next t ∧ Completed s p t c g' ∧ g'.data = (F (c.gang.past c s.word)).data := by
  obtain ⟨t, g', ht, hc, hs⟩ := word_completes hk w hb (by simp [State.modGang, hp]) hF
  refine ⟨t, g', ht, ⟨hc.rest, ⟨hc.gang.1, fun v hv => ?_⟩, hc.slices, hc.traps⟩, hs.data⟩
  rw [hc.gang.2 v hv, State.gang?_modGang _ _ _ _ fun g => (hF g).2.2, if_neg hv]

/-- The law of a cross-lane word. -/
theorem crossWord_result {i : Instr} {h : Hdr} {wideD wideA : Bool} {d : Dst} {a : Nat} {srcs : List Src}
    {f : State → Ctx → LaneMask → List Opnd → Nat → W64} (hi : ∀ s, exec i s = crossWord h wideD wideA d a srcs f s) :
    CrossResult i h wideD wideA d a srcs f := by
  intro s c os p u w hp hu
  obtain ⟨t, g', ht, hc, hb, hw⟩ := dstWord_completes (body := crossBody wideD wideA d srcs f) (uni := false) (wide := wideD)
    (lat := latency 8 (wideD || wideA)) (f := f p c (s.lanesFor c h) os) cross_ne w hp hu
    (fun he => by simp only [crossBody, he, BEq.rfl, ↓reduceIte]; rfl) fun he hop => by
      have : (s.lanesFor c h == 0#32) = false := by simpa using he
      simp only [crossBody, this, Bool.false_eq_true, ↓reduceIte, hop]; rfl
  exact ⟨t, g', (hi s).trans ht, hc, hb, hw⟩

end Sys2Proof.Machine
end

