-- ==== Sys2Proof/Laws/Memory.lean ====
section
/-! SUPPORT. The canonical form of memory: every operation that writes memory keeps it, and the memory of a reset has it. What a
write at a home, an attribute update and a run of bytes change besides memory. -/

namespace Sys2Proof.Machine

/-! A write at a home (R154, R156). -/

/-- A home's write changes memory, the line's version and owner and the values kept for R85, and nothing else. -/
theorem homeWrite_only (s : State) (line : Nat) (bs : List (Nat × Byte)) :
    s.homeWrite line bs =
      { s with mem := (s.homeWrite line bs).mem, vers := (s.homeWrite line bs).vers,
               owners := (s.homeWrite line bs).owners, writes := (s.homeWrite line bs).writes } := by
  unfold State.homeWrite; split <;> rfl

theorem homeWrite_mem (s : State) (line : Nat) (bs : List (Nat × Byte)) :
    (s.homeWrite line bs).mem = bs.foldl (fun m x => m.write (line + x.1) x.2) s.mem := by
  cases bs <;> rfl

theorem homeWrite_wf {s : State} (h : s.mem.wf = true) (line : Nat) (bs : List (Nat × Byte)) :
    (s.homeWrite line bs).mem.wf = true := by
  rw [homeWrite_mem]; exact Memory.wf_foldWrite line bs h

/-- A byte that a home's write does not name reads as before. -/
theorem homeWrite_read_of_notMem (s : State) (line : Nat) (bs : List (Nat × Byte)) (a : Nat) (ha : ∀ x ∈ bs, line + x.1 ≠ a) :
    (s.homeWrite line bs).mem.read a = s.mem.read a := by
  rw [homeWrite_mem]; exact Memory.read_foldWrite_of_notMem line bs s.mem a ha

/-- A byte that a home's write names once reads as written. -/
theorem homeWrite_read_of_mem (s : State) (line : Nat) (bs : List (Nat × Byte)) (hn : (bs.map Prod.fst).Nodup) {i : Nat} {b : Byte}
    (hm : (i, b) ∈ bs) : (s.homeWrite line bs).mem.read (line + i) = b := by
  rw [homeWrite_mem]; exact Memory.read_foldWrite_of_mem line bs s.mem hn hm

/-- The version of a line rises by one for each write that is not empty, and no other line's does. -/
theorem homeWrite_version (s : State) (line x : Nat) (bs : List (Nat × Byte)) :
    (s.homeWrite line bs).version x = s.version x + if bs ≠ [] ∧ x = line then 1 else 0 := by
  cases bs with
  | nil => simp [State.homeWrite]
  | cons b rest =>
    by_cases hx : x = line
    · simp [State.homeWrite, State.version, hx]
    · simp [State.homeWrite, State.version, hx, Ne.symm hx]

/-- A fold of writes keeps what each write keeps. -/
theorem foldl_keeps {α β : Type} (P : α → Prop) (f : α → β → α) (hf : ∀ a b, P a → P (f a b)) (xs : List β) {a : α} (h : P a) :
    P (xs.foldl f a) := by
  induction xs generalizing a with
  | nil => exact h
  | cons x rest ih => exact ih (hf a x h)

theorem homeBytes_wf {s : State} (h : s.mem.wf = true) (a : Nat) (bs : List Byte) : (s.homeBytes a bs).mem.wf = true :=
  foldl_keeps (fun s : State => s.mem.wf = true) _ (fun _ _ h => homeWrite_wf h _ _) _ h

/-! Attribute bits and translation (R388). -/

/-- An attribute update sets the bits of one byte. -/
theorem setAttr_read (s : State) (ent a : Nat) (bits : Byte) :
    (s.setAttr ent bits).mem.read a = if a = ent then s.mem.read ent ||| bits else s.mem.read a := by
  have hl : lineOf ent + ent % 128 = ent := by unfold lineOf alignDown; omega
  unfold State.setAttr
  by_cases hb : (s.mem.read ent &&& bits == bits) = true
  · rw [if_pos hb]
    by_cases ha : a = ent
    · subst ha
      rw [if_pos rfl]
      have h := eq_of_beq hb
      apply BitVec.eq_of_getLsbD_eq
      intro i hi
      have := congrArg (fun x => x.getLsbD i) h
      simp only [BitVec.getLsbD_and, BitVec.getLsbD_or] at this ⊢
      revert this
      cases (s.mem.read a).getLsbD i <;> cases bits.getLsbD i <;> simp
    · rw [if_neg ha]
  · rw [if_neg hb, homeWrite_mem]
    simp only [List.foldl_cons, List.foldl_nil, Memory.read_write, hl]
    by_cases ha : a = ent
    · simp [ha]
    · simp [ha, Ne.symm ha]

theorem setAttr_wf {s : State} (h : s.mem.wf = true) (ent : Nat) (bits : Byte) : (s.setAttr ent bits).mem.wf = true := by
  unfold State.setAttr
  dsimp only
  split
  · exact h
  · exact homeWrite_wf h _ _

theorem setAttr_gangs (s : State) (ent : Nat) (bits : Byte) : (s.setAttr ent bits).gangs = s.gangs := by
  unfold State.setAttr
  dsimp only
  split
  · rfl
  · rw [homeWrite_only]

theorem signal_mem (s : State) (core n al : Nat) : (s.signal core n al).mem = s.mem := by
  unfold State.signal; split <;> rfl

theorem foldAttr_wf {s : State} (h : s.mem.wf = true) (es : List Nat) (b : Byte) :
    (es.foldl (fun s e => s.setAttr e b) s).mem.wf = true :=
  foldl_keeps (fun s : State => s.mem.wf = true) _ (fun _ _ h => setAttr_wf h _ _) es h

/-- A walk sets A bits, and keeps memory in its form. -/
theorem lookup_wf {s t : State} {unit al va : Nat} {e : Tlb} (hs : s.mem.wf = true) (h : s.lookup unit al va = .ok (e, t)) :
    t.mem.wf = true := by
  unfold State.lookup at h
  split at h
  · cases h
  · split at h
    · cases h; exact hs
    · split at h
      · cases h
      · cases h; simp only [signal_mem]; exact foldAttr_wf hs _ _

/-- A translation may set attribute bits, and keeps memory in its form. -/
theorem translate_wf {s t : State} {unit al va pa : Nat} {need : Need} (hs : s.mem.wf = true)
    (h : s.translate unit al va need = .ok (pa, t)) : t.mem.wf = true := by
  unfold State.translate at h
  split at h
  · cases h
  · rename_i e u hu
    have wu := lookup_wf hs hu
    split at h
    · cases h
    · dsimp only at h
      split at h
      · cases h
        dsimp only
        split <;> exact foldAttr_wf wu _ _
      · cases h; exact wu

/-- Metering moves no byte. -/
theorem meterBytes_mem (s : State) (al line n : Nat) (wr : Bool) : (s.meterBytes al line n wr).mem = s.mem := by
  unfold State.meterBytes State.meter
  split <;> split <;> rfl

theorem moduleWrite_wf {s : State} (h : s.mem.wf = true) (al va : Nat) (bs : List Byte) : (s.moduleWrite al va bs).mem.wf = true := by
  refine foldl_keeps (fun s : State => s.mem.wf = true) _ (fun u x hu => ?_) _ h
  split
  · rename_i hx
    split
    · exact hu
    · rw [meterBytes_mem]; exact homeWrite_wf (translate_wf hu hx) _ _
  · exact hu

theorem hostWrite_wf {s : State} (h : s.mem.wf = true) (al a : Nat) (bs : List Byte) : (s.hostWrite al a bs).mem.wf = true := by
  refine foldl_keeps (fun s : State => s.mem.wf = true) _ (fun u x hu => ?_) _ h
  unfold State.hostRun
  split
  · exact hu
  · split
    · exact hu
    · dsimp only
      refine homeWrite_wf ?_ _ _
      split
      · exact hu
      · split
        · exact setAttr_wf hu _ _
        · exact setAttr_wf hu _ _

/-- Isalon's copy of a capsule in the retention region keeps memory in its form. -/
theorem putRegion_wf {s : State} (h : s.mem.wf = true) (bs : List Byte) : (s.putRegion bs).mem.wf = true := by
  unfold State.putRegion
  dsimp only
  rw [List.foldr_eq_foldl_reverse]
  exact foldl_keeps (fun m : Memory => m.wf = true) _ (fun _ _ hm => Memory.wf_write hm _ _) _ (Memory.wf_filter h _)

/-! Resets and placing a word. -/

theorem reset_wf : State.reset.mem.wf = true := rfl

theorem coldReset_wf (s : State) : s.coldReset.mem.wf = true := rfl

theorem warmReset_wf {s : State} (h : s.mem.wf = true) : s.warmReset.mem.wf = true := Memory.wf_filter h _

theorem withWord_wf {s : State} (h : s.mem.wf = true) (w : Nat) : (s.withWord w).mem.wf = true :=
  Memory.wf_writeN _ (Memory.wf_writeN _ (Memory.wf_writeN _ (Memory.wf_writeN _ h _) _) _) _

end Sys2Proof.Machine
end

