-- ==== Sys2Proof/Laws/Values.lean ====
section
/-! SUPPORT. Values that words compute: the integer readings and the wrapping of results, as bit vectors. -/

namespace Sys2Proof.Machine

theorem signedOf_eq (w n : Nat) : signedOf w n = (BitVec.ofNat w n).toInt := by
  rw [BitVec.toInt_eq_toNat_cond, BitVec.toNat_ofNat]
  unfold signedOf
  simp only
  cases w with
  | zero => simp [Nat.mod_one]
  | succ w =>
    have : (2 * (n % 2 ^ (w + 1)) < 2 ^ (w + 1)) ↔ (n % 2 ^ (w + 1) < 2 ^ w) := by rw [Nat.pow_succ]; omega
    simp only [this, Nat.add_sub_cancel]

theorem wrapTo_eq (w : Nat) (i : Int) : wrapTo w i = (BitVec.ofInt w i).toNat := by simp [wrapTo, BitVec.toNat_ofInt]

theorem bits_pos (t : IntTy) : 0 < t.bits := by cases t <;> decide

theorem bits_le (t : IntTy) : t.bits ≤ 64 := by cases t <;> decide

/-- A value at the width of a type as a 64-bit one. -/
theorem ofNat_toNat {w : Nat} (x : BitVec w) : BitVec.ofNat 64 x.toNat = x.setWidth 64 := by
  apply BitVec.eq_of_toNat_eq; simp

/-- A result is its low w bits, zero above them (R99). -/
theorem intWrap_eq (t : IntTy) (i : Int) : intWrap t i = (BitVec.ofInt t.bits i).setWidth 64 := by
  rw [intWrap, wrapTo_eq, ofNat_toNat]

/-- An operand as a signed or an unsigned number of its type's width (R99). -/
theorem intVal_eq (t : IntTy) (x : W64) :
    intVal t x = if t.signed then (x.setWidth t.bits).toInt else ((x.setWidth t.bits).toNat : Int) := by
  unfold intVal
  split
  · rw [signedOf_eq]; congr 1; apply BitVec.eq_of_toNat_eq; simp
  · simp

/-- Either reading of an operand stands for the same low bits. -/
theorem ofInt_intVal (t : IntTy) (x : W64) : BitVec.ofInt t.bits (intVal t x) = x.setWidth t.bits := by
  rw [intVal_eq]
  split
  · exact BitVec.ofInt_toInt
  · apply BitVec.eq_of_toNat_eq; simp only [BitVec.toNat_ofInt, BitVec.toNat_setWidth]
    rw [← Int.natCast_emod, Int.toNat_natCast, Nat.mod_mod]

theorem intLow_eq (t : IntTy) (x : W64) : intLow t x = (x.setWidth t.bits).setWidth 64 := by
  rw [intLow, ← ofNat_toNat, BitVec.toNat_setWidth]

/-- An immediate is sign-extended to the type's width (R51). -/
theorem immVal_eq (t : IntTy) (imm : BitVec 27) : immVal t imm = (imm.signExtend t.bits).setWidth 64 := by
  rw [immVal, intWrap_eq, signedOf_eq, BitVec.ofNat_toNat, BitVec.setWidth_eq]; congr 1

theorem setWidth_out (t : IntTy) (x : BitVec t.bits) : (x.setWidth 64).setWidth t.bits = x := by
  apply BitVec.eq_of_toNat_eq
  have := x.isLt
  have h : 2 ^ t.bits ≤ 2 ^ 64 := Nat.pow_le_pow_right (by decide) (bits_le t)
  simp only [BitVec.toNat_setWidth]
  rw [Nat.mod_eq_of_lt (Nat.lt_of_lt_of_le this h), Nat.mod_eq_of_lt this]

/-- The value of an immediate at its width. -/
theorem immVal_low (t : IntTy) (imm : BitVec 27) : (immVal t imm).setWidth t.bits = imm.signExtend t.bits := by
  rw [immVal_eq, setWidth_out]

/-! Sums and products at the type's width. -/

theorem intAdd_eq (t : IntTy) (a b : W64) :
    intAdd t false a b = (a.setWidth t.bits + b.setWidth t.bits).setWidth 64 := by
  simp only [intAdd, Bool.false_eq_true, ↓reduceIte, intWrap_eq, BitVec.ofInt_add, ofInt_intVal]

theorem intSub_eq (t : IntTy) (a b : W64) :
    intSub t false a b = (a.setWidth t.bits - b.setWidth t.bits).setWidth 64 := by
  simp only [intSub, Bool.false_eq_true, ↓reduceIte, intWrap_eq, Int.sub_eq_add_neg, BitVec.ofInt_add, BitVec.ofInt_neg,
    ofInt_intVal, BitVec.sub_eq_add_neg]

theorem intMul_eq (t : IntTy) (a b : W64) : intMul t a b = (a.setWidth t.bits * b.setWidth t.bits).setWidth 64 := by
  simp only [intMul, intWrap_eq, BitVec.ofInt_mul, ofInt_intVal]

theorem intMad_eq (t : IntTy) (a b c : W64) :
    intMad t a b c = (a.setWidth t.bits * b.setWidth t.bits + c.setWidth t.bits).setWidth 64 := by
  simp only [intMad, intWrap_eq, BitVec.ofInt_add, BitVec.ofInt_mul, ofInt_intVal]

theorem intNeg_eq (t : IntTy) (a : W64) : intNeg t a = (-(a.setWidth t.bits)).setWidth 64 := by
  simp only [intNeg, intWrap_eq, BitVec.ofInt_neg, ofInt_intVal]

end Sys2Proof.Machine
end

