-- ==== Sys2Proof/Tests/Slice0.lean ====
section
/-! SUPPORT. The model's own tests: words written out from the spec's encodings decode to their instructions; ill-formed terms are
refused; for every statement with hypotheses, states that meet them (`test_met_<statement>`); results of single instructions. -/

set_option Elab.async false

open Sys2Proof Sys2Proof.Machine

namespace Sys2Proof.Tests

/-- A full word with guard p7 and S, P, U, N zero, from the fields of R46: guard at 57, OP at 48, SUB at 45, D at 36,
A at 27, B at 18, C at 9, M at 0. -/
def full (op sub d a b c m : Nat) : W64 :=
  BitVec.ofNat 64 (7 * 2 ^ 57 + op * 2 ^ 48 + sub * 2 ^ 45 + d * 2 ^ 36 + a * 2 ^ 27 + b * 2 ^ 18 + c * 2 ^ 9 + m)

/-- The immediate form (R50): IMM at 0. -/
def fullImm (op sub d a imm : Nat) : W64 := full op sub d a 0 0 imm

/-- The memory form (R50): L at 23, O at 14, DISP at 7, M at 0. -/
def fullMem (op sub d a l o disp m : Nat) : W64 :=
  full op sub d a 0 0 (l * 2 ^ 23 + o * 2 ^ 14 + disp * 2 ^ 7 + m)

/-- The matrix form (R50): T at 24, QM at 20, AF at 16, BF at 12, M at 0. -/
def fullMat (op sub d a t qm af bf m : Nat) : W64 :=
  full op sub d a 0 0 (t * 2 ^ 24 + qm * 2 ^ 20 + af * 2 ^ 16 + bf * 2 ^ 12 + m)

/-- The branch form (R50): RO at 27, TO at 0. -/
def fullBr (op ro dest : Nat) : W64 := full op 0 0 ro 0 0 dest

/-- A half (R61): ROP at 24, HD at 17, HS at 10, HG at 7, HM at 0. -/
def halfBits (op d s g m : Nat) : Nat := op * 2 ^ 24 + d * 2 ^ 17 + s * 2 ^ 10 + g * 2 ^ 7 + m

/-- A paired word (R45, R61): P at 62, half 1 at 31, half 0 at 0. -/
def paired (h0 h1 : Nat) : W64 := BitVec.ofNat 64 (2 ^ 62 + h1 * 2 ^ 31 + h0)

/-- The guard p7, no bit set. -/
def g7 : Hdr := ⟨false, false, false, 7⟩

/-- The same with the uniform bit. -/
def g7u : Hdr := ⟨false, true, false, 7⟩

/-- Bit 61, U. -/
def uBit : W64 := BitVec.ofNat 64 (2 ^ 61)

/-- The word decodes to the instruction, the instruction encodes to the word, and it is well formed. -/
def reads (x : W64 × Instr) : Bool :=
  (match decode x.1 with | .ok i => decide (i = x.2) | .error _ => false) && encode x.2 == some x.1 && WellFormed x.2

/-- The word fails decode with the cause and the field. -/
def fails (w : W64) (cause fld : Nat) : Bool :=
  match decode w with | .ok _ => false | .error e => e.cause == cause && e.fld == fld

/-- The words the spec works out: after R60, R75 and R64, and the examples of its chapters on the line registers'
siblings, the scratchpad, views, launches and drills. -/
theorem test_words_of_the_spec :
    ([(0x0E20002E28000001, .addImm g7 .i32 (.v 2) .laneid 1),
      (0x2E2DB83C08000002, .shlImm g7u .n64 (.s 3) (.s 1) 2),
      (0x0E3A002E28000020, .setpEqImm g7 .i32 2 .laneid 32),
      (0xC10617C002082780, .pairAdd true ⟨4, 9, 7, 0⟩ ⟨.add, ⟨6, 11, 7, 0⟩⟩),
      (0x0ED15C4008090000, .sts g7 .b32 (.v 1) 128 2),
      (0x0F10188C27138800, .vreg g7 8 4),
      (0x0F111C4C47138800, .vdrop g7 8),
      (0x0F12003050710007, .vopen g7 0 3 7 (.v 10)),
      (0x0F201C0E27138800, .qbindDrill g7 0),
      (0x0F211C0C57138800, .qpush g7 0 (.s 10)),
      (0x0F233C4E27138803, .qfenceWait g7 3),
      (0x0F30189C47138800, .launch g7 9 8),
      (0x0F3118AC4F138800, .cread g7 .launch (.s 10) 9),
      (0x0F33002020141000, .amsend g7 2 (.v 4) (.v 5) 8)] : List (W64 × Instr)).all reads = true := by
  decide +kernel

/-- The spec's failing words: the all-zero word (field C does not hold 452), the shift without its uniform bit (R60),
the add with D = 0x1F0 (after R75). -/
theorem test_failing_words_of_the_spec :
    (fails 0 0x04 fC && fails (0x2E2DB83C08000002 ^^^ uBit) 0x0A fD && fails 0x0E201F0E28000001 0x04 fD) = true := by
  decide +kernel

/-- Majors 0x000 to 0x01A (R66, R100 to R104): type in SUB, 452 in unused fields. -/
theorem test_words_int :
    ([(full 0x000 0 1 2 3 452 0, .add g7 .i32 false (.v 1) (.v 2) (.v 3)),
      (full 0x000 0 1 2 3 452 1, .add g7 .i32 true (.v 1) (.v 2) (.v 3)),
      (full 0x001 1 1 2 384 452 1, .sub g7 .n32 true (.v 1) (.v 2) (.s 0)),
      (full 0x002 1 1 2 452 452 0, .mul g7 .n32 (.v 1) (.v 2) .zero),
      (full 0x003 4 2 4 6 452 0, .mulh g7 .i64 (.v 2) (.v 4) (.v 6)),
      (full 0x004 5 2 4 6 8 0, .mad g7 .n64 (.v 2) (.v 4) (.v 6) (.v 8)),
      (full 0x005 0 1 453 454 452 0, .min g7 .i32 (.v 1) .laneid .sliceid),
      (full 0x006 1 1 455 456 452 0, .max g7 .n32 (.v 1) .gangid .blockid),
      (full 0x007 0 1 457 452 452 0, .abs g7 .i32 (.v 1) .popid),
      (full 0x008 0 1 458 452 452 0, .neg g7 .i32 (.v 1) .lineage),
      (full 0x009 2 1 459 2 452 0, .and g7 .b32 (.v 1) .clk (.v 2)),
      (full 0x00A 6 382 2 4 452 0, .or g7 .b64 (.v 382) (.v 2) (.v 4)),
      (full 0x00B 2 448 2 3 452 0, .xor g7 .b32 (.q 0) (.v 2) (.v 3)),
      (full 0x00C 2 452 2 452 452 0, .not g7 .b32 .zero (.v 2))] : List (W64 × Instr)).all reads = true := by
  decide +kernel

theorem test_words_int_shifts :
    ([(full 0x00D 2 1 2 3 452 0, .shl g7 .b32 (.v 1) (.v 2) (.v 3)),
      (full 0x00E 2 1 2 3 452 0, .shr g7 .b32 (.v 1) (.v 2) (.v 3)),
      (full 0x00F 2 1 2 3 452 0, .sar g7 .b32 (.v 1) (.v 2) (.v 3)),
      (full 0x010 2 1 2 3 452 0, .rot g7 .b32 (.v 1) (.v 2) (.v 3)),
      (full 0x011 2 1 2 452 452 0, .clz g7 .b32 (.v 1) (.v 2)),
      (full 0x012 2 1 2 452 452 0, .popc g7 .b32 (.v 1) (.v 2)),
      (full 0x013 2 1 2 452 452 0, .brev g7 .b32 (.v 1) (.v 2)),
      (full 0x014 2 1 2 3 452 0, .bfx g7 .b32 (.v 1) (.v 2) (.v 3)),
      (full 0x015 2 1 2 3 4 0, .bfi g7 .b32 (.v 1) (.v 2) (.v 3) (.v 4)),
      (full 0x016 2 1 2 3 5 0, .sel g7 .b32 (.v 1) (.v 2) (.v 3) 5),
      (full 0x017 0 6 2 3 452 2, .setp g7 .i32 .lt 6 (.v 2) (.v 3)),
      (full 0x018 2 1 447 452 452 0, .mov g7 .b32 (.v 1) (.s 63)),
      (full 0x019 6 2 4 3 452 7, .lea g7 .b64 7 (.v 2) (.v 4) (.v 3)),
      (full 0x01A 0 2 1 452 452 8, .cvt g7 .i32 .f32 .rne false (.v 2) (.v 1)),
      (full 0x01A 4 1 2 452 452 (9 + 64), .cvt g7 .i64 .i8 .rne true (.v 1) (.v 2)),
      (full 0x01A 0 1 2 452 452 (8 + 48), .cvt g7 .i32 .f32 .rd false (.v 1) (.v 2)),
      (full 0x000 0 387 384 385 452 0 ||| uBit, .add g7u .i32 false (.s 3) (.s 0) (.s 1))] :
      List (W64 × Instr)).all reads = true := by
  decide +kernel

/-- Majors 0x020 to 0x03F, the immediate form (R66, R100 to R103). -/
theorem test_words_int_imm :
    ([(fullImm 0x020 0 1 2 0x7FFFFFF, .addImm g7 .i32 (.v 1) (.v 2) 0x7FFFFFF),
      (fullImm 0x021 0 1 2 5, .subImm g7 .i32 (.v 1) (.v 2) 5),
      (fullImm 0x022 0 1 2 5, .mulImm g7 .i32 (.v 1) (.v 2) 5),
      (fullImm 0x025 0 1 2 5, .minImm g7 .i32 (.v 1) (.v 2) 5),
      (fullImm 0x026 0 1 2 5, .maxImm g7 .i32 (.v 1) (.v 2) 5),
      (fullImm 0x029 2 1 2 5, .andImm g7 .b32 (.v 1) (.v 2) 5),
      (fullImm 0x02A 2 1 2 5, .orImm g7 .b32 (.v 1) (.v 2) 5),
      (fullImm 0x02B 2 1 2 5, .xorImm g7 .b32 (.v 1) (.v 2) 5),
      (fullImm 0x02D 2 1 2 31, .shlImm g7 .b32 (.v 1) (.v 2) 31),
      (fullImm 0x02E 6 2 4 63, .shrImm g7 .b64 (.v 2) (.v 4) 63),
      (fullImm 0x02F 0 1 2 31, .sarImm g7 .i32 (.v 1) (.v 2) 31),
      (fullImm 0x030 2 1 2 31, .rotImm g7 .b32 (.v 1) (.v 2) 31),
      (fullImm 0x034 2 1 2 0xFFFF, .bfxImm g7 .b32 (.v 1) (.v 2) 0xFFFF),
      (fullImm 0x038 0 1 452 0x7FFFFFF, .movi g7 .i32 (.v 1) 0x7FFFFFF),
      (fullImm 0x038 2 1 452 0xFFFF, .moviHi g7 (.v 1) 0xFFFF),
      (fullImm 0x039 6 2 4 5, .leaImm g7 .b64 (.v 2) (.v 4) 5),
      (fullImm 0x03B 0 1 2 5, .setpNeImm g7 .i32 1 (.v 2) 5),
      (fullImm 0x03C 0 1 2 5, .setpLtImm g7 .i32 1 (.v 2) 5),
      (fullImm 0x03D 0 1 2 5, .setpLeImm g7 .i32 1 (.v 2) 5),
      (fullImm 0x03E 0 1 2 5, .setpGtImm g7 .i32 1 (.v 2) 5),
      (fullImm 0x03F 1 2 1 128, .setpGeImm g7 .n32 2 (.v 1) 128)] : List (W64 × Instr)).all reads = true := by
  decide +kernel

/-- Predicates (R105) and FP32 (R107 to R110, R261). -/
theorem test_words_pred_float :
    ([(full 0x040 0 1 2 3 452 0, .pand g7 false false 1 2 3),
      (full 0x041 0 1 2 3 452 1, .por g7 true false 1 2 3),
      (full 0x042 0 1 2 3 452 2, .pxor g7 false true 1 2 3),
      (full 0x043 0 1 2 452 452 1, .pnot g7 true 1 2),
      (full 0x044 0 1 2 452 452 0, .pmov g7 false 1 2),
      (full 0x060 0 1 2 3 452 0, .fadd g7 .rne (.v 1) (.v 2) (.v 3)),
      (full 0x061 1 1 2 3 452 0, .fsub g7 .rz (.v 1) (.v 2) (.v 3)),
      (full 0x062 2 1 2 3 452 0, .fmul g7 .ru (.v 1) (.v 2) (.v 3)),
      (full 0x063 3 1 2 3 4 0, .ffma g7 .rd (.v 1) (.v 2) (.v 3) (.v 4)),
      (full 0x064 0 1 2 3 452 0, .fmin g7 (.v 1) (.v 2) (.v 3)),
      (full 0x065 0 1 2 3 452 0, .fmax g7 (.v 1) (.v 2) (.v 3)),
      (full 0x066 0 1 2 452 452 0, .frcp g7 .rne (.v 1) (.v 2)),
      (full 0x067 0 1 2 452 452 0, .frsq g7 .rne (.v 1) (.v 2)),
      (full 0x068 0 1 2 452 452 0, .fsqrt g7 .rne (.v 1) (.v 2)),
      (full 0x069 0 1 2 452 452 0, .fexp2 g7 .rne (.v 1) (.v 2)),
      (full 0x06A 0 1 2 452 452 0, .flog2 g7 .rne (.v 1) (.v 2)),
      (full 0x06B 0 1 2 452 452 0, .fsin g7 .rne (.v 1) (.v 2)),
      (full 0x06C 0 1 2 452 452 0, .fcos g7 .rne (.v 1) (.v 2)),
      (full 0x06D 0 1 2 3 452 7, .fsetp g7 .nan 1 (.v 2) (.v 3)),
      (full 0x06E 1 1 2 452 452 (4 + 16), .fcvt g7 .rz .toF16 true (.v 1) (.v 2)),
      (full 0x06F 3 1 2 452 452 0, .frnd g7 .rd (.v 1) (.v 2)),
      (full 0x070 0 1 2 3 4 6, .fdot g7 .rne .i8 (.v 1) (.v 2) (.v 3) (.v 4)),
      (fullImm 0x078 0 1 2 5, .faddImm g7 .rne (.v 1) (.v 2) 5),
      (fullImm 0x079 0 1 2 5, .fsubImm g7 .rne (.v 1) (.v 2) 5),
      (fullImm 0x07A 0 1 2 5, .fmulImm g7 .rne (.v 1) (.v 2) 5),
      (fullImm 0x07B 0 1 2 5, .fminImm g7 (.v 1) (.v 2) 5),
      (fullImm 0x07C 0 1 2 5, .fmaxImm g7 (.v 1) (.v 2) 5)] : List (W64 × Instr)).all reads = true := by
  decide +kernel

/-- Cross-lane (R112, R113) and control (R116 to R124). -/
theorem test_words_lanes_control :
    ([(full 0x0A0 3 1 2 3 452 0, .shfl g7 .xor false (.v 1) 2 (.v 3)),
      (full 0x0A0 0 2 4 3 452 1, .shfl g7 .idx true (.v 2) 4 (.v 3)),
      (fullImm 0x0A8 1 2 4 (31 + 32), .shflImm g7 .up true (.v 2) 4 31),
      (full 0x0A1 1 1 2 452 452 0, .vote g7 .all 1 2),
      (full 0x0A1 3 9 2 452 452 0, .voteBallot g7 9 2),
      (full 0x0A2 1 1 2 452 452 0, .matchv g7 true 1 2),
      (full 0x0A3 7 1 2 452 452 0, .redux g7 .xor (.v 1) 2),
      (full 0x0A4 0 1 2 3 452 0, .bcast g7 false (.v 1) 2 (.v 3)),
      (full 0x0A4 1 2 4 452 452 1, .bcastLow g7 true (.v 2) 4),
      (fullBr 0x0B0 0 0x7FFFFFF, .br g7 0x7FFFFFF),
      (fullBr 0x0B1 0x3FFFF 5, .bra g7 5 0x3FFFF),
      (full 0x0B2 0 452 384 452 452 0, .jmpi g7 (.s 0)),
      (fullBr 0x0B3 0 5, .call g7 5),
      (full 0x0B4 0 452 2 452 452 0, .calli g7 (.v 2)),
      (full 0x0B5 0 452 452 452 452 0, .ret g7),
      (full 0x0B6 0 452 452 452 452 0, .regang g7),
      (full 0x0B7 0 452 452 452 452 0, .land g7),
      (full 0x0B8 0 452 452 452 452 0, .exit g7),
      (full 0x0B9 0 452 452 452 452 0, .cede g7),
      (full 0x0BA 0 452 452 452 452 0, .nop g7),
      (full 0x0BB 0 3 2 452 452 15, .tryw g7 3 15 (.v 2))] : List (W64 × Instr)).all reads = true := by
  decide +kernel

/-- Lines (R78 to R95), the scratchpad (R190 to R193), atomics (R207), synchronisation (R197). -/
theorem test_words_memory :
    ([(fullMem 0x0C0 0 3 10 15 452 0 0, .openR g7 15 3 (.v 10)),
      (fullMem 0x0C0 1 3 384 1 452 0 0, .openw g7 1 3 (.s 0)),
      (fullMem 0x0C0 2 3 10 1 452 0 0, .openz g7 1 3 (.v 10)),
      (fullMem 0x0C0 3 3 10 1 452 0 0, .openInv g7 1 3 (.v 10)),
      (fullMem 0x0C1 0 452 452 2 452 0 0, .reopen g7 2),
      (fullMem 0x0C2 0 452 452 2 452 0 0, .close g7 2),
      (fullMem 0x0C3 4 4 452 2 5 127 0, .ld g7 .b128 4 2 (.v 5) 127),
      (fullMem 0x0C3 6 4 452 2 453 1 0, .ld g7 .i16 4 2 .laneid 1),
      (fullMem 0x0C4 2 452 4 2 452 8 0, .st g7 .b32 4 2 .zero 8),
      (fullMem 0x0C5 0 4 452 2 452 0 0, .lprobe g7 4 2),
      (full 0x0D0 5 1 2 452 511 0, .lds g7 .i8 (.v 1) (.v 2) 511),
      (full 0x0D2 2 1 2 452 8 3, .ldsr g7 .b32 (.v 1) 3 (.v 2) 8),
      (full 0x0D3 2 452 2 3 8 3, .stsr g7 .b32 3 (.v 2) 8 3),
      (full 0x0D4 0 1 2 3 452 (6 + 24), .swz g7 (.v 1) (.v 2) (.v 3) 6 3),
      (full 0x0E0 7 2 4 3 452 (0 + 448), .atom g7 .system .add .n32 2 7 (.v 4) (.v 3) .zero),
      (full 0x0E0 2 2 4 6 8 (10 + 32 + 64), .atom g7 .block .cas .n64 2 1 (.v 4) (.v 6) (.v 8)),
      (full 0x0E1 3 452 4 3 452 (11 + 448), .red g7 .core .fadd .n32 (.v 4) (.v 3) .zero),
      (full 0x0F0 0 452 2 127 511 0, .barInit g7 false (.v 2) (.imm 0xFFFF)),
      (full 0x0F0 0 452 2 3 452 (8 + 16), .barInit g7 true (.v 2) (.reg (.v 3))),
      (full 0x0F1 2 452 2 452 452 0, .barArr g7 .block none (.v 2)),
      (full 0x0F1 3 452 2 452 452 (4 + 3), .barArr g7 .core (some 3) (.v 2)),
      (full 0x0F2 2 452 2 452 452 0, .barWait g7 .block none (.v 2)),
      (full 0x0F3 2 1 2 3 452 0, .barTry g7 .block none 1 (.v 2) (.v 3)),
      (full 0x0F4 0 452 452 452 452 0, .fence g7 .slice),
      (full 0x0F5 5 452 452 452 452 0, .pub g7 .die),
      (full 0x0F6 6 452 452 452 452 0, .acq g7 .device)] : List (W64 × Instr)).all reads = true := by
  decide +kernel

/-- Matrix (R250) and views (R271). -/
theorem test_words_matrix_views :
    ([(fullMat 0x100 0 4 8 7 15 4 4 1, .mma g7 true 15 4 4 7 4 8),
      (fullMat 0x101 0 4 2 0 1 0 0 128, .mld g7 false true 1 0 4 (.v 2)),
      (fullMat 0x101 0 4 2 0 1 15 0 64, .mld g7 true false 1 15 4 (.v 2)),
      (fullMat 0x101 1 4 452 0 15 0 0 9, .mldV g7 4 9),
      (fullMat 0x102 0 4 2 0 3 6 0 (5 + 24), .mldt g7 false false 3 6 5 3 4 (.v 2)),
      (fullMat 0x103 0 4 2 0 3 8 0 (3 * 256), .mldr g7 false false 3 8 3 4 (.v 2)),
      (fullMat 0x104 0 452 2 5 2 0 0 0, .mst g7 2 5 (.v 2)),
      (fullMat 0x105 0 452 452 5 2 0 0 0, .tzero g7 2 5),
      (fullMat 0x106 0 4 452 5 2 0 0 0, .tmovToVreg g7 2 4 5),
      (fullMat 0x106 1 452 4 5 2 0 0 0, .tmovFromVreg g7 2 5 4),
      (fullMat 0x106 2 452 452 5 2 0 0 3, .tmovTile g7 2 5 3),
      (fullMat 0x107 0 4 452 5 2 7 0 0, .tcvt g7 2 7 4 5),
      (fullMat 0x108 0 452 384 0 0 0 0 0, .fmtset g7 (.s 0)),
      (fullMat 0x109 0 4 452 0 0 0 0 0, .fmtget g7 4),
      (full 0x113 0 2 388 3 452 0, .vtagTag g7 (.v 2) 4 (.v 3)),
      (full 0x113 1 2 388 3 452 0, .vtagGen g7 (.v 2) 4 (.v 3)),
      (full 0x114 0 1 388 3 5 0, .vsync g7 1 4 (.v 3) (.v 5))] : List (W64 × Instr)).all reads = true := by
  decide +kernel

/-- Queues (R325), work (R313, R283), system and debug (R142 to R145, R372), privileged words (R355). -/
theorem test_words_queues_system :
    ([(full 0x120 1 449 452 452 452 0, .qbindHarrow g7 1),
      (full 0x120 2 451 452 452 452 0, .qbindNone g7 3),
      (full 0x122 0 2 450 452 452 0, .qpop g7 (.v 2) 2),
      (full 0x122 1 386 450 452 452 0, .qpopStat g7 (.s 2) 2),
      (full 0x123 0 452 452 452 452 15, .qfence g7 15),
      (full 0x131 3 2 388 452 452 0, .cread g7 .job (.v 2) 4),
      (full 0x132 1 452 388 452 452 0, .cancel g7 .graph 4),
      (full 0x134 0 1 2 452 452 0, .resamp g7 1 (.v 2)),
      (full 0x140 0 452 2 452 452 255, .trap g7 (.v 2) 255),
      (full 0x141 0 452 452 452 452 0, .tret g7),
      (full 0x141 1 452 452 452 452 0, .tretSkip g7),
      (full 0x142 0 2 452 0x1B2 452 0, .sread g7 (.v 2) 0x1B2),
      (full 0x143 0 452 2 0x010 452 0, .swrite g7 0x010 (.v 2)),
      (full 0x144 0 452 452 452 452 0, .halt g7),
      (full 0x145 0 452 452 452 452 7, .brk g7 7),
      (full 0x146 0 452 384 452 452 9, .mark g7 9 (.s 0)),
      (full 0x150 0 1 385 386 452 0, .placeld g7 1 1 2),
      (full 0x151 0 1 385 386 452 0, .quota g7 1 1 2),
      (full 0x152 0 1 385 452 452 0, .fallowHalt g7 1 1),
      (full 0x152 1 1 385 452 452 0, .fallowResume g7 1 1),
      (full 0x152 2 1 385 452 452 0, .fallowStart g7 1 1),
      (full 0x152 3 1 385 452 452 0, .fallowStop g7 1 1),
      (full 0x143 0 452 2 0x180 452 0, .trmaskWrite g7 (.v 2)),
      (full 0x143 0 452 2 0x184 452 0, .freezeWrite g7 (.v 2)),
      (full 0x143 0 452 2 0x08F 452 0, .shoot1Write g7 (.v 2)),
      (full 0x143 0 452 2 0x1B0 452 0, .shoot2Write g7 (.v 2)),
      (full 0x143 0 452 2 0x08E 452 0, .pt1Write g7 (.v 2)),
      (full 0x143 0 452 2 0x1AF 452 0, .pt2Write g7 15 (.v 2)),
      (full 0x143 0 452 2 0x086 452 0, .virqWrite g7 (.v 2)),
      (full 0x143 0 452 2 0x1B2 452 0, .warmWrite g7 (.v 2))] : List (W64 × Instr)).all reads = true := by
  decide +kernel

/-- Paired words: each restricted opcode in half 0 (R65); half 1 is `nop`, HG 0 to 7. -/
theorem test_words_paired :
    ([(paired 0 0, .pairNop false ⟨0, 0, 0, 0⟩ ⟨.nop, ⟨0, 0, 0, 0⟩⟩),
      (paired (halfBits 0x01 1 2 0 0) 0, .pairMov false ⟨1, 2, 0, 0⟩ ⟨.nop, ⟨0, 0, 0, 0⟩⟩),
      (paired (halfBits 0x02 1 2 7 0) (halfBits 0x22 127 0 1 127), .pairAdd false ⟨1, 2, 7, 0⟩ ⟨.addI, ⟨127, 0, 1, 127⟩⟩),
      (paired (halfBits 0x03 1 2 7 0) 0, .pairSub false ⟨1, 2, 7, 0⟩ ⟨.nop, ⟨0, 0, 0, 0⟩⟩),
      (paired (halfBits 0x04 1 2 7 0) 0, .pairMul false ⟨1, 2, 7, 0⟩ ⟨.nop, ⟨0, 0, 0, 0⟩⟩),
      (paired (halfBits 0x05 1 2 7 0) 0, .pairMinI32 false ⟨1, 2, 7, 0⟩ ⟨.nop, ⟨0, 0, 0, 0⟩⟩),
      (paired (halfBits 0x06 1 2 7 0) 0, .pairMaxI32 false ⟨1, 2, 7, 0⟩ ⟨.nop, ⟨0, 0, 0, 0⟩⟩),
      (paired (halfBits 0x07 1 2 7 0) 0, .pairMinN32 false ⟨1, 2, 7, 0⟩ ⟨.nop, ⟨0, 0, 0, 0⟩⟩),
      (paired (halfBits 0x08 1 2 7 0) 0, .pairMaxN32 false ⟨1, 2, 7, 0⟩ ⟨.nop, ⟨0, 0, 0, 0⟩⟩),
      (paired (halfBits 0x09 1 2 7 0) 0, .pairAnd false ⟨1, 2, 7, 0⟩ ⟨.nop, ⟨0, 0, 0, 0⟩⟩),
      (paired (halfBits 0x0A 1 2 7 0) 0, .pairOr false ⟨1, 2, 7, 0⟩ ⟨.nop, ⟨0, 0, 0, 0⟩⟩),
      (paired (halfBits 0x0B 1 2 7 0) 0, .pairXor false ⟨1, 2, 7, 0⟩ ⟨.nop, ⟨0, 0, 0, 0⟩⟩),
      (paired (halfBits 0x0C 1 2 7 0) 0, .pairShl false ⟨1, 2, 7, 0⟩ ⟨.nop, ⟨0, 0, 0, 0⟩⟩),
      (paired (halfBits 0x0D 1 2 7 0) 0, .pairShr false ⟨1, 2, 7, 0⟩ ⟨.nop, ⟨0, 0, 0, 0⟩⟩),
      (paired (halfBits 0x0E 1 2 7 0) 0, .pairSar false ⟨1, 2, 7, 0⟩ ⟨.nop, ⟨0, 0, 0, 0⟩⟩),
      (paired (halfBits 0x10 1 2 7 0) 0, .pairFadd false ⟨1, 2, 7, 0⟩ ⟨.nop, ⟨0, 0, 0, 0⟩⟩),
      (paired (halfBits 0x11 1 2 7 0) 0, .pairFsub false ⟨1, 2, 7, 0⟩ ⟨.nop, ⟨0, 0, 0, 0⟩⟩),
      (paired (halfBits 0x12 1 2 7 0) 0, .pairFmul false ⟨1, 2, 7, 0⟩ ⟨.nop, ⟨0, 0, 0, 0⟩⟩),
      (paired (halfBits 0x13 1 2 7 0) 0, .pairFmin false ⟨1, 2, 7, 0⟩ ⟨.nop, ⟨0, 0, 0, 0⟩⟩),
      (paired (halfBits 0x14 1 2 7 0) 0, .pairFmax false ⟨1, 2, 7, 0⟩ ⟨.nop, ⟨0, 0, 0, 0⟩⟩)] :
      List (W64 × Instr)).all reads = true := by
  decide +kernel

theorem test_words_paired_imm :
    ([(paired (halfBits 0x20 1 0 7 64) 0, .pairMovi false ⟨1, 0, 7, 64⟩ ⟨.nop, ⟨0, 0, 0, 0⟩⟩),
      (paired (halfBits 0x22 1 0 7 64) 0, .pairAddImm false ⟨1, 0, 7, 64⟩ ⟨.nop, ⟨0, 0, 0, 0⟩⟩),
      (paired (halfBits 0x23 1 0 7 64) 0, .pairSubImm false ⟨1, 0, 7, 64⟩ ⟨.nop, ⟨0, 0, 0, 0⟩⟩),
      (paired (halfBits 0x29 1 0 7 64) 0, .pairAndImm false ⟨1, 0, 7, 64⟩ ⟨.nop, ⟨0, 0, 0, 0⟩⟩),
      (paired (halfBits 0x2A 1 0 7 64) 0, .pairOrImm false ⟨1, 0, 7, 64⟩ ⟨.nop, ⟨0, 0, 0, 0⟩⟩),
      (paired (halfBits 0x2B 1 0 7 64) 0, .pairXorImm false ⟨1, 0, 7, 64⟩ ⟨.nop, ⟨0, 0, 0, 0⟩⟩),
      (paired (halfBits 0x2C 1 0 7 31) 0, .pairShlImm false ⟨1, 0, 7, 31⟩ ⟨.nop, ⟨0, 0, 0, 0⟩⟩),
      (paired (halfBits 0x2D 1 0 7 31) 0, .pairShrImm false ⟨1, 0, 7, 31⟩ ⟨.nop, ⟨0, 0, 0, 0⟩⟩),
      (paired (halfBits 0x2E 1 0 7 31) 0, .pairSarImm false ⟨1, 0, 7, 31⟩ ⟨.nop, ⟨0, 0, 0, 0⟩⟩)] :
      List (W64 × Instr)).all reads = true := by
  decide +kernel

/-- Words that decode refuses, each with its cause and field (R73, R74): unassigned type, reserved modifier, operand
460, odd register of a pair, scalar without U, uniform bit on a control word, `nop` half not zero, shift half above 31. -/
theorem test_words_refused :
    (fails (full 0x000 3 1 2 3 452 0) 0x02 fSub &&
     fails (full 0x002 0 1 2 3 452 1) 0x03 fM && fails (full 0x000 0 1 460 3 452 0) 0x04 fA &&
     fails (full 0x000 4 1 2 4 452 0) 0x04 fD && fails (full 0x000 0 384 2 3 452 0) 0x0A fD &&
     fails (full 0x0B8 0 452 452 452 452 0 ||| uBit) 0x0B fU &&
     (match decode (paired 0 (halfBits 0x00 1 0 0 0)) with | .error e => e.cause == 0x03 && e.half == 1 | _ => false) &&
     (match decode (paired (halfBits 0x2C 1 0 7 32) 0) with | .error e => e.cause == 0x03 | _ => false)) = true := by
  decide +kernel

/-- Unassigned majors and restricted opcodes read as the one row that traps (R66, R65). -/
theorem test_words_unassigned :
    ([full 0x01B 0 1 2 3 452 0, paired (halfBits 0x0F 1 2 7 0) 0].all fun w =>
      match decode w with | .ok (.unassignedOpcode x) => x == w | _ => false) = true := by
  decide +kernel

/-- A guard field out of range. -/
def g8 : Hdr := ⟨false, false, false, 8⟩

/-- A negated guard p7. -/
def n7 : Hdr := ⟨false, false, true, 7⟩

/-- One ill-formed term for each check on headers, registers and operands. -/
theorem test_ill_formed_operands :
    ([.add g8 .i32 false (.v 1) (.v 2) (.v 3), .shfl g7u .idx false (.v 1) 2 (.v 3), .br g7u 0, .close g7u 0,
      .mma g7u false 15 0 0 0 0 4, .vdrop g7u 0, .add g7 .i32 false (.v 384) (.v 2) (.v 3),
      .add g7 .i32 false (.v 1) (.v 384) (.v 3), .add g7 .i64 false (.v 1) (.v 2) (.v 4),
      .add g7 .i64 false (.v 2) (.v 3) (.v 4), .add g7 .i32 false (.s 1) (.v 2) (.v 3),
      .add g7u .i32 false (.s 64) (.v 2) (.v 3), .add g7 .i32 false (.v 1) (.s 64) (.v 3),
      .add g7 .i32 false (.v 1) (.q 4) (.v 3), .add g7 .i32 false (.q 4) (.v 1) (.v 3),
      .mad g7 .i64 (.v 2) (.v 4) (.v 6) (.v 9), .sel g7 .i32 (.v 1) (.v 2) (.v 3) 8, .setp g7 .i32 .eq 8 (.v 1) (.v 2),
      .lea g7 .i64 0 (.v 1) (.v 2) (.v 3), .fadd g7u .rne (.s 1) (.v 2) (.v 3), .pand g7 false false 1 2 8,
      .pmov g7 false 8 0, .fsetp g7 .eq 8 (.v 1) (.v 2)] : List Instr).all (fun i => !WellFormed i) = true := by
  decide +kernel

/-- … on modifiers, immediates and modes. -/
theorem test_ill_formed_modifiers :
    ([.cvt g7 .i32 .i32 .rz false (.v 1) (.v 2), .cvt g7 .i32 .f32 .rne true (.v 1) (.v 2),
      .cvt g7 .i32 .i64 .rne false (.v 1) (.v 2), .shlImm g7 .b32 (.v 1) (.v 2) 32, .rotImm g7 .b64 (.v 2) (.v 4) 64,
      .bfxImm g7 .b32 (.v 1) (.v 2) 0x10000, .movi g7 .b32 (.v 1) 0, .movi g7 .b64 (.v 2) 0, .moviHi g7 (.v 1) 0x10000,
      .fcvt g7 .rne .toI32 true (.v 1) (.v 2), .fcvt g7 .rne .toI64 false (.v 1) (.v 2),
      .shfl g7 .idx true (.v 1) 2 (.v 3), .shflImm g7 .idx true (.v 2) 1 0, .vote g7 .any 8 0, .voteBallot g7 384 0,
      .matchv g7 true 1 3, .redux g7 .add (.v 1) 384, .regang ⟨false, false, false, 0⟩, .regang n7, .jmpi g7 .zero,
      .calli g7 (.v 1), .tryw g7 0 16 (.v 0)] : List Instr).all (fun i => !WellFormed i) = true := by
  decide +kernel

/-- … on lines, the scratchpad, atomics and synchronisation. -/
theorem test_ill_formed_memory :
    ([.openR g7 16 0 (.v 0), .openR g7 0 8 (.v 0), .openR g7 0 0 (.v 1), .reopen g7 16, .ld g7 .b64 1 0 .zero 0,
      .ld g7 .b128 2 0 .zero 0, .st g7 .i8 1 0 .zero 0, .st g7 .i16 1 0 .zero 0, .st g7 .b32 1 16 .zero 0,
      .lprobe g7 1 0, .lds g7 .b64 (.v 1) (.v 0) 0, .sts g7 .i8 (.v 0) 0 1, .ldsr g7 .b32 (.v 384) 0 (.v 0) 0,
      .stsr g7 .i16 0 (.v 0) 0 1, .swz g7 (.v 1) (.v 2) (.v 3) 1 0, .swz g7 (.v 1) (.v 2) (.v 3) 7 0,
      .swz g7 (.v 1) (.v 2) (.v 3) 2 4, .swz g7u (.s 1) (.v 2) (.v 3) 2 0,
      .atom g7 .slice .addb .n64 2 7 (.v 4) (.v 6) (.v 8), .atom g7 .slice .fadd .i32 2 7 (.v 4) (.v 6) .zero,
      .atom g7 .slice .add .n32 2 1 (.v 4) (.v 6) .zero, .atom g7 .slice .add .n32 2 7 (.v 4) (.v 6) (.v 1),
      .atom g7 .slice .add .n64 1 7 (.v 4) (.v 6) .zero, .red g7 .slice .add .n32 .zero (.v 6) .zero,
      .barInit g7 false (.v 384) (.imm 0), .barInit g7 false (.v 0) (.reg (.s 64)), .barArr g7 .slice none (.s 64),
      .barTry g7 .slice none 8 (.v 0) (.v 0), .fence g8 .slice] : List Instr).all (fun i => !WellFormed i) = true := by
  decide +kernel

/-- … on matrix, view, queue, work, system and privileged words, on paired words, and steps that are no word. -/
theorem test_ill_formed_rest :
    ([.mma g7 false 0 0 0 0 0 4, .mma g7 false 16 0 0 0 0 4, .mma g7 false 1 9 0 0 0 4, .mma g7 false 1 0 14 0 0 4,
      .mma g7 false 1 0 0 8 0 4, .mma g7 false 1 0 0 0 2 4, .mld g7 true false 1 0 4 (.v 0), .mldV g7 4 16,
      .mldt g7 false false 1 4 2 0 4 (.v 0), .mldt g7 false false 1 0 7 0 4 (.v 0), .mldr g7 false false 1 9 0 4 (.v 0),
      .mst g7 1 8 (.v 0), .tzero g7 0 0, .tmovToVreg g7 1 2 0, .tmovFromVreg g7 1 0 2, .tmovTile g7 1 0 8,
      .tcvt g7 1 8 4 0, .fmtset g7 .zero, .fmtget g7 384, .vreg g7 64 0, .vdrop g7 64, .vopen g7 0 0 8 (.v 0),
      .vtagTag g7 .zero 0 (.v 0), .vtagGen g7 (.v 1) 0 (.v 0), .vsync g7 8 0 (.v 0) (.v 0), .qbindDrill g7 4,
      .qpush g7 0 (.v 0), .qpop g7 (.q 0) 0, .qpop g7 (.v 1) 0, .qfence g7 0, .qfenceWait g7 0, .launch g7 64 0,
      .cread g7 .job .zero 0, .cancel g7 .job 64, .amsend g7 0 (.v 0) (.v 0) 2, .resamp g7 8 (.v 0),
      .trap g7 (.s 64) 0, .tret g8, .sread g7 .zero 0, .swrite g7 0x180 (.v 0), .swrite g7 0x1A7 (.v 0),
      .mark g7 0 .zero, .placeld g7 0 64 0, .quotaRelease g7 0 0 0, .fallowHalt g7 8 0,
      .pairNop false ⟨1, 0, 0, 0⟩ ⟨.nop, ⟨0, 0, 0, 0⟩⟩, .pairAdd false ⟨128, 0, 0, 0⟩ ⟨.nop, ⟨0, 0, 0, 0⟩⟩,
      .pairAdd false ⟨1, 2, 7, 1⟩ ⟨.nop, ⟨0, 0, 0, 0⟩⟩, .pairAddImm false ⟨1, 2, 7, 0⟩ ⟨.nop, ⟨0, 0, 0, 0⟩⟩,
      .pairMov false ⟨1, 2, 7, 0⟩ ⟨.shlI, ⟨1, 0, 7, 32⟩⟩, .trmaskWrite g7 .zero, .warmWrite g7 (.v 1), .coldReset,
      .epoch, .unassignedOpcode 0] : List Instr).all (fun i => !WellFormed i) = true := by
  decide +kernel

/-! States in which the statements' hypotheses hold. -/

/-- Reset with a gang of 32 lanes on core 0 (assumption 4) that is issuing a word. -/
def st0 : State := { State.reset.withWord 0 with cur := some ⟨0, 0, 0⟩, word := 0x0EBA001C47138800#64 }

/-- The group that issues. -/
def cx (s : State) : Ctx := (s.cur.bind s.ctx).getD default

/-- A state whose gangs are changed. -/
def onGang (s : State) (f : Gang → Gang) : State := { s with gangs := s.gangs.map f }

/-- A state whose blocks are changed. -/
def onBlock (s : State) (f : Block → Block) : State := { s with blocks := s.blocks.map f }

def issuesB (s : State) (h : Hdr) (us : List Use) : Bool :=
  (s.cur.bind s.ctx).isSome && us.all (fun u => (cx s).blk.k.declares u.reg) &&
    ((⟨fGuard, .p h.g⟩ :: us : List Use)).all fun u => !(cx s).gang.busy.contains u.reg

theorem issues_of {s : State} {h : Hdr} {us : List Use} (x : issuesB s h us = true) : Issues s (cx s) h us := by
  simp only [issuesB, Bool.and_eq_true, List.all_eq_true] at x
  obtain ⟨⟨a, b⟩, d⟩ := x
  refine ⟨?_, fun u hu => b u hu, fun u hu => by simpa using d u hu⟩
  unfold cx
  cases e : s.cur.bind s.ctx with
  | none => simp [e] at a
  | some c => rfl

/-- The hypotheses of `LaneResult`, `PredResult` and `CrossResult`, with a lane enabled; a destination that is no queue is
delivered whatever the result. -/
def Met (h : Hdr) (us : List Use) (srcs : List Src) : Prop :=
  ∃ s c os p, Issues s c h us ∧ s.lanesFor c h ≠ 0#32 ∧ s.operands c h srcs = .ok (os, p)

def metB (s : State) (h : Hdr) (us : List Use) (srcs : List Src) : Bool :=
  issuesB s h us && s.lanesFor (cx s) h != 0#32 &&
    match s.operands (cx s) h srcs with | .ok _ => true | .error _ => false

theorem met_of {s : State} {h : Hdr} {us : List Use} {srcs : List Src} (x : metB s h us srcs = true) : Met h us srcs := by
  simp only [metB, Bool.and_eq_true] at x
  obtain ⟨⟨a, b⟩, d⟩ := x
  cases e : s.operands (cx s) h srcs with
  | error _ => simp [e] at d
  | ok y => exact ⟨s, cx s, y.1, y.2, issues_of a, by simpa using b, e⟩

/-- A destination other than a queue takes any result. -/
theorem delivers_v (p : State) (c : Ctx) (e : LaneMask) (n : Nat) (x : W64) : p.delivers c e (.v n) x = .ok p := rfl

theorem delivers_s (p : State) (c : Ctx) (e : LaneMask) (n : Nat) (x : W64) : p.delivers c e (.s n) x = .ok p := rfl

theorem delivers_zero (p : State) (c : Ctx) (e : LaneMask) (x : W64) : p.delivers c e .zero x = .ok p := rfl

/-- The uses of an instruction with a destination and sources. -/
def usesOf (d : Dst) (wide : Bool) (srcs : List (Src × Bool)) (extra : List Use) : List Use :=
  d.uses wide ++ srcUses srcs ++ extra

theorem test_met_LaneResult3 (wide : Bool) :
    Met g7 (usesOf (.v 2) wide [(.v 4, wide), (.v 6, wide), (.s 3, wide)] []) [.v 4, .v 6, .s 3] := by
  refine met_of (s := st0) ?_; revert wide; decide +kernel

/-! One witness for the hypotheses of each statement, by the name of the statement or of its part. -/

/-- A guard p0, negated, with the uniform bit: enabled lanes wherever p0 is clear. -/
def n0u : Hdr := ⟨false, true, true, 0⟩

theorem test_met_IntegerArithmetic (t : IntTy) :
    Met g7 (usesOf (.v 2) t.wide [(.v 4, t.wide), (.v 6, t.wide), (.s 3, t.wide)] []) [.v 4, .v 6, .s 3] ∧
    Met n0u (usesOf (.s 5) t.wide [(.v 4, t.wide), (.v 6, t.wide)] []) [.v 4, .v 6] ∧
    Met g7 (usesOf .zero t.wide [(.laneid, t.wide)] []) [.laneid] := by
  refine ⟨met_of (s := st0) ?_, met_of (s := st0) ?_, met_of (s := st0) ?_⟩ <;> cases t <;> decide +kernel

theorem test_met_LogicShiftsAndMoves (t : IntTy) :
    Met g7 (usesOf (.v 2) t.wide [(.v 4, t.wide), (.v 6, t.wide)] []) [.v 4, .v 6] ∧
    Met g7 (usesOf (.v 2) t.wide [(.v 4, t.wide)] []) [.v 4] ∧
    (31#27).toNat < t.bits ∧
    Met g7 (usesOf (.v 2) t.wide [(.v 4, t.wide), (.v 6, t.wide)] [⟨fC, .p 3⟩]) [.v 4, .v 6] ∧
    Met g7 (usesOf (.v 2) t.wide [] []) [] ∧ Met g7 (usesOf (.v 2) t.wide [(.v 4, t.wide), (.v 6, false)] []) [.v 4, .v 6] := by
  refine ⟨met_of (s := st0) ?_, met_of (s := st0) ?_, ?_, met_of (s := st0) ?_, met_of (s := st0) ?_, met_of (s := st0) ?_⟩ <;>
    cases t <;> decide +kernel

theorem test_met_BitFields (t : IntTy) :
    Met g7 (usesOf (.v 2) t.wide [(.v 4, t.wide), (.v 6, t.wide), (.v 8, t.wide)] []) [.v 4, .v 6, .v 8] := by
  refine met_of (s := st0) ?_; cases t <;> decide +kernel

/-- The uses of a predicate result. -/
def usesOfP (pd : Nat) (srcs : List (Src × Bool)) (extra : List Use) : List Use := ⟨fD, .p pd⟩ :: srcUses srcs ++ extra

theorem test_met_IntegerComparisons (t : IntTy) :
    Met g7 (usesOfP 1 [(.v 4, t.wide), (.v 6, t.wide)] []) [.v 4, .v 6] ∧ Met g7 (usesOfP 7 [(.v 4, t.wide)] []) [.v 4] := by
  refine ⟨met_of (s := st0) ?_, met_of (s := st0) ?_⟩ <;> cases t <;> decide +kernel

theorem test_met_IntegerConversions (t : IntTy) (dt : CvtTy) :
    Met g7 (usesOf (.v 2) dt.wide [(.v 4, t.wide)] []) [.v 4] := by
  refine met_of (s := st0) ?_; cases t <;> cases dt <;> decide +kernel

theorem test_met_FloatArithmetic :
    Met g7 (usesOf (.v 2) false [(.v 4, false), (.v 6, false), (.v 8, false)] []) [.v 4, .v 6, .v 8] ∧
    Met g7 (usesOf (.v 2) false [(.v 4, false), (.v 6, false)] []) [.v 4, .v 6] ∧
    Met n0u (usesOf (.v 2) false [(.v 4, false)] []) [.v 4] := by
  refine ⟨met_of (s := st0) ?_, met_of (s := st0) ?_, met_of (s := st0) ?_⟩ <;> decide +kernel

theorem test_met_FloatOrder :
    Met g7 (usesOf (.v 2) false [(.v 4, false), (.v 6, false)] []) [.v 4, .v 6] ∧
    Met g7 (usesOfP 1 [(.v 4, false), (.v 6, false)] []) [.v 4, .v 6] := by
  refine ⟨met_of (s := st0) ?_, met_of (s := st0) ?_⟩ <;> decide +kernel

theorem test_met_ReciprocalsAndRoots : Met g7 (usesOf (.v 2) false [(.v 4, false)] []) [.v 4] := by
  refine met_of (s := st0) ?_; decide +kernel

theorem test_met_TranscendentalSpecialValues : Met n0u (usesOf (.v 2) false [(.s 4, false)] []) [.s 4] := by
  refine met_of (s := st0) ?_; decide +kernel

theorem test_met_FloatConversions (w : Bool) (t : IntTy) :
    Met g7 (usesOf (.v 2) w [(.v 4, false)] []) [.v 4] ∧ Met g7 (usesOf (.v 2) false [(.v 4, t.wide)] []) [.v 4] := by
  refine ⟨met_of (s := st0) ?_, met_of (s := st0) ?_⟩
  · revert w; decide +kernel
  · cases t <;> decide +kernel

theorem test_met_DotProducts : Met g7 (usesOf (.v 2) false [(.v 4, false), (.v 6, false), (.v 8, false)] []) [.v 4, .v 6, .v 8] := by
  refine met_of (s := st0) ?_; decide +kernel

theorem test_met_PredicateWords :
    Met g7 (usesOfP 1 [] [⟨fA, .p 2⟩, ⟨fB, .p 3⟩]) [] ∧ Met g7 (usesOfP 7 [] [⟨fA, .p 7⟩]) [] := by
  refine ⟨met_of (s := st0) ?_, met_of (s := st0) ?_⟩ <;> decide +kernel

/-- The uses of a word that reads across lanes. -/
def usesOfX (wideD wideA : Bool) (d a : Nat) (srcs : List Src) : List Use :=
  (Dst.v d).uses wideD ++ (Src.v a).uses fA wideA ++ srcs.flatMap fun x => x.uses fB false

theorem test_met_CrossLaneWords (w : Bool) :
    Met g7 (usesOfX w w 2 4 [.v 6]) [.v 6] ∧ Met g7 (usesOfX w w 2 4 []) [] ∧ Met g7 (usesOfX false w 3 4 []) [] := by
  refine ⟨met_of (s := st0) ?_, met_of (s := st0) ?_, met_of (s := st0) ?_⟩ <;> revert w <;> decide +kernel

theorem test_met_Votes :
    Issues st0 (cx st0) g7 [⟨fD, .p 1⟩, ⟨fA, .p 2⟩] ∧ Issues st0 (cx st0) g7 ((Dst.v 9).uses false ++ [⟨fA, .p 2⟩]) :=
  ⟨issues_of (by decide +kernel), issues_of (by decide +kernel)⟩

/-- For each source of `OperandValues`. -/
theorem test_met_OperandValues :
    g7.uni = false ∧ (cx st0).gang.shadows = [] ∧
    ∀ src ∈ [Src.v 4, .s 3, .zero, .laneid, .sliceid, .gangid, .blockid, .popid, .lineage, .clk],
      Issues st0 (cx st0) g7 (usesOf (.v 2) true [(src, true)] []) ∧ Issues st0 (cx st0) g7 (usesOf (.v 2) false [(src, false)] []) := by
  refine ⟨rfl, by decide +kernel, fun src hs => ?_⟩
  have : ([Src.v 4, .s 3, .zero, .laneid, .sliceid, .gangid, .blockid, .popid, .lineage, .clk]).all (fun src =>
      issuesB st0 g7 (usesOf (.v 2) true [(src, true)] []) && issuesB st0 g7 (usesOf (.v 2) false [(src, false)] [])) = true := by
    decide +kernel
  have := (List.all_eq_true.mp this) src hs
  simp only [Bool.and_eq_true] at this
  exact ⟨issues_of this.1, issues_of this.2⟩

/-- A drill queue bound to queue register 1, with two words on its return side and the start of a command in it. -/
def stQ : State :=
  let s := onGang st0 fun g => { g with qb := g.qb.set .none 1 (.drill 7) }
  { s with dbinds := [{ (default : DBind) with id := 7, ret := [5, 3], part := [0x10000#64] }] }

theorem test_met_QueueSources :
    Issues stQ (cx stQ) g7 (usesOf (.v 2) true [(.q 1, true), (.q 1, true)] []) ∧ stQ.lanesFor (cx stQ) g7 ≠ 0#32 ∧
    (cx stQ).gang.qbind 1 = .drill 7 ∧ (stQ.dbind? 7).map (·.ret) = some [5, 3] := by
  refine ⟨issues_of ?_, ?_⟩ <;> decide +kernel

theorem test_met_QueueDestinations :
    Issues stQ (cx stQ) g7 (usesOf (.q 1) true [(.clk, true)] []) ∧ stQ.lanesFor (cx stQ) g7 ≠ 0#32 ∧
    (cx stQ).gang.qbind 1 = .drill 7 ∧
    (stQ.dbind? 7).map (fun b => (b.part, decide (2 < cmdLength 0x10000#64), decide (b.buffered < 32))) =
      some ([0x10000#64], true, true) := by
  refine ⟨issues_of ?_, ?_⟩ <;> decide +kernel

theorem test_met_GuardedLanes : (cx st0).gang.shadows = [] := by decide +kernel

theorem test_met_EarlyReads :
    (cx st0).gang.shadows = [] ∧
    ∀ us ∈ [usesOf (.v 2) false [(.v 4, false), (.v 6, false)] [], usesOf (.v 2) true [(.v 4, true), (.v 6, true)] [],
      usesOf (.v 2) false [(.v 4, false)] [], (Dst.v 2).uses false ++ (Src.v 4).uses fA false ++ []],
      Issues st0 (cx st0) g7 us := by
  refine ⟨by decide +kernel, fun us hs => ?_⟩
  have : ([usesOf (.v 2) false [(.v 4, false), (.v 6, false)] [], usesOf (.v 2) true [(.v 4, true), (.v 6, true)] [],
      usesOf (.v 2) false [(.v 4, false)] [], (Dst.v 2).uses false ++ (Src.v 4).uses fA false ++ []]).all
      (issuesB st0 g7) = true := by decide +kernel
  exact issues_of ((List.all_eq_true.mp this) us hs)

/-- Guard p0. -/
def g0 : Hdr := ⟨false, false, false, 0⟩

/-- Slice 0 wholly enabled by p0, the other slices not at all; a CALL entry on its stack. -/
def stA : State := onGang st0 fun g =>
  { g.modSlice 0 fun x => { x with stack := [⟨false, 0x10040, 0, 0, 0xF, x.fmt⟩] } with p := g.p.set 0 0 0xF#32 }

/-- Lane 0 of slice 0 alone enabled by p0. -/
def stM : State := onGang st0 fun g => { g with p := g.p.set 0 0 1#32 }

/-- The same, with no room on the stack of slice 0. -/
def stF : State := onGang stM fun g => g.modSlice 0 fun x => { x with stack := List.replicate 16 ⟨true, 0, 0, 0, 0, x.fmt⟩ }

def onB (s : State) (h : Hdr) (k : Nat) : LaneMask := s.lanesFor (cx s) h &&& sliceMask k
def allB (s : State) (k : Nat) : LaneMask := (cx s).lanes &&& sliceMask k
def mixedB (s : State) (h : Hdr) (k : Nat) : Bool := onB s h k != 0#32 && onB s h k != allB s k
def fullB (s : State) (k : Nat) : Bool := decide (16 ≤ ((cx s).gang.slice k).stack.length)

/-- Both clauses: every slice all or none; a mixed slice. -/
theorem test_met_Branches :
    Issues stA (cx stA) g0 [] ∧ (∀ k ∈ (cx stA).grp.slices, onB stA g0 k = 0#32 ∨ onB stA g0 k = allB stA k) ∧
    onB stA g0 0 ≠ 0#32 ∧
    Issues stM (cx stM) g0 [] ∧ (cx stM).grp.slices.find? (fun k => onB stM g0 k != 0#32 && onB stM g0 k != allB stM k) = some 0 := by
  refine ⟨issues_of ?_, ?_, ?_, issues_of ?_, ?_⟩ <;> decide +kernel

/-- Both clauses: a mixed slice with room; a mixed slice without. -/
theorem test_met_DivergentBranches :
    Issues stM (cx stM) g0 [] ∧ (cx stM).grp.slices.Nodup ∧
    (∀ k ∈ (cx stM).grp.slices, ¬ (mixedB stM g0 k = true ∧ fullB stM k = true)) ∧ mixedB stM g0 0 = true ∧
    Issues stF (cx stF) g0 [] ∧ (cx stF).grp.slices.find? (fun k => mixedB stF g0 k && fullB stF k) = some 0 := by
  refine ⟨issues_of ?_, ?_, ?_, ?_, issues_of ?_, ?_⟩ <;> decide +kernel

theorem test_met_Calls :
    Issues stM (cx stM) g0 [] ∧ (∀ k, k < 8 → onB stM g0 k ≠ 0#32 → fullB stM k = false) ∧ onB stM g0 0 ≠ 0#32 ∧
    Issues stF (cx stF) g0 [] ∧ (List.range 8).find? (fun k => onB stF g0 k != 0#32 && fullB stF k) = some 0 := by
  refine ⟨issues_of ?_, ?_, ?_, issues_of ?_, ?_⟩ <;> decide +kernel

/-- Slice 0 returns, and slice 1 is enabled in part. -/
def stA1 : State := onGang stA fun g => { g with p := g.p.set 0 0 0x1F#32 }

/-- A slice that returns; one that is mixed, the first and the second of the group; an absent entry; a DIV entry. -/
theorem test_met_Returns :
    Issues stA (cx stA) g0 [] ∧
    (∀ k ∈ (cx stA).grp.slices, onB stA g0 k = 0#32 ∨ (onB stA g0 k = allB stA k ∧
      ((cx stA).gang.slice k).stack.any fun x => !x.div && x.outer &&& ~~~(sliceMask k) == 0#32) = true) ∧
    onB stA g0 0 ≠ 0#32 ∧
    (Issues stM (cx stM) g0 [] ∧ (cx stM).grp.slices = [] ++ 0 :: (List.range 7).map (· + 1) ∧ onB stM g0 0 ≠ 0#32 ∧
      onB stM g0 0 ≠ allB stM 0) ∧
    (Issues stA1 (cx stA1) g0 [] ∧ (cx stA1).grp.slices = [0] ++ 1 :: (List.range 6).map (· + 2) ∧
      (onB stA1 g0 0 = allB stA1 0 ∧ ((cx stA1).gang.slice 0).stack.head?.map (·.div) = some false) ∧ onB stA1 g0 1 ≠ 0#32 ∧
      onB stA1 g0 1 ≠ allB stA1 1) ∧
    (Issues st0 (cx st0) g7 [] ∧ onB st0 g7 0 = allB st0 0 ∧ onB st0 g7 0 ≠ 0#32 ∧ ((cx st0).gang.slice 0).stack = []) ∧
    (Issues stF (cx stF) g7 [] ∧ onB stF g7 0 = allB stF 0 ∧ ((cx stF).gang.slice 0).stack.head?.map (·.div) = some true) := by
  refine ⟨issues_of ?_, ?_, ?_, ⟨issues_of ?_, ?_⟩, ⟨issues_of ?_, ?_⟩, ⟨issues_of ?_, ?_⟩, issues_of ?_, ?_⟩ <;> decide +kernel

/-- The target that lane `l` would go to. -/
def goesTo (s : State) (h : Hdr) (a : Src) (l : Nat) : Nat := ((s.issuing (cx s) h).opVal (cx s) true ⟨a, none⟩ l).toNat

/-- v4 holds the address of a `land` in every lane; the word stands there and at 0x10018. -/
def stL : State :=
  let s := onGang st0 fun g => (List.range 32).foldl (fun (g : Gang) l => { g with v := g.v.set 0 (32 * 4 + l) 0x10008#32 }) g
  { s with mem := (s.mem.writeN 0x10008 (toBytes 8 0x0EB71C4E27138800)).writeN 0x10018 (toBytes 8 0x0EB71C4E27138800) }

def targetsOk (s : State) (h : Hdr) (a : Src) : Bool :=
  match checkTargets (cx s) (s.lanesFor (cx s) h) (goesTo s h a) (lanesOf (s.lanesFor (cx s) h)) (s.issuing (cx s) h) with
  | .ok _ => true
  | .error _ => false

theorem test_met_IndirectMoves :
    Issues stL (cx stL) g7 ((Src.v 4).uses fA true) ∧ targetsOk stL g7 (.v 4) = true ∧
    (∀ k ∈ (cx stL).grp.slices, onB stL g7 k = 0#32 ∨ onB stL g7 k = allB stL k) ∧
    (∀ k, k < 8 → onB stL g7 k ≠ 0#32 → ((cx stL).gang.slice k).stack.length < 16) ∧ onB stL g7 0 ≠ 0#32 := by
  refine ⟨issues_of ?_, ?_⟩ <;> decide +kernel

/-- Lane 1 goes elsewhere than lane 0, which has passed: its word is no `land`, or it is one at another address. -/
def stLN (addr : BitVec 32) : State := onGang stL fun g => { g with v := g.v.set 0 (32 * 4 + 1) addr }

def firstOk (s : State) (h : Hdr) (a : Src) : Bool :=
  match checkTargets (cx s) (s.lanesFor (cx s) h) (goesTo s h a) [0] (s.issuing (cx s) h) with
  | .ok p => match p.fetchAddr (cx s).core (cx s).al (goesTo s h a 1) with
    | some (pa, q) => q.homeWord pa / 2 ^ 48 % 2 ^ 9 == 0x0B7
    | none => true
  | .error _ => false

/-- Every lane of slice 0 has a full stack. -/
def stLF : State := onGang stL fun g => g.modSlice 0 fun x => { x with stack := List.replicate 16 ⟨true, 0, 0, 0, 0, x.fmt⟩ }

/-- The line of the targets is damaged. -/
def stLD : State := { stL with poison := [0x10000] }

/-- `jmpi` in a slice enabled in part; `calli` with a full stack; a damaged line; the clauses of `IndirectChecks`: an address no page maps
(1), one that is no multiple of 8 (2), no `land` (3), another `land` than lane 0's (4). -/
theorem test_met_IndirectChecks :
    (∀ s ∈ [stLN 0x90000000#32, stLN 0x10009#32, stLN 0x10010#32, stLN 0x10018#32],
      (issuesB s g7 ((Src.v 4).uses fA true) &&
       (cx s).grp.slices.all (fun k => onB s g7 k == 0#32 || onB s g7 k == allB s k) &&
       lanesOf (s.lanesFor (cx s) g7) == 0 :: 1 :: (List.range 30).map (· + 2)) = true) ∧
    (match checkTargets (cx (stLN 0x90000000#32)) ((stLN 0x90000000#32).lanesFor (cx (stLN 0x90000000#32)) g7)
        (goesTo (stLN 0x90000000#32) g7 (.v 4)) [0] ((stLN 0x90000000#32).issuing (cx (stLN 0x90000000#32)) g7) with
      | .ok p => p.fetchAddr (cx (stLN 0x90000000#32)).core (cx (stLN 0x90000000#32)).al 0x90000000 == none
      | .error _ => false) = true ∧
    firstOk (stLN 0x10018#32) g7 (.v 4) = true ∧ goesTo (stLN 0x10018#32) g7 (.v 4) 1 ≠ goesTo (stLN 0x10018#32) g7 (.v 4) 0 ∧ firstOk (stLN 0x10010#32) g7 (.v 4) = false ∧
    goesTo (stLN 0x10009#32) g7 (.v 4) 1 % 8 = 1 ∧
    (issuesB stM g0 ((Src.v 4).uses fA true) = true ∧ (cx stM).grp.slices = [] ++ 0 :: (List.range 7).map (· + 1) ∧ onB stM g0 0 ≠ 0#32 ∧
      onB stM g0 0 ≠ allB stM 0) ∧
    (issuesB stLF g7 ((Src.v 4).uses fA true) = true ∧ targetsOk stLF g7 (.v 4) = true ∧
      slicesIn (stLF.lanesFor (cx stLF) g7) = [] ++ 0 :: (List.range 7).map (· + 1) ∧ 16 ≤ ((cx stLF).gang.slice 0).stack.length) ∧
    issuesB stLD g7 ((Src.v 4).uses fA true) = true ∧ goesTo stLD g7 (.v 4) 0 % 8 = 0 ∧
    ((stLD.issuing (cx stLD) g7).fetchAddr (cx stLD).core (cx stLD).al (goesTo stLD g7 (.v 4) 0)).map
      (fun x => x.2.damaged (x.1 / 128 * 128)) = some true := by
  refine ⟨?_, ?_, ?_, ?_, ?_, ?_, ?_, ?_, ?_, ?_, ?_⟩ <;> decide +kernel

/-- A group that may cede. -/
theorem test_met_SchedulerPicks : Issues st0 (cx st0) g7 [] ∧ st0.lanesFor (cx st0) g7 ≠ 0#32 ∧ (cx st0).core < st0.cores.length :=
  ⟨issues_of (by decide +kernel), by decide +kernel⟩

theorem test_met_NoEffectWords : Issues st0 (cx st0) g7 [] := issues_of (by decide +kernel)

theorem test_met_Exits : Issues stM (cx stM) g0 [] ∧ stM.lanesFor (cx stM) g0 = 1#32 ∧ (cx stM).gang.shadows = [] ∧
    (∀ b ∈ stM.blocks, b.bars = [] ∧ b.raws = []) :=
  ⟨issues_of (by decide +kernel), by decide +kernel, by decide +kernel⟩

/-- A gang with a live lane; a gang without one, the last of its block, whose launch is there. -/
def stE : State :=
  let s := onBlock (onGang st0 fun g => { g with live := 0 }) fun b => { b with lid := 5 }
  s.modAllot 0 fun a => { a with launches := [{ (default : Launch) with lid := 5 }] }

theorem test_met_EndedGangs :
    st0.gangs = [(cx st0).gang] ∧ (cx st0).gang.isOver = false ∧ st0.block? (cx st0).gang.blk = some (cx st0).blk ∧
    (cx st0).gang.live ≠ 0#32 ∧
    stE.gangs = [(cx stE).gang] ∧ (cx stE).gang.isOver = false ∧ stE.block? (cx stE).gang.blk = some (cx stE).blk ∧
    (cx stE).gang.live = 0#32 ∧ (stE.blocks.filter fun x => x.uid == (cx stE).gang.blk) = [(cx stE).blk] ∧
    (cx stE).blk.ended = false ∧ (cx stE).blk.cluster = 0 ∧ (cx stE).blk.handler = false ∧
    (stE.launch? (cx stE).blk.al (cx stE).blk.lid).isSome = true ∧ (cx stE).blk.al < stE.allots.length ∧
    (stE.dbinds = [] ∧ stE.plat.draining = false ∧ stE.reqs = [] ∧ stE.saccs = [] ∧ stE.hreqs = [] ∧ (cx stE).gang.stored = []) := by
  refine ⟨?_, ?_, ?_, ?_, ?_, ?_, ?_, ?_, ?_, ?_, ?_, ?_, ?_, ?_, ?_⟩ <;> decide +kernel

/-- A gang in two groups: slices 0 to 3, which issues, and slices 4 to 7. -/
def stG : State := onGang st0 fun g =>
  { g with groups := [{ (default : Group) with slices := [0, 1, 2, 3] }, { (default : Group) with slices := [4, 5, 6, 7] }] }

theorem test_met_Regangs :
    Issues stG (cx stG) g7 [] ∧ 2 ≤ (cx stG).gang.groups.length ∧
    (∀ k ∈ (cx stG).grp.slices, (cx stG).gang.live &&& sliceMask k ≠ 0#32) ∧
    (∀ x ∈ (cx stG).gang.groups, (∃ k ∈ x.slices, k ∈ (cx stG).grp.slices) → x = (cx stG).grp) := by
  refine ⟨issues_of ?_, ?_⟩ <;> decide +kernel

/-- Both groups wait at a `regang`, at one address, or at two. -/
def gR (pc : Nat) : Gang :=
  let g := (cx stG).gang
  { g with groups := g.groups.map fun x => { x with wait := .regang }
           slices := g.slices.mapIdx fun k x => if k < 4 then { x with pc := 0x10008 } else { x with pc := pc } }

theorem test_met_RegangMerges :
    ∀ g ∈ [gR 0x10008, gR 0x20000], g.groups ≠ [] ∧ (∀ x ∈ g.groups, x.wait = .regang ∧ x.slices ≠ []) ∧
      (∀ x ∈ g.groups, ∀ k ∈ x.slices, k < 8 ∧ (g.slice k).pc = (g.slice x.low).pc) := by
  decide +kernel

/-! Fetch, decode and traps. -/

/-- Reset with a word placed to be the next to run. -/
def nextW (w : Nat) : State := State.reset.withWord w

/-- The turn begun. -/
def begun (s : State) : State := { s with agenda := s.agenda.drop 1, turn := s.turn + 1, free := s.free + 1, lax := 0 }

/-- The hypotheses of a turn that fetches: the first clause of `StepRunsDecoded` up to the fetch. -/
def turnB (s : State) : Bool :=
  !s.plat.poweredDown && s.met.isEmpty && s.agenda == [⟨0, .issue ⟨0, 0, 0⟩, 0⟩] &&
    match (begun s).ctx ⟨0, 0, 0⟩ with
    | none => false
    | some c => (begun s).mayIssue c && c.grp.wait == .none &&
      match ((begun s).settleGroup c).ctx ⟨0, 0, 0⟩ with
      | none => false
      | some c' => (((begun s).settleGroup c).stopDue c').isNone

/-- What the fetch gives: nothing, or a word on a line that is not damaged. -/
def fetched (s : State) : Option Nat :=
  match (begun s).ctx ⟨0, 0, 0⟩ with
  | none => none
  | some c =>
    let s2 := (begun s).settleGroup c
    match s2.ctx ⟨0, 0, 0⟩ with
    | none => none
    | some c' => match s2.fetchAddr c'.core c'.al c'.pc with
      | none => none
      | some (pa, s') => if s'.damaged (lineOf pa) then none else some (s'.homeWord pa)

/-- An add that decodes; an event that is accepted. -/
theorem test_met_StepRunsDecoded :
    turnB (nextW 0x0E20002E28000001) = true ∧ fetched (nextW 0x0E20002E28000001) = some 0x0E20002E28000001 ∧
    privilegedWord 0x0E20002E28000001#64 = false ∧
    ({ begun State.reset with agenda := [], cur := none } : State).accepts .coldReset = true := by
  refine ⟨?_, ?_, ?_, ?_⟩ <;> decide +kernel

/-- A counter that no page maps; a privileged word, and one that names a closed register, outside the headland of allotment 0; a word that
decode refuses. -/
theorem test_met_FetchAndDecodeTraps :
    (let s := onGang (nextW 0) fun g => { g with slices := g.slices.map fun x => { x with pc := 0x90000000 } }
     turnB s = true ∧ fetched s = none) ∧
    (let s := onBlock (nextW 0x0F5010C0C2CF8800) fun b => { b with headland := false }
     turnB s = true ∧ (fetched s).map (fun w => w / 2 ^ 48 % 2 ^ 9) = some 0x150) ∧
    (let w := (full 0x142 0 2 452 0x1B2 452 0).toNat
     let s := onBlock (nextW w) fun b => { b with headland := false }
     turnB s = true ∧ fetched s = some w ∧ privilegedWord (BitVec.ofNat 64 w) = false ∧
       (sysRegWord (BitVec.ofNat 64 w)).any (cx { s with cur := some ⟨0, 0, 0⟩ }).closed = true) ∧
    (turnB (nextW 0) = true ∧ fetched (nextW 0) = some 0 ∧ fails 0 0x04 fC = true) := by
  refine ⟨?_, ?_, ?_, ?_⟩ <;> decide +kernel

/-- A block that declares 8 vector registers, 4 scalars, no queue, no line register and no tile. -/
def stU : State := onBlock st0 fun b => { b with k := { b.k with regs := 1, scal := 1, queues := 0, lines := 0, tiles := 0 } }

theorem test_met_UndeclaredRegisters :
    stU.cur.bind stU.ctx = some (cx stU) ∧
    (∀ n, n < 8 → n < 8 * (cx stU).blk.k.regs) ∧ ¬ 8 < 8 * (cx stU).blk.k.regs ∧ ¬ 4 < 4 * (cx stU).blk.k.scal ∧
    ¬ 0 < (cx stU).blk.k.queues ∧ ¬ 0 < (cx stU).blk.k.lines ∧ ¬ 0 < (cx stU).blk.k.tiles := by
  refine ⟨(issues_of (s := stU) (h := g7) (us := []) (by decide +kernel)).here, ?_, ?_⟩
  · decide +kernel
  · decide +kernel

theorem test_met_PendingRegistersWait :
    let s := onGang st0 fun g => { g with busy := [.v 3] }
    s.cur.bind s.ctx = some (cx s) ∧ 3 < 8 * (cx s).blk.k.regs ∧ (cx s).gang.busy.contains (.v 3) = true := by
  refine ⟨(issues_of (s := onGang st0 fun g => { g with busy := [.v 3] }) (h := g7) (us := []) (by decide +kernel)).here, ?_⟩
  decide +kernel

/-- A cause for the handler of a launch that names one, and one for the headland. -/
theorem test_met_TrapEntry :
    let s := onBlock st0 fun b => { b with k := { b.k with trap := 0x100 } }
    s.cur.bind s.ctx = some (cx s) ∧ (cx s).blk.k.trap ≠ 0 ∧ (cx s).grp.inHandler = false ∧ (cx s).al < s.allots.length := by
  refine ⟨(issues_of (s := onBlock st0 fun b => { b with k := { b.k with trap := 0x100 } }) (h := g7) (us := []) (by decide +kernel)).here, ?_⟩
  decide +kernel

/-- With lanes enabled and results settled; with no lane enabled. -/
theorem test_met_TrapWords :
    Issues st0 (cx st0) g7 ((Src.v 4).uses fA false) ∧ Issues st0 (cx st0) g7 [] ∧ st0.lanesFor (cx st0) g7 ≠ 0#32 ∧
    st0.draining (cx st0) = false ∧
    (match popAll (cx st0) [.v 4] (st0.issuing (cx st0) g7) with | .ok _ => true | .error _ => false) = true ∧
    Issues st0 (cx st0) g0 [] ∧ st0.lanesFor (cx st0) g0 = 0#32 := by
  refine ⟨issues_of ?_, issues_of ?_, ?_, ?_, ?_, issues_of ?_, ?_⟩ <;> decide +kernel

/-- A group in its handler, entered with the given slices, depths and counter. -/
def stH (slices : List Nat) (depth pc : Nat) : State := onGang st0 fun g =>
  { g with groups := g.groups.map fun x =>
      { x with inHandler := true, savedSlices := slices, savedDepth := (List.range 8).map fun k => (k, depth)
               savedMask := 0xFF#32, tpc := BitVec.ofNat 64 pc, owesRet := true } }

/-- Each clause of `HandlerReturns`: not in a handler, other slices, other depths, a counter off a word, a return. -/
theorem test_met_HandlerReturns :
    (Issues st0 (cx st0) g7 [] ∧ st0.lanesFor (cx st0) g7 ≠ 0#32 ∧ (cx st0).grp.inHandler = false) ∧
    (∀ s ∈ [stH [0] 0 0x10000, stH (List.range 8) 1 0x10000, stH (List.range 8) 0 0x10001, stH (List.range 8) 0 0x10000],
      issuesB s g7 [] = true ∧ s.lanesFor (cx s) g7 ≠ 0#32 ∧ (cx s).grp.inHandler = true) ∧
    (cx (stH [0] 0 0x10000)).grp.slices ≠ (cx (stH [0] 0 0x10000)).grp.savedSlices ∧
    (let c := cx (stH (List.range 8) 1 0x10000)
     c.grp.slices = c.grp.savedSlices ∧ ¬ ∀ k ∈ c.grp.slices, (k, (c.gang.slice k).stack.length) ∈ c.grp.savedDepth) ∧
    (let c := cx (stH (List.range 8) 0 0x10001)
     (∀ k ∈ c.grp.slices, (k, (c.gang.slice k).stack.length) ∈ c.grp.savedDepth) ∧ c.grp.tpc.toNat % 8 ≠ 0) ∧
    (let c := cx (stH (List.range 8) 0 0x10000)
     c.grp.slices = c.grp.savedSlices ∧ (∀ k ∈ c.grp.slices, (k, (c.gang.slice k).stack.length) ∈ c.grp.savedDepth) ∧
     c.grp.tpc.toNat % 8 = 0 ∧ (∀ x ∈ c.gang.groups, (∃ k ∈ x.slices, k ∈ c.grp.slices) → x = c.grp)) := by
  refine ⟨⟨issues_of ?_, ?_⟩, ?_⟩ <;> decide +kernel

/-- A record of cycle 4 waits behind one of the same cycle and a higher core, in cycle 5. -/
def stRing (tail : W64) : State :=
  { st0 with clock := 5 }.modAllot 0 fun a => { a with pendTraps := [⟨[1], 4, 2⟩, ⟨[1, 2, 3, 4, 5, 6, 7], 4, 1⟩], trbase := 0x100006#64, trtail := tail, trhead := 0 }

/-- A record waits for a ring of 64 places that has room: at one record, and with the last place free; one of a STOPPED allotment. -/
theorem test_met_TrapRecords :
    ((stRing 0).allot 0).pendTraps = [⟨[1], 4, 2⟩] ++ ⟨[1, 2, 3, 4, 5, 6, 7], 4, 1⟩ :: [] ∧ 4 < (stRing 0).clock ∧ ((stRing 0).allot 0).trbase.toNat % 16 = 6 ∧ ((stRing 0).allot 0).trhead = 0 ∧
    ((stRing 0).allot 0).trtail = 0 ∧ ((stRing 63).allot 0).trtail = 63 ∧ ((stRing 0).allot 0).st ≠ .stopped ∧
    (let s := (stRing 0).modAllot 0 fun a => { a with st := .stopped }
     (s.allot 0).pendTraps = [⟨[1], 4, 2⟩] ++ ⟨[1, 2, 3, 4, 5, 6, 7], 4, 1⟩ :: [] ∧ (s.allot 0).st = .stopped) := by
  refine ⟨?_, ?_, ?_, ?_, ?_, ?_, ?_, ?_⟩ <;> decide +kernel

/-- A held group that has each of the four answers. -/
theorem test_met_HoldAnswers :
    let s := (onGang st0 fun g => { g with groups := g.groups.map fun x => { x with wait := .held 9 } }).modAllot 0 fun a =>
      { a with tres := [(9, 0), (9, 1), (9, 2), (9, 3)] }
    ((s.heldGroup 0 9).bind fun c => s.gang? c.uid) = (s.heldGroup 0 9).map (·.gang) ∧ (s.heldGroup 0 9).isSome = true ∧
    (s.heldGroup 0 9).map s.stopped = some false ∧ (s.allot 0).tres = [(9, 0), (9, 1), (9, 2), (9, 3)] := by
  decide +kernel

theorem test_met_UnguardedLineAccesses :
    st0.lanesFor (cx st0) g0 = 0#32 ∧ Issues st0 (cx st0) g0 (dataUses fD .b64 4 ++ (⟨fB, .ln 3⟩ : Use) :: (Src.v 6).uses fB false) ∧
    Issues st0 (cx st0) g0 (dataUses fA .b64 4 ++ (⟨fB, .ln 3⟩ : Use) :: (Src.v 6).uses fB false) := by
  refine ⟨by decide +kernel, issues_of ?_, issues_of ?_⟩ <;> decide +kernel

/-- A block that may run the word, and one that may not. -/
theorem test_met_PrivilegedWords :
    let w := full 0x152 0 1 385 452 452 0
    w.getLsbD 62 = false ∧ 0x150 ≤ w.toNat / 2 ^ 48 % 2 ^ 9 ∧ w.toNat / 2 ^ 48 % 2 ^ 9 ≤ 0x152 ∧
    (cx st0).blk.headland = true ∧ (cx st0).blk.al = 0 ∧ reads (w, .fallowHalt g7 1 1) = true ∧
    (cx (onBlock st0 fun b => { b with headland := false })).blk.headland = false := by
  decide +kernel

def okB {α : Type} (x : M α) : Bool := match x with | .ok _ => true | .error _ => false

/-- All 32 lanes hold `x` in v4, zero in v5. -/
def stV (x : BitVec 32) : State := onGang st0 fun g =>
  (List.range 32).foldl (fun (g : Gang) l => { g with v := g.v.set 0 (32 * 4 + l) x }) g

/-- The uses of an open. -/
def openUses (us : List Use) : List Use := (⟨fD, .p 1⟩ : Use) :: (Src.v 4).uses fA true ++ [⟨fB, .ln 3⟩] ++ us

/-- A view of 32 rows of 64 elements whose data lie at 0x20000 and whose crown lies at 0x30000. -/
def view0 : View :=
  { (default : View) with rows := 32, cols := 64, rstride := 256, mbase := 0x40000, dbase := 0x20000, cbase := 0x30000,
                          slot := 0, serial := 1,
                          storage := [⟨0x20000, 0x20000, 0x20000, 4096⟩, ⟨0x30000, 0x30000, 0x30000, 4096⟩],
                          master := [⟨0x40000, 0x40000, 0x40000, 4096⟩] }

/-- All lanes hold 0x20080, a line of the view's data. -/
def stVw : State := (stV 0x20080#32).modAllot 0 fun a => { a with views := [view0] }

/-- Whether an open of line register 3 in the form passes its checks. -/
def opensB (s : State) (h : Hdr) (f : OForm) : Bool :=
  let e := s.lanesFor (cx s) h
  okB (checkAll (cx s) 3 ((slicesIn e).map fun k => (k, f, goesTo s h (.v 4) (lowLane (e &&& sliceMask k)))) (s.issuing (cx s) h))

/-- Each form, with lanes enabled, and no lane enabled; room in the core's store. -/
theorem test_met_LineOpens :
    (∀ f ∈ [OForm.openR, .openw, .openz, .openInv],
      issuesB (stV 0x20080#32) g7 (openUses []) = true ∧ opensB (stV 0x20080#32) g7 f = true) ∧
    issuesB stVw g7 (openUses [⟨fM, .p 2⟩]) = true ∧ opensB stVw g7 .vopen = true ∧
    (stV 0x20080#32).lanesFor (cx (stV 0x20080#32)) g7 ≠ 0#32 ∧
    ((stV 0x20080#32).issuing (cx (stV 0x20080#32)) g7).acqPending (cx (stV 0x20080#32)) (List.range 8) = false ∧
    ((stV 0x20080#32).core 0).entries.length + 8 ≤ 2048 ∧
    issuesB st0 g0 (openUses []) = true ∧ st0.lanesFor (cx st0) g0 = 0#32 := by
  refine ⟨?_, ?_, ?_, ?_, ?_, ?_, ?_, ?_⟩ <;> decide +kernel

/-- A cached translation of the page at 2^30 with the given rights. -/
def tlbEntry (r1 w1 r2 w2 dirty : Bool) (pbase : Nat) : Tlb :=
  { (default : Tlb) with unit := 0, al := 0, vbase := 2 ^ 30, vsize := 4096, size := 4096, pbase := pbase, r1 := r1, w1 := w1, r2 := r2,
                              w2 := w2, dirty := dirty }

/-- An open at 2^30 through a translation. -/
def stT (x : Tlb) : State := { stV 0x40000000#32 with tlb := [x] }

/-- An address that the root of the tables has no entry for, and none of the tables cached. -/
def stNoPage : State := onGang (stV 0#32) fun g => { g with v := g.v.set 0 (32 * 5) 0x50000#32 }

/-- The same, the root itself not mapped by stage two. -/
def stNoRoot : State := stNoPage.modAllot 0 fun a => { a with pt2 := 0x7000000#64 }

/-- An address above bit 55; no entry for it, no mapping of the root; each right missing; a peer page; view storage. -/
theorem test_met_AddressChecks :
    (∀ s ∈ [onGang (stV 0#32) fun g => { g with v := g.v.set 0 (32 * 5) 0x1000000#32 },
        stT (tlbEntry false true true true true 0x5000), stT (tlbEntry true true false true true 0x5000),
        stT (tlbEntry true true true true true 0x8000000000000), stNoPage, stNoRoot],
      issuesB s g7 (openUses []) = true ∧ slicesIn (s.lanesFor (cx s) g7) = 0 :: (List.range 7).map (· + 1) ∧
      (s.issuing (cx s) g7).acqPending (cx s) (List.range 8) = false) ∧
    2 ^ 56 ≤ goesTo (onGang (stV 0#32) fun g => { g with v := g.v.set 0 (32 * 5) 0x1000000#32 }) g7 (.v 4) 0 ∧
    (∀ x ∈ [tlbEntry false true true true true 0x5000, tlbEntry true true false true true 0x5000,
        tlbEntry true true true true true 0x8000000000000],
      ((stT x).tlb.find? fun x => x.covers (cx (stT x)).core (cx (stT x)).al (goesTo (stT x) g7 (.v 4) 0)) = some x) ∧
    (let s := (stT (tlbEntry true true true true true 0x20000)).modAllot 0 fun a => { a with views := [view0] }
     (s.tlb.find? fun x => x.covers (cx s).core (cx s).al (goesTo s g7 (.v 4) 0)).map (·.pbase) = some 0x20000 ∧
     view0 ∈ (s.allot 0).views ∧ (∃ q ∈ view0.storage, q.base ≤ 0x20000 ∧ 0x20000 < q.base + q.size)) ∧
    (∀ s ∈ [stNoPage, stNoRoot], (∀ x ∈ s.tlb, x.covers (cx s).core (cx s).al (goesTo s g7 (.v 4) 0) = false) ∧
      goesTo s g7 (.v 4) 0 / 2 ^ 48 = 5 ∧ (s.allot 0).pt1.toNat / 2 ^ 12 % 2 ^ 40 * 2 ^ 12 = (st0.allot 0).pt1.toNat) ∧
    (match stNoPage.stageTwo 0 (st0.allot 0).pt1.toNat with
      | .ok (q, _) => (stNoPage.mem.read (q + 8 * 5)).getLsbD 0 == false
      | .error _ => false) = true ∧
    (match stNoRoot.stageTwo 0 (st0.allot 0).pt1.toNat with
      | .ok _ => false
      | .error x => x == 0x17) = true := by
  refine ⟨?_, ?_, ?_, ?_, ?_, ?_, ?_⟩ <;> decide +kernel

/-- Line register 3 of every slice refers to entry 40 of the core in a form and a state. -/
def stR (f : OForm) (st : RefState) : State :=
  let s := onGang (stV 8#32) fun g => (List.range 8).foldl (fun (g : Gang) k =>
    { g with refs := g.refs.set LRef.none (8 * 3 + k) { st := st, form := f, addr := some 0x20080, entry := some 40, why := 2 } }) g
  s.modCore 0 fun c => { c with entries := [{ (default : Entry) with id := 40, line := 0x20080, arrived := true }] }

/-- Bound and open; closed and never used; room for the reopening. -/
theorem test_met_LineRegisters :
    Issues (stR .openR .opened) (cx (stR .openR .opened)) g7 [⟨fB, .ln 3⟩] ∧
    (stR .openR .opened).lanesFor (cx (stR .openR .opened)) g7 ≠ 0#32 ∧
    ((cx (stR .openR .opened)).gang.ref 3 0).addr = some 0x20080 ∧
    okB (checkAll (cx (stR .openR .opened)) 3 ((List.range 8).map fun k => (k, .openR, 0x20080))
      ((stR .openR .opened).issuing (cx (stR .openR .opened)) g7)) = true ∧
    ((stR .openR .opened).issuing (cx (stR .openR .opened)) g7).acqPending (cx (stR .openR .opened)) (List.range 8) = false ∧
    Issues st0 (cx st0) g7 [⟨fB, .ln 3⟩] ∧ ((cx st0).gang.ref 3 0).addr = none ∧
    Issues st0 (cx st0) g0 [⟨fB, .ln 3⟩] ∧ st0.lanesFor (cx st0) g0 = 0#32 ∧
    Issues (stR .openR .opened) (cx (stR .openR .opened)) g7 ((Dst.v 8).uses true ++ [⟨fB, .ln 3⟩]) := by
  refine ⟨issues_of ?_, ?_, ?_, ?_, ?_, issues_of ?_, ?_, issues_of ?_, ?_, issues_of ?_⟩ <;> decide +kernel

/-- The hypotheses of a load or a store of width `w` at the offset that v4 holds plus `disp`. -/
def accB (s : State) (w : MemW) (f disp : Nat) (st : RefState) : Bool :=
  let c := cx s
  let e := s.lanesFor c g7
  issuesB s g7 (dataUses f w 8 ++ (⟨fB, .ln 3⟩ : Use) :: (Src.v 4).uses fB false) && e != 0#32 &&
    (slicesIn e).all (fun k => (c.gang.ref 3 k).st == st) && c.gang.lateLoads.isEmpty &&
    match s.operands c g7 [.v 4] with
    | .error _ => false
    | .ok (os, p) => (lanesOf e).all fun l =>
      let off := (p.opHead c os l).toNat + disp
      decide (off + MemW.bytes w ≤ 128 ∧ off % MemW.bytes w = 0)

/-- Each width, at the last offset of the line, of a line that is there and of one that is on its way. -/
theorem test_met_LineLoads :
    ∀ x ∈ [(MemW.b8, 119), (.b16, 118), (.b32, 116), (.b64, 112), (.b128, 104), (.i8, 119), (.i16, 118)],
      accB (stR .openR .opened) x.1 fD x.2 .opened = true ∧ accB { stR .openR .opening with lax := 2 } x.1 fD x.2 .opening = true := by
  decide +kernel

theorem test_met_LineStores :
    (∀ x ∈ [(MemW.b8, 119), (.b16, 118), (.b32, 116), (.b64, 112), (.b128, 104)],
      accB (stR .openw .opened) x.1 fA x.2 .opened = true ∧ accB (stR .openz .opened) x.1 fA x.2 .opened = true) ∧
    accB { stR .openw .opened with lax := 1 } .b32 fA 4 .opened = true ∧ (cx (stR .openw .opened)).gang.lateStores = [] ∧
    ((stR .openw .opened).entry? 0 40).isSome = true := by
  decide +kernel

/-- A reference in each state that stops an access; one that is opening; an offset past the line; one off its alignment. -/
theorem test_met_LineAccessTraps :
    (∀ st ∈ [RefState.closed, .recalled, .opened, .opening], accB (stR .openR st) .b32 fA 0 st = true ∧ accB (stR .openInv st) .b32 fD 0 st = true) ∧
    accB (stR .openR .opened) .b8 fD 119 .opened = true ∧ accB (stR .openR .opened) .b8 fD 120 .opened = false ∧
    accB (stR .openR .opened) .b32 fD 2 .opened = false := by
  decide +kernel

/-- An entry on its way whose line is whole; a dirty entry that no reference holds; a load that waits for an entry already there. -/
theorem test_met_LineStoreSteps :
    let s := fun (a : Bool) => st0.modCore 0 fun c => { c with entries := [{ (default : Entry) with id := 40, line := 0x20080, mask := 1, arrived := a }] }
    ((s false).entry? 0 40).map (fun en => (en.arrived, en.wantDue, (s false).damaged en.line)) = some (false, none, false) ∧
    st0.plat.draining = false ∧ (cx st0).gang.lateLoads = [] ∧
    (s true).holders 0 40 = 0 ∧ ((s true).entry? 0 40).map (fun en => decide (en.mask ≠ 0)) = some true ∧
    (let x : LateLoad := { slices := [0], w := .b32, d := 8, lanes := [(0, 40, 4), (1, 40, 124)], sinces := [] }
     let u := onGang (s true) fun g => { g with lateLoads := [x] }
     u.gangs = [(cx u).gang] ∧ (cx u).core = 0 ∧ (cx u).gang.isOver = false ∧ u.block? (cx u).gang.blk = some (cx u).blk ∧
       (cx u).gang.lateLoads = [x] ∧ x.lanes ≠ [] ∧ (∀ l ∈ x.lanes, l.2.1 = 40) ∧ (x.lanes.map (·.1)).Nodup ∧
       u.launch? (cx u).blk.al (cx u).blk.lid = none) := by
  refine ⟨?_, ?_, ?_, ?_, ?_, ?_⟩ <;> decide +kernel

/-! The scratchpad. -/

/-- A word of a block with 16 rows, all lanes at the address that v4 holds: the last of the rows, or one past it. -/
def ldsB (s : State) (h : Hdr) (us : List Use) (pl : SPlace) (w : MemW) (disp : Nat) : Bool :=
  let c := cx s
  let e := s.lanesFor c h
  issuesB s h us && e != 0#32 &&
    match s.operands c h [.v 4] with
    | .error _ => false
    | .ok (os, p) => match p.placeTarget c pl with
      | .error _ => false
      | .ok target => (lanesOf e).all fun l => match target ((p.opHead c os l).toNat + disp) with
        | some (b, o) => decide (o + MemW.bytes w ≤ 1024 * b.k.scratch) && !(b.k.guard && b.guardUp)
        | none => false

def ldsUses (w : MemW) : List Use := dataUses fD w 8 ++ (Src.v 4).uses fA false
def stsUses (w : MemW) : List Use := (Src.v 4).uses fA false ++ dataUses fB w 8

/-- The block's cluster of one core maps c.0 onto core 0. -/
def stS (x : BitVec 32) : State := stV x

theorem test_met_ScratchAccesses :
    (∀ w ∈ [MemW.b8, .b16, .b32, .b64, .b128, .i8, .i16],
      ldsB (stS 16368#32) g7 (ldsUses w) none w 0 = true ∧ ldsB (stS 16368#32) g7u (stsUses w) none w 0 = true ∧
      ldsB (stS 16368#32) g7 (ldsUses w) (some 0#2) w 0 = true) ∧
    ldsB (stS 16384#32) g7 (ldsUses .b8) none .b8 0 = false := by
  decide +kernel

/-- The lanes that `LanesSwitchedOff` calls bad: past the rows, or all of them in a block that no barrier word opens. -/
theorem test_met_LanesSwitchedOff :
    (let s := stS 16384#32
     issuesB s g7 (ldsUses .b8) = true ∧ s.lanesFor (cx s) g7 ≠ 0#32 ∧ okB (s.operands (cx s) g7 [.v 4]) = true ∧
     ((s.issuing (cx s) g7).block? (cx s).blk.uid).map (fun b => 1024 * b.k.scratch) = some 16384 ∧ (cx s).gang.gfault = 0) ∧
    (let s := onGang (onBlock (stS 0#32) fun b => { b with guardUp := true, k := { b.k with guard := true } }) fun g => { g with gfault := 2 ^ 33 }
     issuesB s g7u (stsUses .b32) = true ∧ ((s.issuing (cx s) g7u).block? (cx s).blk.uid).map (fun b => b.k.guard && b.guardUp) = some true ∧
     (cx s).gang.gfault.extractLsb' 32 2 ≠ 0) := by
  decide +kernel

/-- A store and a load that are the oldest of their slices, with the rows in place. -/
theorem test_met_ScratchPerforms :
    ∀ op ∈ [SOp.store [(5, 1), (5, 2)] [] true, .store [(0x40, 1)] [0x41] false, .load .b16 8 [(0, 4), (1, 6)] 0, .load .b64 8 [(0, 8)] 0xF],
      let c := cx st0
      let a : SAcc := { (default : SAcc) with id := 50, gang := c.uid, slices := [0], blk := c.blk.uid, op := op, got := none }
      let s := { st0 with saccs := [a] }
      s.saccs = [] ++ a :: [] ∧ s.block? a.blk = some c.blk ∧ c.blk.rowAway a.op.rows = false ∧ s.heldAcc a c.blk = false ∧
      s.gang? a.gang = some c.gang := by
  decide +kernel

theorem test_met_SwizzledOffsets :
    Met g7 (usesOf (.v 2) false [(.v 4, false), (.v 6, false)] []) [.v 4, .v 6] ∧ 2 ≤ 7 ∧ 6 ≤ 7 :=
  ⟨met_of (s := st0) (by decide +kernel), by decide, by decide⟩

/-- A barrier word `w` at offset 0x40 of the block's rows, with a record; every lane holds 0x40. -/
def stW (w : Nat) (arr : List Arrival) : State :=
  onBlock (stV 0x40#32) fun b => { b.setWord 0x40 w with bars := [⟨0x40, false, arr, 0, 0, 0, 0⟩] }

/-- The hypotheses that a barrier word meets at v4: it issues with lanes enabled, nothing is outstanding, the place is a word of
the rows, and EXP is as given. -/
def barAt (pl : SPlace) (s : State) (h : Hdr) (us : List Use) (srcs : List Src) (exp : Nat) : Bool :=
  let c := cx s
  let e := s.lanesFor c h
  issuesB s h us && e != 0#32 &&
    match s.operands c h srcs with
    | .error _ => false
    | .ok (os, p) => !p.outstanding c.uid (slicesIn e) true &&
      match p.placeTarget c pl with
      | .error _ => false
      | .ok target => match target (p.opHead c os (lowLane e)).toNat with
        | none => false
        | some (b, off) => (p.block? b.uid == some b) && off % 8 == 0 && decide (off + 8 ≤ 1024 * b.k.scratch) && b.word off % 65536 == exp &&
          !(pl.isSome && b.rowAway [off / 1024])

def barB (s : State) (h : Hdr) (us : List Use) (srcs : List Src) (exp : Nat) : Bool := barAt none s h us srcs exp

def barUses : List Use := (Src.v 4).uses fA false

/-- `bar.init` with a number and with a register; `bar.arr` with room for the lanes, at the last arrivals, with one too many, at
a word without a count, off its alignment and outside the rows. -/
theorem test_met_BarrierWords :
    barB (stW 64 []) g7 barUses [.v 4] 64 = true ∧ barB (stW 64 []) g7 (barUses ++ (Src.s 3).uses fB false) [.v 4, .s 3] 64 = true ∧
    barB (stW 32 []) g7 barUses [.v 4] 32 = true ∧ barB (stW 31 []) g7 barUses [.v 4] 31 = true ∧
    barB (stW 1 []) g7u barUses [.v 4] 1 = true ∧ barB (stW 0 []) g7 barUses [.v 4] 0 = true ∧
    okB (((stW 32 []).issuing (cx (stW 32 [])) g7).publish (cx (stW 32 [])) .block (List.range 8)) = true ∧
    okB (((stW 32 []).issuing (cx (stW 32 [])) g7).publish (cx (stW 32 [])) .device (List.range 8)) = true ∧
    issuesB (stV 0x41#32) g7 barUses = true ∧ issuesB (stV 0x4000#32) g7 barUses = true := by
  refine ⟨?_, ?_, ?_, ?_, ?_, ?_, ?_, ?_, ?_, ?_⟩ <;> decide +kernel

/-- A word without a count; a lane that has arrived; one that has not, and is or is not the last one missing. A word that a raw store
has initialised and no instruction has named, one thread short of its count and two; a word of neither kind. -/
theorem test_met_EndedLanesAreDeducted :
    (∀ n ∈ [1, 2], let b := { (cx (stW n [])).blk with bars := [], raws := [0x40] }
      b.raws = [0x40] ∧ (∀ r ∈ b.bars, r.off ≠ 0x40) ∧ b.word 0x40 = n ∧ n % 2 ^ 16 ≠ 0) ∧
    (∃ r ∈ (cx (stW 9 [])).blk.bars, r.off = 0x40) ∧
    ∀ x ∈ [(0, ([] : List Arrival)), (2, [⟨7, 3, 0, true⟩]), (2, []), (1, [])],
      let b := (cx (stW x.1 x.2)).blk
      b.bars = [⟨0x40, false, x.2, 0, 0, 0, 0⟩] ∧ 0x40 + 8 ≤ 1024 * b.k.scratch ∧ b.word 0x40 % 2 ^ 16 = x.1 ∧
      b.word 0x40 / 2 ^ 48 % 2 ^ 16 + 1 < 2 ^ 16 := by
  refine ⟨?_, ?_, ?_⟩ <;> decide +kernel

/-- Every lane arrived in an earlier generation; none did; the same with a limit; a line register that is open. -/
theorem test_met_WaitingWords :
    (let s := stW (64 + 2 ^ 32) ((List.range 32).map fun l => ⟨(cx st0).uid, l, 0, false⟩)
     barB s g7 barUses [.v 4] 64 = true ∧ barB s g7 ((⟨fD, .p 1⟩ : Use) :: barUses ++ (Src.s 3).uses fB false) [.v 4, .s 3] 64 = true ∧
     ∀ l ∈ lanesOf (s.lanesFor (cx s) g7), ((cx s).blk.bar 0x40).arr.any fun x => x.gang == (cx s).uid && x.lane == l && x.gen == 0) ∧
    barB (stW 64 []) g7 barUses [.v 4] 64 = true ∧
    barB (stW 64 []) g7 ((⟨fD, .p 1⟩ : Use) :: barUses ++ (Src.zero).uses fB false) [.v 4, .zero] 64 = true ∧
    barAt (some 0#2) (stW 0 []) g7 ((⟨fD, .p 1⟩ : Use) :: barUses ++ (Src.s 3).uses fB false) [.v 4, .s 3] 0 = true ∧
    accB (stR .openR .opened) .b8 fD 0 .opened = true ∧
    issuesB (stR .openR .opened) g7 ((⟨fD, .p 1⟩ : Use) :: (Src.v 4).uses fA false ++ [⟨fM, .ln 3⟩]) = true := by
  decide +kernel

/-- A group that waits in the given way. -/
def waits (s : State) (w : Wait) : State := onGang s fun g => { g with groups := g.groups.map fun x => { x with wait := w } }

/-- The limit not reached, and reached, for both waits. -/
theorem test_met_LimitsExpire :
    (∀ d ∈ [0, 1], ((waits (stR .openR .opened) (.tryw 1 3 0xF#32 [(0, 0)] (some d))).ctx ⟨0, 0, 0⟩).map (·.grp.wait) =
      some (.tryw 1 3 0xF#32 [(0, 0)] (some d))) ∧
    (let s := waits (stW 64 []) (.barTry ⟨(cx st0).blk.uid, 0x40⟩ 0xF#32 [(0, 0)] .block 0 1 (some 0))
     (s.ctx ⟨0, 0, 0⟩).isSome = true ∧ s.still (cx s) = false ∧ (cx s).gang.groups = [(cx s).grp] ∧ (s.block? (cx st0).blk.uid).isSome = true ∧ (s.allot 0).vclk.toNat = 0 ∧
     s.outstanding (cx s).uid (slicesIn 0xF#32) true = false) := by
  decide +kernel

/-- An entry that the gang owes alone. -/
def stOwe : State :=
  st0.modCore 0 fun c => { c with entries := [{ (default : Entry) with id := 40, line := 0x20080, arrived := true, mask := 3, owed := [(cx st0).uid] }] }

/-- A scratchpad access that has not performed. -/
def stOut : State :=
  { st0 with saccs := [{ (default : SAcc) with id := 50, gang := (cx st0).uid, slices := [0], blk := (cx st0).blk.uid, got := none }] }

theorem no_views (a : Nat) : (stOwe.allot a).views = [] := by
  by_cases h : a < 16
  · exact (by decide +kernel : ∀ a, a < 16 → (stOwe.allot a).views = []) a h
  · have : stOwe.allot a = Allot.blank :=
      nth_of_length_le _ _ _ (Nat.le_trans (by decide +kernel : stOwe.allots.length ≤ 16) (Nat.not_lt.mp h))
    rw [this]; rfl

theorem test_met_OrderingWords :
    Issues stOut (cx stOut) g7 [] ∧
    (stOut.issuing (cx stOut) g7).outstanding (cx stOut).uid (slicesIn (stOut.lanesFor (cx stOut) g7)) true = true ∧
    Issues stOwe (cx stOwe) g7 [] ∧
    (stOwe.issuing (cx stOwe) g7).outstanding (cx stOwe).uid (slicesIn (stOwe.lanesFor (cx stOwe) g7)) true = false ∧
    stOwe.lanesFor (cx stOwe) g7 ≠ 0#32 ∧ stOwe.entered (publisher (cx stOwe).uid (cx stOwe).grp.low) = true ∧
    (∀ a, (stOwe.allot a).views = []) ∧
    Scope.far .system = true ∧ Scope.far .core = false ∧ stOwe.plat.draining = false ∧ stOwe.loose 3 = false ∧
    (cx stOwe).gang.lateStores = [] ∧
    ((stOwe.core (cx stOwe).core).entries.filter fun en => en.owed.contains (cx stOwe).uid && en.mask != 0).map (·.id) = [40] ∧
    Issues st0 (cx st0) g0 [] ∧ st0.lanesFor (cx st0) g0 = 0#32 := by
  refine ⟨issues_of ?_, ?_, issues_of ?_, ?_, ?_, ?_, no_views, ?_, ?_, ?_, ?_, ?_, ?_, issues_of ?_, ?_⟩ <;> decide +kernel

/-- The turn of a parked group. -/
def parkedB (s : State) : Bool :=
  let s := { s with agenda := [⟨0, .issue ⟨0, 0, 0⟩, 0⟩] }
  !s.plat.poweredDown && s.met.isEmpty && match (begun s).ctx ⟨0, 0, 0⟩ with
    | some c => (begun s).runs c && c.gang.groups == [c.grp] && c.grp.wait != .none
    | none => false

/-- Each kind of wait, and a group that does not run; at a barrier and at the limit of atomics both when it is over and when it is not; a recalled line. -/
theorem test_met_ParkedGroups :
    (∀ s ∈ [waits (stW (64 + 2 ^ 32) []) (.barWait ⟨(cx st0).blk.uid, 0x40⟩ 0xF#32 [(0, 0), (1, 0), (2, 0), (3, 0)] .block 0 false),
        waits (stW 64 []) (.barWait ⟨(cx st0).blk.uid, 0x40⟩ 0xF#32 [(0, 0), (1, 0), (2, 0), (3, 0)] .block 0 false),
        waits (stR .openR .opened) (.tryw 1 3 0xF#32 [(0, 0)] none), waits (stR .openR .recalled) (.tryw 1 3 0xF#32 [(0, 0)] none),
        waits st0 (.limit true), waits { st0 with reqs := (List.range 4).map fun n => { (default : AReq) with id := n, inst := n, gang := (cx st0).uid, isAtom := true } } (.limit true),
        waits st0 .regang, waits st0 (.resamp 1), waits st0 (.held 4)], parkedB s = true) ∧
    ({ st0 with reqs := (List.range 4).map fun n => { (default : AReq) with id := n, inst := n, gang := (cx st0).uid, isAtom := true } } : State).atomsOut (cx st0).uid true = 4 ∧
    (waits (st0.modAllot 0 fun a => { a with st := .fallow }) .regang).runs (cx (waits st0 .regang)) = false := by
  decide +kernel

/-! Atomics. -/

def atomUses (isAtom wide : Bool) : List Use :=
  (if isAtom then (Dst.v 8).uses wide ++ [⟨fM, .p 1⟩] else []) ++ (Src.v 4).uses fA true ++ (Src.v 10).uses fB wide ++ (Src.v 12).uses fC wide

def atomB (s : State) (h : Hdr) (isAtom wide : Bool) (sc : Scope) (t : ATy) : Bool :=
  let c := cx s
  let e := s.lanesFor c h
  issuesB s h (atomUses isAtom wide) && e != 0#32 &&
    match s.operands c h [.v 4, .v 10, .v 12] with
    | .ok ([oa, _, _], p) => okB (checkAtomics c sc t (fun l => (p.opVal c true oa l).toNat) (if h.uni then [lowLane e] else lanesOf e) p)
    | _ => false

/-- Below the limit with the publish made; at the limit of each kind. -/
theorem test_met_AtomicWords :
    (∀ x ∈ [(ATy.n32, false), (.i32, false), (.n64, true), (.i64, true)],
      atomB (stV 0x20080#32) g7 true x.2 .device x.1 = true ∧ atomB (stV 0x20080#32) g7u false x.2 .block x.1 = true) ∧
    (stV 0x20080#32).atomsOut (cx (stV 0x20080#32)).uid true = 0 ∧
    okB (((stV 0x20080#32).issuing (cx (stV 0x20080#32)) g7).publish (cx (stV 0x20080#32)) .device (List.range 8)) = true ∧
    (∀ x ∈ [(true, 4), (false, 16)],
      let s : State := { stV 0x20080#32 with reqs := (List.range x.2).map fun n => { (default : AReq) with id := n, inst := n, gang := (cx st0).uid, isAtom := x.1 } }
      atomB s g7 x.1 false .device .n32 = true ∧ s.atomsOut (cx s).uid x.1 = x.2) := by
  refine ⟨?_, ?_, ?_, ?_⟩ <;> decide +kernel

/-- View storage, a peer page, an address off its alignment: each translated for writing. -/
theorem test_met_AtomicTraps :
    (∀ s ∈ [stVw, stT (tlbEntry true true true true true 0x8000000000000), stV 0x20081#32],
      (issuesB s g7 (atomUses true false) && s.lanesFor (cx s) g7 != 0#32 && okB (s.operands (cx s) g7 [.v 4, .v 10, .v 12]) &&
        match (s.issuing (cx s) g7).translate (cx s).core (cx s).al (goesTo s g7 (.v 4) 0) .write with
        | .ok _ => true
        | .error _ => false) = true) ∧
    goesTo (stV 0x20081#32) g7 (.v 4) 0 % 4 ≠ 0 ∧
    view0 ∈ (stVw.allot 0).views ∧ (∃ q ∈ view0.storage, q.base ≤ 0x20080 ∧ 0x20080 < q.base + q.size) := by
  refine ⟨?_, ?_, ?_, ?_⟩ <;> decide +kernel

/-- A `red`; an `atom` with another request of its instruction behind it; the last request of one. -/
theorem test_met_AtomicsPerform :
    ∀ x ∈ [(false, []), (true, [61]), (true, [])],
      let r : AReq := { (default : AReq) with id := 60, inst := 9, gang := (cx st0).uid, lanes := 0xF#32, isAtom := x.1, op := .add, ty := .n32,
                                              addr := 0x20084, vaddr := 0x20084, b := 3, d := 8, p := 1, lid := headlandLid }
      let s : State := { st0 with reqs := r :: (x.2.map fun n => { r with id := n, lane := 1, addr := 0x20088 }) }
      s.reqs.find? (fun x => x.id == r.id) = some r ∧ s.damaged (r.addr / 128 * 128) = false ∧ r.addr % 4 = 0 ∧
      (s.launch? r.al r.lid = none) ∧ (∀ x ∈ s.reqs, ¬ x.id < r.id) ∧ (s.gang? r.gang).isSome = true ∧
      s.plat.draining = false := by
  decide +kernel

/-- A request whose line's first chunk names another slice; one that has waited for the limit, and one that has not. -/
theorem test_met_GatedRequests :
    ∀ since ∈ [0, 1],
      let r : AReq := { (default : AReq) with id := 60, lid := 5, bid := 0, gid := 0, slice := 1, addr := 0x20084, vaddr := 0x20084, since := since }
      let k : Chunk := ⟨0x20080, 0, 0, 0, 1⟩
      let s : State := ({ st0 with reqs := [r] } : State).modAllot 0 fun a =>
        { a with vclk := 2 ^ 24, launches := [{ (default : Launch) with lid := 5, mode := 2, gates := [k] }] }
      (s.launch? r.al r.lid).map (fun l => (l.mode, l.gates.find? fun x => x.line == 0x20080)) = some (2, some k) ∧
      r.handler = false ∧ ¬ (0x8000000000000 ≤ r.addr ∧ r.addr < 0x10000000000000) ∧ s.damaged (r.addr / 128 * 128) = false ∧
      ((s.launch? r.al r.lid).any fun l => !s.chunkDead r.al r.lid l k) = true ∧
      r ∈ s.reqs ∧ ¬ (k.blk = r.bid ∧ k.gang = r.gid ∧ k.slice = r.slice) ∧ (s.allot r.al).vclk.toNat = 2 ^ 24 := by
  decide +kernel

/-- The group holds slice 0 without slice 1. -/
def stHalf : State := onGang st0 fun g =>
  { g with groups := [{ (default : Group) with slices := [0] }, { (default : Group) with slices := [1, 2, 3, 4, 5, 6, 7] }] }

/-- Slice 1 has another `fmt` than slice 0. -/
def stFmt : State := onGang st0 fun g => g.modSlice 1 fun x => { x with fmt := 1 }

/-- Each kind of word: all quarters idle; the first quarter partly enabled, not whole, of two formats. -/
theorem test_met_MatrixQuarters :
    (∀ us ∈ [[(⟨fD, .v 8⟩ : Use), ⟨fA, .v 48⟩, ⟨fM, .t 5⟩], [⟨fM, .t 5⟩], [⟨fD, .v 8⟩, ⟨fM, .t 5⟩], [⟨fA, .v 8⟩, ⟨fM, .t 5⟩],
        [⟨fM, .t 5⟩, ⟨fM, .t 3⟩], (Src.v 4).uses fA false ++ [⟨fM, .t 5⟩], (⟨fD, .v 8⟩ : Use) :: (Src.v 4).uses fA false],
      issuesB st0 g0 us = true ∧ issuesB stM g0 us = true ∧ issuesB stHalf g7 us = true ∧ issuesB stFmt g7 us = true) ∧
    Ref.acting (cx st0) 15 (st0.lanesFor (cx st0) g0) = [] ∧ (∀ q, q < 4 → Ref.idle (cx st0) (st0.lanesFor (cx st0) g0) q = true) ∧
    (Ref.idle (cx stM) (stM.lanesFor (cx stM) g0) 0 = false ∧
      ¬ stM.lanesFor (cx stM) g0 &&& Ref.quarterLanes (cx stM) 0 = Ref.quarterLanes (cx stM) 0) ∧
    (stHalf.lanesFor (cx stHalf) g7 &&& Ref.quarterLanes (cx stHalf) 0 = Ref.quarterLanes (cx stHalf) 0 ∧
      Ref.whole' (cx stHalf) 0 = false ∧ Ref.idle (cx stHalf) (stHalf.lanesFor (cx stHalf) g7) 0 = false) ∧
    (Ref.whole' (cx stFmt) 0 = true ∧ ((cx stFmt).gang.slice 0).fmt ≠ ((cx stFmt).gang.slice 1).fmt) := by
  refine ⟨?_, ?_, ?_, ?_, ?_, ?_⟩ <;> decide +kernel

/-- Every accumulator holds a value, and no pass is on its way. -/
def stTiles : State := onGang (stV 0x400#32) fun g => { g with tvalid := BitVec.allOnes 32 }

theorem calm_tiles : Ref.calm (cx stTiles) 15 (stTiles.lanesFor (cx stTiles) g7) := by
  unfold Ref.calm Ref.fine; decide +kernel

theorem range_tiles : Ref.range (cx stTiles) 8 36 := by unfold Ref.range; decide +kernel

theorem test_met_TileWords :
    Ref.calm (cx stTiles) 15 (stTiles.lanesFor (cx stTiles) g7) ∧
    Ref.acting (cx stTiles) 15 (stTiles.lanesFor (cx stTiles) g7) = [0, 1, 2, 3] ∧
    Issues stTiles (cx stTiles) g7 [⟨fM, .t 5⟩] ∧ Issues stTiles (cx stTiles) g7 [⟨fM, .t 5⟩, ⟨fM, .t 3⟩] ∧
    Issues stTiles (cx stTiles) g7 ((Src.v 4).uses fA false ++ [⟨fM, .t 5⟩]) ∧
    Issues stTiles (cx stTiles) g7 [⟨fA, .v 8⟩, ⟨fM, .t 5⟩] ∧ Issues stTiles (cx stTiles) g7 [⟨fD, .v 8⟩, ⟨fM, .t 5⟩] ∧
    (∀ q, q < 4 → ∀ j, j < 8 → Ref.valid stTiles (cx stTiles) j q ∧ Ref.still stTiles (cx stTiles) j q) ∧
    Ref.range (cx stTiles) 8 32 ∧ (∀ q, q < 4 → Ref.code (cx stTiles) q 7 0 < 8) ∧
    okB (popAll (cx stTiles) [.v 4] ((stTiles.advance (cx stTiles) 0).signal (cx stTiles).core 2 (cx stTiles).al)) = true ∧
    (cx stTiles).blk.k.guard = false ∧ 0x400 + 1024 ≤ 1024 * (cx stTiles).blk.k.scratch := by
  refine ⟨calm_tiles, ?_, issues_of ?_, issues_of ?_, issues_of ?_, issues_of ?_, issues_of ?_, ?_, ?_, ?_, ?_, ?_, ?_⟩
  all_goals first | decide +kernel | (unfold Ref.valid Ref.still; decide +kernel) | (unfold Ref.range; decide +kernel)

theorem test_met_FormatWords :
    Issues st0 (cx st0) g7 ((Src.v 4).uses fA false) ∧ Issues st0 (cx st0) g7 [⟨fD, .v 9⟩] :=
  ⟨issues_of (by decide +kernel), issues_of (by decide +kernel)⟩

/-- The target of the first quarter of a load whose lanes all hold the address in v4. -/
def mldTarget (s : State) (pl : SPlace) (f : Option (Block × Nat) → Bool) : Bool :=
  match popAll (cx s) [.v 4] ((s.advance (cx s) 0).signal (cx s).core 2 (cx s).al) with
  | .error _ => false
  | .ok (os, u) => match u.placeTarget (cx s) pl with
    | .error _ => false
    | .ok target => f (target (u.opHead (cx s) os 0).toNat)

/-- An address that names no block; a guarded block; one too near the end of the rows. -/
def stNoBlock : State := onGang (stV 0x100000#32) fun g => { g with tvalid := BitVec.allOnes 32 }
def stGuarded : State := onBlock stTiles fun b => { b with guardUp := true, k := { b.k with guard := true } }
def stRowEnd : State := onGang (stV 0x3FE0#32) fun g => { g with tvalid := BitVec.allOnes 32 }

theorem calm_traps : ∀ s ∈ [stNoBlock, stGuarded, stRowEnd], Ref.calm (cx s) 15 (s.lanesFor (cx s) g7) ∧ Ref.range (cx s) 8 32 := by
  unfold Ref.calm Ref.fine Ref.range; decide +kernel

/-- Each trap of a load, in the first quarter: a format that is none, no target, a guarded one, one past the rows. -/
theorem test_met_MatrixLoadTraps :
    (∀ s ∈ [stTiles, stNoBlock, stGuarded, stRowEnd], issuesB s g7 ((⟨fD, .v 8⟩ : Use) :: (Src.v 4).uses fA false) = true ∧
      Ref.acting (cx s) 15 (s.lanesFor (cx s) g7) = [0, 1, 2, 3] ∧ Ref.scale (cx s) 0 = 0) ∧
    (∀ s ∈ [stNoBlock, stGuarded, stRowEnd], Ref.calm (cx s) 15 (s.lanesFor (cx s) g7) ∧ Ref.range (cx s) 8 32) ∧
    ¬ Ref.code (cx stTiles) 0 9 0 < 9 ∧ (Ref.code (cx stTiles) 0 8 0 = 8 ∧ Ref.scale (cx stTiles) 0 ≠ 1) ∧
    ¬ (Ref.code (cx stTiles) 0 4 0 ≤ 3 ∨ Ref.code (cx stTiles) 0 4 0 = 6) ∧
    mldTarget stNoBlock (some 0#2) (fun x => x == none) = true ∧
    mldTarget stGuarded none (fun x => x.any fun y => y.1.k.guard && y.1.guardUp) = true ∧
    mldTarget stRowEnd none (fun x => x.any fun y => !(y.1.k.guard && y.1.guardUp) && decide (1024 * y.1.k.scratch < y.2 + 32 * 32)) = true := by
  refine ⟨?_, calm_traps, ?_, ?_, ?_, ?_, ?_, ?_⟩ <;> decide +kernel

/-- A load from the own rows and from those that c.0 names, for a format of each class. -/
theorem test_met_MatrixLoads :
    let s := stTiles
    let c := cx s
    Ref.calm c 15 (s.lanesFor c g7) ∧ Issues s c g7 ((⟨fD, .v 8⟩ : Use) :: (Src.v 4).uses fA false) ∧ Ref.range c 8 36 ∧
    (∀ af ∈ [0, 3, 4, 6, 7], Ref.code c 0 af 0 < 9 ∧ Ref.scale c 0 ≤ 1 ∧ 0x400 + 32 * Ref.regs af (Ref.scale c 0) ≤ 1024 * c.blk.k.scratch) ∧
    ∀ pl ∈ [none, some 0#2],
      (match popAll c [.v 4] ((s.advance c 0).signal c.core 2 c.al) with
        | .error _ => false
        | .ok (os, u) => match u.placeTarget c pl with
          | .error _ => false
          | .ok target => match target (u.opHead c os 0).toNat with
            | some (b, off) => !b.k.guard && off == 0x400
            | none => false) = true := by
  refine ⟨calm_tiles, issues_of ?_, range_tiles, ?_, ?_⟩ <;> decide +kernel

/-- A fetch that is the oldest of its slices, with another of its word outstanding, and without. -/
theorem test_met_MatrixFetches :
    ∀ more ∈ [true, false],
      let c := cx st0
      let x : SAcc := { (default : SAcc) with id := 50, gang := c.uid, slices := [0, 1], blk := c.blk.uid,
                                              op := .mload 8 [(0, List.range 32), (1, List.range 32)], inst := 9, got := none }
      let y := { x with id := 51, slices := [2, 3] }
      let after := if more then [y] else []
      let s : State := { st0 with saccs := x :: after }
      s.saccs = [] ++ x :: after ∧ s.block? x.blk = some c.blk ∧ c.blk.rowAway x.op.rows = false ∧ s.heldAcc x c.blk = false ∧
      y.id ≠ x.id ∧ s.gang? x.gang = some c.gang ∧ (List.range 32).length = 16 * 2 ∧
      (if more then y ∈ after ∧ y.inst = x.inst ∧ y.got = none else after = []) := by
  decide +kernel

/-- A whole gang with open references, of one `fmt` and of two in its first quarter; no lane enabled; some lanes; a group of one slice. -/
theorem test_met_ViewLoads :
    let s := stR .vopen .opened
    let c := cx s
    Issues s c g7 [⟨fD, .v 8⟩, ⟨fM, .ln 3⟩] ∧ s.lanesFor c g7 ≠ 0#32 ∧ s.lanesFor c g7 = c.lanes ∧ (∀ k, k < 8 → k ∈ c.grp.slices) ∧
    Ref.range c 8 36 ∧ (∀ k, k < 8 → (c.gang.ref 3 k).st = .opened) ∧ s.launch? c.al c.blk.lid = none ∧
    Issues st0 (cx st0) g0 [⟨fD, .v 8⟩, ⟨fM, .ln 3⟩] ∧ st0.lanesFor (cx st0) g0 = 0#32 ∧
    Issues stM (cx stM) g0 [⟨fD, .v 8⟩, ⟨fM, .ln 3⟩] ∧ stM.lanesFor (cx stM) g0 ≠ (cx stM).lanes ∧ stM.lanesFor (cx stM) g0 ≠ 0#32 ∧
    (∀ q, q < 4 → (c.gang.slice (2 * q)).fmt = (c.gang.slice (2 * q + 1)).fmt) ∧
    Issues stFmt (cx stFmt) g7 [⟨fD, .v 8⟩, ⟨fM, .ln 3⟩] ∧ stFmt.lanesFor (cx stFmt) g7 = (cx stFmt).lanes ∧
    ((cx stFmt).gang.slice 0).fmt ≠ ((cx stFmt).gang.slice 1).fmt ∧
    c.gang.lateLoads = [] ∧ Issues stHalf (cx stHalf) g7 [⟨fD, .v 8⟩, ⟨fM, .ln 3⟩] ∧ stHalf.lanesFor (cx stHalf) g7 = (cx stHalf).lanes ∧
    stHalf.lanesFor (cx stHalf) g7 ≠ 0#32 ∧ 0 ∈ (cx stHalf).grp.slices ∧ 1 ∉ (cx stHalf).grp.slices := by
  refine ⟨issues_of ?_, ?_, ?_, ?_, ?_, ?_, ?_, issues_of ?_, ?_, issues_of ?_, ?_, ?_, ?_, issues_of ?_, ?_, ?_, ?_, issues_of ?_, ?_⟩
  all_goals first | decide +kernel | (unfold Ref.range; decide +kernel)

/-- An admitted pair of formats of each class; the oldest pass of a unit, of each kind. -/
theorem test_met_MatrixProducts :
    (let c := cx stTiles
     Issues stTiles c g7 [⟨fD, .v 8⟩, ⟨fA, .v 48⟩, ⟨fM, .t 5⟩] ∧ Ref.calm c 15 (stTiles.lanesFor c g7) ∧
     (∀ x ∈ [(0, 1), (2, 6), (5, 4), (7, 7)],
       Ref.classOf x.1 ≠ 0 ∧ Ref.classOf x.1 = Ref.classOf x.2 ∧ Ref.scale c 0 ≤ 1 ∧ x.1 ≠ 8 ∧ x.2 ≠ 8 ∧
       8 + Ref.regs x.1 0 ≤ 384 ∧ 8 + Ref.regs x.1 0 ≤ 8 * c.blk.k.regs ∧ 48 + Ref.regs x.2 0 ≤ 8 * c.blk.k.regs) ∧
     Ref.valid stTiles c 5 3 ∧ ∀ i, i < 36 → Reg.v (8 + i) ∉ c.gang.busy ∧ Reg.v (48 + i) ∉ c.gang.busy) ∧
    ∀ op ∈ [PassOp.zero, .load [], .mma true [] [] [] [] [] [] 0 1 false],
      let x : Pass := { (default : Pass) with id := 70, gang := (cx st0).uid, tile := 7, quarter := 3, op := op }
      let s : State := { st0 with passes := [x] }
      s.passes.find? (fun y => y.id == x.id) = some x ∧
      s.passes.find? (fun y => y.core == x.core && y.sched == x.sched) = some x ∧ (s.gang? x.gang).isSome = true := by
  refine ⟨⟨issues_of ?_, calm_tiles, ?_, ?_, ?_⟩, ?_⟩
  all_goals first | decide +kernel | (unfold Ref.valid; decide +kernel)

/-- Scalar 3 holds `x`. -/
def stSc (s : State) (x : W64) : State := onGang s fun g => { g with s := g.s.set 0 3 x }

/-- Eight words of a descriptor at 0x50000: a matrix of 32 rows of 64 elements of FP32, a row 256 bytes, an operand in E4M3. -/
def stDesc (rows : Nat) (views : List View) : State :=
  let ws := [0x40000, rows + 64 * 2 ^ 32, 256, 0x201, 0x20000, 0x30000, 32, 0]
  let s := (stSc st0 0x50000).modAllot 0 fun a => { a with views := views }
  { s with mem := s.mem.writeN 0x50000 (ws.flatMap fun w => toBytes 8 w) }

def descB (s : State) : Option (Option Nat × Nat × Nat × Bool) :=
  match (s.issuing (cx s) g7).readAsOpen (cx s) 0x50000 64 with
  | .error _ => none
  | .ok (bs, u) => let w := fun i => ofBytes ((bs.drop (8 * i)).take 8)
    let (bad, u) := u.badWord (cx s).core (cx s).al w
    some (bad, u.hreqs.length,
      ((u.allot (cx s).al).views.filter fun x => (viewOfWords w).mastersMeet x).length, (u.gang? (cx s).uid).isSome)

/-- A descriptor off its alignment; a bad one; a full table; eight masters that meet the view's; a free slot in the table. -/
theorem test_met_ViewRegistration :
    (∀ s ∈ [stSc st0 0x50008, stDesc 0 [], stDesc 32 []],
      issuesB s g7 [⟨fD, .s 5⟩, ⟨fA, .s 3⟩] = true ∧ s.lanesFor (cx s) g7 ≠ 0#32) ∧
    ((stSc st0 0x50008).issuing (cx (stSc st0 0x50008)) g7).readS (cx (stSc st0 0x50008)).gang 3 = 0x50008#64 ∧
    ((stDesc 32 []).issuing (cx (stDesc 32 [])) g7).readS (cx (stDesc 32 [])).gang 3 = 0x50000#64 ∧
    descB (stDesc 0 []) = some (some 1, 0, 0, true) ∧ descB (stDesc 32 []) = some (none, 0, 0, true) ∧
    descB (stDesc 32 ((List.range 64).map fun k => { view0 with slot := k, dbase := 0x1000000, cbase := 0x2000000, mbase := 0x3000000 })) =
      some (none, 0, 0, true) ∧
    descB (stDesc 32 ((List.range 8).map fun k => { view0 with slot := k, dbase := 0x1000000, cbase := 0x2000000 })) = some (none, 0, 8, true) := by
  refine ⟨?_, ?_, ?_, ?_, ?_, ?_, ?_⟩ <;> decide +kernel

/-- Scalar 3 holds the handle of view0 (slot 0, serial 1); group `g` is in every lane of v4, due at generation `due`. -/
def stHd (g : BitVec 32) (due : Nat) : State :=
  (stSc (stV g) 1024).modAllot 0 fun a => { a with views := [{ view0 with due := Store.set 0 [] g.toNat due, gen := due }] }

def vtagUses : List Use := (Dst.v 8).uses true ++ (⟨fA, .s 3⟩ : Use) :: (Src.v 4).uses fB false
def vsyncUses : List Use := (⟨fD, .p 1⟩ : Use) :: (⟨fA, .s 3⟩ : Use) :: (Src.v 4).uses fB false ++ (Src.s 7).uses fC false

/-- No view; a group of the view, settled or not; a group beyond it; every group. The limit in s7 is 0, or not. -/
theorem test_met_ViewWords :
    (∀ s ∈ [stSc st0 2048, stHd 1 0, stHd 1 1, stHd 1000 0, stHd 0xFFFFFFFF 0, onGang (stHd 1 1) fun g => { g with s := g.s.set 0 7 5 }],
      issuesB s g7 [⟨fA, .s 3⟩] = true ∧ issuesB s g7 vtagUses = true ∧ issuesB s g7 vsyncUses = true ∧ s.lanesFor (cx s) g7 ≠ 0#32 ∧
      okB (popAll (cx s) [.v 4, .s 7] (s.issuing (cx s) g7)) = true ∧ s.outstanding (cx s).uid (List.range 8) true = false) ∧
    (stSc st0 2048).viewOfHandle 0 2048 = none ∧
    (∀ s ∈ [stHd 1 0, stHd 1 1, stHd 1000 0], (s.viewOfHandle 0 1024).isSome = true) ∧ (cx (stHd 1 0)).gang.lateLoads = [] ∧
    (1 < view0.groups ∧ view0.groups ≤ 1000 ∧ view0.groups ≤ 8192) ∧
    ((stHd 1 0).viewOfHandle 0 1024).map (fun v => (v.dueOf 1, v.tagOf 1)) = some (0, 0) ∧
    ((stHd 1 1).viewOfHandle 0 1024).map (fun v => (v.dueOf 1, v.tagOf 1)) = some (1, 0) := by
  refine ⟨?_, ?_, ?_, ?_, ?_, ?_, ?_⟩ <;> decide +kernel

/-- The limit not reached, and reached. -/
theorem test_met_ViewLimits :
    ∀ d ∈ [0, 1],
      let s := waits (stHd 1 1) (.vsync 0 0 1 [(1, 1)] 1 0xF#32 (some d))
      (s.ctx ⟨0, 0, 0⟩).map (·.grp.wait) = some (.vsync 0 0 1 [(1, 1)] 1 0xF#32 (some d)) ∧ (s.view? 0 0 1).isSome = true ∧
      s.still (cx s) = false ∧ (cx s).gang.groups = [(cx s).grp] ∧ (s.allot 0).vclk.toNat = 0 ∧ s.outstanding (cx s).uid (slicesIn 0xF#32) true = false := by
  decide +kernel

theorem test_met_RecalledRegisters :
    (∃ j, j < 8 ∧ ((cx (stR .openR .opened)).gang.ref 3 j).st ≠ .closed) ∧ ((cx (stR .openR .opened)).gang.ref 3 7).st ≠ .closed ∧
    ((cx (stR .openR .opened)).gang.ref 15 7).st = .closed := by
  decide +kernel

/-- A rebuild of a view that is there and one of a view that is dropped; one that succeeds and one that meets a NaN. -/
def stReb (serial : Nat) (first : List Byte) : State :=
  let v := { view0 with kind := 1, tfmt := 2, gen := 1 }
  let s := st0.modAllot 0 fun a => { a with views := [v] }
  { s with hreqs := [{ (default : HReq) with al := 0, slot := 0, serial := serial, group := 0, gen := 1 }], mem := s.mem.writeN 0x40000 first }

def rebuiltB (s : State) : Option (Option Nat) :=
  match s.view? 0 0 1, s.hreqs with
  | some v, r :: _ =>
    match ((({ s with hreqs := [], plat := { s.plat with harrowLast := s.plat.harrowLast.set 0 0 1 } } : State).recallViews 0 v.serial (some r.group)
        false).rebuild v 0 r.group r.gen) with
    | .ok _ => some none
    | .error n => some (some n)
  | _, _ => none

theorem test_met_Rebuilds :
    ((stReb 2 []).hreqs.find? fun x => x.die == 0 && x.harrow == 0 && x.al == 0).map (·.serial) = some 2 ∧
    (stReb 2 []).view? 0 0 2 = none ∧ ((stReb 1 []).view? 0 0 1).isSome = true ∧ (stReb 1 []).plat.draining = false ∧
    (stReb 1 []).plat.harrowLast.get 0 0 = 0 ∧ rebuiltB (stReb 1 []) = some none ∧
    rebuiltB (stReb 1 (toBytes 4 0x7FC00000)) = some (some 1) := by
  refine ⟨?_, ?_, ?_, ?_, ?_, ?_, ?_⟩ <;> decide +kernel

/-- A view whose elements are copied; blocks of the narrow formats and of Tilth-4 of FP32 masters: finite, with and without an outlier, and
with a NaN. -/
theorem test_met_RebuiltBlocks :
    (({ view0 with tfmt := 15 } : View).tfmt = 15) ∧ (∀ t ∈ [1, 2, 3, 4, 5], t < 6 ∧ (narrowFmt t).isSome = true) ∧ (narrowFmt 2).isSome = true ∧
    (List.replicate 32 0x3F800000).length = 32 ∧ (∀ b ∈ List.replicate 32 0x3F800000, b < 2 ^ (1 + fp32.ew + fp32.mw)) ∧
    (∀ b ∈ List.replicate 32 0x3F800000, Ref.special fp32 b = false) ∧ Ref.special fp32 0x7FC00000 = true := by
  decide +kernel

theorem test_met_TilthBlocks :
    (let v : View := { view0 with tfmt := 8 }
     v.tfmt = 8 ∧ v.mfmt = 0) ∧
    (∀ bits ∈ [List.replicate 32 0x3F800000, 0x41A00000 :: List.replicate 31 0x3F800000, List.replicate 32 0], bits.length = 32 ∧
      (∀ b ∈ bits, b < 2 ^ (1 + fp32.ew + fp32.mw)) ∧ ∀ b ∈ bits, Ref.special fp32 b = false) ∧ Ref.special fp32 0x7F800000 = true := by
  decide +kernel

/-- Queue register 1 in each kind of binding; a drill binding with the given parts. -/
def stB (f : DBind → DBind) : State :=
  let s := onGang (stV 0x1000#32) fun g => { g with qb := g.qb.set .none 1 (.drill 7) }
  { s with dbinds := [f { (default : DBind) with id := 7, q := 1, gang := (cx st0).uid, blk := (cx st0).blk.uid }] }

def stHar : State := onGang (stV 0#32) fun g => { g with qb := g.qb.set .none 1 .harrow }

/-- A command of one dimension of two elements of four bytes, from the rows at 0 to the rows at 64, with token s2. -/
def cmd0 : Cmd := { seq := 5, words := [BitVec.ofNat 64 (1 + 2 * 2 ^ 10 + 2 * 2 ^ 12 + 2 ^ 18 + 2 ^ 20), 0, 64, 2, 4 + 4 * 2 ^ 32], after := [] }

/-- A fill of two elements of four bytes at 0x20080 in memory. -/
def cmd1 : Cmd := { seq := 5, words := [BitVec.ofNat 64 (2 + 2 * 2 ^ 10 + 2 * 2 ^ 12), 7, 0x20080, 2, 4 * 2 ^ 32], after := [] }

/-- No lane enabled; a drill that runs a command, one at rest, one with a part of a command; no drill, with and without one in the
quota. -/
theorem test_met_QueueBindings :
    Issues st0 (cx st0) g0 [⟨fD, .q 1⟩] ∧ st0.lanesFor (cx st0) g0 = 0#32 ∧
    (∀ s ∈ [stB id, stB fun b => { b with cmds := [cmd0] }, stB fun b => { b with part := [0x2000#64] }, stHar, st0,
        st0.modAllot 0 fun a => { a with quota := a.quota.set 0 8 2 }],
      issuesB s g7 [⟨fD, .q 1⟩] = true ∧ s.lanesFor (cx s) g7 ≠ 0#32) ∧
    ((stB id).dbind? 7).map (fun b => (b.run, b.cmds, b.part)) = some (none, [], []) ∧
    (cx (stB id)).gang.qbind 1 = .drill 7 ∧ (cx stHar).gang.qbind 1 = .harrow ∧ (cx st0).gang.qbind 1 = .none ∧
    ((st0.modAllot 0 fun a => { a with quota := a.quota.set 0 8 2 }).allot 0).quota.get 0 8 / 2 ^ 1 % 2 = 1 := by
  refine ⟨issues_of ?_, ?_, ?_, ?_, ?_, ?_, ?_, ?_⟩ <;> decide +kernel

/-- A push to no drill, to a full one, as the first word with a declared and an undeclared token register, and as a later word; a
pop from each kind of binding, empty and not. -/
theorem test_met_QueueWords :
    (∀ s ∈ [stV 0#32, stHar, stB id, stB fun b => { b with part := [0x2000#64, 1] }, stB fun b => { b with ret := [4] },
        stB fun b => { b with cmds := List.replicate 7 cmd0, part := [0x2000#64] }, onBlock stHar fun b => { b with hq := [3] }],
      issuesB s g7 ((⟨fD, .q 1⟩ : Use) :: (Src.v 4).uses fA true) = true ∧ issuesB s g7 ((Dst.v 8).uses true ++ [⟨fA, .q 1⟩]) = true ∧
      s.lanesFor (cx s) g7 ≠ 0#32 ∧ s.outstanding (cx s).uid (slicesIn (s.lanesFor (cx s) g7)) true = false) ∧
    ((cmd0.words.length * 7 + 1 = 36) ∧ 0x1000 / 2 ^ 12 % 64 < 4 * (cx st0).blk.k.scal ∧ ¬ 63 < 4 * (cx stU).blk.k.scal) := by
  refine ⟨?_, ?_⟩ <;> decide +kernel

/-- An unbound queue in the mask; queues at rest; a command before the fence; accesses outstanding. -/
theorem test_met_QueueJoins :
    (∀ s ∈ [st0, stHar, stB id, stB fun b => { b with cmds := [cmd0] }],
      issuesB s g7 [⟨fM, .q 1⟩] = true ∧ s.lanesFor (cx s) g7 ≠ 0#32 ∧ s.outstanding (cx s).uid (slicesIn (s.lanesFor (cx s) g7)) true = false) ∧
    ((List.range 4).filter fun q => (2#4).getLsbD q) = [1] ∧ (cx st0).gang.qbind 1 = .none ∧ (cx stHar).gang.qbind 1 = .harrow ∧
    (cx (stB id)).gang.qbind 1 = .drill 7 ∧ ((stB id).dbind? 7).map (fun b => b.q) = some 1 := by
  refine ⟨?_, ?_, ?_, ?_, ?_, ?_⟩ <;> decide +kernel

/-- Copies from memory into the rows that c.0 names, from the rows to a peer module, and from a peer module to the rows. -/
def cmd2 : Cmd := { cmd0 with words := [BitVec.ofNat 64 (1 + 2 * 2 ^ 10 + 2 * 2 ^ 12 + 2 * 2 ^ 20), 0x20080, 64, 2, 4 + 4 * 2 ^ 32] }
def cmd3 : Cmd := { cmd0 with words := [BitVec.ofNat 64 (1 + 2 * 2 ^ 10 + 2 * 2 ^ 12 + 2 ^ 18 + 3 * 2 ^ 20), 0, 0x40000000, 2, 4 + 4 * 2 ^ 32] }
def cmd4 : Cmd := { cmd0 with words := [BitVec.ofNat 64 (1 + 2 * 2 ^ 10 + 2 * 2 ^ 12 + 3 * 2 ^ 18 + 2 ^ 20), 0x40000000, 64, 2, 4 + 4 * 2 ^ 32] }

/-- A command at its start, at its first and last elements, and past them; or ended. The page at 2^30 lies at a peer. -/
def stD (k : Cmd) (run : Option Nat) (ending : Option Nat := none) : State :=
  let s := (stB fun b => match run with
    | none => { b with cmds := [k] }
    | some i => { b with run := some ⟨k, i, 4 * i, [], ending, some 0, some 0⟩ }).modAllot 0 fun a => { a with quota := a.quota.set 0 7 1000 }
  { s with tlb := [{ tlbEntry true true true true true 0x8000000000000 with unit := 256 + (s.place 0 0 0).getD 0 }] }

/-- The sides of a command's first element, by their kind: memory or a peer, or rows. -/
def sideB (s : State) (k : Cmd) (dst : Bool) : Bool :=
  let p := Ref.cmdPos k dst (Ref.cmdBase k dst) 0
  let kind := Ref.cmdKind k dst
  decide (0 ≤ p) && if kind = 0 ∨ kind = 3 then
    decide (p < 2 ^ 56) && match s.translate (256 + (s.place 0 0 0).getD 0) 0 p.toNat (if dst then .write else .read) with
      | .ok (pa, u) => isPeer pa == (kind == 3) && u.peerUp pa && (if dst then !u.isViewPage pa else !u.damaged (pa / 128 * 128))
      | .error _ => false
  else decide (p < 2 ^ 32) && match if kind = 1 then some ((cx s).blk, p.toNat) else s.remoteTarget (cx s).blk 0 p.toNat with
      | some (x, o) => s.block? x.uid == some x && x.away == [] && decide (o + 4 ≤ 1024 * x.k.scratch)
      | none => false

theorem test_met_DrillSteps :
    (∀ k ∈ [cmd0, cmd1, cmd2, cmd3, cmd4], ∀ run ∈ [none, some 0, some 1, some 2],
      ((stD k run).dbind? 7).isSome = true ∧ (stD k run).plat.draining = false ∧ (stD k run).entered (publisher 7 0) = true ∧
      (stD k run).dbinds.map (·.id) = [7] ∧ (stD k run).block? (cx st0).blk.uid = some (cx st0).blk ∧
      ((stD k run).allot 0).drillBytes < ((stD k run).allot 0).quota.get 0 7) ∧
    (∀ k ∈ [cmd0, cmd1, cmd2, cmd3, cmd4], k.check (some 0) (some 0) = 0 ∧ Ref.cmdTotal k = 2 ∧ k.after = [] ∧
      (Ref.cmdWord k 0 % 256 = 2 ∨ sideB (stD k (some 0)) k false = true) ∧ sideB (stD k (some 0)) k true = true) ∧
    (([cmd0, cmd1, cmd2, cmd3, cmd4].map fun k => (Ref.cmdWord k 0 % 256, Ref.cmdKind k false, Ref.cmdKind k true)) =
      [(1, 1, 1), (2, 0, 0), (1, 0, 2), (1, 1, 3), (1, 3, 1)]) ∧
    ((stD cmd1 (some 1) (some 6)).dbind? 7).map (fun b => b.run.map (·.ending)) = some (some (some 6)) ∧
    (Ref.cmdPos cmd0 true 64 1 = 68 ∧ Ref.cmdPos cmd0 false 0 1 = 4 ∧ Ref.cmdPos cmd1 true 0x20080 1 = 0x20084) ∧
    Ref.cmdWord { cmd0 with words := [0x400000#64] } 0 / 2 ^ 22 ≠ 0 ∧
    (let s := { stD cmd1 (some 1) (some 6) with
      hreqs := List.replicate 8193 { (default : HReq) with who := publisher 7 0 } }
     s.entered (publisher 7 0) = false) ∧
    (let s := stD cmd0 (some 0)
     let other := { (default : DBind) with id := 8, run := some ⟨cmd0, 0, 0, [], none, some 0, some 0⟩, served := 4 }
     ({ s with dbinds := s.dbinds ++ [other] } : State).dbinds.map (·.served) = [0, 4]) := by
  refine ⟨?_, ?_, ?_, ?_, ?_, ?_, ?_, ?_⟩ <;> decide +kernel

/-- A load of the scratchpad to `zero`, and to a queue that is bound to a drill, from rows that are in place. -/
theorem test_met_ScratchToQueues :
    ldsB (stS 16368#32) g7 ((Src.v 4).uses fA false) none .b32 0 = true ∧
    (let s := stB id
     ldsB s g7 (⟨fD, .q 1⟩ :: (Src.v 4).uses fA false) none .b32 0 = true ∧ (lanesOf (s.lanesFor (cx s) g7)).head? = some 0 ∧
       (cx s).blk.away = [] ∧ s.saccs = [] ∧
       (match s.operands (cx s) g7 [.v 4] with
        | .ok (_, p) => p.block? (cx s).blk.uid == some (cx s).blk
        | .error _ => false) = true) ∧
    (let s := stB fun b => { b with part := [0x2000#64] }
     ldsB s g7 (⟨fD, .q 1⟩ :: (Src.v 4).uses fA false) none .b32 0 = true ∧
       (match s.operands (cx s) g7 [.v 4] with
        | .ok (_, p) => okB (p.delivers (cx s) (s.lanesFor (cx s) g7) (.q 1) 0x2000#64)
        | .error _ => false) = true) := by
  refine ⟨?_, ?_, ?_⟩ <;> decide +kernel

/-- Allotment 0 with room of every kind in its quota, whose interface 0 it owns. -/
def stQuota (s : State) : State :=
  let items := [(0, 0x100 * 2 ^ 16), (1, 0x100 * 2 ^ 16), (2, 0x100 * 2 ^ 16), (3, 0x100 * 2 ^ 16), (4, 0x100 * 2 ^ 16)]
  let s := s.modAllot 0 fun a => { a with quota := items }
  let r := { s.regs with viown := s.regs.viown.set 0#64 0 16 }
  { s with regs := r }

/-- A launch record at 0x60000 with the given address and shape, and a kernel header at 0x70000; scalar 3 holds `x`. -/
def stRec (x : W64) (hdr shape : Nat) : State :=
  let s := stQuota (stSc st0 x)
  let rec' := [hdr, shape, 0x80000, 7, 0x90000, 0, 0, 0].flatMap fun w => toBytes 8 w
  let ker := [0x40, 4 + 4 * 2 ^ 6 + 2 * 2 ^ 11 + 2 ^ 23, 0, 0x80, 0, 0, 0, 0].flatMap fun w => toBytes 8 w
  { s with mem := (s.mem.writeN 0x60000 rec').writeN 0x70000 ker }

/-- What the record gives: the number of the check it fails, or nothing. -/
def recordB (s : State) (x : Nat) : Option (Option Nat) :=
  match (s.issuing (cx s) g7).publish (cx s) .device (List.range 8) with
  | .error _ => none
  | .ok q => match q.readLaunch (gangReader (cx s)) (cx s).core (cx s).al (q.topClass (cx s)) x false with
    | .ok _ => some none
    | .error (.trap t) => some (some t.kind)
    | .error _ => none

/-- A launch that waits to be entered; records with each failing check; accesses outstanding; a full queue. -/
theorem test_met_LaunchWords :
    (∀ s ∈ [stRec 0x60000 0x70000 (4 + 32 * 2 ^ 32), stRec 0x60008 0x70000 0],
      issuesB s g7 [⟨fD, .s 5⟩, ⟨fA, .s 3⟩] = true ∧ s.lanesFor (cx s) g7 ≠ 0#32 ∧
      s.outstanding (cx s).uid (slicesIn (s.lanesFor (cx s) g7)) true = false ∧ (s.allot 0).launches.length < 4096) ∧
    recordB (stRec 0x60000 0x70000 (4 + 32 * 2 ^ 32)) 0x60000 = some none ∧
    recordB (stRec 0x60000 0x70001 (4 + 32 * 2 ^ 32)) 0x60000 = some (some 0) ∧
    recordB (stRec 0x60000 0x70000 (32 * 2 ^ 32)) 0x60000 = some (some 1) ∧
    recordB (stRec 0x60008 0x70000 0) 0x60008 = some (some 0) ∧
    issuesB stOut g7 [⟨fD, .s 5⟩, ⟨fA, .s 3⟩] = true ∧
    stOut.outstanding (cx stOut).uid (slicesIn (stOut.lanesFor (cx stOut) g7)) true = true := by
  refine ⟨?_, ?_, ?_, ?_, ?_, ?_, ?_⟩ <;> decide +kernel

/-- A launch with identifier 5; scalar 3 names it. -/
def stLid (f : Launch → Launch) : State :=
  let l := f { (default : Launch) with lid := 5, grid := 4, threads := 32, csize := 1, k := { wordKernel with regs := 4, pop := true, popa := 2, popb := 5 } }
  (stQuota (stSc st0 5)).modAllot 0 fun a => { a with launches := [l] }

/-- No launch; one at work; one that is complete; accesses outstanding. -/
theorem test_met_StatusWords :
    (∀ s ∈ [stSc st0 5, stLid id, stLid fun l => { l with complete := true, completeNo := 1 }, stSc stOut 5],
      issuesB s g7 ((Dst.v 8).uses true ++ [⟨fA, .s 3⟩]) = true ∧ issuesB s g7 [⟨fA, .s 3⟩] = true ∧ s.lanesFor (cx s) g7 ≠ 0#32) ∧
    ((stLid id).allot 0).launches.map (fun l => (l.hl, l.lid, l.complete)) = [(false, 5, false)] ∧
    (cx (stLid id)).gang.isOver = false ∧ (cx (stLid id)).gang.live ≠ 0#32 ∧
    (∀ b ∈ (stLid id).blocks, ¬ (b.al = 0 ∧ b.lid = 5)) := by
  refine ⟨?_, ?_, ?_, ?_, ?_⟩ <;> decide +kernel

def amsendUses : List Use :=
  (⟨fD, .p 1⟩ : Use) :: (Src.v 4).uses fA false ++ (Src.v 5).uses fB false ++ (List.range 4).map fun j => ⟨fC, .v (8 + j)⟩

/-- A kernel with one handler, in a population. -/
def stPop (n : Nat) : State := onBlock (stV 0#32) fun b => { b with k := { b.k with hcount := n, pop := true } }

/-- A core that is mapped and one that is not; a handler the kernel has and has not; a full sower; a kernel of a population and
another. -/
theorem test_met_MessagesAndWeights :
    (∀ s ∈ [stPop 1, stPop 0, stV 0xFFF#32, (stPop 1).modCore 0 fun c => { c with sower := List.replicate 64 { (default : Msg) with al := 0 } }],
      issuesB s g7 amsendUses = true ∧ issuesB s g7 ((⟨fD, .p 1⟩ : Use) :: (Src.v 4).uses fA false) = true ∧ s.lanesFor (cx s) g7 ≠ 0#32 ∧
      okB (s.operands (cx s) g7 [.v 4, .v 5]) = true ∧ okB ((s.issuing (cx s) g7).publish (cx s) .device (List.range 8)) = true ∧
      (s.issuing (cx s) g7).outstanding (cx s).uid (cx s).grp.slices true = false) ∧
    (st0.place 0 2 0).isSome = true ∧ st0.place 0 2 0xFFF = none ∧ (cx (stPop 1)).blk.k.pop = true ∧ (cx (stPop 1)).blk.handler = false ∧
    (cx st0).blk.k.pop = false := by
  refine ⟨?_, ?_, ?_, ?_, ?_, ?_⟩ <;> decide +kernel

/-- Allotment 0 runs, with one launch of four blocks; its table maps the dies and one core; quotas of units of each kind. -/
def stDeal (f : State → State) : State :=
  f ((stLid id).modAllot 0 fun a => { a with
    place := [(0, 1#64), (1, 0x101#64), (2, 0x201#64), (3, 0x301#64), (512, 1#64)]
    quota := [(0, 8 * 2 ^ 16), (1, 64 * 2 ^ 16), (2, 144 * 2 ^ 16), (3, 32 * 2 ^ 16), (4, 16 * 2 ^ 16)]
    launches := a.launches.map fun l => { l with k := { l.k with lines := 1, scratch := 1, tiles := 1 } } })

/-- Its blocks dealt, as two batches of die 1. -/
def stSteal : State :=
  { (stDeal id).modAllot 0 (fun a => { a with launches := a.launches.map fun l => { l with dealt := 4 } }) with
    batches := [⟨0, 5, 1, 0, 2⟩, ⟨0, 5, 1, 2, 4⟩] }

/-- One launch waits, and a die has room for it. -/
def dealB (s : State) : Bool :=
  match s.waiting with
  | [(al, l)] => al == 0 && l.lid == 5 && (s.dealTo al l).isSome
  | _ => false

/-- Die 0 has no batch and may take one of die 1's. -/
def stealB (s : State) : Bool :=
  match s.launch? 0 5 with
  | some l => (s.batches.all fun b => s.dieOf b.al b.die != s.dieOf 0 0) && s.waiting.isEmpty && s.dieRoom 0 l 0 != 0 && !l.cancelled
  | none => false

/-- A group that has been ready for 1,024 cycles, and one that is not marked so. -/
def stReady (t : Option Nat) : State :=
  { onGang st0 (fun g => { g with groups := g.groups.map fun x => { x with readySince := t } }) with clock := 1024 }

def readyB (t : Option Nat) : Bool :=
  match (stReady t).ctx ⟨0, 0, 0⟩ with
  | some c => (stReady t).eligible c && c.grp.readySince == t
  | none => false

/-- A launch that waits for its first batch; two batches of one die and none of another; a group long ready, and one not. -/
theorem test_met_DealingWork :
    dealB (stDeal id) = true ∧ stealB stSteal = true ∧ readyB (some 0) = true ∧ readyB none = true ∧ (stDeal fun s =>
      s.modAllot 0 fun a => { a with launches := [] }).waiting.isEmpty = true := by
  refine ⟨?_, ?_, ?_, ?_, ?_⟩ <;> decide +kernel

/-- A batch whose next block has a place on core 0. -/
def stPlace : State := { stDeal id with batches := [⟨0, 5, 0, 0, 4⟩] }

def placeB (s : State) : Bool :=
  match s.launch? 0 5, s.nextBatch 0 5 0 with
  | some l, some b => !s.olderFits 0 l 0 && l.csize == 1 && !l.k.inhv && !l.cancelled &&
    (match s.spots 0 l 0 b.lo with
      | some [p] => p.core == 0 && p.bid == 0
      | _ => false) && (s.core 0).sower.isEmpty
  | _, _ => false

/-- A message for a handler. -/
def stSower : State := (stDeal id).modCore 0 fun c => { c with sower := [{ (default : Msg) with al := 0, lid := 5 }] }

def sowerB (s : State) : Bool :=
  match s.launch? 0 5, (s.core 0).sower.filter fun m => m.al == 0 with
  | some l, [m] => m.lid == 5 && decide (0 < s.blockRoom 0 0 l.k 1 [])
  | _, _ => false

/-- Core 0 serves the one allotment, which runs. -/
def oursB (s : State) : Bool :=
  (s.allot 0).st == .running && (s.blocks.all fun b => b.core != 0 || b.al == 0) &&
    (s.gangs.all fun g => g.core != 0 || s.blocks.all fun b => b.uid != g.blk || b.al == 0) && (s.core 0).held.isEmpty

/-- A batch whose next block has a place on core 0, and a message for a handler. -/
theorem test_met_PlacedBlocks :
    placeB stPlace = true ∧ oursB stPlace = true ∧ sowerB stSower = true ∧ oursB stSower = true := by
  refine ⟨?_, ?_, ?_, ?_⟩ <;> decide +kernel

/-- Blocks left to deal; nothing left, with and without a completion record. -/
theorem test_met_LaunchesComplete :
    ∀ f ∈ [(id : Launch → Launch), fun l => { l with done := 4 }, fun l => { l with done := 4, crec := 0xA0000 }],
      ((stLid f).launch? 0 5).map (fun l => (l.hl, l.complete, l.mode, l.cancelled)) = some (false, false, 0, false) ∧
      (∀ b ∈ (stLid f).blocks, ¬ (b.al = 0 ∧ b.lid = 5)) ∧ (∀ k ∈ (stLid f).cores, k.sower = []) ∧ (stLid f).reqs = [] ∧
      (stLid f).dbinds = [] := by
  decide +kernel

/-- A population of one gang (of number 2) whose lanes have arrived with weight `w`. -/
def stRes (w : W32) : State :=
  let s := waits (stLid fun l => { l with grid := 1, placed := 1, arrivals := (List.range 32).map fun k => ⟨2, k, w⟩ }) (.resamp 1)
  onBlock s fun b => { b with lid := 5, headland := false, bid := 0 }

/-- The hypotheses of `Resampling` but those on the weights. -/
def resB (s : State) (w : W32) : Bool :=
  match s.gangs, s.blocks, (s.allot 0).launches with
  | [g], [b], [l] => match g.groups with
    | [x] => g.blk == b.uid && b.al == 0 && b.lid == l.lid && !b.handler && !b.ended && b.bid == 0 && g.gid == 0 &&
        x.wait == .resamp 1 && !x.sw && !g.isOver && !g.spilled && g.live != 0#32 &&
        ((List.range 32).all fun k => !g.live.getLsbD k || x.slices.contains (k / 4)) && (s.allot 0).st == .running &&
        decide (l.grid ≤ l.placed) && !l.cancelled && !l.complete &&
        ((lanesOf g.live).all fun k => l.arrivals.find? (fun a => a.gang == g.uid && a.lane == k) == some ⟨g.uid, k, w⟩)
    | _ => false
  | _, _, _ => false

theorem test_met_Resampling : resB (stRes 0) 0 = true ∧ resB (stRes 0x3F800000#32) 0x3F800000#32 = true := by
  decide +kernel

theorem test_met_Resampling_weights :
    Ref.weight 0#32 = 0 ∧ Ref.pow2 0 ≤ Ref.weight 0x3F800000#32 ∧ Ref.weight 0x3F800000#32 < Ref.pow2 (0 + 1) ∧
    ((2 ^ 86 : Nat) : Rat) ≤ Ref.weight 0x3F800000#32 * Ref.pow2 (86 - 0) ∧
    Ref.weight 0x3F800000#32 * Ref.pow2 (86 - 0) < ((2 ^ 86 : Nat) : Rat) + 1 := by
  decide +kernel

/-- The block of a tenant: no register of the closed ranges is its own. -/
def stTenant : State := onBlock st0 fun b => { b with headland := false }

/-- Both sides of the closed ranges; registers of each answer. -/
theorem test_met_SystemRegisterReads :
    (∀ s ∈ [stTenant, st0], issuesB s g7 ((Dst.v 8).uses true) = true ∧ s.lanesFor (cx s) g7 ≠ 0#32) ∧
    ((cx stTenant).blk.headland = false ∧ (cx st0).blk.headland = true ∧ (cx st0).blk.al = 0) ∧
    ((stLid id).launch? 0 5).isSome = true := by
  refine ⟨?_, ?_, ?_⟩ <;> decide +kernel

/-- Scalar 3 holds the value to write, in a block of the headland of allotment 0. -/
def stWr (x : W64) : State := stSc st0 x

def wrUses : List Use := (Src.s 3).uses fA true

/-- A write issues, with lanes enabled. -/
def wrB (s : State) (x : Nat) : Bool :=
  issuesB s g7 wrUses && s.lanesFor (cx s) g7 != 0#32 && goesTo s g7 (.s 3) 0 == x

/-- Ring sizes 5, 6, 12 and 13; a tenant's block; in the handler; an interface that is owned, and one that is not. -/
theorem test_met_SystemRegisterWrites :
    wrB (stWr 5) 5 = true ∧ wrB (stWr 6) 6 = true ∧ wrB (stWr 12) 12 = true ∧ wrB (stWr 13) 13 = true ∧
    issuesB stTenant g7 wrUses = true ∧ issuesB (stH (List.range 8) 0 0x10000) g7 wrUses = true ∧
    (stQuota st0).regs.viown.get 0#64 0 = 16#64 ∧ st0.regs.viown.get 0#64 1 = 0#64 := by
  refine ⟨?_, ?_, ?_, ?_, ?_, ?_, ?_, ?_⟩ <;> decide +kernel

theorem test_met_ActingWrites :
    wrB (stWr 0) 0 = true ∧ wrB (stWr 1) 1 = true ∧ (cx (stWr 1)).blk.headland = true ∧ (cx (stWr 1)).blk.al = 0 ∧
    ((stWr 1).core 0).frozen = none ∧ 0 < (stWr 1).cores.length ∧
    (let s := onBlock (stWr 0) fun b => { b with al := 1 }
     wrB s 0 = true ∧ (cx s).blk.headland = true ∧ (cx s).blk.al = 1) := by
  refine ⟨?_, ?_, ?_, ?_, ?_, ?_, ?_⟩ <;> decide +kernel

/-- A good size, everything, a bad size and a reserved bit. -/
theorem test_met_Shootdowns :
    wrB (stWr 2) 2 = true ∧ wrB (stWr 8) 8 = true ∧ wrB (stWr 6) 6 = true ∧ wrB (stWr 0x100) 0x100 = true ∧
    (cx (stWr 2)).blk.headland = true ∧ (cx (stWr 2)).gang.isOver = false ∧
    (stWr 2).outstanding (cx (stWr 2)).uid (List.range 8) true = false ∧
    okB (((stWr 2).issuing (cx (stWr 2)) g7).publish (cx (stWr 2)) .device (List.range 8)) = true ∧
    ((stWr 2).gangs.any fun g => g == (cx (stWr 2)).gang) = true ∧ ((stWr 2).gangs.all fun g => g.lateLoads == []) = true := by
  refine ⟨?_, ?_, ?_, ?_, ?_, ?_, ?_, ?_, ?_, ?_⟩ <;> decide +kernel

/-- A slice that has retired the count, and one that has not; words of each kind without an opcode. -/
def stopB (cnt : W64) : Bool :=
  let s := onBlock (stLid fun l => { l with stop := some (0x3000000000#64, cnt) }) fun b => { b with lid := 5 }
  match s.ctx ⟨0, 0, 0⟩, s.launch? 0 5 with
  | some c, some l => !c.blk.handler && c.blk.bid == 0 && c.gang.gid == 0 && c.grp.slices.contains 3 && c.grp.wait == .none &&
      l.stop == some (0x3000000000#64, cnt) && !s.draining c && (s.allot 0).st == .running && (c.gang.slice 3).retc == 0
  | _, _ => false

theorem test_met_MarksAndStops :
    Issues st0 (cx st0) g7 ((Src.v 4).uses fA true) ∧ stopB 0 = true ∧ stopB 5 = true ∧
    (full 0x01B 0 1 2 3 452 0).getLsbD 62 = false ∧ (paired (halfBits 0x0F 1 2 7 0) 0).getLsbD 62 = true ∧
    (let k := st0.core 0
     st0.regs.trmask.getLsbD 40 = true ∧ st0.regs.trtrig.getLsbD 15 = false ∧ k.frozen = none ∧ k.post = none ∧ k.trigPend = false ∧
       k.lost = 0 ∧ k.recCycle ≠ { st0 with clock := 5 }.clock ∧ 0 < st0.cores.length) := by
  refine ⟨issues_of ?_, ?_, ?_, ?_, ?_, ?_⟩ <;> decide +kernel

/-- Scalars 3 and 4 hold the operands of a privileged allotment word. -/
def stPriv (x y : W64) : State := stSc (onGang st0 fun g => { g with s := g.s.set 0 4 y }) x

def privUses : List Use := [⟨fD, .p 1⟩, ⟨fA, .s 3⟩, ⟨fB, .s 4⟩]

def privB (x y : W64) : Bool :=
  let s := stPriv x y
  issuesB s g7 privUses && s.lanesFor (cx s) g7 != 0#32

/-- The last place of each part and the first beyond it; a reserved bit; a running allotment (0). -/
theorem test_met_PlaceTables :
    privB 0x30001 1 = true ∧ privB 0x40001 1 = true ∧ privB 0x2F0101 1 = true ∧ privB 0x300101 1 = true ∧ privB 0xBF0201 1 = true ∧
    privB 0xC00201 1 = true ∧ privB 0x301 1 = true ∧ privB 0x30000 1 = true ∧ privB 0x30001 0 = true ∧ privB 0x30001 2 = true ∧
    (((stPriv 0 0).allot 1).st == .running) = false ∧ (((stPriv 0 0).allot 0).st == .running) = true ∧
    1 < (stPriv 0 0).allots.length := by
  refine ⟨?_, ?_, ?_, ?_, ?_, ?_, ?_, ?_, ?_, ?_, ?_, ?_, ?_⟩ <;> decide +kernel

/-- Each item at its limit and beyond it, in a free allotment; RELEASE of a ready one. -/
theorem test_met_Quotas :
    privB 0x001 0x100000 = true ∧ privB 0x001 0x110000 = true ∧ privB 0x101 0x800000 = true ∧ privB 0x101 0x810000 = true ∧ privB 0x201 0x8000000 = true ∧
    privB 0x201 0x8080000 = true ∧ privB 0x301 0x1800000 = true ∧ privB 0x401 0x400000 = true ∧ privB 0x501 2 = true ∧ privB 0x601 1024 = true ∧
    privB 0x601 1023 = true ∧ privB 0x701 0x10000000000 = true ∧ privB 0x801 2 = true ∧ privB 0x901 64 = true ∧ privB 0x901 63 = true ∧
    privB 0xA01 3968 = true ∧ privB 0xA01 3969 = true ∧ privB 0xB01 3 = true ∧ privB 0xB01 4 = true ∧ privB 0xC01 0 = true ∧
    privB 0xF01 0 = true ∧ privB 0xF01 1 = true ∧
    ((stPriv 0 0).allot 1).st = .free ∧ (((stPriv 0 0).modAllot 1 fun a => { a with st := .ready }).allot 1).launches = [] := by
  refine ⟨?_, ?_, ?_, ?_, ?_, ?_, ?_, ?_, ?_, ?_, ?_, ?_, ?_, ?_, ?_, ?_, ?_, ?_, ?_, ?_, ?_, ?_, ?_, ?_⟩ <;> decide +kernel

/-- Allotment 1 in a state. -/
def stAl (st : AState) : State := (stPriv 1 0).modAllot 1 fun a => { a with st := st }

/-- Allotment 0 and allotment 1 in each state, with no gang of its own. -/
theorem test_met_FallowWords :
    (∀ st ∈ [AState.free, .ready, .running, .fallow, .stopped], issuesB (stAl st) g7 [⟨fD, .p 1⟩, ⟨fA, .s 3⟩] = true ∧
      (stAl st).lanesFor (cx (stAl st)) g7 ≠ 0#32 ∧ ((stAl st).allot 1).st = st ∧ (stAl st).passes = [] ∧
      (∀ g ∈ (stAl st).gangs, ∀ b ∈ (stAl st).blocks, b.uid = g.blk → b.al ≠ 1) ∧ ((stAl st).allot 1).count 0 = 0 ∧
      (∀ b ∈ (stAl st).blocks, b.al ≠ 1) ∧ (stAl st).reqs = [] ∧ (stAl st).dbinds = [] ∧ (stAl st).recordsDue 1 = false ∧
      ((stAl st).allot 1).dirty = []) ∧
    (let s := (stAl .running).modAllot 1 fun a => { a with pendTraps := [⟨[1], 0, 0⟩], trbase := 0x100006#64 }
     issuesB s g7 [⟨fD, .p 1⟩, ⟨fA, .s 3⟩] = true ∧ (s.allot 1).st = .running ∧ s.recordsDue 1 = true) ∧
    (∀ k ∈ (stAl .running).cores, k.entries = [] ∧ k.held = []) ∧ issuesB (stPriv 0 0) g7 [⟨fD, .p 1⟩, ⟨fA, .s 3⟩] = true := by
  refine ⟨?_, ?_, ?_, ?_⟩ <;> decide +kernel

/-- Allotment 1 ready to start: a quota, a save area, and the record of its headland, in memory that stage two does not move. -/
def stStart : State :=
  let items := [(0, 0x10 * 2 ^ 16), (1, 0x10 * 2 ^ 16), (2, 0x100 * 2 ^ 16), (3, 0x10 * 2 ^ 16), (4, 0), (5, 2), (6, 1024), (7, 0), (8, 0), (9, 64),
    (10, 64), (11, 0)]
  let s := (stRec 1 0x70000 (1 + 32 * 2 ^ 32)).modAllot 1 fun a =>
    { a with st := .ready, quota := items, save := 0xFFFFF#64, hlrec := 0x60000#64, pt1 := 0x1000#64, pt2 := 0x1000#64, place := [(512, 1#64)] }
  let r := { s.regs with viown := s.regs.viown.set 0#64 0 17 }
  let s := s.modAllot 0 fun a => { a with quota := (List.range 5).map fun i => (i, 0x300 + 0) }
  { s with regs := r }

theorem test_met_FallowStart :
    issuesB stStart g7 [⟨fD, .p 1⟩, ⟨fA, .s 3⟩] = true ∧ (stStart.issuing (cx stStart) g7).startOk 1 = true ∧
    stStart.place 1 2 0 = some 0 ∧ 0 ∈ stStart.enabled ∧
    (match (stStart.issuing (cx stStart) g7).readLaunch (homeReader 1) 256 1 ((stStart.allot 1).item 11) 0x60000 true with
      | .ok (l, q) => decide ((l.threads + 31) / 32 ≤ (q.slotsFor 1 0 l.k []).length)
      | .error _ => false) = true := by
  refine ⟨?_, ?_, ?_, ?_, ?_⟩ <;> decide +kernel

/-- Both halves name declared registers of other banks; a register beyond the declared; one of a bank that half 0 names. -/
theorem test_met_PairedWords :
    st0.cur.bind st0.ctx = some (cx st0) ∧ (cx st0).gang.busy = [] ∧
    Ref.halfRegs .add ⟨1, 2, 7, 0⟩ = [1, 2] ∧ Ref.halfRegs .movi ⟨7, 4, 7, 0⟩ = [7] ∧ Ref.halfRegs .nop ⟨7, 4, 7, 0⟩ = [] ∧
    (∀ n ∈ [1, 2, 7, 5, 31], n < 8 * (cx st0).blk.k.regs) ∧
    ¬ 100 < 8 * (cx (onBlock st0 fun b => { b with k := { b.k with regs := 8 } })).blk.k.regs ∧ 5 % 4 = 1 % 4 := by
  refine ⟨?_, ?_, ?_, ?_, ?_, ?_, ?_, ?_⟩ <;> decide +kernel

/-- Interface 0 belongs to allotment 0 and has a window of 2^k bytes. -/
def stWin (k : W64) : State :=
  let r := (stQuota st0).regs
  { stQuota st0 with regs := { r with viwin := r.viwin.set 0#64 0 (0x200000#64 ||| k) } }

/-- A root of stage two whose leaf cannot be written. -/
def stReadOnly : State :=
  let s := (stWin 21).modAllot 0 fun a => { a with pt2 := 0x1000#64 }
  { s with mem := s.mem.writeN 0x3000 (toBytes 8 0x17) }

def winB (k : W64) : Bool :=
  let r := (stWin k).regs
  (r.viown.get 0#64 0).getLsbD 4 && (r.viwin.get 0#64 0).toNat % 64 == k.toNat

/-- An owner and none; each end of the window sizes; a mapped place, one of a peer, one that is not writable, one that is not mapped;
a peer's write of 8 bytes at the ends of the two tiers and beyond them. -/
theorem test_met_HostWrites :
    (st0.regs.viown.get 0#64 5).getLsbD 4 = false ∧
    winB 20 = true ∧ winB 21 = true ∧ winB 44 = true ∧ winB 45 = true ∧
    (match (stWin 21).stageTwo 0 0x200000 with | .ok (p, l) => p == 0x200000 && l == none && !isPeer p | .error _ => false) = true ∧
    (match (stWin 21).stageTwo 0 (2 ^ 51) with | .ok (p, _) => isPeer p | .error _ => false) = true ∧
    (match stReadOnly.stageTwo 0 0x200000 with | .ok (p, some l) => !isPeer p && !l.w | _ => false) = true ∧
    (match stReadOnly.stageTwo 0 (2 ^ 40) with | .ok _ => false | .error _ => true) = true ∧
    (let there := fun (k : Nat) => k < 2 ^ 41 ∨ (2 ^ 44 ≤ k ∧ k < 2 ^ 45)
     (∀ a ∈ [0, 2 ^ 41 - 8, 2 ^ 44, 2 ^ 45 - 8], there a ∧ there (a + 8 - 1)) ∧
     ∀ a ∈ [2 ^ 41 - 7, 2 ^ 41, 2 ^ 44 - 8, 2 ^ 44 - 1, 2 ^ 45 - 7, 2 ^ 45], ¬ (there a ∧ there (a + 8 - 1))) := by
  refine ⟨?_, ?_, ?_, ?_, ?_, ?_, ?_, ?_, ?_, ?_⟩ <;> decide +kernel

/-- Lost units below and at the limit; an allotment that is free and one that is not; guarantees that no longer fit; a drain with nothing on
its way, one that a request holds, and that at the end of its cycles. -/
theorem test_met_Retirements :
    st0.regs.chLost < 256 ∧ st0.regs.dirLost < 8 ∧ (st0.allot 1).st = .free ∧ (st0.allot 0).st = .running ∧
    0 < (State.reset.allots.map fun a => if a.st = .free then 0 else a.quota.get 0 9).sum ∧
    (let s : State := { st0 with plat := { st0.plat with draining := true, drainUid := 100 } }
     let u : State := { s with reqs := [{ (default : AReq) with id := 60, gang := (cx st0).uid }] }
     s.plat.draining = true ∧ s.onTheWay = false ∧ u.onTheWay = true ∧ ¬ u.plat.drainClock + 65536 < u.clock + 512 ∧
       u.plat.drainClock + 65536 < { u with clock := 65536 }.clock + 512) := by
  refine ⟨?_, ?_, ?_, ?_, ?_, ?_⟩ <;> decide +kernel

/-- Allotment 0 ready to boot, with a record that can be started, and with one that cannot; running. -/
def stBoot : State :=
  let r := { stStart.regs with viown := stStart.regs.viown.set 0#64 0 16 }
  { stStart with regs := r }.modAllot 0 fun a => { a with st := .ready, pt1 := 0x1000#64, quota := (stStart.allot 1).quota, save := 0xFFFFF#64 }

theorem test_met_PortsAndPower :
    (st0.allot 0).st ≠ .ready ∧ (stBoot.allot 0).st = .ready ∧ 0 < stBoot.allots.length ∧
    ((stBoot.modAllot 0 fun a => { a with hlrec := 0x60008#64 }).start 0).isNone = true ∧
    ((stBoot.modAllot 0 fun a => { a with hlrec := 0x60000#64 }).start 0).isSome = true ∧
    (st0.plat.peerFails.get 0 3 = 0) := by
  refine ⟨?_, ?_, ?_, ?_, ?_, ?_⟩ <;> decide +kernel

/-- A gang of a launch that stands in slot 0 of core 0, and a slot where none does. -/
def stGlean : State := onBlock (stLid id) fun b => { b with lid := 5 }

/-- Entry 3 of core 0, of no holder, clean and dirty; a held block. -/
def stEntry (mask : BitVec 128) : State :=
  stGlean.modCore 0 fun c => { c with entries := [{ (default : Entry) with id := 3, lid := 5, mask := mask }], held := [default] }

/-- Granule 7, row 3 and tile slot 2 of core 0 last written by launch 5 of allotment 0, and a dirty line of the L2 of its owner. -/
def stTags : State :=
  { stGlean.modCore 0 fun c => { c with tags := [(7, 81), (515, 81), (1026, 81)] } with owners := [(0x20000, 81)] }

theorem test_met_GleanerVisits :
    (∀ u ∈ [7, 515, 1026], (stTags.core 0).tags.get 0 u = 1 + 0 + 16 * 5) ∧ (stTags.core 0).tags.get 0 8 = 0 ∧
    stTags.owners.get 0 0x20000 = 1 + 0 + 16 * 5 ∧ stTags.owners.get 0 0x20080 = 0 ∧
    (∀ l ∈ (stGlean.launch? 0 5).toList, l.complete = false) ∧ (stGlean.launch? 0 5).isSome = true ∧
    (∀ x ∈ stGlean.gangs, ∀ y ∈ stGlean.gangs, x.uid = y.uid → x = y) ∧ (∀ x ∈ stGlean.blocks, ∀ y ∈ stGlean.blocks, x.uid = y.uid → x = y) ∧
    ((stEntry 0).entry? 0 3).isSome = true ∧ (stEntry 0).holders 0 3 = 0 ∧ ((stEntry 0).core 0).held[0]?.isSome = true ∧
    (match (stEntry 1).entry? 0 3 with | some e => e.mask != 0#128 | none => false) = true ∧
    0 < stGlean.cores.length ∧ (stGlean.core 0).frozen = none ∧ 0 < stGlean.allots.length := by
  refine ⟨?_, ?_, ?_, ?_, ?_, ?_, ?_, ?_, ?_, ?_, ?_, ?_, ?_, ?_, ?_⟩ <;> decide +kernel

/-- A core that has met the trigger, with POST as given. -/
def stTrig (post : W64) : State :=
  let s := st0.modCore 2 fun c => { c with trigPend := true, trigSrc := 7 }
  { s with regs := { s.regs with trtrig := (post <<< 16) ||| 0x8000#64 } }

/-- A core whose last record is written. -/
def stSeal : State := st0.modCore 2 fun c => { c with sealNow := true, post := some 0 }

def trigB (p : W64) : Bool :=
  let s := stTrig p
  let k := s.core 2
  s.cores.find? (fun x => x.trigPend) == some k && k.id == 2 && 2 < s.cores.length && k.frozen.isNone && k.post.isNone &&
    s.regs.trtrig.toNat / 2 ^ 16 % 2 ^ 12 == p.toNat

theorem test_met_Triggers :
    (∀ x ∈ st0.cores, x.trigPend = false) ∧ st0.cores.find? (fun x => x.sealNow && x.post == some 0) = none ∧
    trigB 0 = true ∧ trigB 5 = true ∧
    stSeal.cores.find? (fun x => x.sealNow && x.post == some 0) = some (stSeal.core 2) ∧ (stSeal.core 2).id = 2 ∧
    2 < stSeal.cores.length := by
  refine ⟨?_, ?_, ?_, ?_, ?_, ?_, ?_⟩ <;> decide +kernel

/-- Core 7 has broadcast a freeze. -/
def stFreeze : State := { st0 with isalon := { st0.isalon with origins := [7], freezeAt := some 0, fcause := 0x3E } }

/-- A message of an originator and of none, at an enabled core and at one that is frozen; a thermal freeze before and after a freeze. -/
theorem test_met_Freezes :
    7 ∈ stFreeze.isalon.origins ∧ 7 ∉ st0.isalon.origins ∧ 0 ∈ stFreeze.enabled ∧ 192 ∉ stFreeze.enabled ∧ 0 < stFreeze.cores.length ∧
    (stFreeze.core 0).frozen = none ∧ (∀ k ∈ st0.enabled, k < st0.cores.length ∧ (st0.core k).frozen = none) ∧ st0.enabled ≠ [] ∧
    stFreeze.isalon.freezeAt ≠ none ∧ st0.isalon.freezeAt = none := by
  refine ⟨?_, ?_, ?_, ?_, ?_, ?_, ?_, ?_, ?_, ?_⟩ <;> decide +kernel

/-- A freeze at cycle 0 that no core acknowledges: one cycle before the limit and at it; a module without power whose next turn is a
cold reset; a module that has gathered. -/
theorem test_met_CapsuleGathering :
    st0.isalon.freezeAt = none ∧ stFreeze.isalon.freezeAt = some 0 ∧ stFreeze.isalon.gathered = false ∧
    ¬ 0 + 4096 ≤ { stFreeze with clock := 4095 }.clock ∧ 0 + 4096 ≤ { stFreeze with clock := 4096 }.clock ∧
    (match step { st0 with plat := { st0.plat with poweredDown := true }, agenda := [⟨0, .event .coldReset, 0⟩] } with
      | .next _ => true | _ => false) = true ∧
    { stFreeze with isalon := { stFreeze.isalon with gathered := true } }.accepts .coldReset = true ∧
    ((stFreeze.enabled.map fun p => (stFreeze.logicalCore 0 p, p)).Pairwise fun x y => x.1 < y.1) ∧ stFreeze.isalon.origins ≠ [] := by
  refine ⟨?_, ?_, ?_, ?_, ?_, ?_, ?_, ?_, ?_⟩ <;> decide +kernel

/-- Interface 1 is the operator's, interface 2 a tenant's (allotment 3); two capsules are kept. -/
def stKept : State :=
  let r := { st0.regs with viown := [(1, 16#64), (2, 19#64)] }
  let c : Capsule := { (default : Capsule) with serial := 1, table := List.replicate 16 [1#64], rings := [[⟨0x300000000#64, 0#64⟩, ⟨0#64, 0#64⟩]] }
  { st0 with regs := r, isalon := { st0.isalon with retention := some { c with serial := 2 }, flash := [(1, c)] } }

theorem test_met_Retrieval :
    (stKept.regs.viown.get 0#64 1).toNat % 32 = 16 ∧ (stKept.regs.viown.get 0#64 2).toNat % 32 = 16 + 3 ∧
    (stKept.regs.viown.get 0#64 5).toNat % 32 = 0 ∧
    ((stKept.isalon.retention.toList ++ stKept.isalon.flash.map fun x => x.2).find? (fun c => c.serial == 1)).isSome = true ∧
    ((stKept.isalon.retention.toList ++ stKept.isalon.flash.map fun x => x.2).find? (fun c => c.serial == 2)).isSome = true ∧
    ((stKept.isalon.retention.toList ++ stKept.isalon.flash.map fun x => x.2).find? (fun c => c.serial == 3)).isNone = true := by
  refine ⟨?_, ?_, ?_, ?_, ?_, ?_⟩ <;> decide +kernel

/-- The indexes at the ends of the range, of the operator and of the tenant whose allotment is 3. -/
theorem test_met_MeterReports :
    0x40 ≤ 0x40 ∧ 0x4F < 0x50 ∧ ¬ 0x50 < 0x50 ∧ ¬ 0x40 ≤ 0x3F ∧ (stKept.regs.viown.get 0#64 2).toNat % 32 = 16 + (0x43 - 0x40) ∧
    (stKept.allot 3).chain = [] ∧ 3 < stKept.allots.length := by
  refine ⟨?_, ?_, ?_, ?_, ?_, ?_, ?_⟩ <;> decide +kernel

/-- A result that is due and one that is not; a group parked at a switch bit. -/
theorem test_met_FixedLatencyResults :
    st0.ctx ⟨1, 0, 0⟩ = none ∧ st0.ctx ⟨0, 0, 0⟩ = some (cx st0) ∧
    (let s := onGang st0 fun g => { g with shadows := [{ (default : Shadow) with due := 0, slices := [0] }, { (default : Shadow) with due := 5, slices := [0] }]
                                           groups := g.groups.map fun x => { x with wait := .switchBit } }
     (cx s).grp.wait = .switchBit ∧ (cx s).gang.shadows.map (·.due) = [0, 5]) := by
  refine ⟨?_, ?_, ?_⟩ <;> decide +kernel

/-- At each of the cycles the events are due for, once and not again; at other cycles they are not. -/
theorem test_met_Periods :
    { st0 with clock := 65536 }.clock % 65536 = 0 ∧ { st0 with clock := 65536 }.ticks.get 0 0 ≠ 65536 + 1 ∧
    { st0 with clock := 512, ticks := [(1, 513)] }.ticks.get 0 1 = 512 + 1 ∧ { st0 with clock := 513 }.clock % 512 ≠ 0 ∧
    { st0 with clock := 2 ^ 32 }.clock % 2 ^ 32 = 0 ∧ { st0 with clock := 2 ^ 32 }.ticks.get 0 2 ≠ 2 ^ 32 + 1 ∧
    (∀ k ∈ st0.enabled, k < st0.cores.length ∧ (st0.core k).frozen = none ∧ (st0.core k).post = none ∧ (st0.core k).trigPend = false) ∧
    (((st0.allot 0).quotaNext.map (·.1)).Nodup ∧ ∀ x ∈ (st0.allot 0).quotaNext, x.2 ≠ 0) ∧
    (st0.allot 0).st = .running ∧ (st0.allot 1).st = .free := by
  refine ⟨?_, ?_, ?_, ?_, ?_, ?_, ?_, ?_, ?_, ?_⟩ <;> decide +kernel

/-- Cycle 512: a cell with the function THRESH over, at and under its threshold, and one with another function. -/
theorem test_met_ThreshWindows :
    (let s := { st0 with clock := 512 }
     s.clock % 512 = 0 ∧ s.ticks.get 0 4 ≠ s.clock + 1 ∧ s.clock ≠ 0) ∧
    (let w := 0xC00#64 + 5 * 2 ^ 16
     w.toNat / 2 ^ 10 % 8 = 3 ∧ w.toNat / 2 ^ 16 % 2 ^ 16 ≤ 5 ∧ ¬ w.toNat / 2 ^ 16 % 2 ^ 16 ≤ 4) ∧
    (0#64).toNat / 2 ^ 10 % 8 ≠ 3 ∧ 0 ∈ st0.enabled ∧ 0 < st0.cores.length ∧ 0 < st0.allots.length := by
  refine ⟨?_, ?_, ?_, ?_, ?_, ?_⟩ <;> decide +kernel

/-- One group parked as given, with sampling on and due. -/
def stSample (w : Wait) : State :=
  let s := (onGang st0 fun g => { g with groups := g.groups.map fun x => { x with wait := w } }).modAllot 0 fun a => { a with sampctl := 0x108#64 }
  { s with clock := 256, regs := { s.regs with trmask := s.regs.trmask ||| 0x1000000000000#64 } }

def sampleB (w : Wait) : Bool :=
  let s := stSample w
  match s.gangs with
  | [g] => (match g.groups with
    | [x] => x.wait == w && !g.isOver && !g.spilled && g.slot < 64 && g.core < s.cores.length && (s.core g.core).frozen.isNone &&
        (s.core g.core).post.isNone && !(s.core g.core).trigPend && (s.core g.core).lost == 0 && (s.core g.core).recCycle != s.clock &&
        (match s.block? g.blk with
          | some b => b.al < 16 && (s.allot b.al).st == .running && (s.allot b.al).sampctl.getLsbD 8 &&
              s.clock % 2 ^ ((s.allot b.al).sampctl.toNat % 32) == 0
          | none => false)
    | _ => false)
  | _ => false

theorem test_met_PcSamples :
    ¬ 255 % 256 = 0 ∧ (stSample .none).regs.trmask.getLsbD 48 = true ∧ (stSample .none).ticks.get 0 3 ≠ 256 + 1 ∧
    sampleB .none = true ∧ sampleB .switchBit = true ∧ sampleB .regang = true ∧ sampleB (.resamp 1) = true ∧ sampleB (.held 2) = true ∧
    sampleB (.limit true) = true ∧ sampleB (.cancel .launch 2) = true := by
  refine ⟨?_, ?_, ?_, ?_, ?_, ?_, ?_, ?_, ?_, ?_⟩ <;> decide +kernel

/-- A well-formed instruction of every shape. -/
theorem test_met_EncodingsRoundTrip :
    WellFormed (.add g7 .n32 false (.v 3) (.v 1) (.v 2)) = true ∧ WellFormed (.ld g7 .b32 8 2 (.v 9) 12) = true ∧
    WellFormed (.br g7 (-3)) = true ∧ WellFormed (.pairAdd false ⟨1, 2, 7, 0⟩ ⟨.and, ⟨7, 4, 7, 0⟩⟩) = true := by
  refine ⟨?_, ?_, ?_, ?_⟩ <;> decide +kernel

/-- Memory in its form, with a word to issue, and a step from there. -/
theorem test_met_StepsKeepMemoryCanonical :
    st0.memOk ∧ (match step (State.reset.withWord 0x0EBA001C47138800) with | .next t => t.mem.wf | _ => false) = true := by
  refine ⟨by unfold State.memOk; decide +kernel, by decide +kernel⟩

/-- Launch 5 has met a damaged line. -/
def stMet : State := { stLid id with met := [{ (default : Sys2Proof.Machine.Met) with al := 0, lid := 5 }] }

theorem test_met_StepsAnswer :
    State.reset.plat.poweredDown = false ∧ st0.plat.poweredDown = false ∧ stMet.plat.poweredDown = false ∧
    stMet.met.map (fun x => (x.al, x.lid)) = [(0, 5)] ∧
    (stMet.launch? 0 5).map (fun l => (l.complete, l.cancelled)) = some (false, false) := by
  refine ⟨?_, ?_, ?_, ?_, ?_⟩ <;> decide +kernel

/-! What one instruction does on operands whose result the spec states, or that were worked out by hand from its rule. Scalars 3
and 4 hold the operands; a uniform word leaves its result in scalar 5, which holds 0xDEAD before. -/

def gU : Hdr := { g7 with uni := true }

def stOps (x y : W64) : State :=
  onGang st0 fun g => { g with s := ((g.s.set 0 3 x).set 0 4 y).set 0 5 0xDEAD#64 }

def ran (i : Instr) (x y : W64) : Option W64 :=
  match exec i (stOps x y) with
  | .next t => t.gangs.head?.map fun g => g.s.get 0 5
  | _ => none

/-- R100: the low bits of a sum; a saturated sum; products at both halves; the corners of the most negative number. -/
theorem test_add_wraps : ran (.add gU .n32 false (.s 5) (.s 3) (.s 4)) 0xFFFFFFFF 3 = some 2 := by decide +kernel
theorem test_add_sat : ran (.add gU .i32 true (.s 5) (.s 3) (.s 4)) 0x7FFFFFFF 1 = some 0x7FFFFFFF := by decide +kernel
theorem test_sub_sat : ran (.sub gU .n64 true (.s 5) (.s 3) (.s 4)) 1 2 = some 0 := by decide +kernel
theorem test_sub_wide : ran (.sub gU .i64 false (.s 5) (.s 3) (.s 4)) 0 1 = some 0xFFFFFFFFFFFFFFFF := by decide +kernel
theorem test_mul_low : ran (.mul gU .n32 (.s 5) (.s 3) (.s 4)) 0xFFFFFFFF 0xFFFFFFFF = some 1 := by decide +kernel
theorem test_mulh_unsigned : ran (.mulh gU .n32 (.s 5) (.s 3) (.s 4)) 0xFFFFFFFF 0xFFFFFFFF = some 0xFFFFFFFE := by decide +kernel
theorem test_mulh_signed : ran (.mulh gU .i32 (.s 5) (.s 3) (.s 4)) 0xFFFFFFFF 2 = some 0xFFFFFFFF := by decide +kernel
theorem test_mad : ran (.mad gU .n32 (.s 5) (.s 3) (.s 4) (.s 3)) 7 9 = some 70 := by decide +kernel
theorem test_min_signed : ran (.min gU .i32 (.s 5) (.s 3) (.s 4)) 0x80000000 1 = some 0x80000000 := by decide +kernel
theorem test_min_unsigned : ran (.min gU .n32 (.s 5) (.s 3) (.s 4)) 0x80000000 1 = some 1 := by decide +kernel
theorem test_max_signed : ran (.max gU .i32 (.s 5) (.s 3) (.s 4)) 0x80000000 1 = some 1 := by decide +kernel
theorem test_abs_most_negative : ran (.abs gU .i32 (.s 5) (.s 3)) 0x80000000 0 = some 0x80000000 := by decide +kernel
theorem test_abs_unsigned : ran (.abs gU .n32 (.s 5) (.s 3)) 0xFFFFFFFE 0 = some 0xFFFFFFFE := by decide +kernel
theorem test_neg : ran (.neg gU .i32 (.s 5) (.s 3)) 1 0 = some 0xFFFFFFFF := by decide +kernel
theorem test_not : ran (.not gU .b32 (.s 5) (.s 3)) 0xF0 0 = some 0xFFFFFF0F := by decide +kernel

/-- R101: counts modulo the width; a field that the width cuts short, and its sign; a field put in. -/
theorem test_shl_count : ran (.shl gU .n32 (.s 5) (.s 3) (.s 4)) 3 33 = some 6 := by decide +kernel
theorem test_shr_logical : ran (.shr gU .i32 (.s 5) (.s 3) (.s 4)) 0x80000000 31 = some 1 := by decide +kernel
theorem test_sar_arithmetic : ran (.sar gU .n32 (.s 5) (.s 3) (.s 4)) 0x80000000 31 = some 0xFFFFFFFF := by decide +kernel
theorem test_rot_left : ran (.rot gU .n32 (.s 5) (.s 3) (.s 4)) 0x80000001 4 = some 0x18 := by decide +kernel
theorem test_clz_zero : ran (.clz gU .n32 (.s 5) (.s 3)) 0 0 = some 32 := by decide +kernel
theorem test_popc : ran (.popc gU .n32 (.s 5) (.s 3)) 0xF00F0001 0 = some 9 := by decide +kernel
theorem test_brev : ran (.brev gU .n32 (.s 5) (.s 3)) 1 0 = some 0x80000000 := by decide +kernel
theorem test_bfx_cut : ran (.bfx gU .n32 (.s 5) (.s 3) (.s 4)) 0xAB000000 0x1418 = some 0xAB := by decide +kernel
theorem test_bfx_signed : ran (.bfx gU .i32 (.s 5) (.s 3) (.s 4)) 0x00000F80 0x0804 = some 0xFFFFFFF8 := by decide +kernel
theorem test_bfi : ran (.bfi gU .n32 (.s 5) (.s 3) (.s 4) (.s 4)) 0x5 0x0408 = some 0x508 := by decide +kernel

/-- R103, R104: the constant 0xC0FFEE11 in two words; a shifted index of either sign; conversions that clamp and that do not. -/
theorem test_movi_hi : ran (.moviHi gU (.s 5) 0xC0FF) 0 0 = some 0xC0FF0000 := by decide +kernel
theorem test_or_imm : ran (.orImm gU .n32 (.s 5) (.s 3) 0xEE11) 0xC0FF0000 0 = some 0xC0FFEE11 := by decide +kernel
theorem test_movi_sext : ran (.movi gU .i64 (.s 5) 0x7FFFFFF) 0 0 = some 0xFFFFFFFFFFFFFFFF := by decide +kernel
theorem test_lea_signed : ran (.lea gU .i64 3 (.s 5) (.s 3) (.s 4)) 0x1000 0xFFFFFFFF = some 0xFF8 := by decide +kernel
theorem test_lea_unsigned : ran (.lea gU .n64 3 (.s 5) (.s 3) (.s 4)) 0x1000 0xFFFFFFFF = some 0x800000FF8 := by decide +kernel
theorem test_cvt_clamp : ran (.cvt gU .i32 .i8 .rne true (.s 5) (.s 3)) 300 0 = some 127 := by decide +kernel
theorem test_cvt_low : ran (.cvt gU .i32 .i8 .rne false (.s 5) (.s 3)) 0x1FE 0 = some 0xFFFFFFFE := by decide +kernel
theorem test_cvt_float : ran (.cvt gU .i32 .f32 .rne false (.s 5) (.s 3)) 0x01000001 0 = some 0x4B800000 := by decide +kernel

/-- R106 to R110: a tie to even and rounding up; one rounding of a product and sum; special values; NaN. -/
theorem test_fadd_tie : ran (.fadd gU .rne (.s 5) (.s 3) (.s 4)) 0x3F800000 0x33800000 = some 0x3F800000 := by decide +kernel
theorem test_fadd_up : ran (.fadd gU .ru (.s 5) (.s 3) (.s 4)) 0x3F800000 0x33800000 = some 0x3F800001 := by decide +kernel
theorem test_fsub_zero_down : ran (.fsub gU .rd (.s 5) (.s 3) (.s 3)) 0x3F800000 0 = some 0x80000000 := by decide +kernel
theorem test_fmul_overflow : ran (.fmul gU .rz (.s 5) (.s 3) (.s 3)) 0x7F000000 0 = some 0x7F7FFFFF := by decide +kernel
theorem test_fmul_subnormal : ran (.fmul gU .rne (.s 5) (.s 3) (.s 4)) 0x00800000 0x3F000000 = some 0x00400000 := by decide +kernel
theorem test_ffma_once : ran (.ffma gU .rne (.s 5) (.s 3) (.s 3) (.s 4)) 0x3F800001 0xBF800002 = some 0x28800000 := by decide +kernel
theorem test_fmin_zero : ran (.fmin gU (.s 5) (.s 3) (.s 4)) 0 0x80000000 = some 0x80000000 := by decide +kernel
theorem test_fmax_nan : ran (.fmax gU (.s 5) (.s 3) (.s 4)) 0x7F800001 0x3F800000 = some 0x3F800000 := by decide +kernel
theorem test_frcp : ran (.frcp gU .rne (.s 5) (.s 3)) 0x40400000 0 = some 0x3EAAAAAB := by decide +kernel
theorem test_frsq_negative : ran (.frsq gU .rne (.s 5) (.s 3)) 0xBF800000 0 = some 0x7FC00000 := by decide +kernel
theorem test_fsqrt : ran (.fsqrt gU .rne (.s 5) (.s 3)) 0x40000000 0 = some 0x3FB504F3 := by decide +kernel
theorem test_fexp2 : ran (.fexp2 gU .rne (.s 5) (.s 3)) 0x40400000 0 = some 0x41000000 := by decide +kernel
theorem test_flog2 : ran (.flog2 gU .rne (.s 5) (.s 3)) 0x41000000 0 = some 0x40400000 := by decide +kernel
theorem test_fsin_whole : ran (.fsin gU .rne (.s 5) (.s 3)) 0xC0400000 0 = some 0x80000000 := by decide +kernel
theorem test_fcos_half : ran (.fcos gU .rne (.s 5) (.s 3)) 0xBF000000 0 = some 0 := by decide +kernel
theorem test_frnd_tie : ran (.frnd gU .rne (.s 5) (.s 3)) 0x40200000 0 = some 0x40000000 := by decide +kernel
theorem test_frnd_negative : ran (.frnd gU .rne (.s 5) (.s 3)) 0xBE99999A 0 = some 0x80000000 := by decide +kernel
theorem test_fcvt_int_saturates : ran (.fcvt gU .rne .toI32 false (.s 5) (.s 3)) 0x4F000000 0 = some 0x7FFFFFFF := by decide +kernel
theorem test_fcvt_f16_overflow : ran (.fcvt gU .rne .toF16 false (.s 5) (.s 3)) 0x477FF000 0 = some 0x7C00 := by decide +kernel
theorem test_fcvt_f16_sat : ran (.fcvt gU .rne .toF16 true (.s 5) (.s 3)) 0x477FF000 0 = some 0x7BFF := by decide +kernel

/-- "Quarter matrix operations": the element (0, 5) has a = 160 and moves to offset 164 under g = 2, P = 0. -/
theorem test_swz : ran (.swz gU (.s 5) (.s 3) (.s 4) 2 0) 160 0 = some 164 := by decide +kernel

/-- The vector register 2 of a lane after an instruction, where lane L of vector 4 holds 100 + L in lanes 0 to 3. -/
def stLanes : State :=
  onGang st0 fun g => { g with v := (List.range 4).foldl (fun v l => v.set 0 (4 * 32 + l) (BitVec.ofNat 32 (100 + l))) g.v }

def vecs (i : Instr) (ls : List Nat) : List W32 :=
  match exec i stLanes with
  | .next t => (match t.gangs with | [g] => ls.map fun l => g.vAt 2 l | _ => [])
  | _ => []

/-- R112, R113: lane 0 has no lane below it; a sum over all lanes; the lanes that agree; the lowest lane. -/
theorem test_shfl_up : vecs (.shflImm g7 .up false (.v 2) 4 1) [0, 1, 3, 4] = [100, 100, 102, 103] := by decide +kernel
theorem test_redux_add : vecs (.redux g7 .add (.v 2) 4) [0, 31] = [406, 406] := by decide +kernel
theorem test_match : vecs (.matchv g7 false 2 4) [1, 9] = [2, 0xFFFFFFF0] := by decide +kernel
theorem test_bcast_low : vecs (.bcastLow g7 false (.v 2) 4) [31] = [100] := by decide +kernel

/-- Predicate 1 of lanes 0, 1 and 9 after an instruction. -/
def preds (i : Instr) : List Bool :=
  match exec i stLanes with
  | .next t => (match t.gangs with | [g] => [0, 1, 9].map fun l => (g.p.get 0 1).getLsbD l | _ => [])
  | _ => []

/-- R102, R105, R113: lanes 0, 1 and 9 hold 100, 101 and 0; predicate 7 is true in every lane. -/
theorem test_setp_lt : preds (.setpLtImm g7 .n32 1 (.v 4) 101) = [true, false, true] := by decide +kernel
theorem test_pand_inverted : preds (.pand g7 true false 1 7 7) = [false, false, false] := by decide +kernel
theorem test_vote_any : preds (.vote g7 .any 1 7) = [true, true, true] := by decide +kernel

def oneGang (i : Instr) (s : State) : Gang :=
  match exec i s with | .next t => t.gangs.headD default | _ => default

/-- R116 to R118, the parity fragment: three words on from a branch. Under p0, which holds in lane 0 alone, slice 0 takes the
branch and keeps its other lanes for the word after it; the other slices go on, and the group parts. -/
theorem test_br : (oneGang (.br g7 3) st0).slices.map (·.pc) = List.replicate 8 0x10018 := by decide +kernel
theorem test_bra :
    ((oneGang (.bra g0 3 4) stM).slice 0).stack.map (fun e => (e.div, e.rpc, e.pend, e.ppc, e.outer)) =
      [(true, 0x10020, 0xE#32, 0x10008, 0xF#32)] ∧
    (oneGang (.bra g0 3 4) stM).active = 0xFFFFFFF1#32 ∧
    (oneGang (.bra g0 3 4) stM).groups.map (·.slices) = [[0], [1, 2, 3, 4, 5, 6, 7]] := by
  refine ⟨?_, ?_, ?_⟩ <;> decide +kernel
theorem test_br_mixed : (oneGang (.br g0 3) stM).groups.map (fun x => (x.tcause, x.tpc)) = [(0xFF1020#64, 0x10000#64)] := by
  decide +kernel
theorem test_call :
    ((oneGang (.call g0 3) stM).slice 0).stack.map (fun e => (e.div, e.rpc, e.outer)) = [(false, 0x10008, 0xF#32)] := by decide +kernel
theorem test_exit : (oneGang (.exit g0) stM).live = 0xFFFFFFFE#32 := by decide +kernel

/-- R86: a byte of an open line with its sign; a word into an image, whose bytes become dirty. -/
theorem test_ld_sign :
    (oneGang (.ld g7 .i8 2 3 (.v 4) 4) ((stR .openR .opened).modCore 0 fun c =>
      { c with entries := c.entries.map fun e => { e with data := 0x80#1024 <<< 96 } })).vAt 2 5 = 0xFFFFFF80 := by decide +kernel
theorem test_st :
    (match exec (.st g7 .b32 4 3 (.v 4) 0) (stR .openw .opened) with
      | .next t => (t.entry? 0 40).map fun e => (e.mask.toNat, e.data.toNat)
      | _ => none) = some (0xF00, 8 * 2 ^ 64) := by decide +kernel

/-- R207: an addition at its home. -/
theorem test_atomic_add :
    (let r : AReq := { (default : AReq) with id := 60, inst := 9, gang := (cx st0).uid, lanes := 0xF#32, op := .add, ty := .n32,
                                             addr := 0x20084, vaddr := 0x20084, b := 3, d := 8, p := 1, lid := headlandLid }
     match exec (.atomicPerform 60) { st0 with reqs := [r], mem := st0.mem.write 0x20084 0xFE#8 } with
      | .next t => some (t.mem.readN 0x20084 4)
      | _ => none) = some [0x01#8, 0x01#8, 0#8, 0#8] := by decide +kernel

end Sys2Proof.Tests
end

/-! Words whose guard holds in no lane (R12, R77). -/

namespace Sys2Proof.Machine

/-- With no lane enabled, a word whose body then leaves the state as it finds it completes and changes no register of its gang. -/
theorem runWord_noLanes {kind : WordKind} {h : Hdr} {us : List Use} {body : State → Ctx → LaneMask → M State} {s : State} {c : Ctx}
    (hk : kind ≠ .matrix) (w : Issues s c h us) (he : s.lanesFor c h = 0#32)
    (hb : body (s.issuing c h) c 0#32 = .ok (s.issuing c h)) :
    ∃ t g', runWord kind h us body s = .next t ∧ Completed s (s.issuing c h) t c g' ∧ g'.data = c.gang.data := by
  have body_ok : body (s.issuing c h) c (s.lanesFor c h) = .ok (s.issuing c h) := by rwa [he]
  obtain ⟨t, g', ht, hc, hs⟩ :=
    word_completes (F := id) hk w body_ok (gangs_id _ _).symm fun _ => ⟨rfl, rfl, rfl⟩
  exact ⟨t, g', ht, hc, hs.data.trans (Gang.past_data ..)⟩

theorem exec_ld (h : Hdr) (w : MemW) (d ln : Nat) (o : Src) (disp : BitVec 7) (s : State) :
    exec (.ld h w d ln o disp) s = execLd h w d ln o disp s := rfl

theorem exec_st (h : Hdr) (w : MemW) (a ln : Nat) (o : Src) (disp : BitVec 7) (s : State) :
    exec (.st h w a ln o disp) s = execSt h w a ln o disp s := rfl

/-- R12 for `ld`: with no lane enabled its body ends before the offset is popped and before any reference is read. -/
theorem ld_noLanes {s : State} {c : Ctx} {h : Hdr} {w : MemW} {d ln : Nat} {o : Src} {disp : BitVec 7} (he : s.lanesFor c h = 0#32)
    (hi : Issues s c h (dataUses fD w d ++ (⟨fB, .ln ln⟩ : Use) :: o.uses fB false)) :
    ∃ t g', exec (.ld h w d ln o disp) s = .next t ∧ Completed s (s.issuing c h) t c g' ∧ g'.data = c.gang.data := by
  rw [exec_ld, execLd]
  refine runWord_noLanes plain_ne hi he ?_
  rw [if_pos BEq.rfl]
  rfl

/-- R12 for `st`. -/
theorem st_noLanes {s : State} {c : Ctx} {h : Hdr} {w : MemW} {a ln : Nat} {o : Src} {disp : BitVec 7} (he : s.lanesFor c h = 0#32)
    (hi : Issues s c h (dataUses fA w a ++ (⟨fB, .ln ln⟩ : Use) :: o.uses fB false)) :
    ∃ t g', exec (.st h w a ln o disp) s = .next t ∧ Completed s (s.issuing c h) t c g' ∧ g'.data = c.gang.data := by
  rw [exec_st, execSt]
  refine runWord_noLanes plain_ne hi he ?_
  rw [if_pos BEq.rfl]
  rfl

/-- Settles O20: in the bodies of `ld` and `st` the test for an empty set of lanes comes first, so that no reference of the line
register is looked at. -/
theorem unguardedLineAccesses : Obligations.UnguardedLineAccesses := by
  unfold Obligations.UnguardedLineAccesses
  intro s c h w d ln o disp he
  exact ⟨ld_noLanes he, st_noLanes he⟩

end Sys2Proof.Machine

/-! The privileged words (R68, R355). -/

namespace Sys2Proof

theorem bitAt_toNat {n : Nat} (w : BitVec n) (i : Nat) : bitAt w.toNat i = w.getLsbD i := by
  rw [BitVec.getLsbD, Nat.testBit_eq_decide_div_mod_eq]
  rfl

theorem privilegedWord_iff (w : W64) :
    privilegedWord w = true ↔ w.getLsbD 62 = false ∧ 0x150 ≤ w.toNat / 2 ^ 48 % 2 ^ 9 ∧ w.toNat / 2 ^ 48 % 2 ^ 9 ≤ 0x152 := by
  simp only [privilegedWord, bitAt_toNat, Bool.and_eq_true, Bool.not_eq_true', decide_eq_true_eq, and_assoc]
  rfl

/-- The dispatch on the major ends in the privileged family. -/
theorem decodeFull_priv {r : Raw} (h : 0x150 ≤ r.op) : decodeFull r = decodePriv r := by
  simp (disch := omega) only [decodeFull, if_neg]

theorem decode_priv {w : W64} (h : privilegedWord w = true) : decode w = decodePriv (Raw.ofNat w.toNat) := by
  obtain ⟨h62, hlo, hhi⟩ := (privilegedWord_iff w).mp h
  have assigned : opAssigned (Raw.ofNat w.toNat).op = true := by
    simp only [opAssigned, Bool.or_eq_true, Bool.and_eq_true, decide_eq_true_eq]
    exact .inr ⟨hlo, hhi⟩
  simp only [decode, bitAt_toNat, h62, Bool.false_eq_true, ↓reduceIte, assigned]
  exact decodeFull_priv hlo

/-- The instructions of majors 0x150 to 0x152. -/
def IsPriv (i : Instr) : Prop :=
  (∃ h pd sa sb, i = .placeld h pd sa sb) ∨ (∃ h pd sa sb, i = .quota h pd sa sb) ∨
    ∃ h pd sa, i ∈ [Instr.fallowHalt h pd sa, .fallowResume h pd sa, .fallowStart h pd sa, .fallowStop h pd sa]

theorem decode_bind_ok {α β : Type} {x : Except DecErr α} {f : α → Except DecErr β} {b : β} (h : (x >>= f) = .ok b) :
    ∃ a, x = .ok a ∧ f a = .ok b := by
  cases x with
  | error e => cases h
  | ok a => exact ⟨a, rfl, h⟩

/-- What the privileged family decodes to: past its checks each branch names its instruction. -/
theorem isPriv_of_decodePriv {r : Raw} {i : Instr} (h : decodePriv r = .ok i) : IsPriv i := by
  unfold decodePriv at h
  obtain ⟨-, -, h⟩ := decode_bind_ok h
  obtain ⟨-, -, h⟩ := decode_bind_ok h
  obtain ⟨pd, -, h⟩ := decode_bind_ok h
  obtain ⟨sa, -, h⟩ := decode_bind_ok h
  split at h
  · obtain ⟨-, -, h⟩ := decode_bind_ok h
    obtain ⟨-, -, h⟩ := decode_bind_ok h
    refine .inr (.inr ⟨r.hdr, pd, sa, ?_⟩)
    split at h <;> cases h <;> simp
  · obtain ⟨sb, -, h⟩ := decode_bind_ok h
    obtain ⟨-, -, h⟩ := decode_bind_ok h
    split at h <;> cases h
    · exact .inl ⟨r.hdr, pd, sa, sb, rfl⟩
    · exact .inr (.inl ⟨r.hdr, pd, sa, sb, rfl⟩)

namespace Machine

theorem not_matrix_of_isPriv {i : Instr} (h : IsPriv i) : isMatrix i = false := by
  rcases h with ⟨h, pd, sa, sb, rfl⟩ | ⟨h, pd, sa, sb, rfl⟩ | ⟨h, pd, sa, hi⟩
  · rfl
  · rfl
  · simp only [List.mem_cons, List.not_mem_nil, or_false] at hi
    rcases hi with rfl | rfl | rfl | rfl <;> rfl

/-- A privileged word names no system register. -/
theorem sysRegWord_priv {w : W64} (h : privilegedWord w = true) : sysRegWord w = none := by
  obtain ⟨-, hlo, -⟩ := (privilegedWord_iff w).mp h
  have h1 : field w.toNat 48 9 ≠ 0x142 := by unfold field; omega
  have h2 : field w.toNat 48 9 ≠ 0x143 := by unfold field; omega
  simp [sysRegWord, h1, h2]

theorem Ctx.operator_iff (c : Ctx) : c.operator = true ↔ c.blk.headland = true ∧ c.blk.al = 0 := by
  simp [Ctx.operator]

theorem decodeWord_refused {s : State} {c : Ctx} {w : W64} (hw : privilegedWord w = true) (hc : ¬ c.operator = true) :
    s.decodeWord c w = .done (s.trapNow c w { cause := 0x08, fld := fOp } 0) := by
  simp [State.decodeWord, hw, hc]

theorem decodeWord_operator {s : State} {c : Ctx} {w : W64} {i : Instr} (hw : privilegedWord w = true) (hc : c.operator = true)
    (hi : decode w = .ok i) : s.decodeWord c w = .run i s ∧ IsPriv i := by
  have hp : IsPriv i := isPriv_of_decodePriv (decode_priv hw ▸ hi)
  refine ⟨?_, hp⟩
  simp [State.decodeWord, hc, sysRegWord_priv hw, hi, not_matrix_of_isPriv hp, Bool.false_and]

/-- Settles O21: the test for a privileged major stands before the decoder, so the block alone decides; past it, the majors
0x150 to 0x152 decode to the privileged family, which no system register and no power limit holds back. -/
theorem privilegedWords : Obligations.PrivilegedWords := by
  unfold Obligations.PrivilegedWords
  intro s c w h62 hlo hhi
  have hw : privilegedWord w = true := (privilegedWord_iff w).mpr ⟨h62, hlo, hhi⟩
  refine ⟨fun hc => decodeWord_refused hw (mt (Ctx.operator_iff c).mp hc), fun hh ha i hi => ?_⟩
  exact decodeWord_operator hw ((Ctx.operator_iff c).mpr ⟨hh, ha⟩) hi

end Machine
end Sys2Proof

/-! FP32 values: the model's numbers `m * 2^e` against the rational values of the statements (R223 to R235). The rational numbers
are those of core Lean. -/

namespace Sys2Proof.Machine

/-! Powers of two. -/

theorem two_pow_pos (k : Nat) : 0 < ((2 ^ k : Nat) : Rat) := Rat.natCast_pos.mpr (Nat.two_pow_pos k)

theorem Ref.pow2_natCast (k : Nat) : Ref.pow2 (k : Int) = ((2 ^ k : Nat) : Rat) := by
  rw [Ref.pow2, if_pos (Int.natCast_nonneg k), Int.toNat_natCast]

theorem Ref.pow2_zero : Ref.pow2 0 = 1 := rfl

theorem Ref.pow2_neg_mul (k : Nat) : Ref.pow2 (-(k : Int)) * ((2 ^ k : Nat) : Rat) = 1 := by
  cases k with
  | zero =>
    rw [show -((0 : Nat) : Int) = 0 from rfl, Ref.pow2_zero]
    exact Rat.one_mul 1
  | succ k =>
    have hp := two_pow_pos (k + 1)
    rw [Ref.pow2, if_neg (by omega), Int.neg_neg, Int.toNat_natCast]
    exact Rat.div_mul_cancel (by grind)

theorem Ref.pow2_pos (e : Int) : 0 < Ref.pow2 e := by
  obtain ⟨k, rfl | rfl⟩ := Int.eq_nat_or_neg e
  · rw [Ref.pow2_natCast]
    exact two_pow_pos k
  · refine Rat.lt_of_mul_lt_mul_right ?_ (Rat.le_of_lt (two_pow_pos k))
    rw [Ref.pow2_neg_mul, Rat.zero_mul]
    decide

theorem Ref.pow2_succ (e : Int) : Ref.pow2 (e + 1) = Ref.pow2 e * 2 := by
  obtain ⟨k, rfl | rfl⟩ := Int.eq_nat_or_neg e
  · rw [show (k : Int) + 1 = ((k + 1 : Nat) : Int) from rfl, Ref.pow2_natCast, Ref.pow2_natCast, Nat.pow_succ, Rat.natCast_mul]
    rfl
  · cases k with
    | zero =>
      rw [show -((0 : Nat) : Int) = 0 from rfl, Ref.pow2_zero]
      exact (Rat.one_mul 2).symm
    | succ k =>
      have hp := two_pow_pos k
      have h0 := Ref.pow2_neg_mul k
      have h1 := Ref.pow2_neg_mul (k + 1)
      rw [Nat.pow_succ, Rat.natCast_mul, Rat.natCast_ofNat] at h1
      rw [show -((k + 1 : Nat) : Int) + 1 = -(k : Int) by omega]
      grind

theorem Ref.pow2_add_nat (e : Int) (k : Nat) : Ref.pow2 (e + k) = Ref.pow2 e * ((2 ^ k : Nat) : Rat) := by
  induction k with
  | zero => rw [Int.natCast_zero, Int.add_zero]; exact (Rat.mul_one _).symm
  | succ k ih =>
    rw [show e + ((k + 1 : Nat) : Int) = e + k + 1 by omega, Ref.pow2_succ, ih, Nat.pow_succ, Rat.natCast_mul, Rat.mul_assoc]
    rfl

theorem Ref.pow2_add (e k : Int) : Ref.pow2 (e + k) = Ref.pow2 e * Ref.pow2 k := by
  obtain ⟨n, rfl | rfl⟩ := Int.eq_nat_or_neg k
  · rw [Ref.pow2_add_nat, Ref.pow2_natCast]
  · have hp := two_pow_pos n
    have h := Ref.pow2_add_nat (e + -(n : Int)) n
    rw [Int.neg_add_cancel_right] at h
    have h1 := Ref.pow2_neg_mul n
    rw [h]
    grind

theorem Ref.pow2_le {e k : Int} (h : e ≤ k) : Ref.pow2 e ≤ Ref.pow2 k := by
  obtain ⟨n, rfl⟩ := Int.le.dest h
  have hp := Ref.pow2_pos e
  have hn : (1 : Rat) ≤ ((2 ^ n : Nat) : Rat) := Rat.natCast_le_natCast.mpr (Nat.two_pow_pos n)
  have := Rat.mul_le_mul_of_nonneg_left hn (Rat.le_of_lt hp)
  rw [Ref.pow2_add_nat]
  grind

/-- A magnitude with a sign. -/
def withSign (neg : Bool) (x : Rat) : Rat := if neg then -x else x

@[simp] theorem withSign_false (x : Rat) : withSign false x = x := rfl

@[simp] theorem withSign_true (x : Rat) : withSign true x = -x := rfl

@[simp] theorem withSign_zero (neg : Bool) : withSign neg 0 = 0 := by cases neg <;> rfl

theorem withSign_not (neg : Bool) (x : Rat) : withSign (!neg) x = -withSign neg x := by
  cases neg with
  | false => rfl
  | true => exact (Rat.neg_neg x).symm

theorem withSign_mul_left (neg : Bool) (x y : Rat) : withSign neg (x * y) = withSign neg x * y := by
  cases neg with
  | false => rfl
  | true => exact (Rat.neg_mul x y).symm

theorem withSign_mul (a b : Bool) (x y : Rat) : withSign (a != b) (x * y) = withSign a x * withSign b y := by
  cases a <;> cases b <;> simp only [bne_self_eq_false, Bool.false_bne, Bool.true_bne, Bool.not_false, withSign_false, withSign_true] <;>
    grind

@[simp] theorem withSign_eq_zero {neg : Bool} {x : Rat} : withSign neg x = 0 ↔ x = 0 := by
  cases neg with
  | false => exact Iff.rfl
  | true => rw [withSign_true]; grind

theorem scaled_eq_zero {m : Nat} {e : Int} : (m : Rat) * Ref.pow2 e = 0 ↔ m = 0 := by
  have hp := Ref.pow2_pos e
  rw [Rat.mul_eq_zero, Rat.natCast_eq_zero_iff]
  exact ⟨fun h => h.resolve_right (by grind), .inl⟩

/-- The exact value of a number of the model. -/
def FV.ext : FV → Ref.Ext
  | .nan => .nan
  | .inf neg => .inf neg
  | .fin neg m e => .fin neg (withSign neg (m * Ref.pow2 e))

/-- A number of the model stands for an exact value: of a value that is not zero the sign lies in the value itself. -/
def FV.Denotes : FV → Ref.Ext → Prop
  | .nan, .nan => True
  | .inf a, .inf b => a = b
  | .fin neg m e, .fin zneg q => q = withSign neg (m * Ref.pow2 e) ∧ (m = 0 → zneg = neg)
  | _, _ => False

theorem FV.denotes_ext (x : FV) : x.Denotes x.ext := by
  cases x with
  | nan => trivial
  | inf a => rfl
  | fin a m e => exact ⟨rfl, fun _ => rfl⟩

theorem FV.ext_flip (x : FV) : x.flip.ext = x.ext.neg := by
  cases x with
  | nan => rfl
  | inf a => rfl
  | fin a m e => exact congrArg _ (withSign_not ..)

theorem FV.ext_mul (x y : FV) : (x.mul y).ext = x.ext.mul y.ext := by
  cases x with
  | nan => rfl
  | inf a =>
    cases y with
    | fin b n k =>
      by_cases hn : n = 0 <;> simp only [FV.mul, FV.ext, Ref.Ext.mul, withSign_eq_zero, scaled_eq_zero, beq_iff_eq, hn, ↓reduceIte]
    | nan => rfl
    | inf b => rfl
  | fin a m e =>
    cases y with
    | nan => rfl
    | inf b =>
      by_cases hm : m = 0 <;> simp only [FV.mul, FV.ext, Ref.Ext.mul, withSign_eq_zero, scaled_eq_zero, beq_iff_eq, hm, ↓reduceIte]
    | fin b n k =>
      have : ((m * n : Nat) : Rat) * Ref.pow2 (e + k) = m * Ref.pow2 e * (n * Ref.pow2 k) := by
        rw [Ref.pow2_add, Rat.natCast_mul]
        grind
      simp only [FV.mul, FV.ext, Ref.Ext.mul, this, withSign_mul]

/-- The whole number of a value over a lower exponent. -/
theorem scaledInt_mul_pow {neg : Bool} {m : Nat} {e base : Int} (h : base ≤ e) :
    (scaledInt neg m e base : Rat) * Ref.pow2 base = withSign neg (m * Ref.pow2 e) := by
  obtain ⟨k, rfl⟩ := Int.le.dest h
  have hn : ((m * 2 ^ k : Nat) : Rat) * Ref.pow2 base = m * Ref.pow2 (base + k) := by
    rw [Ref.pow2_add_nat, Rat.natCast_mul]
    grind
  rw [← hn, withSign_mul_left, scaledInt, show base + (k : Int) - base = k by omega, Int.toNat_natCast]
  congr 1
  cases neg with
  | false => rfl
  | true => exact Rat.intCast_neg _

/-- Numbers of one sign cancel only when both are zero. -/
theorem zero_of_scaledInt_add {neg : Bool} {m n : Nat} {e k base : Int}
    (h : scaledInt neg m e base + scaledInt neg n k base = 0) : m = 0 ∧ n = 0 := by
  have both : m * 2 ^ (e - base).toNat = 0 ∧ n * 2 ^ (k - base).toNat = 0 := by
    unfold scaledInt at h
    generalize m * 2 ^ (e - base).toNat = x, n * 2 ^ (k - base).toNat = y at h
    cases neg <;> simp only [Bool.false_eq_true, ↓reduceIte] at h <;> omega
  have zero := fun {p i : Nat} (hp : p * 2 ^ i = 0) => (Nat.mul_eq_zero.mp hp).resolve_right (Nat.ne_of_gt (Nat.two_pow_pos i))
  exact ⟨zero both.1, zero both.2⟩

/-- The exponent that the model brings two numbers to. -/
theorem lower_exponent_le (e k : Int) : (if e ≤ k then e else k) ≤ e ∧ (if e ≤ k then e else k) ≤ k := by split <;> omega

theorem withSign_natAbs (s : Int) : withSign (decide (s < 0)) (s.natAbs : Rat) = s := by
  rw [← Rat.intCast_natCast]
  rcases Int.lt_or_le s 0 with h | h
  · rw [decide_eq_true h, withSign_true, ← Rat.intCast_neg, show -(s.natAbs : Int) = s by omega]
  · rw [decide_eq_false (Int.not_lt.mpr h), withSign_false, Int.natAbs_of_nonneg h]

/-- The model's sum is the exact sum; an exact zero has the sign of R108. -/
theorem FV.add_denotes (r : Rnd) (x y : FV) : (x.add r y).Denotes (x.ext.add r y.ext) := by
  cases x with
  | nan => trivial
  | inf a =>
    cases y with
    | nan => trivial
    | inf b =>
      simp only [FV.add, FV.ext, Ref.Ext.add, beq_iff_eq]
      split
      · rfl
      · trivial
    | fin b n k => rfl
  | fin a m e =>
    cases y with
    | nan => trivial
    | inf b => rfl
    | fin b n k =>
      simp only [FV.add, FV.ext, Ref.Ext.add]
      by_cases h0 : m = 0 ∧ n = 0
      · obtain ⟨rfl, rfl⟩ := h0
        have zero := fun e : Int => scaled_eq_zero (e := e).mpr (rfl : 0 = 0)
        simp only [BEq.rfl, Bool.and_self, ↓reduceIte, FV.Denotes, zero, withSign_zero, Rat.add_zero, beq_iff_eq, implies_true, and_self]
      · have h0' : (m == 0 && n == 0) = false := by simpa using h0
        rw [if_neg (by rw [h0']; exact Bool.false_ne_true)]
        obtain ⟨he, hk⟩ := lower_exponent_le e k
        generalize (if e ≤ k then e else k) = base at he hk
        have hs : ((scaledInt a m e base + scaledInt b n k base : Int) : Rat) * Ref.pow2 base =
            withSign a (m * Ref.pow2 e) + withSign b (n * Ref.pow2 k) := by
          rw [← scaledInt_mul_pow he, ← scaledInt_mul_pow hk, Rat.intCast_add, Rat.add_mul]
        have hab : scaledInt a m e base + scaledInt b n k base = 0 → a ≠ b := by
          rintro hz rfl
          exact h0 (zero_of_scaledInt_add hz)
        generalize scaledInt a m e base + scaledInt b n k base = s at hs hab
        by_cases hz : s = 0
        · subst hz
          rw [if_pos BEq.rfl, ← hs, if_neg (hab rfl)]
          exact ⟨by rw [scaled_eq_zero.mpr rfl, withSign_zero]; exact Rat.zero_mul _, fun _ => rfl⟩
        · have hn : s.natAbs ≠ 0 := by omega
          have hw : withSign (decide (s < 0)) (s.natAbs * Ref.pow2 base) = (s : Rat) * Ref.pow2 base := by
            rw [withSign_mul_left, withSign_natAbs]
          rw [if_neg (by rw [beq_iff_eq]; exact hz)]
          exact ⟨by rw [hw, hs], fun h => absurd h hn⟩

end Sys2Proof.Machine

namespace Sys2Proof.Machine

/-! The order of FP32 magnitudes. -/

/-- The magnitude of bits below the sign in units of 2^-149, the least positive value (R224). -/
def units (b : Nat) : Nat := if b / 2 ^ 23 = 0 then b else (2 ^ 23 + b % 2 ^ 23) * 2 ^ (b / 2 ^ 23 - 1)

theorem units_zero : units 0 = 0 := rfl

/-- Bits as a significand over an exponent field; the significand may reach 2^24, the first of the next exponent. -/
theorem units_eq {k n : Nat} (hn : n ≤ 2 ^ 24) (h : k = 0 ∨ 2 ^ 23 ≤ n) : units (k * 2 ^ 23 + n) = n * 2 ^ k := by
  unfold units
  rcases Nat.lt_or_ge n (2 ^ 23) with h1 | h1
  · have hk : k = 0 := by omega
    subst hk
    rw [if_pos (by omega)]; omega
  · rw [if_neg (by omega)]
    rcases Nat.lt_or_ge n (2 ^ 24) with h2 | h2
    · have e1 : (k * 2 ^ 23 + n) / 2 ^ 23 - 1 = k := by omega
      have e2 : 2 ^ 23 + (k * 2 ^ 23 + n) % 2 ^ 23 = n := by omega
      rw [e1, e2]
    · have e1 : (k * 2 ^ 23 + n) / 2 ^ 23 - 1 = k + 1 := by omega
      have e2 : 2 ^ 23 + (k * 2 ^ 23 + n) % 2 ^ 23 = 2 ^ 23 := by omega
      have e3 : n = 2 ^ 24 := by omega
      rw [e1, e2, e3, Nat.pow_succ]; omega

theorem bits_split (b : Nat) : ∃ k n, b = k * 2 ^ 23 + n ∧ n < 2 ^ 24 ∧ (k = 0 ∨ 2 ^ 23 ≤ n) := by
  rcases Nat.lt_or_ge b (2 ^ 24) with h | h
  · exact ⟨0, b, by omega, h, .inl rfl⟩
  · exact ⟨b / 2 ^ 23 - 1, b % 2 ^ 23 + 2 ^ 23, by omega, by omega, .inr (by omega)⟩

theorem units_lt_succ (b : Nat) : units b < units (b + 1) := by
  obtain ⟨k, n, rfl, hn, h⟩ := bits_split b
  rw [Nat.add_assoc, units_eq (Nat.le_of_lt hn) h, units_eq hn (by omega)]
  exact Nat.mul_lt_mul_of_pos_right n.lt_succ_self (Nat.two_pow_pos k)

theorem units_lt {a b : Nat} (h : a < b) : units a < units b := by
  induction h with
  | refl => exact units_lt_succ a
  | step _ ih => exact Nat.lt_trans ih (units_lt_succ _)

theorem units_le {a b : Nat} (h : a ≤ b) : units a ≤ units b := by
  rcases Nat.eq_or_lt_of_le h with rfl | h
  · exact Nat.le_refl _
  · exact Nat.le_of_lt (units_lt h)

theorem lt_of_units_lt {a b : Nat} (h : units a < units b) : a < b :=
  Nat.lt_of_not_le fun hle => Nat.not_lt.mpr (units_le hle) h

/-! Rounding to nearest, ties to even. -/

theorem mul_le_mul_iff {x y p : Rat} (hp : 0 < p) : x * p ≤ y * p ↔ x ≤ y :=
  ⟨fun h => Rat.le_of_mul_le_mul_right h hp, fun h => Rat.mul_le_mul_of_nonneg_right h (Rat.le_of_lt hp)⟩

theorem rat_le_or_lt (x y : Rat) : x ≤ y ∨ y < x := (Decidable.em (x ≤ y)).imp_right Rat.not_le.mp

theorem natCast_succ_eq (n : Nat) : ((n + 1 : Nat) : Rat) = n + 1 := Rat.natCast_add n 1

/-- `n` is the whole number nearest to `y`, and even in a tie. -/
structure NearestInt (y : Rat) (n : Nat) : Prop where
  below : 2 * (n : Rat) ≤ 2 * y + 1
  above : 2 * y ≤ 2 * n + 1
  tieBelow : 2 * y + 1 ≤ 2 * n → n % 2 = 0
  tieAbove : 2 * (n : Rat) + 1 ≤ 2 * y → n % 2 = 0

/-- `b` are the bits whose magnitude is nearest to `x` units, even in a tie. -/
structure NearestBits (x : Rat) (b : Nat) : Prop where
  up : ∀ u, b < u → 2 * x ≤ units b + units u ∧ ((units b : Rat) + units u ≤ 2 * x → b % 2 = 0)
  down : ∀ u, u < b → (units b : Rat) + units u ≤ 2 * x ∧ (2 * x ≤ units b + units u → b % 2 = 0)

/-- A number divided by a power of two lies over its quotient by a part of one, at most a half just when twice the remainder is at
most the divisor. -/
theorem shifted_eq (m k : Nat) : ∃ f : Rat, (m : Rat) * Ref.pow2 (-(k : Int)) = (m / 2 ^ k : Nat) + f ∧ 0 ≤ f ∧ f < 1 ∧
    (2 * (m % 2 ^ k) ≤ 2 ^ k ↔ 2 * f ≤ 1) ∧ (2 ^ k ≤ 2 * (m % 2 ^ k) ↔ 1 ≤ 2 * f) := by
  have hlt : m % 2 ^ k < 2 ^ k := Nat.mod_lt _ (Nat.two_pow_pos k)
  have hm : ((2 ^ k * (m / 2 ^ k) + m % 2 ^ k : Nat) : Rat) = m := congrArg _ (Nat.div_add_mod m (2 ^ k))
  generalize m / 2 ^ k = n, m % 2 ^ k = r at hlt hm
  have h1 := Ref.pow2_neg_mul k
  have hp := Ref.pow2_pos (-(k : Int))
  have hr0 : (0 : Rat) ≤ r := Rat.natCast_nonneg
  have hr : (r : Rat) < (2 ^ k : Nat) := Rat.natCast_lt_natCast.mpr hlt
  rw [Rat.natCast_add, Rat.natCast_mul] at hm
  have lo : 2 * r ≤ 2 ^ k ↔ 2 * (r : Rat) ≤ (2 ^ k : Nat) := by
    rw [← Rat.natCast_le_natCast, Rat.natCast_mul]; exact Iff.rfl
  have hi : 2 ^ k ≤ 2 * r ↔ ((2 ^ k : Nat) : Rat) ≤ 2 * r := by
    rw [← Rat.natCast_le_natCast, Rat.natCast_mul]; exact Iff.rfl
  rw [lo, hi, ← hm]
  generalize ((2 ^ k : Nat) : Rat) = d at h1 hr
  generalize Ref.pow2 (-(k : Int)) = p at h1 hp
  refine ⟨r * p, by grind, Rat.mul_nonneg hr0 (Rat.le_of_lt hp), ?_, ?_, ?_⟩
  · have := Rat.mul_lt_mul_of_pos_right hr hp
    grind
  · rw [← mul_le_mul_iff hp]
    grind
  · rw [← mul_le_mul_iff hp]
    grind

theorem roundShift_nearest (neg : Bool) (m : Nat) (s : Int) : NearestInt (m * Ref.pow2 s) (roundShift .rne neg m s) := by
  unfold roundShift
  split
  · next h =>
    obtain ⟨k, rfl⟩ := Int.eq_ofNat_of_zero_le h
    rw [Int.toNat_natCast, Ref.pow2_natCast, ← Rat.natCast_mul]
    exact ⟨by grind, by grind, fun h => by grind, fun h => by grind⟩
  · next h =>
    obtain ⟨k, rfl⟩ : ∃ k : Nat, s = -k := ⟨(-s).toNat, by omega⟩
    obtain ⟨f, hy, hf0, hf1, lo, hi⟩ := shifted_eq m k
    rw [hy]
    simp only [Int.neg_neg, Int.toNat_natCast, roundUp, Bool.or_eq_true, decide_eq_true_eq, Bool.and_eq_true, beq_iff_eq]
    generalize m / 2 ^ k = n
    split
    · next hu =>
      have h1 := hi.mp (by omega)
      have hs := natCast_succ_eq n
      refine ⟨by grind, by grind, fun h => ?_, fun h => by grind⟩
      have := lo.mpr (by grind)
      omega
    · next hu =>
      have h1 := lo.mp (by omega)
      refine ⟨by grind, by grind, fun h => by grind, fun h => ?_⟩
      have := hi.mpr (by grind)
      omega

/-- A rounded significand over its exponent gives the nearest bits, in the subnormals' exponent or where the significand has its
leading bit. -/
theorem nearestBits {y : Rat} {n k : Nat} (hn : NearestInt y n) (hy : y < (2 ^ 24 : Nat)) (hk : k = 0 ∨ (2 ^ 23 : Nat) ≤ y) :
    NearestBits (y * (2 ^ k : Nat)) (k * 2 ^ 23 + n) := by
  have hp := two_pow_pos k
  have below := hn.below
  have above := hn.above
  have hn24 : n ≤ 2 ^ 24 := by
    refine Nat.le_of_lt_succ (Rat.natCast_lt_natCast.mp ?_)
    rw [Nat.succ_eq_add_one, natCast_succ_eq]
    grind
  have hk' : k = 0 ∨ 2 ^ 23 ≤ n := by
    refine hk.imp_right fun h => Nat.le_of_lt_succ (Rat.natCast_lt_natCast.mp ?_)
    rw [Nat.succ_eq_add_one, natCast_succ_eq]
    grind
  have hb : (units (k * 2 ^ 23 + n) : Rat) = n * (2 ^ k : Nat) := by rw [units_eq hn24 hk', Rat.natCast_mul]
  have even : n % 2 = 0 → (k * 2 ^ 23 + n) % 2 = 0 := by omega
  refine ⟨fun u hu => ?_, fun u hu => ?_⟩
  · have hlt : (units (k * 2 ^ 23 + n) : Rat) < units u := Rat.natCast_lt_natCast.mpr (units_lt hu)
    rcases rat_le_or_lt y n with h | h
    · have := (mul_le_mul_iff hp).mpr h
      exact ⟨by grind, fun _ => by grind⟩
    · have h24 : n < 2 ^ 24 := Rat.natCast_lt_natCast.mp (by grind)
      have hu' : ((n : Rat) + 1) * (2 ^ k : Nat) ≤ units u := by
        have := units_le (show k * 2 ^ 23 + (n + 1) ≤ u by omega)
        rw [units_eq h24 (by omega), ← Rat.natCast_le_natCast, Rat.natCast_mul, natCast_succ_eq] at this
        exact this
      have h1 := (mul_le_mul_iff hp).mpr above
      refine ⟨by grind, fun ht => even (hn.tieAbove ((mul_le_mul_iff hp).mp ?_))⟩
      grind
  · have hlt : (units u : Rat) < units (k * 2 ^ 23 + n) := Rat.natCast_lt_natCast.mpr (units_lt hu)
    rcases rat_le_or_lt n y with h | h
    · have := (mul_le_mul_iff hp).mpr h
      exact ⟨by grind, fun _ => by grind⟩
    · have hn' : k = 0 ∨ 2 ^ 23 < n := hk.imp_right fun hky => Rat.natCast_lt_natCast.mp (by grind)
      have hn1 : n ≠ 0 := by omega
      obtain ⟨i, rfl⟩ := Nat.exists_eq_succ_of_ne_zero hn1
      have hu' : (units u : Rat) ≤ i * (2 ^ k : Nat) := by
        have := units_le (show u ≤ k * 2 ^ 23 + i by omega)
        rwa [units_eq (by omega) (by omega), ← Rat.natCast_le_natCast, Rat.natCast_mul] at this
      have hs : ((i.succ : Nat) : Rat) = i + 1 := natCast_succ_eq i
      have h1 := (mul_le_mul_iff hp).mpr below
      refine ⟨by grind, fun ht => even (hn.tieBelow ((mul_le_mul_iff hp).mp ?_))⟩
      grind

end Sys2Proof.Machine

namespace Sys2Proof.Machine

/-! Encodings of FP32 (R223 to R225). -/

/-- The least positive value (R224). -/
def ulp : Rat := Ref.pow2 (-149)

theorem ulp_pos : 0 < ulp := Ref.pow2_pos _

theorem decode_fp32 (b : Nat) : fp32.decode b =
    if b / 2 ^ 23 % 2 ^ 8 = 255 then (if b % 2 ^ 23 = 0 then .inf (bitAt b 31) else .nan)
    else if b / 2 ^ 23 % 2 ^ 8 = 0 then .fin (bitAt b 31) (b % 2 ^ 23) (-149)
    else .fin (bitAt b 31) (b % 2 ^ 23 + 2 ^ 23) ((b / 2 ^ 23 % 2 ^ 8 : Nat) - 150) := by
  have he : ((b / 2 ^ 23 % 2 ^ 8 : Nat) : Int) - 127 - 23 = (b / 2 ^ 23 % 2 ^ 8 : Nat) - 150 := by omega
  rw [← he]
  simp [Fmt.decode, fp32]

theorem Ref.ext_fp32_eq (b : Nat) : Ref.ext fp32 b =
    if b / 2 ^ 23 % 2 ^ 8 = 255 then (if b % 2 ^ 23 = 0 then .inf (bitAt b 31) else .nan)
    else .fin (bitAt b 31) (Ref.val fp32 b) := by
  simp [Ref.ext, Ref.special, Ref.expo, Ref.mant, Ref.sgn, fp32, bitAt]

theorem Ref.mag_fp32_def (b : Nat) : Ref.mag fp32 b =
    if b / 2 ^ 23 % 2 ^ 8 = 0 then Ref.pow2 (1 - 127) * ((b % 2 ^ 23 : Nat) / (2 ^ 23 : Nat))
    else Ref.pow2 ((b / 2 ^ 23 % 2 ^ 8 : Nat) - 127) * (1 + (b % 2 ^ 23 : Nat) / (2 ^ 23 : Nat)) := rfl

/-- A significand of 23 bits after the point as a whole number. -/
theorem significand_eq (e : Int) (x : Rat) : Ref.pow2 (e + 23) * (x / (2 ^ 23 : Nat)) = x * Ref.pow2 e := by
  have h2 := two_pow_pos 23
  have h := Ref.pow2_add_nat e 23
  rw [show (((23 : Nat) : Int)) = 23 from rfl] at h
  rw [h]
  generalize ((2 ^ 23 : Nat) : Rat) = d at h2
  grind

/-- The model's number of a finite encoding has the encoding's magnitude. -/
theorem decode_fp32_mag {b : Nat} (h : b / 2 ^ 23 % 2 ^ 8 ≠ 255) :
    ∃ m e, fp32.decode b = .fin (bitAt b 31) m e ∧ (m : Rat) * Ref.pow2 e = Ref.mag fp32 b := by
  rw [decode_fp32, if_neg h, Ref.mag_fp32_def]
  generalize b / 2 ^ 23 % 2 ^ 8 = e, b % 2 ^ 23 = m
  split
  · exact ⟨_, _, rfl, (significand_eq (-149) m).symm⟩
  · refine ⟨_, _, rfl, ?_⟩
    have h2 := two_pow_pos 23
    rw [Rat.natCast_add, ← significand_eq, show (e : Int) - 150 + 23 = e - 127 by omega]
    generalize ((2 ^ 23 : Nat) : Rat) = d at h2
    grind

theorem units_below_sign (b : Nat) : units (b % 2 ^ 31) =
    if b / 2 ^ 23 % 2 ^ 8 = 0 then b % 2 ^ 23 else (2 ^ 23 + b % 2 ^ 23) * 2 ^ (b / 2 ^ 23 % 2 ^ 8 - 1) := by
  have h1 : b % 2 ^ 31 / 2 ^ 23 = b / 2 ^ 23 % 2 ^ 8 := by omega
  have h2 : b % 2 ^ 31 % 2 ^ 23 = b % 2 ^ 23 := by omega
  unfold units
  rw [h1, h2]
  split
  · omega
  · rfl

/-- The value of an encoding in units of the least positive one. -/
theorem Ref.mag_fp32 (b : Nat) : Ref.mag fp32 b = units (b % 2 ^ 31) * ulp := by
  rw [units_below_sign, Ref.mag_fp32_def]
  generalize b / 2 ^ 23 % 2 ^ 8 = e, b % 2 ^ 23 = m
  split
  · exact significand_eq (-149) m
  · next he =>
    obtain ⟨k, rfl⟩ := Nat.exists_eq_succ_of_ne_zero he
    have h2 := two_pow_pos 23
    have hs := significand_eq (-149 + k) ((2 ^ 23 + m : Nat) : Rat)
    rw [Rat.natCast_mul, Nat.succ_eq_add_one, Nat.add_sub_cancel, show ((k + 1 : Nat) : Int) - 127 = -149 + k + 23 by omega, ulp]
    rw [Ref.pow2_add_nat (-149) k, Rat.natCast_add] at hs
    rw [Rat.natCast_add]
    generalize ((2 ^ 23 : Nat) : Rat) = d at h2 hs
    grind

theorem Ref.val_fp32 (b : Nat) : Ref.val fp32 b = withSign (bitAt b 31) (units (b % 2 ^ 31) * ulp) := by
  rw [← Ref.mag_fp32]
  rfl

theorem decode_fp32_finite {b : Nat} (h : b / 2 ^ 23 % 2 ^ 8 ≠ 255) :
    ∃ m e, fp32.decode b = .fin (bitAt b 31) m e ∧ (m : Rat) * Ref.pow2 e = units (b % 2 ^ 31) * ulp := by
  rw [← Ref.mag_fp32]
  exact decode_fp32_mag h

/-- The model's decoder reads the value of an encoding. -/
theorem Ref.ext_fp32 (b : Nat) : Ref.ext fp32 b = (fp32.decode b).ext := by
  rw [Ref.ext_fp32_eq]
  split
  · next h => rw [decode_fp32, if_pos h]; split <;> rfl
  · next h =>
    obtain ⟨m, e, hd, hm⟩ := decode_fp32_finite h
    rw [hd, FV.ext, hm, Ref.val_fp32]

/-! Rounding a number into FP32, to nearest (R235). -/

/-- Where rounding to nearest overflows, in units: half a step above the largest finite magnitude, (2^24 - 1/2) * 2^253. -/
def overflowUnits : Rat := (33554431 * 2 ^ 252 : Nat)

/-- The exponent field under which a number is rounded. -/
def roundExp (m : Nat) (e : Int) : Nat := (e + m.log2 + 126).toNat

/-- The bits that a number rounds to, before overflow: its significand over that field. -/
def roundBits (neg : Bool) (m : Nat) (e : Int) : Nat := roundExp m e * 2 ^ 23 + roundShift .rne neg m (e + 149 - roundExp m e)

theorem roundBits_nearest (neg : Bool) {m : Nat} (hm : m ≠ 0) (e : Int) :
    NearestBits (m * Ref.pow2 (e + 149)) (roundBits neg m e) := by
  have hx : (m : Rat) * Ref.pow2 (e + 149) = m * Ref.pow2 (e + 149 - roundExp m e) * (2 ^ roundExp m e : Nat) := by
    rw [Rat.mul_assoc, ← Ref.pow2_add_nat, Int.sub_add_cancel]
  have hlo : Ref.pow2 (m.log2 : Int) ≤ m := by
    rw [Ref.pow2_natCast]; exact Rat.natCast_le_natCast.mpr (Nat.log2_self_le hm)
  have hhi : (m : Rat) < Ref.pow2 ((m.log2 + 1 : Nat) : Int) := by
    rw [Ref.pow2_natCast]; exact Rat.natCast_lt_natCast.mpr Nat.lt_log2_self
  have hp := Ref.pow2_pos (e + 149 - roundExp m e)
  rw [hx, roundBits]
  refine nearestBits (roundShift_nearest neg m _) ?_ ?_
  · have h1 := Rat.mul_lt_mul_of_pos_right hhi hp
    have h2 : Ref.pow2 ((m.log2 + 1 : Nat) + (e + 149 - roundExp m e)) ≤ Ref.pow2 (24 : Nat) :=
      Ref.pow2_le (by unfold roundExp; omega)
    rw [Ref.pow2_add, Ref.pow2_natCast 24] at h2
    grind
  · rcases Nat.eq_zero_or_pos (roundExp m e) with h | h
    · exact .inl h
    · have h1 := (mul_le_mul_iff hp).mpr hlo
      rw [← Ref.pow2_add, show (m.log2 : Int) + (e + 149 - roundExp m e) = (23 : Nat) by unfold roundExp at *; omega,
        Ref.pow2_natCast] at h1
      exact .inr h1

theorem units_largest : units (Ref.largest fp32) = (2 ^ 24 - 1) * 2 ^ 253 :=
  units_eq (k := 253) (n := 2 ^ 24 - 1) (by decide) (by decide)

theorem units_below_largest : units (Ref.largest fp32 - 1) = (2 ^ 24 - 2) * 2 ^ 253 :=
  units_eq (k := 253) (n := 2 ^ 24 - 2) (by decide) (by decide)

theorem units_above_largest : units (Ref.largest fp32 + 1) = 2 ^ 24 * 2 ^ 253 :=
  units_eq (k := 253) (n := 2 ^ 24) (Nat.le_refl _) (by decide)

/-- The model's test at the top is whether the number reaches the overflow threshold. -/
theorem reaches_iff (m : Nat) (e : Int) :
    (if 0 ≤ 103 - e then decide (m ≥ 33554431 * 2 ^ (103 - e).toNat)
      else decide (m * 2 ^ (-(103 - e)).toNat ≥ 33554431)) = true ↔ overflowUnits ≤ m * Ref.pow2 (e + 149) := by
  unfold overflowUnits
  split
  · next h =>
    obtain ⟨k, rfl⟩ : ∃ k : Nat, e = 103 - k := ⟨(103 - e).toNat, by omega⟩
    have h1 : Ref.pow2 (103 - (k : Int) + 149) * (2 ^ k : Nat) = (2 ^ 252 : Nat) := by
      rw [← Ref.pow2_add_nat, ← Ref.pow2_natCast, show 103 - (k : Int) + 149 + k = (252 : Nat) by omega]
    rw [decide_eq_true_eq, show (103 - (103 - (k : Int))).toNat = k by omega, Rat.natCast_mul, ← h1,
      Rat.mul_comm (Ref.pow2 _) _, ← Rat.mul_assoc, mul_le_mul_iff (Ref.pow2_pos _), ← Rat.natCast_mul, Rat.natCast_le_natCast]
  · next h =>
    obtain ⟨k, rfl⟩ : ∃ k : Nat, e = 103 + k := ⟨(e - 103).toNat, by omega⟩
    rw [decide_eq_true_eq, show (-(103 - (103 + (k : Int)))).toNat = k by omega, Rat.natCast_mul,
      show 103 + (k : Int) + 149 = (252 : Nat) + k by omega, Ref.pow2_add_nat, Ref.pow2_natCast, Rat.mul_comm ((2 ^ 252 : Nat) : Rat) _,
      ← Rat.mul_assoc, mul_le_mul_iff (two_pow_pos _), ← Rat.natCast_mul, Rat.natCast_le_natCast]

theorem signed_eq (neg : Bool) (b : Nat) : Ref.signed fp32 neg b = fp32.signBit neg + b := by
  cases neg <;> simp [Ref.signed, Fmt.signBit]

theorem fp32_fields : fp32.bias = 127 ∧ fp32.mw = 23 ∧ fp32.maxBits = 2139095039 ∧ Ref.largest fp32 = 2139095039 :=
  ⟨rfl, rfl, rfl, rfl⟩

theorem overflow_eq (neg : Bool) : fp32.overflow .rne false neg = Ref.overflow fp32 false neg := by cases neg <;> rfl

theorem roundFin_fp32 (neg : Bool) (m : Nat) (e : Int) :
    fp32.roundFin .rne false neg m e =
      if roundBits neg m e > Ref.largest fp32 ∨ overflowUnits ≤ m * Ref.pow2 (e + 149) then Ref.overflow fp32 false neg
      else Ref.signed fp32 neg (roundBits neg m e) := by
  have hq : (if e + (m.log2 : Int) < -126 then -126 else e + (m.log2 : Int)) - 23 = roundExp m e - 149 := by
    unfold roundExp; split <;> omega
  have he : e - ((roundExp m e : Int) - 149) = e + 149 - roundExp m e := by omega
  have hk : ((roundExp m e : Int) - 149 + 23 - (-126)).toNat = roundExp m e := by omega
  have hr : fp32.roundFin .rne false neg m e =
      if (decide (roundBits neg m e > Ref.largest fp32) ||
          if 0 ≤ 103 - e then decide (m ≥ 33554431 * 2 ^ (103 - e).toNat)
          else decide (m * 2 ^ (-(103 - e)).toNat ≥ 33554431)) = true then fp32.overflow .rne false neg
      else fp32.signBit neg + roundBits neg m e := by
    simp only [roundBits, Fmt.roundFin, fp32_fields, Int.cast_ofNat_Int, Nat.reducePow, Nat.reduceDiv, Nat.reduceMod,
      Nat.reduceAdd, Nat.reduceMul, Int.reduceSub, hq, he, hk, BEq.rfl, Bool.true_and]
  rw [hr, overflow_eq, signed_eq]
  simp only [Bool.or_eq_true, decide_eq_true_eq, reaches_iff]

end Sys2Proof.Machine

namespace Sys2Proof.Machine

/-! Bits with a sign. -/

/-- The nearest bits against any magnitude with a sign relative to theirs. -/
theorem NearestBits.compare {x : Rat} {b : Nat} (h : NearestBits x b) (hx : 0 ≤ x) (t : Bool) (u : Nat) :
    ((units b : Rat) < withSign t (units u) →
      2 * x ≤ units b + withSign t (units u) ∧ ((units b : Rat) + withSign t (units u) ≤ 2 * x → b % 2 = 0)) ∧
    (withSign t (units u : Rat) < units b →
      (units b : Rat) + withSign t (units u) ≤ 2 * x ∧ (2 * x ≤ units b + withSign t (units u) → b % 2 = 0)) := by
  cases t with
  | false =>
    exact ⟨fun hlt => h.up u (lt_of_units_lt (Rat.natCast_lt_natCast.mp hlt)),
      fun hlt => h.down u (lt_of_units_lt (Rat.natCast_lt_natCast.mp hlt))⟩
  | true =>
    rw [withSign_true]
    have hb : (0 : Rat) ≤ units b := Rat.natCast_nonneg
    have hu : (0 : Rat) ≤ units u := Rat.natCast_nonneg
    refine ⟨fun hlt => by grind, fun _ => ?_⟩
    have h0 : ((units 0 : Nat) : Rat) = 0 := by rw [units_zero]; rfl
    rcases Nat.eq_zero_or_pos b with rfl | hpos
    · exact ⟨by grind, fun _ => rfl⟩
    · obtain ⟨hle, heven⟩ := h.down 0 hpos
      exact ⟨by grind, fun _ => heven (by grind)⟩

theorem signed_fp32 (neg : Bool) (b : Nat) : Ref.signed fp32 neg b = (if neg then 2 ^ 31 else 0) + b := by
  cases neg with
  | false => exact (Nat.zero_add b).symm
  | true => rfl

theorem mant_signed (neg : Bool) (b : Nat) : Ref.mant fp32 (Ref.signed fp32 neg b) % 2 = b % 2 := by
  show _ % 2 ^ 23 % 2 = _
  rw [signed_fp32]
  split <;> omega

section Signed
variable (neg : Bool) {b : Nat} (hb : b ≤ Ref.largest fp32)
include hb

theorem sgn_signed : Ref.sgn fp32 (Ref.signed fp32 neg b) = neg := by
  have hl : b ≤ 2139095039 := hb
  show bitAt _ 31 = neg
  rw [signed_fp32]
  cases neg <;> simp only [bitAt, Bool.false_eq_true, ↓reduceIte, beq_iff_eq, beq_eq_false_iff_ne] <;> omega

theorem val_signed : Ref.val fp32 (Ref.signed fp32 neg b) = withSign neg (units b * ulp) := by
  have hl : b ≤ 2139095039 := hb
  have hmod : Ref.signed fp32 neg b % 2 ^ 31 = b := by rw [signed_fp32]; split <;> omega
  rw [Ref.val_fp32, hmod, show bitAt (Ref.signed fp32 neg b) 31 = neg from sgn_signed neg hb]

theorem finite_signed : Ref.Finite fp32 (Ref.signed fp32 neg b) := by
  have hl : b ≤ 2139095039 := hb
  have hspecial : ¬ Ref.signed fp32 neg b / 2 ^ 23 % 2 ^ 8 = 255 := by rw [signed_fp32]; split <;> omega
  refine ⟨?_, decide_eq_false hspecial⟩
  show _ < 2 ^ 32
  rw [signed_fp32]
  split <;> omega

end Signed

theorem val_of_le_largest {b : Nat} (hb : b ≤ Ref.largest fp32) : Ref.val fp32 b = units b * ulp := by
  have h := val_signed false hb
  rwa [signed_fp32, if_neg Bool.false_ne_true, Nat.zero_add] at h

/-- Twice the threshold is the sum of the largest magnitude and the one that would follow it, in units. -/
theorem two_overflowUnits : 2 * overflowUnits = units (Ref.largest fp32) + units (Ref.largest fp32 + 1) := by
  have hl := units_largest
  have ha := units_above_largest
  have h : 2 * (33554431 * 2 ^ 252) = units (Ref.largest fp32) + units (Ref.largest fp32 + 1) := by omega
  have h' := congrArg (fun n : Nat => (n : Rat)) h
  simp only [Rat.natCast_add, Rat.natCast_mul 2] at h'
  exact h'

/-- The last step below the largest magnitude is as long as the one above it. -/
theorem units_step : (units (Ref.largest fp32 + 1) : Rat) - units (Ref.largest fp32) =
    units (Ref.largest fp32) - units (Ref.largest fp32 - 1) := by
  have h : units (Ref.largest fp32 + 1) + units (Ref.largest fp32 - 1) = units (Ref.largest fp32) + units (Ref.largest fp32) := by
    have hl := units_largest
    have hb := units_below_largest
    have ha := units_above_largest
    omega
  have h' := congrArg (fun n : Nat => (n : Rat)) h
  simp only [Rat.natCast_add] at h'
  grind

/-- The overflow threshold of R235, half a step above the largest value. -/
theorem threshold_eq :
    Ref.val fp32 (Ref.largest fp32) + (Ref.val fp32 (Ref.largest fp32) - Ref.val fp32 (Ref.largest fp32 - 1)) / 2 =
      overflowUnits * ulp := by
  rw [val_of_le_largest (Nat.le_refl _), val_of_le_largest (Nat.sub_le _ _)]
  have h1 := two_overflowUnits
  have h2 := units_step
  generalize (units (Ref.largest fp32) : Rat) = x, (units (Ref.largest fp32 + 1) : Rat) = y,
    (units (Ref.largest fp32 - 1) : Rat) = z at h1 h2
  grind

/-- Below the threshold the nearest bits are finite. -/
theorem NearestBits.le_largest {x : Rat} {b : Nat} (h : NearestBits x b) (hx : x < overflowUnits) : b ≤ Ref.largest fp32 := by
  refine Nat.le_of_not_lt fun hb => ?_
  have hsum := (h.down _ hb).1
  have hle : (units (Ref.largest fp32 + 1) : Rat) ≤ units b := Rat.natCast_le_natCast.mpr (units_le hb)
  have ht := two_overflowUnits
  generalize (units (Ref.largest fp32) : Rat) = p, (units (Ref.largest fp32 + 1) : Rat) = q at hsum hle ht
  grind

/-- What R235 asks of a value `y` beside the value `z` of another encoding, the exact value `x` being between. -/
def Beside (x y z : Rat) (b : Nat) : Prop :=
  (y < z → x ≤ (y + z) / 2 ∧ ((y + z) / 2 ≤ x → b % 2 = 0)) ∧ (z < y → (y + z) / 2 ≤ x ∧ (x ≤ (y + z) / 2 → b % 2 = 0))

theorem Beside.scale {x y z p : Rat} {b : Nat} (hp : 0 < p)
    (h : (y < z → 2 * x ≤ y + z ∧ (y + z ≤ 2 * x → b % 2 = 0)) ∧ (z < y → y + z ≤ 2 * x ∧ (2 * x ≤ y + z → b % 2 = 0))) :
    Beside (x * p) (y * p) (z * p) b := by
  have mid : (y * p + z * p) / 2 = (y + z) / 2 * p := by grind
  have half_le : (y + z) / 2 ≤ x ↔ y + z ≤ 2 * x := ⟨fun h => by grind, fun h => by grind⟩
  have le_half : x ≤ (y + z) / 2 ↔ 2 * x ≤ y + z := ⟨fun h => by grind, fun h => by grind⟩
  have lt := fun {u v : Rat} (hlt : u * p < v * p) => Rat.lt_of_mul_lt_mul_right hlt (Rat.le_of_lt hp)
  rw [Beside, mid, mul_le_mul_iff hp, mul_le_mul_iff hp, half_le, le_half]
  exact ⟨fun hlt => h.1 (lt hlt), fun hlt => h.2 (lt hlt)⟩

theorem Beside.neg {x y z : Rat} {b : Nat} (h : Beside x y z b) : Beside (-x) (-y) (-z) b := by
  obtain ⟨hup, hdown⟩ := h
  refine ⟨fun hlt => ?_, fun hlt => ?_⟩
  · obtain ⟨h1, h2⟩ := hdown (Rat.neg_lt_neg_iff.mp hlt)
    exact ⟨by grind, fun ht => h2 (by grind)⟩
  · obtain ⟨h1, h2⟩ := hup (Rat.neg_lt_neg_iff.mp hlt)
    exact ⟨by grind, fun ht => h2 (by grind)⟩

theorem Beside.withSign (neg : Bool) {x y z : Rat} {b : Nat} (h : Beside x y z b) :
    Beside (withSign neg x) (withSign neg y) (withSign neg z) b := by
  cases neg with
  | false => exact h
  | true => exact h.neg

/-- A sign as seen from another. -/
theorem withSign_relative (neg t : Bool) (x : Rat) : withSign t x = withSign neg (withSign (neg != t) x) := by
  cases neg <;> cases t <;> simp only [withSign, bne_self_eq_false, Bool.false_bne, Bool.true_bne, Bool.not_false, Bool.false_eq_true,
    ↓reduceIte, Rat.neg_neg]

/-- The exact value reaches the threshold of its sign. -/
theorem beyond_iff (neg : Bool) (x : Rat) :
    (if neg then withSign neg (x * ulp) ≤ -(overflowUnits * ulp) else overflowUnits * ulp ≤ withSign neg (x * ulp)) ↔
      overflowUnits ≤ x := by
  refine Iff.trans ?_ (mul_le_mul_iff ulp_pos)
  cases neg with
  | false => exact Iff.rfl
  | true =>
    rw [if_pos rfl, withSign_true]
    exact ⟨fun h => by grind, fun h => by grind⟩

/-- The nearest bits with a sign, or the overflow value from the threshold on, are the one rounding of R235. -/
theorem rounded_of_nearest (neg : Bool) {x : Rat} {b : Nat} (hx : 0 ≤ x) (h : NearestBits x b) :
    Ref.Rounded fp32 .rne false neg (fun y => y ≤ withSign neg (x * ulp)) (fun y => withSign neg (x * ulp) ≤ y)
      (if b > Ref.largest fp32 ∨ overflowUnits ≤ x then Ref.overflow fp32 false neg else Ref.signed fp32 neg b) := by
  simp only [Ref.Rounded, threshold_eq, beyond_iff]
  refine ⟨fun ho => if_pos (.inr ho), fun ho => ?_⟩
  have hb := h.le_largest (Rat.not_le.mp ho)
  rw [if_neg (not_or.mpr ⟨Nat.not_lt.mpr hb, ho⟩)]
  refine ⟨finite_signed neg hb, sgn_signed neg hb, fun u _ => ?_⟩
  rw [val_signed neg hb, mant_signed, Ref.val_fp32, withSign_relative neg (bitAt u 31), withSign_mul_left (neg != bitAt u 31)]
  exact (Beside.scale ulp_pos (h.compare hx (neg != bitAt u 31) (u % 2 ^ 31))).withSign neg

theorem withSign_neg_iff {neg : Bool} {y : Rat} (hy : 0 < y) : decide (withSign neg y < 0) = neg := by
  cases neg with
  | false => exact decide_eq_false (by rw [withSign_false]; grind)
  | true => exact decide_eq_true (by rw [withSign_true]; grind)

/-- Rounding once to nearest (R235). -/
theorem encode_narrowed {v : FV} {x : Ref.Ext} (h : v.Denotes x) : Ref.Narrowed fp32 .rne false x (fp32.encode .rne false v) := by
  match v, x with
  | .nan, .nan => rfl
  | .inf a, .inf b =>
    have hab : a = b := h
    subst hab
    exact overflow_eq a
  | .fin neg m e, .fin zneg q =>
    obtain ⟨rfl, hz⟩ := h
    simp only [Ref.Narrowed, Fmt.encode, withSign_eq_zero, scaled_eq_zero, beq_iff_eq]
    by_cases hm : m = 0
    · rw [if_pos hm, if_pos hm, hz hm, signed_eq, Nat.add_zero]
    · have hpos : (0 : Rat) < m * Ref.pow2 e := Rat.mul_pos (Rat.natCast_pos.mpr (Nat.pos_of_ne_zero hm)) (Ref.pow2_pos e)
      have hpos' : (0 : Rat) < m * Ref.pow2 (e + 149) := Rat.mul_pos (Rat.natCast_pos.mpr (Nat.pos_of_ne_zero hm)) (Ref.pow2_pos _)
      have hscale : (m : Rat) * Ref.pow2 e = m * Ref.pow2 (e + 149) * ulp := by
        rw [ulp, Rat.mul_assoc, ← Ref.pow2_add, Int.add_neg_cancel_right]
      rw [if_neg hm, if_neg hm, withSign_neg_iff hpos, roundFin_fp32, hscale]
      exact rounded_of_nearest neg (Rat.le_of_lt hpos') (roundBits_nearest neg hm e)

theorem encode_lt (v : FV) : fp32.encode .rne false v < 2 ^ 32 := by
  have ho : ∀ neg, Ref.overflow fp32 false neg < 2 ^ 32 := by decide
  have hs : ∀ neg b, b ≤ Ref.largest fp32 → Ref.signed fp32 neg b < 2 ^ 32 := fun neg b hb => (finite_signed neg hb).1
  match v with
  | .nan => decide
  | .inf neg =>
    show fp32.overflow .rne false neg < 2 ^ 32
    rw [overflow_eq]
    exact ho neg
  | .fin neg m e =>
    simp only [Fmt.encode]
    split
    · rw [← Nat.add_zero (fp32.signBit neg), ← signed_eq]
      exact hs neg 0 (Nat.zero_le _)
    · rw [roundFin_fp32]
      split
      · exact ho neg
      · next h => exact hs neg _ (Nat.not_lt.mp fun hgt => h (.inl hgt))

theorem isF32_toF32 {v : FV} {x : Ref.Ext} (h : v.Denotes x) : Ref.IsF32 .rne x (toF32 .rne v) := by
  rw [Ref.IsF32, toF32, BitVec.toNat_ofNat, Nat.mod_eq_of_lt (encode_lt v)]
  exact encode_narrowed h

theorem ext32_eq (w : W32) : Ref.ext32 w = (f32 w).ext := Ref.ext_fp32 w.toNat

/-- Sums, differences and products of FP32 are the exact ones rounded once (R107, R108). -/
theorem fAdd_isF32 (a b : W32) : Ref.IsF32 .rne (Ref.Ext.add .rne (Ref.ext32 a) (Ref.ext32 b)) (fAdd .rne a b) := by
  rw [ext32_eq, ext32_eq]
  exact isF32_toF32 (FV.add_denotes ..)

theorem fSub_isF32 (a b : W32) : Ref.IsF32 .rne (Ref.Ext.add .rne (Ref.ext32 a) (Ref.ext32 b).neg) (fSub .rne a b) := by
  rw [ext32_eq, ext32_eq, ← FV.ext_flip]
  exact isF32_toF32 (FV.add_denotes ..)

theorem fMul_isF32 (a b : W32) : Ref.IsF32 .rne ((Ref.ext32 a).mul (Ref.ext32 b)) (fMul .rne a b) := by
  rw [ext32_eq, ext32_eq, ← FV.ext_mul]
  exact isF32_toF32 (FV.denotes_ext _)

end Sys2Proof.Machine

namespace Sys2Proof.Machine

/-! The smaller and the larger (R109). -/

theorem toNat_and_exponent (w : W32) : (w &&& 0x7F800000#32).toNat = w.toNat / 2 ^ 23 % 2 ^ 8 * 2 ^ 23 := by
  rw [BitVec.toNat_and, show (0x7F800000#32).toNat = (2 ^ 8 - 1) <<< 23 from rfl, ← Nat.and_two_pow_sub_one_eq_mod,
    ← Nat.shiftRight_eq_div_pow, ← Nat.shiftLeft_eq]
  refine Nat.eq_of_testBit_eq fun i => ?_
  simp only [Nat.testBit_and, Nat.testBit_shiftLeft, Nat.testBit_shiftRight]
  rcases Nat.lt_or_ge i 23 with h | h
  · simp only [ge_iff_le, Nat.not_le.mpr h, decide_false, Bool.false_and, Bool.and_false]
  · simp only [ge_iff_le, h, decide_true, Bool.true_and, Nat.add_sub_cancel' h]

theorem toNat_and_low (w : W32) (k : Nat) (hk : k < 32) : (w &&& BitVec.ofNat 32 (2 ^ k - 1)).toNat = w.toNat % 2 ^ k := by
  have : 2 ^ k - 1 < 2 ^ 32 := Nat.lt_of_le_of_lt (Nat.sub_le ..) (Nat.pow_lt_pow_right Nat.one_lt_two hk)
  rw [BitVec.toNat_and, BitVec.toNat_ofNat, Nat.mod_eq_of_lt this, Nat.and_two_pow_sub_one_eq_mod]

theorem nan32_iff (w : W32) : Ref.nan32 w = true ↔ w.toNat / 2 ^ 23 % 2 ^ 8 = 255 ∧ w.toNat % 2 ^ 23 ≠ 0 := by
  have h1 : w &&& 0x7F800000#32 = 0x7F800000#32 ↔ w.toNat / 2 ^ 23 % 2 ^ 8 = 255 := by
    rw [← BitVec.toNat_inj, toNat_and_exponent, show (0x7F800000#32).toNat = 255 * 2 ^ 23 from rfl]
    omega
  have h2 : w &&& 0x007FFFFF#32 = 0#32 ↔ w.toNat % 2 ^ 23 = 0 := by
    have h : (w &&& 0x007FFFFF#32).toNat = w.toNat % 2 ^ 23 := toNat_and_low w 23 (by decide)
    rw [← BitVec.toNat_inj, h, show (0#32).toNat = 0 from rfl]
  simp only [Ref.nan32, Bool.and_eq_true, beq_iff_eq, bne_iff_ne, ne_eq, h1, h2]

theorem isNan_f32 (w : W32) : (f32 w).isNan = Ref.nan32 w := by
  rw [Bool.eq_iff_iff, nan32_iff, f32, decode_fp32]
  by_cases h : w.toNat / 2 ^ 23 % 2 ^ 8 = 255
  · rw [if_pos h]
    split <;> simp only [FV.isNan, *, ne_eq, not_true_eq_false, not_false_eq_true, and_self, and_false, Bool.false_eq_true]
  · rw [if_neg h]
    split <;> simp only [FV.isNan, h, Bool.false_eq_true, false_and]

theorem msb_eq (w : W32) : w.msb = bitAt w.toNat 31 := (bitAt_toNat w 31).symm

theorem place_eq (w : W32) : Ref.place w = if bitAt w.toNat 31 then -((w.toNat % 2 ^ 31 : Nat) : Int) else (w.toNat % 2 ^ 31 : Nat) := by
  have h : (w &&& 0x7FFFFFFF#32).toNat = w.toNat % 2 ^ 31 := toNat_and_low w 31 (by decide)
  rw [Ref.place, msb_eq, h]

/-- What a value that is no NaN is to the model. -/
theorem f32_cases {w : W32} (h : Ref.nan32 w = false) :
    (f32 w = .inf (bitAt w.toNat 31) ∧ w.toNat % 2 ^ 31 = 255 * 2 ^ 23) ∨
    (w.toNat % 2 ^ 31 < 255 * 2 ^ 23 ∧ ∃ m e, f32 w = .fin (bitAt w.toNat 31) m e ∧
      (m : Rat) * Ref.pow2 e = units (w.toNat % 2 ^ 31) * ulp) := by
  have h' : ¬ (w.toNat / 2 ^ 23 % 2 ^ 8 = 255 ∧ w.toNat % 2 ^ 23 ≠ 0) := by rw [← nan32_iff, h]; exact Bool.false_ne_true
  by_cases he : w.toNat / 2 ^ 23 % 2 ^ 8 = 255
  · have h0 : w.toNat % 2 ^ 23 = 0 := Decidable.not_not.mp fun hn => h' ⟨he, hn⟩
    exact .inl ⟨by rw [f32, decode_fp32, if_pos he, if_pos h0], by omega⟩
  · exact .inr ⟨by omega, decode_fp32_finite he⟩

/-- The value at a place of the order, in units. -/
def unitsAt (i : Int) : Int := if i < 0 then -(units i.natAbs : Int) else units i.natAbs

theorem unitsAt_lt {i j : Int} (hij : i < j) : unitsAt i < unitsAt j := by
  have mono := fun {a b : Nat} (h : a < b) => units_lt h
  unfold unitsAt
  split
  · next hi =>
    split
    · have := mono (show j.natAbs < i.natAbs by omega); omega
    · have := mono (show 0 < i.natAbs by omega); omega
  · have := mono (show i.natAbs < j.natAbs by omega)
    rw [if_neg (by omega)]; omega

theorem unitsAt_order (i j : Int) : (unitsAt i < unitsAt j ↔ i < j) ∧ (unitsAt i = unitsAt j ↔ i = j) := by
  rcases Int.lt_trichotomy i j with h | rfl | h
  · have := unitsAt_lt h; omega
  · omega
  · have := unitsAt_lt h; omega

theorem unitsAt_natCast (n : Nat) : unitsAt n = units n := by rw [unitsAt, if_neg (by omega), Int.natAbs_natCast]

theorem unitsAt_neg (n : Nat) : unitsAt (-n) = -units n := by
  rcases Nat.eq_zero_or_pos n with rfl | hn
  · rfl
  · rw [unitsAt, if_pos (by omega), Int.natAbs_neg, Int.natAbs_natCast]

theorem withSign_units (w : W32) : withSign (bitAt w.toNat 31) (units (w.toNat % 2 ^ 31)) = (unitsAt (Ref.place w) : Rat) := by
  rw [place_eq]
  cases bitAt w.toNat 31 with
  | false => rw [if_neg Bool.false_ne_true, unitsAt_natCast, Rat.intCast_natCast, withSign_false]
  | true => rw [if_pos rfl, unitsAt_neg, Rat.intCast_neg, Rat.intCast_natCast, withSign_true]

theorem scaled_neg_iff (z k : Int) : (z : Rat) * Ref.pow2 k < 0 ↔ z < 0 :=
  (Rat.mul_neg_iff_of_pos_right (Ref.pow2_pos k)).trans Rat.intCast_neg_iff

theorem scaled_int_eq_zero (z k : Int) : (z : Rat) * Ref.pow2 k = 0 ↔ z = 0 := by
  have hp := Ref.pow2_pos k
  rw [Rat.mul_eq_zero, Rat.intCast_eq_zero_iff]
  exact ⟨fun h => h.resolve_right (by grind), .inl⟩

/-- One number over two exponents has one sign. -/
theorem sign_of_scaled {x y i j : Int} (h : (x : Rat) * Ref.pow2 i = (y : Rat) * Ref.pow2 j) : (x < 0 ↔ y < 0) ∧ (x = 0 ↔ y = 0) :=
  ⟨by rw [← scaled_neg_iff x i, h, scaled_neg_iff], by rw [← scaled_int_eq_zero x i, h, scaled_int_eq_zero]⟩

/-- Two finite values compare as their places stand. -/
theorem cmp_finite {a b : W32} {m n : Nat} {e k : Int} (va : (m : Rat) * Ref.pow2 e = units (a.toNat % 2 ^ 31) * ulp)
    (vb : (n : Rat) * Ref.pow2 k = units (b.toNat % 2 ^ 31) * ulp) :
    ((FV.fin (bitAt a.toNat 31) m e).cmp (.fin (bitAt b.toNat 31) n k) < 0 ↔ Ref.place a < Ref.place b) ∧
      ((FV.fin (bitAt a.toNat 31) m e).cmp (.fin (bitAt b.toNat 31) n k) = 0 ↔ Ref.place a = Ref.place b) := by
  simp only [FV.cmp]
  obtain ⟨he, hk⟩ := lower_exponent_le e k
  generalize (if e ≤ k then e else k) = base at he hk
  have hd : ((scaledInt (bitAt a.toNat 31) m e base - scaledInt (bitAt b.toNat 31) n k base : Int) : Rat) * Ref.pow2 base =
      ((unitsAt (Ref.place a) - unitsAt (Ref.place b) : Int) : Rat) * ulp := by
    have ea := scaledInt_mul_pow (neg := bitAt a.toNat 31) (m := m) he
    have eb := scaledInt_mul_pow (neg := bitAt b.toNat 31) (m := n) hk
    rw [va, withSign_mul_left, withSign_units] at ea
    rw [vb, withSign_mul_left, withSign_units] at eb
    rw [Rat.intCast_sub, Rat.intCast_sub]
    grind
  obtain ⟨hneg, hzero⟩ := sign_of_scaled hd
  obtain ⟨hlt, heq⟩ := unitsAt_order (Ref.place a) (Ref.place b)
  exact ⟨hneg.trans (by omega), hzero.trans (by omega)⟩

/-- The model compares two values as their places stand. -/
theorem cmp_f32 {a b : W32} (ha : Ref.nan32 a = false) (hb : Ref.nan32 b = false) :
    ((f32 a).cmp (f32 b) < 0 ↔ Ref.place a < Ref.place b) ∧ ((f32 a).cmp (f32 b) = 0 ↔ Ref.place a = Ref.place b) := by
  rcases f32_cases ha with ⟨ea, ma⟩ | ⟨ma, m, e, ea, va⟩ <;> rcases f32_cases hb with ⟨eb, mb⟩ | ⟨mb, n, k, eb, vb⟩ <;> rw [ea, eb]
  · rw [place_eq, place_eq, ma, mb]
    cases bitAt a.toNat 31 <;> cases bitAt b.toNat 31 <;> decide
  · rw [place_eq, place_eq, ma]
    cases bitAt a.toNat 31 <;> cases bitAt b.toNat 31 <;> simp only [FV.cmp, Bool.false_eq_true, ↓reduceIte] <;> omega
  · rw [place_eq, place_eq, mb]
    cases bitAt a.toNat 31 <;> cases bitAt b.toNat 31 <;> simp only [FV.cmp, Bool.false_eq_true, ↓reduceIte] <;> omega
  · exact cmp_finite va vb

theorem placeZ_eq (w : W32) : Ref.placeZ w = Ref.place w - if bitAt w.toNat 31 then 1 else 0 := by
  rw [Ref.placeZ, msb_eq]
  cases bitAt w.toNat 31 with
  | false => exact (Int.sub_zero _).symm
  | true => rfl

theorem bitAt_31_eq (w : W32) : bitAt w.toNat 31 = decide (2 ^ 31 ≤ w.toNat) := by
  rw [bitAt, Bool.eq_iff_iff, beq_iff_eq, decide_eq_true_eq]
  omega

/-- Bits with one place are one. -/
theorem eq_of_placeZ {a b : W32} (h : Ref.placeZ a = Ref.placeZ b) : a = b := by
  rw [placeZ_eq, placeZ_eq, place_eq, place_eq, bitAt_31_eq, bitAt_31_eq] at h
  apply BitVec.eq_of_toNat_eq
  simp only [decide_eq_true_eq] at h
  split at h <;> split at h <;> omega

/-- The model's test for the smaller operand is the order of places with -0 below +0. -/
theorem less_iff {a b : W32} (ha : Ref.nan32 a = false) (hb : Ref.nan32 b = false) :
    (decide ((f32 a).cmp (f32 b) < 0) || ((f32 a).cmp (f32 b) == 0 && a.getLsbD 31 && !b.getLsbD 31)) =
      decide (Ref.placeZ a < Ref.placeZ b) := by
  obtain ⟨hlt, heq⟩ := cmp_f32 ha hb
  rw [Bool.eq_iff_iff]
  simp only [Bool.or_eq_true, decide_eq_true_eq, Bool.and_eq_true, beq_iff_eq, Bool.not_eq_true', hlt, heq, placeZ_eq, place_eq,
    ← bitAt_toNat]
  cases bitAt a.toNat 31 <;> cases bitAt b.toNat 31 <;>
    simp only [Bool.false_eq_true, Bool.true_eq_false, ↓reduceIte, and_true, and_false, or_false] <;> omega

/-- One NaN gives the other operand, two the canonical one; else the order of places decides. -/
theorem fminmax_eq (isMax : Bool) (a b : W32) : fminmax isMax a b =
    if Ref.nan32 a && Ref.nan32 b then 0x7FC00000#32 else if Ref.nan32 a then b else if Ref.nan32 b then a
    else if decide (Ref.placeZ a < Ref.placeZ b) = isMax then b else a := by
  simp only [fminmax, isNan_f32]
  cases ha : Ref.nan32 a with
  | true => rfl
  | false =>
    cases hb : Ref.nan32 b with
    | true => rfl
    | false => simp only [less_iff ha hb, beq_iff_eq]

section
variable (a b : W32)

/-- The strict order of places chooses as the order does: equal places are equal bits. -/
theorem choose_smaller : (if decide (Ref.placeZ a < Ref.placeZ b) = false then b else a) =
    if Ref.placeZ a ≤ Ref.placeZ b then a else b := by
  rcases Int.lt_trichotomy (Ref.placeZ a) (Ref.placeZ b) with h | h | h
  · rw [decide_eq_true h, if_neg Bool.noConfusion, if_pos (Int.le_of_lt h)]
  · rw [eq_of_placeZ h, ite_self, ite_self]
  · rw [decide_eq_false (Int.not_lt.mpr (Int.le_of_lt h)), if_pos rfl, if_neg (Int.not_le.mpr h)]

theorem choose_larger : (if decide (Ref.placeZ a < Ref.placeZ b) = true then b else a) =
    if Ref.placeZ a ≤ Ref.placeZ b then b else a := by
  rcases Int.lt_trichotomy (Ref.placeZ a) (Ref.placeZ b) with h | h | h
  · rw [decide_eq_true h, if_pos rfl, if_pos (Int.le_of_lt h)]
  · rw [eq_of_placeZ h, ite_self, ite_self]
  · rw [decide_eq_false (Int.not_lt.mpr (Int.le_of_lt h)), if_neg Bool.false_ne_true, if_neg (Int.not_le.mpr h)]

theorem fmin_eq : fminmax false a b = Ref.fmin a b := by rw [fminmax_eq, choose_smaller, Ref.fmin]

theorem fmax_eq : fminmax true a b = Ref.fmax a b := by rw [fminmax_eq, choose_larger, Ref.fmax]

end

end Sys2Proof.Machine

/-! The halves of paired words (R65). -/

namespace Sys2Proof.Machine

/-! Minimum, maximum and shifts at the type's width. -/

theorem intVal_le (t : IntTy) (a b : W64) :
    intVal t a ≤ intVal t b ↔ Ref.le t (a.setWidth t.bits) (b.setWidth t.bits) = true := by
  rw [intVal_eq, intVal_eq, Ref.le]
  split
  · exact BitVec.sle_iff_toInt_le.symm
  · rw [BitVec.ule_iff_toNat_le]; exact Int.ofNat_le

theorem intMin_eq (t : IntTy) (a b : W64) : intMin t a b = (Ref.min t (a.setWidth t.bits) (b.setWidth t.bits)).setWidth 64 := by
  simp only [intMin, intWrap_eq, Ref.min, intVal_le]
  split <;> rw [ofInt_intVal]

theorem intMax_eq (t : IntTy) (a b : W64) : intMax t a b = (Ref.max t (a.setWidth t.bits) (b.setWidth t.bits)).setWidth 64 := by
  simp only [intMax, intWrap_eq, Ref.max, intVal_le]
  split <;> rw [ofInt_intVal]

theorem intShl_eq (t : IntTy) (a : W64) (n : Nat) : intShl t a n = (a.setWidth t.bits <<< n).setWidth 64 := by
  rw [intShl, intLow_eq, intLow_eq]
  congr 1
  refine BitVec.eq_of_getLsbD_eq fun i hi => ?_
  have h64 : i < 64 := Nat.lt_of_lt_of_le hi (bits_le t)
  have hsub : i - n < 64 := by omega
  have hsub' : i - n < t.bits := by omega
  simp only [BitVec.getLsbD_setWidth, BitVec.getLsbD_shiftLeft, hi, h64, hsub, hsub', decide_true, Bool.true_and]

theorem intShr_eq (t : IntTy) (a : W64) (n : Nat) : intShr t a n = (a.setWidth t.bits >>> n).setWidth 64 := by
  rw [intShr, intLow_eq]
  apply BitVec.eq_of_toNat_eq
  rw [BitVec.toNat_ushiftRight, BitVec.toNat_setWidth_of_le (bits_le t), BitVec.toNat_setWidth_of_le (bits_le t), BitVec.toNat_ushiftRight]

theorem intSar_eq (t : IntTy) (a : W64) (n : Nat) : intSar t a n = ((a.setWidth t.bits).sshiftRight n).setWidth 64 := by
  rw [intSar, intWrap_eq, signedOf_eq, BitVec.sshiftRight, Int.shiftRight_eq_div_pow, BitVec.ofNat_toNat]

/-! What a half computes (R65). -/

theorem widen_low (d : W32) : (d.setWidth 64).setWidth 32 = d := BitVec.setWidth_setWidth_of_le d (by decide)

/-- The immediate of a half. -/
theorem halfImm_low (x : HArgs) : (HArgs.imm x).setWidth 32 = (BitVec.ofNat 7 x.hm).signExtend 32 := by
  rw [HArgs.imm, signedOf_eq, wrapTo_eq, ofNat_toNat]
  exact widen_low _

section Low
variable (a b : W64) (n : Nat)

/-! The low words of the integer operations of halves. -/

theorem low_add : (intAdd .n32 false a b).setWidth 32 = a.setWidth 32 + b.setWidth 32 := by
  rw [intAdd_eq]; exact widen_low _

theorem low_sub : (intSub .n32 false a b).setWidth 32 = a.setWidth 32 - b.setWidth 32 := by
  rw [intSub_eq]; exact widen_low _

theorem low_mul : (intMul .n32 a b).setWidth 32 = a.setWidth 32 * b.setWidth 32 := by
  rw [intMul_eq]; exact widen_low _

theorem low_minI : (intMin .i32 a b).setWidth 32 = if (a.setWidth 32).sle (b.setWidth 32) then a.setWidth 32 else b.setWidth 32 := by
  rw [intMin_eq]; exact widen_low _

theorem low_minN : (intMin .n32 a b).setWidth 32 = if (a.setWidth 32).ule (b.setWidth 32) then a.setWidth 32 else b.setWidth 32 := by
  rw [intMin_eq]; exact widen_low _

theorem low_maxI : (intMax .i32 a b).setWidth 32 = if (a.setWidth 32).sle (b.setWidth 32) then b.setWidth 32 else a.setWidth 32 := by
  rw [intMax_eq]; exact widen_low _

theorem low_maxN : (intMax .n32 a b).setWidth 32 = if (a.setWidth 32).ule (b.setWidth 32) then b.setWidth 32 else a.setWidth 32 := by
  rw [intMax_eq]; exact widen_low _

theorem low_shl : (intShl .n32 a n).setWidth 32 = a.setWidth 32 <<< n := by
  rw [intShl_eq]; exact widen_low _

theorem low_shr : (intShr .n32 a n).setWidth 32 = a.setWidth 32 >>> n := by
  rw [intShr_eq]; exact widen_low _

theorem low_sar : (intSar .i32 a n).setWidth 32 = (a.setWidth 32).sshiftRight n := by
  rw [intSar_eq]; exact widen_low _

end Low

/-- The value a half writes is the one of R65. -/
theorem halfValue_is (o : ROp) (x : HArgs) (d b : W32) :
    Ref.HalfIs o x.hm d b ((halfValue o x (d.setWidth 64) (b.setWidth 64)).setWidth 32) := by
  cases o with
  | fadd => simp only [halfValue, widen_low]; exact fAdd_isF32 d b
  | fsub => simp only [halfValue, widen_low]; exact fSub_isF32 d b
  | fmul => simp only [halfValue, widen_low]; exact fMul_isF32 d b
  | fmin => simp only [halfValue, widen_low]; exact fmin_eq d b
  | fmax => simp only [halfValue, widen_low]; exact fmax_eq d b
  | minI | maxI | minN | maxN => simp only [Ref.HalfIs, halfValue, low_minI, low_maxI, low_minN, low_maxN, widen_low]
  | shl | shr | sar =>
    simp only [Ref.HalfIs, halfValue, low_shl, low_shr, low_sar, widen_low, BitVec.toNat_setWidth_of_le (show 32 ≤ 64 by decide)]
  | and | or | xor | andI | orI | xorI =>
    simp only [Ref.HalfIs, halfValue, BitVec.setWidth_and, BitVec.setWidth_or, BitVec.setWidth_xor, widen_low, halfImm_low]
  | _ => simp only [Ref.HalfIs, halfValue, low_add, low_sub, low_mul, low_shl, low_shr, low_sar, widen_low, halfImm_low]

end Sys2Proof.Machine

/-! Paired words (R61 to R65). -/

namespace Sys2Proof.Machine

/-! A matrix word at issue: it counts no lane (R353). -/

theorem matrixWord_trap {h : Hdr} {us : List Use} {body : State → Ctx → LaneMask → M State} {s : State} {c : Ctx} {x : TrapInfo}
    (w : Issues s c h us) (hb : body (s.advance c 0) c (s.lanesFor c h) = .error (.trap x)) :
    runWord .matrix h us body s = .next (s.trapNow c s.word x 0) := by
  have hn : WordKind.matrix.ops s c h = 0 := rfl
  simp only [runWord, runWordWith_eq w, hn, hb]

/-- A matrix word whose body changes its gang by `F`, and beside gangs only what a frame leaves out, completes with just that. -/
theorem matrixWord_completes {h : Hdr} {us : List Use} {body : State → Ctx → LaneMask → M State} {s v : State} {c : Ctx}
    {F : Gang → Gang} (w : Issues s c h us) (hb : body (s.advance c 0) c (s.lanesFor c h) = .ok v)
    (hv : v.gangs = ((s.advance c 0).modGang c.uid F).gangs) (hr : v.rest = (s.advance c 0).rest)
    (hF : ∀ g, (F g).slices = g.slices ∧ (F g).groups = g.groups ∧ (F g).uid = g.uid) :
    ∃ t g', runWord .matrix h us body s = .next t ∧ Completed s (s.advance c 0) t c g' ∧
      SameButGroups (F (c.gang.past c s.word)) g' := by
  have huid := fun g => (hF g).2.2
  have h1 : (s.advance c 0).gang? c.uid = some (c.gang.past c s.word) := by rw [State.gang?_advance w.gang, if_pos rfl]
  have h2 : v.gang? c.uid = some (F (c.gang.past c s.word)) := by
    rw [State.gang?_congr hv, State.gang?_modGang _ _ _ _ huid, if_pos rfl, h1]; rfl
  obtain ⟨g', hs, ho⟩ := State.gang?_ended h2 .matrix us c.grp.slices (slicesIn (s.lanesFor c h)) s.turn h.sw
  obtain ⟨hslices, hgroups, -⟩ := hF (c.gang.past c s.word)
  have hn : WordKind.matrix.ops s c h = 0 := rfl
  have hrun : runWord .matrix h us body s =
      .next ((v.modGang c.uid fun g => g.noteWord .matrix us c.grp.slices (slicesIn (s.lanesFor c h)) s.turn).finish c h.sw) := by
    simp only [runWord, runWordWith_eq w, hn, hb]
  refine ⟨_, g', hrun,
    ⟨(State.finish_frame _ c h.sw).1.trans hr, ⟨ho.1, fun u hu => ?_⟩, ⟨?_, fun k hk => ?_⟩, fun y hy => ?_⟩, hs⟩
  · rw [ho.2 u hu, State.gang?_congr hv, State.gang?_modGang _ _ _ _ huid, if_neg hu]
  · rw [hs.slices, hslices]; exact (Gang.past_slices s c).1
  · have := (Gang.past_slices s c).2 k hk
    simpa only [Gang.slice, hs.slices, hslices] using this
  · obtain ⟨x, hx, hk, ht⟩ := hs.2 y hy
    rw [hgroups] at hx
    obtain ⟨z, hz, hk', ht'⟩ := Gang.past_groups _ _ _ x hx
    exact ⟨z, hz, fun k h => hk' k (hk k h), ht.trans ht'⟩

/-! The checks of a pair. -/

/-- The block declares vector register `n` (R30). -/
def Ctx.has (c : Ctx) (n : Nat) : Prop := n < 8 * c.blk.k.regs

/-- Register `n` lies in the bank of a register of the list (R7). -/
def Meets (rs : List Nat) (n : Nat) : Prop := ∃ m ∈ rs, m % 4 = n % 4

/-- Registers in the fields HD and HS of a half. -/
def fieldUses (rs : List Nat) : List Use := (rs.zip [fD, fB]).map fun x => ⟨x.2, .v x.1⟩

theorem halfReads_eq (o : ROp) (x : HArgs) : halfReads ⟨o, x⟩ = fieldUses (Ref.halfRegs o x) := by cases o <;> rfl

theorem halfRegs_length (o : ROp) (x : HArgs) : (Ref.halfRegs o x).length ≤ 2 := by
  unfold Ref.halfRegs
  split
  · exact Nat.zero_le _
  · split <;> simp

theorem hd_mem_halfRegs {o : ROp} (h : o ≠ .nop) (x : HArgs) : x.hd ∈ Ref.halfRegs o x := by
  unfold Ref.halfRegs
  rw [if_neg h]
  split <;> exact List.mem_cons_self ..

theorem mem_fieldUses {rs : List Nat} {u : Use} (h : u ∈ fieldUses rs) : ∃ n ∈ rs, u.reg = .v n := by
  obtain ⟨x, hx, rfl⟩ := List.mem_map.mp h
  exact ⟨x.1, (List.of_mem_zip hx).1, rfl⟩

/-- `n` is the register in field `fld` of a half, and `p` holds of the register in the field before it. -/
def FirstAt (rs : List Nat) (p : Nat → Prop) (n fld : Nat) : Prop :=
  (rs.head? = some n ∧ fld = 4) ∨ (rs[1]? = some n ∧ (∀ m, rs.head? = some m → p m) ∧ fld = 6)

theorem halfDeclared_cons (c : Ctx) (half : Nat) (u : Use) (us : List Use) : halfDeclared c half (u :: us) =
    if c.blk.k.declares u.reg then halfDeclared c half us else .error (.trap { cause := 0x05, half := half, fld := u.fld }) := by
  rw [halfDeclared]
  cases c.blk.k.declares u.reg <;> rfl

theorem halfDeclared_ok {c : Ctx} {us : List Use} (half : Nat) (h : ∀ u ∈ us, c.blk.k.declares u.reg = true) :
    halfDeclared c half us = .ok () := by
  induction us with
  | nil => rfl
  | cons u us ih =>
    rw [halfDeclared_cons, if_pos (h u (List.mem_cons_self ..))]
    exact ih fun v hv => h v (List.mem_cons_of_mem _ hv)

theorem declares_v {c : Ctx} {n : Nat} : c.blk.k.declares (.v n) = true ↔ c.has n := decide_eq_true_iff

theorem halfDeclared_fields {c : Ctx} {rs : List Nat} (half : Nat) (h : ∀ m ∈ rs, c.has m) : halfDeclared c half (fieldUses rs) = .ok () :=
  halfDeclared_ok half fun u hu => by
    obtain ⟨n, hn, e⟩ := mem_fieldUses hu
    rw [e]
    exact declares_v.mpr (h n hn)

theorem halfDeclared_trap {c : Ctx} {rs : List Nat} (half : Nat) {n fld : Nat} (h : FirstAt rs c.has n fld) (hn : ¬ c.has n) :
    halfDeclared c half (fieldUses rs) = .error (.trap { cause := 0x05, half := half, fld := fld }) := by
  have hn' : ¬ c.blk.k.declares (.v n) = true := mt declares_v.mp hn
  match rs, h with
  | a :: rs, .inl ⟨ha, hf⟩ =>
    cases ha; subst hf
    exact (halfDeclared_cons ..).trans (if_neg hn')
  | a :: b :: rs, .inr ⟨hb, ha, hf⟩ =>
    cases hb; subst hf
    refine (halfDeclared_cons ..).trans ((if_pos (declares_v.mpr (ha a rfl))).trans ?_)
    exact (halfDeclared_cons ..).trans (if_neg hn')

/-- Whether a half of at most two registers names one of a bank. -/
theorem any_bank {rs : List Nat} (hl : rs.length ≤ 2) (n : Nat) :
    ((fieldUses rs).any fun x => Reg.bank x.reg == Reg.bank (.v n)) = true ↔ Meets rs n := by
  match rs, hl with
  | [], _ => simp [fieldUses, Meets]
  | [a], _ => simp [fieldUses, Meets, Reg.bank]
  | [a, b], _ => simp [fieldUses, Meets, Reg.bank]

theorem bankRule_ok {r0 r1 : List Nat} (hl : r0.length ≤ 2) (h : ∀ n ∈ r1, ¬ Meets r0 n) :
    bankRule (fieldUses r0) (fieldUses r1) = .ok () := by
  have : (fieldUses r1).find? (fun u => (fieldUses r0).any fun x => Reg.bank x.reg == Reg.bank u.reg) = none := by
    refine List.find?_eq_none.mpr fun u hu => ?_
    obtain ⟨n, hn, e⟩ := mem_fieldUses hu
    rw [e, any_bank hl]
    exact h n hn
  rw [bankRule, this]

theorem bankRule_trap {r0 r1 : List Nat} (hl : r0.length ≤ 2) {n fld : Nat} (h : FirstAt r1 (fun m => ¬ Meets r0 m) n fld)
    (hn : Meets r0 n) : bankRule (fieldUses r0) (fieldUses r1) = .error (.trap { cause := 0x06, half := 1, fld := fld }) := by
  have hit := (any_bank hl n).mpr hn
  have find : (fieldUses r1).find? (fun u => (fieldUses r0).any fun x => Reg.bank x.reg == Reg.bank u.reg) = some ⟨fld, .v n⟩ := by
    match r1, h with
    | a :: rs, .inl ⟨ha, hf⟩ =>
      cases ha; subst hf
      exact List.find?_cons_of_pos hit
    | a :: b :: rs, .inr ⟨hb, ha, hf⟩ =>
      cases hb; subst hf
      rw [show fieldUses (a :: n :: rs) = [⟨fD, .v a⟩, ⟨fB, .v n⟩] by simp [fieldUses], List.find?_cons_of_neg]
      · exact List.find?_cons_of_pos hit
      · exact mt (any_bank hl a).mp (ha a rfl)
  rw [bankRule, find]
  rfl

/-! What a pair does (R62). -/

/-- A half's write to its gang, none of an empty list. -/
def Gang.putHalf (y : Half) (clock : Nat) (ks : List Nat) (w : List (Nat × W32)) (g : Gang) : Gang :=
  if w.isEmpty then g else g.putV clock (halfLatency y.op) y.x.hd ks w

/-- The value that a half computes in a lane, from the registers of the gang as the word finds them. -/
def State.halfAt (s : State) (c : Ctx) (y : Half) (l : Nat) : W32 :=
  (halfValue y.op y.x ((s.readV c.gang y.x.hd l).setWidth 64) ((s.readV c.gang y.x.hs l).setWidth 64)).setWidth 32

/-- What a pair does to its gang, on the advanced state. -/
def State.putPair (s : State) (c : Ctx) (z y : Half) (g : Gang) : Gang :=
  Gang.putHalf y s.clock c.grp.slices (s.halfWrites c y (s.enabledLanes c y.x.hg false))
    (Gang.putHalf z s.clock c.grp.slices (s.halfWrites c z (s.enabledLanes c z.x.hg false)) g)

/-- The advanced state once a pair is done: its gang has been written, its lane-operations are counted (R353). -/
def State.pairDone (s : State) (c : Ctx) (z y : Half) : State :=
  ((s.modGang c.uid (s.putPair c z y)).meter c.al 3
    ((lanesOf (s.enabledLanes c z.x.hg false)).length + (lanesOf (s.enabledLanes c y.x.hg false)).length)).signal c.core 1 c.al

theorem State.gangs_pairDone (s : State) (c : Ctx) (z y : Half) :
    (s.pairDone c z y).gangs = (s.modGang c.uid (s.putPair c z y)).gangs := by rw [State.pairDone, State.gangs_signal, State.gangs_meter]

theorem State.rest_pairDone (s : State) (c : Ctx) (z y : Half) : (s.pairDone c z y).rest = s.rest := by
  rw [State.pairDone, State.rest_signal, State.rest_meter]; rfl

/-- The meaning of a pair on the advanced state. -/
def pairBody (z y : Half) (s : State) (c : Ctx) (_ : LaneMask) : M State := do
  halfDeclared c 0 (halfReads z)
  halfDeclared c 1 (halfReads y)
  bankRule (halfReads z) (halfReads y)
  scoreboard c (halfReads z ++ halfReads y ++ [⟨fGuard, .p z.x.hg⟩, ⟨fGuard, .p y.x.hg⟩])
  pure (s.pairDone c z y)

/-- The header of a pair: its switch bit; the halves have guards of their own. -/
def pairHdr (sw : Bool) : Hdr := { sw := sw, uni := false, g := 7, neg := false }

theorem pairWord_eq (sw : Bool) (o : ROp) (x : HArgs) (y : Half) :
    pairWord sw o x y = runWord .matrix (pairHdr sw) [] (pairBody ⟨o, x⟩ y) := rfl

theorem exec_pairRow (sw : Bool) (o : ROp) (x : HArgs) (y : Half) (s : State) :
    exec (pairRow sw o x y) s = pairWord sw o x y s := by cases o <;> rfl

theorem Gang.putHalf_keeps (y : Half) (clock : Nat) (ks : List Nat) (w : List (Nat × W32)) (g : Gang) :
    (g.putHalf y clock ks w).slices = g.slices ∧ (g.putHalf y clock ks w).groups = g.groups ∧ (g.putHalf y clock ks w).uid = g.uid ∧
      (g.putHalf y clock ks w).data = { g.data with v := (g.putHalf y clock ks w).v } := by
  unfold Gang.putHalf
  split
  · exact ⟨rfl, rfl, rfl, rfl⟩
  · exact ⟨rfl, rfl, rfl, Gang.putV_data ..⟩

theorem State.halfWrites_eq (s : State) (c : Ctx) {y : Half} (h : y.op ≠ .nop) (e : LaneMask) :
    s.halfWrites c y e = (lanesOf e).map fun l => (l, s.halfAt c y l) := by
  unfold State.halfWrites
  split
  · next hn => exact absurd hn h
  · rfl

/-- A half writes its HD in the lanes that its guard enables; `nop` writes nothing. -/
theorem Gang.vAt_putHalf (s : State) (c : Ctx) (y : Half) (clock : Nat) (ks : List Nat) (e : LaneMask) (g : Gang) (m : Nat) {l : Nat}
    (hl : l < 32) : (g.putHalf y clock ks (s.halfWrites c y e)).vAt m l =
      if y.op ≠ .nop ∧ m = y.x.hd ∧ e.getLsbD l = true then s.halfAt c y l else g.vAt m l := by
  by_cases hop : y.op = .nop
  · have : s.halfWrites c y e = [] := by unfold State.halfWrites; rw [hop]
    rw [this, if_neg fun h => h.1 hop]
    rfl
  · rw [s.halfWrites_eq c hop, Gang.putHalf]
    by_cases he : e = 0#32
    · subst he
      simp [lanesOf_zero]
    · rw [any_lanes he, if_neg Bool.false_ne_true, g.putV_wrote clock (halfLatency y.op) y.x.hd ks e (s.halfAt c y) m l hl]
      simp only [ne_eq, hop, not_false_eq_true, true_and]

theorem State.putPair_keeps (s : State) (c : Ctx) (z y : Half) (g : Gang) :
    (s.putPair c z y g).slices = g.slices ∧ (s.putPair c z y g).groups = g.groups ∧ (s.putPair c z y g).uid = g.uid ∧
      (s.putPair c z y g).data = { g.data with v := (s.putPair c z y g).v } := by
  obtain ⟨s0, g0, u0, d0⟩ := g.putHalf_keeps z s.clock c.grp.slices (s.halfWrites c z (s.enabledLanes c z.x.hg false))
  obtain ⟨s1, g1, u1, d1⟩ := (g.putHalf z s.clock c.grp.slices (s.halfWrites c z (s.enabledLanes c z.x.hg false))).putHalf_keeps y s.clock
    c.grp.slices (s.halfWrites c y (s.enabledLanes c y.x.hg false))
  exact ⟨s1.trans s0, g1.trans g0, u1.trans u0, by rw [d0] at d1; exact d1⟩

/-- The registers after a pair: where both halves would write one, half 1 is the later. -/
theorem State.vAt_putPair (s : State) (c : Ctx) (z y : Half) (g : Gang) (m : Nat) {l : Nat} (hl : l < 32) :
    (s.putPair c z y g).vAt m l =
      if y.op ≠ .nop ∧ m = y.x.hd ∧ (s.enabledLanes c y.x.hg false).getLsbD l = true then s.halfAt c y l
      else if z.op ≠ .nop ∧ m = z.x.hd ∧ (s.enabledLanes c z.x.hg false).getLsbD l = true then s.halfAt c z l else g.vAt m l := by
  rw [State.putPair, Gang.vAt_putHalf _ _ _ _ _ _ _ _ hl, Gang.vAt_putHalf _ _ _ _ _ _ _ _ hl]

theorem not_busy {c : Ctx} {r : Reg} : c.gang.busy.contains r = false ↔ r ∉ c.gang.busy := by simp

/-- No register or guard of a pair is pending. -/
theorem pair_settled {c : Ctx} {r0 r1 : List Nat} {g0 g1 : Nat} (hv : ∀ n, n ∈ r0 ∨ n ∈ r1 → Reg.v n ∉ c.gang.busy)
    (hp : ∀ n, n = g0 ∨ n = g1 → Reg.p n ∉ c.gang.busy) :
    scoreboard c (fieldUses r0 ++ fieldUses r1 ++ [⟨fGuard, .p g0⟩, ⟨fGuard, .p g1⟩]) = .ok () := by
  refine scoreboard_ok fun u hu => not_busy.mpr ?_
  rcases List.mem_append.mp hu with hu | hu
  · rcases List.mem_append.mp hu with hu | hu <;> obtain ⟨n, hn, e⟩ := mem_fieldUses hu <;> rw [e]
    · exact hv n (.inl hn)
    · exact hv n (.inr hn)
  · simp only [List.mem_cons, List.not_mem_nil, or_false] at hu
    rcases hu with rfl | rfl
    · exact hp g0 (.inl rfl)
    · exact hp g1 (.inr rfl)

theorem pair_issues {s : State} {c : Ctx} (sw : Bool) (hc : s.cur.bind s.ctx = some c) (h7 : Reg.p 7 ∉ c.gang.busy) :
    Issues s c (pairHdr sw) [] := by
  refine ⟨hc, fun u hu => absurd hu List.not_mem_nil, fun u hu => ?_⟩
  rw [List.mem_singleton.mp hu]
  exact not_busy.mpr h7

/-- The halves of a pair in banks apart do not write one register. -/
theorem hd_ne {z y : Half} (hz : z.op ≠ .nop) (hy : y.op ≠ .nop)
    (h : ∀ n ∈ Ref.halfRegs y.op y.x, ¬ Meets (Ref.halfRegs z.op z.x) n) : z.x.hd ≠ y.x.hd := fun e =>
  h y.x.hd (hd_mem_halfRegs hy y.x) ⟨z.x.hd, hd_mem_halfRegs hz z.x, by rw [e]⟩

/-- The registers after a pair whose halves write apart: the value of R65 in the lanes of each guard, from the old registers, and
every other register as it was. -/
theorem putPair_registers (p : State) (c : Ctx) {z y : Half} (w : W64)
    (apart : z.op ≠ .nop → y.op ≠ .nop → z.x.hd ≠ y.x.hd) {l : Nat} (hl : l < 32) :
    (z.op ≠ .nop → (p.enabledLanes c z.x.hg false).getLsbD l = true →
      (p.putPair c z y (c.gang.past c w)).vAt z.x.hd l = p.halfAt c z l) ∧
    (y.op ≠ .nop → (p.enabledLanes c y.x.hg false).getLsbD l = true →
      (p.putPair c z y (c.gang.past c w)).vAt y.x.hd l = p.halfAt c y l) ∧
    ∀ m, ¬ (z.op ≠ .nop ∧ m = z.x.hd ∧ (p.enabledLanes c z.x.hg false).getLsbD l = true) →
      ¬ (y.op ≠ .nop ∧ m = y.x.hd ∧ (p.enabledLanes c y.x.hg false).getLsbD l = true) →
      (p.putPair c z y (c.gang.past c w)).vAt m l = c.gang.vAt m l := by
  refine ⟨fun hz he => ?_, fun hy he => ?_, fun m hz hy => ?_⟩
  · rw [p.vAt_putPair c z y _ _ hl, if_neg fun h => apart hz h.1 h.2.1, if_pos ⟨hz, rfl, he⟩]
  · rw [p.vAt_putPair c z y _ _ hl, if_pos ⟨hy, rfl, he⟩]
  · rw [p.vAt_putPair c z y _ _ hl, if_neg hy, if_neg hz, Gang.vAt, (Gang.data_fields (Gang.past_data c.gang c w)).1, Gang.vAt]

section
variable {s : State} {c : Ctx} {sw : Bool} {z y : Half} {n fld : Nat}

theorem pairBody_eq (s : State) (c : Ctx) (e : LaneMask) (z y : Half) : pairBody z y s c e = (do
    halfDeclared c 0 (fieldUses (Ref.halfRegs z.op z.x))
    halfDeclared c 1 (fieldUses (Ref.halfRegs y.op y.x))
    bankRule (fieldUses (Ref.halfRegs z.op z.x)) (fieldUses (Ref.halfRegs y.op y.x))
    scoreboard c (fieldUses (Ref.halfRegs z.op z.x) ++ fieldUses (Ref.halfRegs y.op y.x) ++
      [⟨fGuard, .p z.x.hg⟩, ⟨fGuard, .p y.x.hg⟩])
    pure (s.pairDone c z y)) := by
  rw [pairBody, ← halfReads_eq, ← halfReads_eq]

variable (w : Issues s c (pairHdr sw) [])
include w

/-- Check 9 on half 0. -/
theorem pair_trap_half0 (hn : FirstAt (Ref.halfRegs z.op z.x) c.has n fld) (hhas : ¬ c.has n) :
    runWord .matrix (pairHdr sw) [] (pairBody z y) s = .next (s.trapNow c s.word { cause := 0x05, half := 0, fld := fld } 0) :=
  matrixWord_trap w (by rw [pairBody_eq, halfDeclared_trap 0 hn hhas]; rfl)

variable (h0 : ∀ m ∈ Ref.halfRegs z.op z.x, c.has m)
include h0

/-- Check 9 on half 1. -/
theorem pair_trap_half1 (hn : FirstAt (Ref.halfRegs y.op y.x) c.has n fld) (hhas : ¬ c.has n) :
    runWord .matrix (pairHdr sw) [] (pairBody z y) s = .next (s.trapNow c s.word { cause := 0x05, half := 1, fld := fld } 0) :=
  matrixWord_trap w (by rw [pairBody_eq, halfDeclared_fields 0 h0, halfDeclared_trap 1 hn hhas]; rfl)

variable (h1 : ∀ m ∈ Ref.halfRegs y.op y.x, c.has m)
include h1

/-- The bank rule (R63). -/
theorem pair_trap_bank (hn : FirstAt (Ref.halfRegs y.op y.x) (fun m => ¬ Meets (Ref.halfRegs z.op z.x) m) n fld)
    (hm : Meets (Ref.halfRegs z.op z.x) n) :
    runWord .matrix (pairHdr sw) [] (pairBody z y) s = .next (s.trapNow c s.word { cause := 0x06, half := 1, fld := fld } 0) :=
  matrixWord_trap w (by
    rw [pairBody_eq, halfDeclared_fields 0 h0, halfDeclared_fields 1 h1, bankRule_trap (halfRegs_length ..) hn hm]; rfl)

/-- A pair whose registers are declared, in banks apart and not pending completes: both halves have written. -/
theorem pair_completes (hb : ∀ m ∈ Ref.halfRegs y.op y.x, ¬ Meets (Ref.halfRegs z.op z.x) m)
    (hv : ∀ m, m ∈ Ref.halfRegs z.op z.x ∨ m ∈ Ref.halfRegs y.op y.x → Reg.v m ∉ c.gang.busy)
    (hp : ∀ m, m = z.x.hg ∨ m = y.x.hg → Reg.p m ∉ c.gang.busy) :
    ∃ t g', runWord .matrix (pairHdr sw) [] (pairBody z y) s = .next t ∧ Completed s (s.advance c 0) t c g' ∧
      g'.data = { c.gang.data with v := g'.v } ∧ ∀ m l, g'.vAt m l = ((s.advance c 0).putPair c z y (c.gang.past c s.word)).vAt m l := by
  have keeps := (s.advance c 0).putPair_keeps c z y
  have body : pairBody z y (s.advance c 0) c (s.lanesFor c (pairHdr sw)) = .ok ((s.advance c 0).pairDone c z y) := by
    rw [pairBody_eq, halfDeclared_fields 0 h0, halfDeclared_fields 1 h1, bankRule_ok (halfRegs_length ..) hb, pair_settled hv hp]; rfl
  obtain ⟨t, g', ht, hc, hs⟩ := matrixWord_completes w body (State.gangs_pairDone ..) (State.rest_pairDone ..) fun g =>
    ⟨(keeps g).1, (keeps g).2.1, (keeps g).2.2.1⟩
  have hregs : g'.v = _ := (Gang.data_fields hs.data).1
  exact ⟨t, g', ht, hc, by rw [hs.data, (keeps _).2.2.2, Gang.past_data, hregs], fun m l => by rw [Gang.vAt, hregs]; rfl⟩

end

/-- Settles O49: one body checks the halves in order and then writes both from the registers as they stand, by the operations of full
words; the bank rule keeps the two destinations apart. -/
theorem pairedWords : Obligations.PairedWords := by
  unfold Obligations.PairedWords
  intro s c sw x y i o hc hi
  have row : i = pairRow sw o x y := by
    refine (?_ : ∀ q ∈ _, q.1 = pairRow sw q.2 x y) (i, o) hi
    simp [pairRow]
  extract_lets r0 r1 has meets ready trap p at' e0 e1
  intro h7
  have run : exec i s = runWord .matrix (pairHdr sw) [] (pairBody ⟨o, x⟩ y) s := by rw [row, exec_pairRow, pairWord_eq]
  have w := pair_issues sw hc h7
  refine ⟨fun n half fld hn hhas => ?_, fun hall => ?_, fun hall hbank ⟨hv, hp⟩ => ?_⟩
  · rcases hn with ⟨rfl, hn⟩ | ⟨rfl, hr0, hn⟩
    · exact run.trans (pair_trap_half0 w hn hhas)
    · exact run.trans (pair_trap_half1 w hr0 hn hhas)
  · have bank := fun {n fld} => pair_trap_bank (z := ⟨o, x⟩) (n := n) (fld := fld) w (fun m h => hall m (.inl h)) fun m h => hall m (.inr h)
    exact ⟨fun n hn hm => run.trans (bank (.inl ⟨hn, rfl⟩) hm),
      fun n hn hfirst hm => run.trans (bank (.inr ⟨hn, hfirst, rfl⟩) hm)⟩
  · obtain ⟨t, g', ht, hcomp, hdata, hregs⟩ :=
      pair_completes (z := ⟨o, x⟩) w (fun m h => hall m (.inl h)) (fun m h => hall m (.inr h)) hbank hv hp
    refine ⟨t, g', run.trans ht, hcomp, hdata, fun l hl => ?_⟩
    obtain ⟨h0, h1, hrest⟩ := putPair_registers p c s.word (fun h0 h1 => hd_ne (z := ⟨o, x⟩) h0 h1 hbank) hl
    refine ⟨fun ho he => ?_, fun ho he => ?_, fun m n0 n1 => (hregs m l).trans (hrest m n0 n1)⟩
    · rw [hregs, h0 ho he]
      exact halfValue_is o x _ _
    · rw [hregs, h1 ho he]
      exact halfValue_is y.op y.x _ _

end Sys2Proof.Machine
